-- ==== Sys2Proof/Word.lean ====
section
/-! DEFINITION. The word types of the Beluc (R66, R71, R153) and the rows of a sparse store. -/

namespace Sys2Proof

/-- A byte of any memory. -/
abbrev Byte := BitVec 8

/-- A vector register, an instruction word or a literal word: 32 bits (R66, R153). -/
abbrev Word := BitVec 32

/-- A uniform register, a pointer or a register of the management region: 64 bits (R71, R108). -/
abbrev DWord := BitVec 64

/-- A sparse store: rows of a key and a value, keys strictly rising, no row at the store's default value
(the canonical form; `Machine/Sparse.lean` holds its operations). -/
abbrev Sparse (α : Type) := List (Nat × α)

end Sys2Proof
end

