-- ==== Sys2Proof/Config.lean ====
section
/-! DEFINITION. What the part fixes (Tables 0-1, 0-2, 13-7, 16-1, 16-3) and the values the spec leaves open, each an
opaque constant of which nothing can be proved. -/

namespace Sys2Proof.Config

/-- True of the compute dies of the matrix class, 0 and 1 (Table 16-1). -/
def isM (die : Nat) : Bool := die < 2

/-- Cores of a compute die (Table 16-1); no other die has one. -/
def cores (die : Nat) : Nat := if die < 2 then 64 else if die < 4 then 96 else 0

/-- Memory channels of a compute die (Table 16-1). -/
def channels (die : Nat) : Nat := if die < 2 then 12 else if die < 4 then 192 else 0

/-- Bytes of memory of a compute die: 72 GB and 384 GB (Table 0-1). -/
def capacity (die : Nat) : Nat := if die < 2 then 72000000000 else if die < 4 then 384000000000 else 0

/-- Granules of the SRAM pool of a core (R80). -/
def poolGranules (die : Nat) : Nat := if die < 2 then 128 else 64

/-- Weight slots an accumulator granule binds (R83). -/
def slotsPerGranule (die : Nat) : Nat := if die < 2 then 16 else 4

/-- Threads resident on a core at most (Table 0-2), and on a scheduler (R27). -/
def coreThreads : Nat := 2048
def schedulerThreads : Nat := 512

/-- Distance in die-to-die links (Table 16-3). -/
def hop (a b : Nat) : Nat :=
  if a = b then 0 else if a + b = 3 then 2 else 1

/-- Bytes of a record store (R265) in its units of 64 bytes (R272). -/
def storeUnits : Nat := 131072

/-- Wait-table entries of a die (R149), exact sums of a slice (R143), backlog entries of a die (R353). -/
def waitEntries : Nat := 4096
def exactSums : Nat := 1024
def backlogEntries : Nat := 64

/-- Memory lines of a memory-side slice, and rows it pins at most (R381, R382). -/
def sliceCapacity : Nat := 4096
def pinnedRows : Nat := 64

/-- Directory sets of a home slice and entries of a set (R367). -/
def dirSets : Nat := 1024
def dirWays : Nat := 16

/-- Bins a fabric holds (R267); entries of a reorder window (R277). -/
def fabricBins : Nat := 8192
def windowEntries : Nat := 4096

/-- Free journal entries a parse needs (R301, R313). -/
def journalRoom : Nat := 131

/-- PRESENT of each compute die: fused (R361). DESIGN CHOICE: every die is present (log 16). -/
def present (die : Nat) : Bool := die < 4

/-- MINSVN: fused (Table 17-2). DESIGN CHOICE 0 (log 16). -/
def minSvn : Nat := 0

/-- LWBASE: set by firmware above every byte of device memory, 512 KiB aligned (R300). DESIGN CHOICE: offset 2^40 (log 16). -/
def lwBase : Nat := 0x10000000000

/-- LMS signatures the firmware finds at power-on (R390): the height 20 of the tree gives 2^20 keys (log 16). -/
def lmsKeys : Nat := 0x100000

/-- Which of the events that may occur occurs (R399 and every rule that leaves an order open); log 2. -/
opaque freeChoice : Nat → Nat

/-- A byte the spec leaves unspecified (R272, R280, R335); log 18. -/
opaque freeByte : Nat → Byte

/-- Which of the values that a code word has had while its launch lives a fetch gives (R154); log 5.
Arguments: cycle, location, lowest fetching TID. -/
opaque fetchNew : Nat → Nat → Nat → Nat

/-- Whether an access before an invalidate completes uses a changed descriptor (R110); log 10. -/
opaque seesNew : Nat → Bool

/-- Whether the collector has sent an entry when a request of a later issue comes (R123); log 9. -/
opaque entrySent : Nat → Bool

/-- The slice that holds (die, channel, chaddr) (R119); log 12. -/
opaque sliceHash : Nat → Nat → Nat → Nat

/-- A code on blocks of 16 bytes and its inverse: each a permutation of them. The defaults only show that such codes exist. -/
structure BlockCode where
  enc : List Byte → List Byte := id
  dec : List Byte → List Byte := id
  back : ∀ x, dec (enc x) = x := by intro x; rfl
  forth : ∀ x, x.length = 16 → enc (dec x) = x := by intro x _; rfl
  encLength : ∀ x, (enc x).length = x.length := by intro x; rfl
  decLength : ∀ x, (dec x).length = x.length := by intro x; rfl
deriving Inhabited

/-- The code of each 16-byte block of a memory line under a key: key, memory line, block (R388); log 13. -/
opaque blockCode : Nat → Nat → Nat → BlockCode

/-- The two signatures of a report (R390); log 14. -/
opaque signEcdsa : List Byte → List Byte
opaque signLms : Nat → List Byte → List Byte

/-- What verification finds of an image's bytes: ECDSA, LMS, form, SVN (R391); log 15. -/
opaque imageFacts : List Byte → Bool × Bool × Bool × Nat

/-- An image that the host puts in the module through the running firmware, if it does (R391); log 15. -/
opaque replacedImage : Nat → Option (List Byte)

/-- Bank of a row of a channel's memory (R382); log 16. Arguments: die, channel, row. -/
opaque bankOf : Nat → Nat → Nat → Nat

end Sys2Proof.Config
end

