-- ==== Sys2Proof/Syntax.lean ====
section
/-! DEFINITION. The instructions and events of spec/opcode_table.json: one constructor of `Instr` a row.
Operand formats follow Table 7-4 (R167); a literal word (R166) stands in its instruction's operands. -/

namespace Sys2Proof

/-- Bits [31:30] of an instruction word: C chains, W marks (R153). -/
structure Hdr where
  c : Bool
  w : Bool
deriving DecidableEq, Repr

/-- Format N: a guard alone. -/
structure FN where
  g : BitVec 3
deriving DecidableEq, Repr

/-- Format V3: destination, first source, second source, guard. -/
structure FV3 where
  d : BitVec 6
  a : BitVec 6
  b : BitVec 7
  g : BitVec 3
deriving DecidableEq, Repr

/-- Format VD: destination and first source, second source, type code, modifier, guard. -/
structure FVD where
  d : BitVec 6
  b : BitVec 7
  t : BitVec 4
  m : BitVec 2
  g : BitVec 3
deriving DecidableEq, Repr

/-- Format VI: destination, source, 7-bit immediate, guard, and the literal that replaces the immediate (R166). -/
structure FVI where
  d : BitVec 6
  a : BitVec 6
  imm : BitVec 7
  g : BitVec 3
  lit : Option Word
deriving DecidableEq, Repr

/-- Format VC: condition-code register, code, first source, second source, guard. -/
structure FVC where
  cn : BitVec 2
  code : BitVec 4
  a : BitVec 6
  b : BitVec 7
  g : BitVec 3
deriving DecidableEq, Repr

/-- Format UR: uniform destination and sources, and the literal that replaces a source field of 127 (R166). -/
structure FUR where
  d : BitVec 7
  a : BitVec 7
  b : BitVec 7
  lit : Option Word
deriving DecidableEq, Repr

/-- Format G: guard slot, condition-code register, condition. -/
structure FG where
  slot : BitVec 3
  cn : BitVec 2
  cond : BitVec 4
deriving DecidableEq, Repr

/-- Format M: data register, pointer register, mode, x field, guard, and the literal displacement of mode 3. -/
structure FM where
  d : BitVec 6
  p : BitVec 6
  mode : BitVec 2
  x : BitVec 5
  g : BitVec 3
  lit : Option Word
deriving DecidableEq, Repr

/-- Format MA: data register, pointer register, operation, order, scope, guard. -/
structure FMA where
  d : BitVec 6
  p : BitVec 4
  op : BitVec 3
  ord : BitVec 2
  scope : BitVec 4
  g : BitVec 3
deriving DecidableEq, Repr

/-- Format S: scope, guard. -/
structure FS where
  scope : BitVec 4
  g : BitVec 3
deriving DecidableEq, Repr

/-- Format B: signed word displacement, guard. -/
structure FB where
  disp : BitVec 19
  g : BitVec 3
deriving DecidableEq, Repr

/-- Format J: first and last join slot, signed word displacement, guard. -/
structure FJ where
  ja : BitVec 4
  jb : BitVec 4
  disp : BitVec 11
  g : BitVec 3
deriving DecidableEq, Repr

/-- Format K: engine class, count, guard. -/
structure FK where
  cls : BitVec 2
  n : BitVec 6
  g : BitVec 3
deriving DecidableEq, Repr

/-- Format A: token register, parameter register, sub field, guard. -/
structure FA where
  t : BitVec 7
  p : BitVec 7
  sub : BitVec 4
  g : BitVec 3
deriving DecidableEq, Repr

/-- Format Q: queue, vector register, non-blocking bit, condition-code register, guard. -/
structure FQ where
  q : BitVec 4
  v : BitVec 6
  nb : Bool
  cn : BitVec 2
  g : BitVec 3
deriving DecidableEq, Repr

/-- Format X: uniform register, vector register, length, guard. -/
structure FX where
  s : BitVec 7
  v : BitVec 6
  len : BitVec 6
  g : BitVec 3
deriving DecidableEq, Repr

/-- Format Y: uniform register, system-register number. -/
structure FY where
  s : BitVec 7
  num : BitVec 12
deriving DecidableEq, Repr

/-- Where a host memory write or read goes: device memory at a die physical address (placed by the default
interleave of R398) or the launch-window region (R300). -/
inductive HostPlace where
  | memory (die dpa : Nat)
  | window (offset : Nat)
deriving DecidableEq, Repr

/-- A contribution that reaches a collective unit (R378): its set (TAG, g), its rank, what the ranks must agree
on, its elements, and the operation of this device that sent it when a rank of this device did. -/
structure Contribution where
  tag : Nat
  gen : Nat
  rank : Nat
  ranks : Nat
  op : Nat
  typ : Nat
  round : Nat
  count : Nat
  data : List Byte
  sender : Option Nat
deriving DecidableEq, Repr

/-- What a rank's engine receives (R378): the answer of this device's own unit, or of another root. -/
inductive CollReply where
  | fromHere
  | result (data : List Byte)
  | disagree
deriving DecidableEq, Repr

/-- What an access from another Duette device asks for (R374). -/
inductive RemoteKind where
  | load
  | store (data : List Byte)
  | atomic (op typ : Nat) (a b : DWord)
  | reduce (op typ : Nat) (a : DWord)
  | unord (a : Word)
  /-- a future load: an 8-byte load that takes no format page (R220) -/
  | future
  /-- a block store: its gap code and 32 values as binary32 patterns (R216, R217) -/
  | block (gap : Nat) (values : List Word)
deriving DecidableEq, Repr

/-- An access from another Duette device: the requester, the virtual address of R374, size and kind. -/
structure RemoteRequest where
  device : Nat
  va : Nat
  size : Nat
  kind : RemoteKind
deriving DecidableEq, Repr

/-- What comes back from another Duette device (R375): data of a load or atomic, an acknowledgement, a condition. -/
inductive RemoteReply where
  | value (data : List Byte)
  | done
  | condition (code : Nat)
deriving DecidableEq, Repr

/-- A soft error of an on-chip array and what it strikes (R387), or an uncorrectable error that a read meets in a
line of device memory (R385). -/
inductive SoftError where
  | singleBit
  | cleanCopy (die line : Nat)
  | dirtyLine (die line : Nat)
  | teamStorage (team : Nat)
  | storedRecord (record : Nat)
  /-- a read of the line meets the error; whether another line of its parity group, or the parity line, has one too -/
  | memoryLine (die line : Nat) (group : Bool)
  /-- a line of the memory-side cache -/
  | sliceLine (die line : Nat)
deriving DecidableEq, Repr

/-- A firmware image: its bytes, and what verification finds of them (R390, R391). -/
structure Image where
  ecdsa : Bool
  lms : Bool
  wellFormed : Bool
  svn : Nat
  bytes : List Byte
deriving DecidableEq, Repr, Inhabited

/-- An instruction word with its literal, or an event of the table; last the events that only the outside world brings
about. The rule of each row is in its comment. -/
inductive Instr where
  /-- No operation: has no effect in any lane and raises no trap. R170. -/
  | nop (h : Hdr)
  /-- V3 integer add modulo 2^32. R182. -/
  | iadd (h : Hdr) (o : FV3)
  /-- V3 integer subtract modulo 2^32. R182. -/
  | isub (h : Hdr) (o : FV3)
  /-- V3 integer multiply, low 32 bits. R182. -/
  | imul (h : Hdr) (o : FV3)
  /-- High 32 bits of the exact signed product. R182. -/
  | imulhI32 (h : Hdr) (o : FV3)
  /-- High 32 bits of the exact unsigned product. R182. -/
  | imulhW32 (h : Hdr) (o : FV3)
  /-- Signed division truncating toward zero, variable latency. R183. -/
  | idivI32 (h : Hdr) (o : FV3)
  /-- Unsigned division, variable latency. R183. -/
  | idivW32 (h : Hdr) (o : FV3)
  /-- Signed minimum of A and B. R182. -/
  | iminI32 (h : Hdr) (o : FV3)
  /-- Unsigned minimum of A and B. R182. -/
  | iminW32 (h : Hdr) (o : FV3)
  /-- Signed maximum of A and B. R182. -/
  | imaxI32 (h : Hdr) (o : FV3)
  /-- Unsigned maximum of A and B. R182. -/
  | imaxW32 (h : Hdr) (o : FV3)
  /-- Integer multiply-accumulate A × B + D modulo 2^32. R182. -/
  | imac (h : Hdr) (o : FV3)
  /-- Typed integer add with optional saturation. R187. -/
  | iaddVd (h : Hdr) (o : FVD)
  /-- Typed integer subtract with optional saturation. R187. -/
  | isubVd (h : Hdr) (o : FVD)
  /-- Typed integer multiply with optional saturation. R187. -/
  | imulVd (h : Hdr) (o : FVD)
  /-- Bitwise AND. R182. -/
  | and (h : Hdr) (o : FV3)
  /-- Bitwise OR. R182. -/
  | or (h : Hdr) (o : FV3)
  /-- Bitwise XOR. R182. -/
  | xor (h : Hdr) (o : FV3)
  /-- V3 shift left. R183. -/
  | shl (h : Hdr) (o : FV3)
  /-- V3 unsigned shift right. R183. -/
  | shrW32 (h : Hdr) (o : FV3)
  /-- V3 signed shift right. R183. -/
  | shrI32 (h : Hdr) (o : FV3)
  /-- Population count of A AND B. R182. -/
  | popc (h : Hdr) (o : FV3)
  /-- Count leading zero bits of A. R182. -/
  | clz (h : Hdr) (o : FV3)
  /-- Typed integer minimum. R187. -/
  | iminVd (h : Hdr) (o : FVD)
  /-- Typed integer maximum. R187. -/
  | imaxVd (h : Hdr) (o : FVD)
  /-- Typed shift left with optional saturation. R187. -/
  | shlVd (h : Hdr) (o : FVD)
  /-- Typed shift right. R187. -/
  | shrVd (h : Hdr) (o : FVD)
  /-- Integer width and signedness conversion. R188. -/
  | icvt (h : Hdr) (o : FVD)
  /-- Add immediate or literal. R184. -/
  | iaddi (h : Hdr) (o : FVI)
  /-- AND with immediate or literal. R184. -/
  | andi (h : Hdr) (o : FVI)
  /-- OR with immediate or literal. R184. -/
  | ori (h : Hdr) (o : FVI)
  /-- XOR with immediate or literal. R184. -/
  | xori (h : Hdr) (o : FVI)
  /-- Shift left by immediate. R184. -/
  | shli (h : Hdr) (o : FVI)
  /-- Unsigned shift right by immediate. R184. -/
  | shriW32 (h : Hdr) (o : FVI)
  /-- Signed shift right by immediate. R184. -/
  | shriI32 (h : Hdr) (o : FVI)
  /-- Copy B to D. R185. -/
  | mov (h : Hdr) (o : FV3)
  /-- Load immediate or literal into D. R185. -/
  | movi (h : Hdr) (o : FVI)
  /-- Read a special register into D or a register pair. R185. -/
  | movs (h : Hdr) (o : FV3)
  /-- Clamped signed address add. R186. -/
  | padd (h : Hdr) (o : FV3)
  /-- Integer compare writing the flags of cN. R189. -/
  | icmp (h : Hdr) (o : FVC)
  /-- Set a guard-slot definition per home sheaf. R194. -/
  | gset (h : Hdr) (o : FG)
  /-- Uniform 64-bit add. R190. -/
  | sadd (h : Hdr) (o : FUR)
  /-- Uniform 64-bit subtract. R190. -/
  | ssub (h : Hdr) (o : FUR)
  /-- Uniform 64-bit multiply, low half. R190. -/
  | smul (h : Hdr) (o : FUR)
  /-- Uniform bitwise AND. R190. -/
  | sand (h : Hdr) (o : FUR)
  /-- Uniform bitwise OR. R190. -/
  | sor (h : Hdr) (o : FUR)
  /-- Uniform bitwise XOR. R190. -/
  | sxor (h : Hdr) (o : FUR)
  /-- Uniform shift left. R190. -/
  | sshl (h : Hdr) (o : FUR)
  /-- Uniform unsigned shift right. R190. -/
  | sshr (h : Hdr) (o : FUR)
  /-- Uniform move or literal load. R190. -/
  | smov (h : Hdr) (o : FUR)
  /-- Exclusive sheaf scan added into D. R198. -/
  | xscanExAdd (h : Hdr) (o : FVD)
  /-- Rank active lanes by value and mark the top k. R199. -/
  | topk (h : Hdr) (o : FV3)
  /-- Shuffle from an indexed lane. R196. -/
  | xselIdx (h : Hdr) (o : FV3)
  /-- Shuffle from a lower lane. R196. -/
  | xselUp (h : Hdr) (o : FV3)
  /-- Shuffle from a higher lane. R196. -/
  | xselDown (h : Hdr) (o : FV3)
  /-- Shuffle from the lane with XORed index. R196. -/
  | xselXor (h : Hdr) (o : FV3)
  /-- 1 in each active lane if the condition holds in any active lane. R197. -/
  | xany (h : Hdr) (o : FVC)
  /-- 1 in each active lane if the condition holds in every active lane. R197. -/
  | xall (h : Hdr) (o : FVC)
  /-- 64-bit mask of lanes where the condition holds. R197. -/
  | xmask (h : Hdr) (o : FVC)
  /-- Sheaf sum reduction into D. R198. -/
  | xredAdd (h : Hdr) (o : FVD)
  /-- Sheaf minimum reduction into D. R198. -/
  | xredMin (h : Hdr) (o : FVD)
  /-- Sheaf maximum reduction into D. R198. -/
  | xredMax (h : Hdr) (o : FVD)
  /-- Inclusive sheaf scan added into D. R198. -/
  | xscanAdd (h : Hdr) (o : FVD)
  /-- Binary32 add rounded to nearest. R239. -/
  | faddF32 (h : Hdr) (o : FV3)
  /-- Binary32 subtract. R239. -/
  | fsubF32 (h : Hdr) (o : FV3)
  /-- Binary32 multiply. R239. -/
  | fmulF32 (h : Hdr) (o : FV3)
  /-- Binary32 fused multiply-add into D. R239. -/
  | fmacF32 (h : Hdr) (o : FV3)
  /-- Binary32 minimum. R241. -/
  | fminF32 (h : Hdr) (o : FV3)
  /-- Binary32 maximum. R241. -/
  | fmaxF32 (h : Hdr) (o : FV3)
  /-- Packed FP16 add. R239. -/
  | faddF16x2 (h : Hdr) (o : FV3)
  /-- Packed FP16 multiply. R239. -/
  | fmulF16x2 (h : Hdr) (o : FV3)
  /-- Packed FP16 fused multiply-add. R239. -/
  | fmacF16x2 (h : Hdr) (o : FV3)
  /-- Packed BF16 add. R239. -/
  | faddBf16x2 (h : Hdr) (o : FV3)
  /-- Packed BF16 multiply. R239. -/
  | fmulBf16x2 (h : Hdr) (o : FV3)
  /-- Packed BF16 fused multiply-add. R239. -/
  | fmacBf16x2 (h : Hdr) (o : FV3)
  /-- Typed float add with rounding mode. R240. -/
  | fadd (h : Hdr) (o : FVD)
  /-- Typed float subtract with rounding mode. R240. -/
  | fsub (h : Hdr) (o : FVD)
  /-- Typed float multiply with rounding mode. R240. -/
  | fmul (h : Hdr) (o : FVD)
  /-- Typed float divide, variable latency. R240. -/
  | fdiv (h : Hdr) (o : FVD)
  /-- Typed float minimum. R241. -/
  | fmin (h : Hdr) (o : FVD)
  /-- Typed float maximum. R241. -/
  | fmax (h : Hdr) (o : FVD)
  /-- Float compare writing the flags of cN. R242. -/
  | fcmp (h : Hdr) (o : FVC)
  /-- Square root rounded once. R243. -/
  | fsqrt (h : Hdr) (o : FVD)
  /-- Reciprocal rounded once. R243. -/
  | frcp (h : Hdr) (o : FVD)
  /-- Reciprocal square root. R243. -/
  | frsq (h : Hdr) (o : FVD)
  /-- Base-2 exponential. R243. -/
  | fexp2 (h : Hdr) (o : FVD)
  /-- Base-2 logarithm. R243. -/
  | flog2 (h : Hdr) (o : FVD)
  /-- Sine in radians. R243. -/
  | fsin (h : Hdr) (o : FVD)
  /-- Cosine in radians. R243. -/
  | fcos (h : Hdr) (o : FVD)
  /-- Hyperbolic tangent. R243. -/
  | ftanh (h : Hdr) (o : FVD)
  /-- Convert to binary32. R245. -/
  | cvtF32 (h : Hdr) (o : FVD)
  /-- Convert to binary16. R245. -/
  | cvtF16 (h : Hdr) (o : FVD)
  /-- Convert to BF16. R245. -/
  | cvtBf16 (h : Hdr) (o : FVD)
  /-- Convert float to clamped signed 32-bit integer. R245. -/
  | cvtI32 (h : Hdr) (o : FVD)
  /-- Convert float to clamped unsigned 32-bit integer. R245. -/
  | cvtW32 (h : Hdr) (o : FVD)
  /-- Convert float to clamped signed 64-bit integer. R245. -/
  | cvtI64 (h : Hdr) (o : FVD)
  /-- Convert float to clamped unsigned 64-bit integer. R245. -/
  | cvtW64 (h : Hdr) (o : FVD)
  /-- Compute a DX header or element code in a register. R246. -/
  | dxenc (h : Hdr) (o : FV3)
  /-- Decode a DX element code to F32 or F16. R247. -/
  | dxdec (h : Hdr) (o : FV3)
  /-- Round to an integral value in the float type. R244. -/
  | frnd (h : Hdr) (o : FVD)
  /-- Global load of a byte, zero-extended. R213. -/
  | ldgW8 (h : Hdr) (o : FM)
  /-- Global load of a byte, sign-extended. R213. -/
  | ldgI8 (h : Hdr) (o : FM)
  /-- Global load of a halfword, zero-extended. R213. -/
  | ldgW16 (h : Hdr) (o : FM)
  /-- Global load of a halfword, sign-extended. R213. -/
  | ldgI16 (h : Hdr) (o : FM)
  /-- Global load of a word. R213. -/
  | ldgB32 (h : Hdr) (o : FM)
  /-- Global load of 8 bytes into a pair. R213. -/
  | ldgB64 (h : Hdr) (o : FM)
  /-- Global load of 16 bytes into four registers. R213. -/
  | ldgB128 (h : Hdr) (o : FM)
  /-- Global store of a byte. R215. -/
  | stgB8 (h : Hdr) (o : FM)
  /-- Global store of a halfword. R215. -/
  | stgB16 (h : Hdr) (o : FM)
  /-- Global store of a word. R215. -/
  | stgB32 (h : Hdr) (o : FM)
  /-- Global store of 8 bytes. R215. -/
  | stgB64 (h : Hdr) (o : FM)
  /-- Global store of 16 bytes. R215. -/
  | stgB128 (h : Hdr) (o : FM)
  /-- Block store encoding a home sheaf's values into a DX or B1 block. R216. -/
  | stb (h : Hdr) (o : FM)
  /-- Future load returning only words with bit 63 set, parking otherwise. R220. -/
  | ldf (h : Hdr) (o : FM)
  /-- Scratchpad load of a word. R219. -/
  | ldsB32 (h : Hdr) (o : FM)
  /-- Scratchpad load of 8 bytes. R219. -/
  | ldsB64 (h : Hdr) (o : FM)
  /-- Scratchpad store of a word. R219. -/
  | stsB32 (h : Hdr) (o : FM)
  /-- Scratchpad store of 8 bytes. R219. -/
  | stsB64 (h : Hdr) (o : FM)
  /-- Order the thread's accesses at a scope. R223. -/
  | fence (h : Hdr) (o : FS)
  /-- Arrive at a team or cohort barrier and wait. R224. -/
  | bar (h : Hdr) (o : FS)
  /-- Signed 32-bit atomic returning the old value. R222. -/
  | atomI32 (h : Hdr) (o : FMA)
  /-- Unsigned 32-bit atomic returning the old value. R222. -/
  | atomW32 (h : Hdr) (o : FMA)
  /-- Signed 64-bit atomic returning the old value. R222. -/
  | atomI64 (h : Hdr) (o : FMA)
  /-- Unsigned 64-bit atomic returning the old value. R222. -/
  | atomW64 (h : Hdr) (o : FMA)
  /-- Binary32 atomic returning the old value. R222. -/
  | atomF32 (h : Hdr) (o : FMA)
  /-- Signed 32-bit reduction returning nothing. R222. -/
  | redI32 (h : Hdr) (o : FMA)
  /-- Unsigned 32-bit reduction. R222. -/
  | redW32 (h : Hdr) (o : FMA)
  /-- Signed 64-bit reduction. R222. -/
  | redI64 (h : Hdr) (o : FMA)
  /-- Unsigned 64-bit reduction. R222. -/
  | redW64 (h : Hdr) (o : FMA)
  /-- Ordered binary32 reduction. R222. -/
  | redF32 (h : Hdr) (o : FMA)
  /-- Unordered binary32 add into an exact sum. R143. -/
  | redF32Unord (h : Hdr) (o : FMA)
  /-- Guarded PC-relative branch. R201. -/
  | bra (h : Hdr) (o : FB)
  /-- Branch followed by a regroup event. R201. -/
  | braRg (h : Hdr) (o : FB)
  /-- PC-relative call writing the link to v63. R201. -/
  | call (h : Hdr) (o : FB)
  /-- Indirect call writing the link to D. R201. -/
  | calli (h : Hdr) (o : FV3)
  /-- Indirect jump. R201. -/
  | jmpi (h : Hdr) (o : FV3)
  /-- Indirect jump followed by a regroup event. R201. -/
  | jmpiRg (h : Hdr) (o : FV3)
  /-- Return through a register. R201. -/
  | ret (h : Hdr) (o : FV3)
  /-- Raise the thread's loop level. R202. -/
  | loop (h : Hdr) (o : FN)
  /-- Lower the thread's loop level. R202. -/
  | endloop (h : Hdr) (o : FN)
  /-- Add guard-true threads to a join record's expected set. R42. -/
  | jset (h : Hdr) (o : FJ)
  /-- Arrive at a join record and wait for completion. R43. -/
  | join (h : Hdr) (o : FJ)
  /-- Join whose completion may pool small groups. R44. -/
  | joinRg (h : Hdr) (o : FJ)
  /-- Remove the thread from a range of join records and branch. R45. -/
  | leave (h : Hdr) (o : FJ)
  /-- Leave followed by a regroup event. R204. -/
  | leaveRg (h : Hdr) (o : FJ)
  /-- Regroup point with no other effect. R205. -/
  | regroup (h : Hdr) (o : FN)
  /-- Hand the thread to the regrouping unit with a sort key and wait. R58. -/
  | reorder (h : Hdr) (o : FV3)
  /-- End guard-true threads. R207. -/
  | exit (h : Hdr) (o : FN)
  /-- Restart the thread at a successor entry. R60. -/
  | exitNext (h : Hdr) (o : FB)
  /-- Offer the team to the scheduler, saving it if a waiting team needs the core. R209. -/
  | yield (h : Hdr) (o : FN)
  /-- Issue an asynchronous byte copy. R229. -/
  | copy (h : Hdr) (o : FA)
  /-- Issue an asynchronous indexed gather. R231. -/
  | gather (h : Hdr) (o : FA)
  /-- Wait until an engine-class counter falls to n. R233. -/
  | waitc (h : Hdr) (o : FK)
  /-- Submit a matrix operation to the open batch. R252. -/
  | mmaIssue (h : Hdr) (o : FA)
  /-- Close the open batch and return its number. R255. -/
  | mmaCommit (h : Hdr) (o : FA)
  /-- Wait until a batch has completed. R256. -/
  | waitb (h : Hdr) (o : FA)
  /-- Issue a fill of weight slots from memory. R259. -/
  | wload (h : Hdr) (o : FA)
  /-- Clear a run of accumulator tiles. R261. -/
  | accz (h : Hdr) (o : FA)
  /-- Load one accumulator element. R262. -/
  | ldacc (h : Hdr) (o : FV3)
  /-- Store one accumulator element. R262. -/
  | stacc (h : Hdr) (o : FV3)
  /-- Take the team's matrix baton or wait for it. R248. -/
  | batonTake (h : Hdr) (o : FN)
  /-- Pass the baton to the oldest waiter or free it. R248. -/
  | batonPass (h : Hdr) (o : FN)
  /-- Initialise a team queue. R235. -/
  | qinit (h : Hdr) (o : FQ)
  /-- Push an element onto a team queue. R235. -/
  | qpush (h : Hdr) (o : FQ)
  /-- Pop an element from a team queue. R235. -/
  | qpop (h : Hdr) (o : FQ)
  /-- Return credit to a queue's allowance. R235. -/
  | qcred (h : Hdr) (o : FQ)
  /-- Contribute to a group collective reduction. R376. -/
  | coll (h : Hdr) (o : FA)
  /-- Return the virtual die holding a buffer. R192. -/
  | vdie (h : Hdr) (o : FUR)
  /-- Return the hop distance between two virtual dies. R193. -/
  | vhop (h : Hdr) (o : FUR)
  /-- Send a record to a node of the launch. R285. -/
  | spawn (h : Hdr) (o : FX)
  /-- Emit a record to a port of the node or set. R286. -/
  | emit (h : Hdr) (o : FX)
  /-- Place a token record in an expert queue. R287. -/
  | enqx (h : Hdr) (o : FX)
  /-- End the thread and report a pass for its stage record. R288. -/
  | stagePass (h : Hdr) (o : FX)
  /-- End the thread and report a drop for its stage record. R288. -/
  | stageDrop (h : Hdr) (o : FX)
  /-- Load words of the bound record. R289. -/
  | recld (h : Hdr) (o : FX)
  /-- Add a contribution to the token's combine slot. R290. -/
  | combine (h : Hdr) (o : FX)
  /-- Raise a program trap code. R359. -/
  | trap (h : Hdr) (o : FVI)
  /-- Restore v60-v63 from the trap frame and transfer. R357. -/
  | tret (h : Hdr) (o : FN)
  /-- Supervisor read of a system register. R357. -/
  | sysrd (h : Hdr) (o : FY)
  /-- Supervisor write of a system register with host-write effect. R357. -/
  | syswr (h : Hdr) (o : FY)
  /-- Supervisor invalidate of translations or descriptors. R357. -/
  | inval (h : Hdr) (o : FY)
  /-- Event. A pool entry meeting a formation condition is placed into a sheaf. R54. -/
  | sheafFormation (team : Nat)
  /-- Event. A loop-buffer block refill completes after 24 cycles. R31. -/
  | loopBufferRefill (team tid : Nat)
  /-- Event. A variable-latency register result returns and is written. R161. -/
  | variableLatencyReturn (team tid serial : Nat)
  /-- Event. A waiting blocking queue operation retries in a later cycle. R236. -/
  | queueRetry (team tid : Nat)
  /-- Event. An unparked future load re-executes every 128 cycles. R149. -/
  | ldfRetry (acc : Nat)
  /-- Event. Backlog entries enter the fault queue as it frees room. R353. -/
  | backlogDrain (die : Nat)
  /-- Event. A store is applied at its L2 slice and assigned a write time. R132. -/
  | storeApply (acc : Nat)
  /-- Event. A load renews its sector lease at the L2 slice. R131. -/
  | loadRenew (acc : Nat)
  /-- Event. The home directory grants write ownership and waiting stores become package-performed. R137. -/
  | writeOwnershipGrant (die line : Nat)
  /-- Event. A read-miss request from a die is applied at the home directory. R365. -/
  | dirReadMiss (die line : Nat)
  /-- Event. A write-ownership request from a die is applied at the home directory. R365. -/
  | dirWriteOwnership (die line : Nat)
  /-- Event. A home-die access, atomic or host access recalls other dies' copies. R365. -/
  | dirHomeAccess (line : Nat)
  /-- Event. An eviction notice or write-back from a die reaches the directory. R365. -/
  | dirEviction (die line : Nat)
  /-- Event. A die's L2 receives line data and stamps it with fresh times. R366. -/
  | lineDataReceive (die line : Nat)
  /-- Event. An L2 line leaves, writing back marked bytes of dirty sectors. R119. -/
  | l2Eviction (die line : Nat)
  /-- Event. An atomic is applied at the home slice's write queue. R222. -/
  | atomicApply (acc : Nat)
  /-- Event. A reduction is accepted into the home slice's write queue. R141. -/
  | reductionAccept (acc : Nat)
  /-- Event. A claim for an exact sum is answered by the home slice. R143. -/
  | exactSumClaim (acc : Nat)
  /-- Event. A die resets all logical times when HWM reaches 2^47. R136. -/
  | timeRebase (die : Nat)
  /-- Event. A COPY finishes or stops and its token completes. R232. -/
  | copyComplete (op : Nat)
  /-- Event. A GATHER finishes or stops and its token completes. R232. -/
  | gatherComplete (op : Nat)
  /-- Event. A WLOAD has placed its blocks and its token completes. R260. -/
  | wloadComplete (op : Nat)
  /-- Event. An engine meets a translation condition and pauses with a record. R354. -/
  | engineFaultPause (op : Nat)
  /-- Event. The matrix array starts a team's next operation. R253. -/
  | mmaOperationStart (team : Nat)
  /-- Event. An operation reads one segment of operand A at one instant. R254. -/
  | segmentRead (team : Nat)
  /-- Event. A matrix operation's tile writes are performed. R253. -/
  | mmaOperationFinish (team : Nat)
  /-- Event. A contribution arrives at the root's collective unit. R378. -/
  | collContribution (c : Contribution)
  /-- Event. A rank receives the result, writes its destination and completes. R378. -/
  | collResult (op : Nat) (reply : CollReply)
  /-- Event. A remote result or condition is returned to the requester. R375. -/
  | remoteResponse (acc : Nat) (reply : RemoteReply)
  /-- Event. A request with no route for 2^20 cycles raises DATA_LOST. R375. -/
  | duetteRouteTimeout (acc : Nat)
  /-- Event. A record arrives at a bin, queue or set and is stamped. R269. -/
  | recordArrival (record : Nat)
  /-- Event. A bin's oldest record reaches TIMER and the bin becomes eligible by age. R270. -/
  | binAgeEligible (launch node : Nat)
  /-- Event. The fabric fires an eligible bin or expert queue into fabric teams. R271. -/
  | binFiring (die : Nat)
  /-- Event. A spilled record returns to the record store before binding. R272. -/
  | recordUnspill (record : Nat)
  /-- Event. A fabric-generated record held for lack of room is placed. R272. -/
  | heldRecordPlace (record : Nat)
  /-- Event. A waiting cohort is placed and all its teams start together. R318. -/
  | cohortStart (unit : Nat)
  /-- Event. A fired fabric team is placed and starts with its bound records. R268. -/
  | fabricTeamStart (unit : Nat)
  /-- Event. A saved team is placed and its state written back. R336. -/
  | teamRestore (unit : Nat)
  /-- Event. A discarded team is placed again and restarts. R332. -/
  | discardedTeamRestart (unit : Nat)
  /-- Event. A team whose threads ended and operations completed releases its resources. R22. -/
  | teamRetire (team : Nat)
  /-- Event. After the retired entry is performed, the SET mask is applied. R309. -/
  | applySetMask (launch : Nat)
  /-- Event. The die reserves cores and chooses drain, discard or save for victims. R327. -/
  | preemptionStart (die : Nat)
  /-- Event. A team's save lands its work and writes its state to the save pool. R333. -/
  | saveComplete (team : Nat)
  /-- Event. A draining team not retired within budget is chosen again. R331. -/
  | drainBudgetExpiry (team : Nat)
  /-- Event. A unit unplaced for 65,536 cycles reserves target cores. R320. -/
  | drainForFit (unit : Nat)
  /-- Event. A saved team's effective priority rises every 2^17 cycles. R325. -/
  | priorityAging (team : Nat)
  /-- Event. A saved team unrestored for 2^20 cycles becomes overdue. R326. -/
  | teamOverdue (team : Nat)
  /-- Event. A tenure of 2^18 cycles ends and priority returns to the launch's. R326. -/
  | tenureEnd (team : Nat)
  /-- Event. A held trigger's slot is parsed and accepted or refused. R301. -/
  | launchParse (ctx slot : Nat)
  /-- Event. Nothing of a cancelled launch remains and its cancelled entry is written. R311. -/
  | cancelComplete (launch : Nat)
  /-- Event. An invalidate's covered accesses are performed and it completes. R346. -/
  | invalidateComplete (serial : Nat)
  /-- Event. A resetting die restarts and returns to running. R369. -/
  | dieResetComplete (die : Nat)
  /-- Event. A migration finishes or stops and releases held accesses. R372. -/
  | migrationComplete (ctx : Nat)
  /-- Event. The root of trust finishes or refuses a report. R390. -/
  | attestationComplete
  /-- Event. Power-on runs boot, verification, training and memory clearing. R392. -/
  | powerOn
  /-- Event. A host back-invalidation snoop completes. R368. -/
  | backInvalidateResponse (line : Nat) (data : Option (List Byte))
  /-- Event. An uncached host write is applied at the home slice. R368. -/
  | hostWrite (at_ : HostPlace) (bytes : List Byte)
  /-- Event. An uncached host read downgrades and reads the line. R368. -/
  | hostRead (at_ : HostPlace) (count : Nat)
  /-- Event. A kind-3 access is checked and performed at the holding device. R374. -/
  | remoteAccessRequest (r : RemoteRequest)
  /-- Event. The line monitor sees a write of byte 127 with V set. R299. -/
  | launchTrigger (ctx slot : Nat) (value : Byte)
  /-- Event. A write setting CTL.V creates or rejects a context. R297. -/
  | contextCreate (ctx : Nat) (value : DWord)
  /-- Event. A write clearing CTL.V cancels every live launch of the context. R298. -/
  | contextDestroy (ctx : Nat)
  /-- Event. Host write setting event bits. R307. -/
  | evset (ctx word : Nat) (value : DWord)
  /-- Event. Host write clearing event bits. R307. -/
  | evclr (ctx word : Nat) (value : DWord)
  /-- Event. SLOTCMD CANCEL cancels the slot's live launch. R311. -/
  | slotCancel (ctx slot : Nat)
  /-- Event. Host advances JTAIL to release journal entries. R313. -/
  | jtailWrite (ctx : Nat) (value : DWord)
  /-- Event. Host advances FQTAIL to release fault-queue records. R353. -/
  | fqtailWrite (ctx : Nat) (value : DWord)
  /-- Event. Resume command with ABORT 0 replays parked threads or resumes an engine. R355. -/
  | resumeReplay (ctx fseq : Nat)
  /-- Event. Resume command with ABORT 1 takes the condition as a trap. R355. -/
  | resumeAbort (ctx fseq : Nat)
  /-- Event. Host invalidate of kind 0: every translation of the context. R346. -/
  | invalidateTranslations (ctx : Nat)
  /-- Event. Host invalidate of kind 1: the path to one page. R346. -/
  | invalidatePage (ctx va : Nat)
  /-- Event. Host invalidate of kind 2: one buffer descriptor. R346. -/
  | invalidateDescriptor (ctx index : Nat)
  /-- Event. Host invalidate of kind 3: every descriptor of the context. R346. -/
  | invalidateAllDescriptors (ctx : Nat)
  /-- Event. Reset command KIND 1 writes back and resets a die without loss. R369. -/
  | dieResetOrderly (die : Nat)
  /-- Event. Reset command KIND 2 kills the die's teams and marks lines lost. R370. -/
  | dieResetAbrupt (die : Nat)
  /-- Event. A die's fatal internal error starts an abrupt reset. R369. -/
  | fatalDieError (die : Nat)
  /-- Event. Host write zeroing a line and clearing its lost mark. R370. -/
  | lostclr (die : Nat) (value : DWord)
  /-- Event. GO starts a buffer migration and holds the buffer. R372. -/
  | migrationStart (ctx : Nat) (value : DWord)
  /-- Event. An HBM4E bank reaches HOTTH; refresh-management and capture follow. R382. -/
  | hotRowThreshold (die channel row : Nat)
  /-- Event. A GDDR7 bank reaches HOTTH and neighbours are refreshed. R383. -/
  | gddr7HotRowThreshold (die channel : Nat)
  /-- Event. A 32 ms window ends, counts reset and captured rows expire. R382. -/
  | refreshWindowEnd (die : Nat)
  /-- Event. An on-chip array error is corrected, refetched, poisoned or faults a launch. R387. -/
  | softError (e : SoftError)
  /-- Event. Host write zeroing a poisoned line and clearing its mark. R386. -/
  | pclr (die : Nat) (value : DWord)
  /-- Event. ATTGO starts building a signed report for a context. R390. -/
  | attestationRequest (value : DWord)
  /-- Event. RCVLEN starts verification of a recovery image. R391. -/
  | recoveryImageLoad (value : DWord) (image : Image)
  /-- Event. Leaving power or cooling limits lowers or restores the core clock. R393. -/
  | clockThrottle (limitsHold : Bool)
  /-- Event. A write to a management register with no row of its own. R296. -/
  | registerWrite (offset : Nat) (value : DWord)
  /-- Event. A host CXL.mem request to cache a device line, shared or owned, is applied at the home slice and sets the line's host state to HS or HM. R368. -/
  | hostCacheRequest (die dpa : Nat) (own : Bool)
  /-- Event. The host drops or writes back its cached copy of a device line, returning the host state to HI. R368. -/
  | hostCacheEviction (die dpa : Nat) (data : Option (List Byte))
  /-- Event. A Duette link or partner is lost, so requests routed over it find no working route. R375. -/
  | duetteLinkLoss (device : Nat)
  /-- Event. A Duette port is brought up, with link encryption keys agreed by mutual attestation of the two devices. R389. -/
  | linkBringUp (port : Nat) (encrypted : Bool)
deriving DecidableEq, Repr

end Sys2Proof
end

