-- ==== Sys2Proof/WellFormed.lean ====
section
/-! DEFINITION. Which instructions are well formed: every reserved field, reserved value, register pairing and type
that R172 item 2 refuses with ILLEGAL_INSTRUCTION, and the literal that R166 requires. -/

namespace Sys2Proof

/-- An even vector register, as a 64-bit operand needs (R66). -/
def evenV (v : BitVec 6) : Bool := v.toNat % 2 == 0

/-- A B operand that can hold 64 bits: an even vector register or a uniform register (R187, R189). -/
def pairB (b : BitVec 7) : Bool := 64 ≤ b.toNat || b.toNat % 2 == 0

/-- Type codes 3, 7 and 9: .I64, .W64, .B64 (Table 7-5). -/
def is64 (t : BitVec 4) : Bool := t.toNat == 3 || t.toNat == 7 || t.toNat == 9

/-- Type codes 10 to 12: the scalar float types. -/
def isScalarFloat (t : BitVec 4) : Bool := 10 ≤ t.toNat && t.toNat ≤ 12

/-- Type codes 10 to 14: every float type. -/
def isFloat (t : BitVec 4) : Bool := 10 ≤ t.toNat && t.toNat ≤ 14

/-- A scope code of Table 6-1 (R126). -/
def scopeOk (s : BitVec 4) : Bool := s.toNat ≤ 8

/-- A uniform register s0 to s95 (R168). -/
def sOk (s : BitVec 7) : Bool := s.toNat < 96

/-- A source field of UR: s0 to s95, or 127 for the literal (R166, R190). -/
def sSrcOk (s : BitVec 7) : Bool := s.toNat < 96 || s.toNat == 127

/-- VI with a literal exactly when the immediate is -64 (R166). -/
def viLit (o : FVI) : Bool := o.lit.isSome == (o.imm.toNat == 64)

/-- VI without a literal and with an immediate of 0 to 31 (R184). -/
def viShift (o : FVI) : Bool := o.lit.isNone && o.imm.toNat ≤ 31

/-- UR: registers in range, at most one literal source, the literal present exactly when one is named (R166). -/
def urOk (o : FUR) : Bool :=
  sOk o.d && sSrcOk o.a && sSrcOk o.b && !(o.a.toNat == 127 && o.b.toNat == 127)
    && o.lit.isSome == (o.a.toNat == 127 || o.b.toNat == 127)

/-- VD integer arithmetic (R187): types 0 to 7, .SAT where accepted, pairs for 64-bit types; `shift` frees B. -/
def vdInt (sat shift : Bool) (o : FVD) : Bool :=
  o.t.toNat ≤ 7 && o.m.toNat % 2 == 0 && (sat || o.m.toNat == 0)
    && (!is64 o.t || (evenV o.d && (shift || pairB o.b)))

/-- ICVT (R188, Table 8-3). -/
def icvtOk (o : FVD) : Bool :=
  o.t.toNat ≤ 9 && o.m.toNat % 2 == 0 && (o.m.toNat == 0 || !(o.t.toNat == 8 || is64 o.t)) && (!is64 o.t || evenV o.d)

/-- Sheaf reductions and scans (R198): types .I32 .W32 .I64 .W64 .F32 .F16 .BF16; a modifier only for floats. -/
def xredOk (o : FVD) : Bool :=
  (isScalarFloat o.t || ((o.t.toNat == 2 || o.t.toNat == 6 || o.t.toNat == 3 || o.t.toNat == 7) && o.m.toNat == 0))
    && (!is64 o.t || (evenV o.d && pairB o.b))

/-- Conversion to a float type (R245): sources 0 to 7 and 10 to 12, a pair for a 64-bit source. -/
def cvtFloatOk (o : FVD) : Bool := (o.t.toNat ≤ 7 || isScalarFloat o.t) && (!is64 o.t || pairB o.b)

/-- The literal of an M-format word stands exactly in mode 3 (R166). -/
def mLit (o : FM) : Bool := o.lit.isSome == (o.mode.toNat == 3)

/-- Modes of LDG, STG and LDF (Tables 7-7, 9-1): in mode 2 a scope code and a reserved bit, in mode 3 x is reserved. -/
def mGlobal (o : FM) : Bool :=
  mLit o && (o.mode.toNat != 2 || (o.x.toNat % 2 == 0 && o.x.toNat / 2 ≤ 8)) && (o.mode.toNat != 3 || o.x.toNat == 0)

/-- Modes of LDS and STS: mode 2 is reserved (Table 9-1). -/
def mScratch (o : FM) : Bool := mGlobal o && o.mode.toNat != 2

/-- A data register that is a multiple of 4 (Tables 9-2, 9-3, 9-5). -/
def quadV (v : BitVec 6) : Bool := v.toNat % 4 == 0

/-- ATOM of a 32-bit integer type: CAS needs an even register (Table 9-5). -/
def atom32 (o : FMA) : Bool := scopeOk o.scope && (o.op.toNat != 7 || evenV o.d)

/-- ATOM of a 64-bit type: an even register, and a multiple of 4 for CAS (Table 9-5). -/
def atom64 (o : FMA) : Bool := scopeOk o.scope && evenV o.d && (o.op.toNat != 7 || quadV o.d)

/-- RED: relaxed or release only, no EXCH and no CAS (R221, Table 7-6). -/
def redOk (o : FMA) : Bool := scopeOk o.scope && (o.ord.toNat == 0 || o.ord.toNat == 2) && o.op.toNat ≤ 5

/-- COPY, GATHER, WLOAD: scope codes 2 to 8, a parameter run within s95 (R226, R259). -/
def asyncOk (last : Nat) (o : FA) : Bool := sOk o.t && 2 ≤ o.sub.toNat && o.sub.toNat ≤ 8 && o.p.toNat ≤ last

/-- System-register numbers of SYSRD and SYSWR (R357). -/
def sysNumOk (n : BitVec 12) : Bool := n.toNat ≤ 8 || (0x10 ≤ n.toNat && n.toNat ≤ 0x18)

/-- The instruction passes the decode checks of R172 item 2. An event has no encoding and nothing to check. -/
def Instr.wf : Instr → Bool
  | .nop _ => true
  | .iadd _ _ => true
  | .isub _ _ => true
  | .imul _ _ => true
  | .imulhI32 _ _ => true
  | .imulhW32 _ _ => true
  | .idivI32 _ _ => true
  | .idivW32 _ _ => true
  | .iminI32 _ _ => true
  | .iminW32 _ _ => true
  | .imaxI32 _ _ => true
  | .imaxW32 _ _ => true
  | .imac _ _ => true
  | .iaddVd _ o => vdInt true false o
  | .isubVd _ o => vdInt true false o
  | .imulVd _ o => vdInt true false o
  | .and _ _ => true
  | .or _ _ => true
  | .xor _ _ => true
  | .shl _ _ => true
  | .shrW32 _ _ => true
  | .shrI32 _ _ => true
  | .popc _ _ => true
  | .clz _ o => o.b.toNat == 0
  | .iminVd _ o => vdInt false false o
  | .imaxVd _ o => vdInt false false o
  | .shlVd _ o => vdInt true true o
  | .shrVd _ o => vdInt false true o
  | .icvt _ o => icvtOk o
  | .iaddi _ o => viLit o
  | .andi _ o => viLit o
  | .ori _ o => viLit o
  | .xori _ o => viLit o
  | .shli _ o => viShift o
  | .shriW32 _ o => viShift o
  | .shriI32 _ o => viShift o
  | .mov _ o => o.a.toNat == 0
  | .movi _ o => viLit o && o.a.toNat == 0
  | .movs _ o => o.a.toNat ≤ 1 && o.b.toNat < 16 && (o.a.toNat == 0 || evenV o.d)
  | .padd _ _ => true
  | .icmp _ o => o.code.toNat ≤ 9 && (!is64 o.code || (evenV o.a && pairB o.b))
  | .gset _ o => o.slot.toNat != 0
  | .sadd _ o => urOk o
  | .ssub _ o => urOk o
  | .smul _ o => urOk o
  | .sand _ o => urOk o
  | .sor _ o => urOk o
  | .sxor _ o => urOk o
  | .sshl _ o => urOk o
  | .sshr _ o => urOk o
  | .smov _ o => urOk o && o.b.toNat == 0
  | .xscanExAdd _ o => xredOk o
  | .topk _ _ => true
  | .xselIdx _ _ => true
  | .xselUp _ _ => true
  | .xselDown _ _ => true
  | .xselXor _ _ => true
  | .xany _ o => o.b.toNat == 0
  | .xall _ o => o.b.toNat == 0
  | .xmask _ o => o.b.toNat == 0 && evenV o.a
  | .xredAdd _ o => xredOk o
  | .xredMin _ o => xredOk o
  | .xredMax _ o => xredOk o
  | .xscanAdd _ o => xredOk o
  | .faddF32 _ _ => true
  | .fsubF32 _ _ => true
  | .fmulF32 _ _ => true
  | .fmacF32 _ _ => true
  | .fminF32 _ _ => true
  | .fmaxF32 _ _ => true
  | .faddF16x2 _ _ => true
  | .fmulF16x2 _ _ => true
  | .fmacF16x2 _ _ => true
  | .faddBf16x2 _ _ => true
  | .fmulBf16x2 _ _ => true
  | .fmacBf16x2 _ _ => true
  | .fadd _ o => isFloat o.t
  | .fsub _ o => isFloat o.t
  | .fmul _ o => isFloat o.t
  | .fdiv _ o => isScalarFloat o.t
  | .fmin _ o => isFloat o.t && o.m.toNat == 0
  | .fmax _ o => isFloat o.t && o.m.toNat == 0
  | .fcmp _ o => isScalarFloat o.code
  | .fsqrt _ o => isScalarFloat o.t
  | .frcp _ o => isScalarFloat o.t
  | .frsq _ o => isScalarFloat o.t && o.m.toNat == 0
  | .fexp2 _ o => isScalarFloat o.t && o.m.toNat == 0
  | .flog2 _ o => isScalarFloat o.t && o.m.toNat == 0
  | .fsin _ o => isScalarFloat o.t && o.m.toNat == 0
  | .fcos _ o => isScalarFloat o.t && o.m.toNat == 0
  | .ftanh _ o => isScalarFloat o.t && o.m.toNat == 0
  | .cvtF32 _ o => cvtFloatOk o
  | .cvtF16 _ o => cvtFloatOk o
  | .cvtBf16 _ o => cvtFloatOk o
  | .cvtI32 _ o => isScalarFloat o.t
  | .cvtW32 _ o => isScalarFloat o.t
  | .cvtI64 _ o => isScalarFloat o.t && evenV o.d
  | .cvtW64 _ o => isScalarFloat o.t && evenV o.d
  | .dxenc _ _ => true
  | .dxdec _ _ => true
  | .frnd _ o => isFloat o.t
  | .ldgW8 _ o => mGlobal o
  | .ldgI8 _ o => mGlobal o
  | .ldgW16 _ o => mGlobal o
  | .ldgI16 _ o => mGlobal o
  | .ldgB32 _ o => mGlobal o
  | .ldgB64 _ o => mGlobal o && evenV o.d
  | .ldgB128 _ o => mGlobal o && quadV o.d
  | .stgB8 _ o => mGlobal o
  | .stgB16 _ o => mGlobal o
  | .stgB32 _ o => mGlobal o
  | .stgB64 _ o => mGlobal o && evenV o.d
  | .stgB128 _ o => mGlobal o && quadV o.d
  | .stb _ o => mGlobal o && (o.mode.toNat == 0 || o.mode.toNat == 3)
  | .ldf _ o => mGlobal o && evenV o.d
  | .ldsB32 _ o => mScratch o
  | .ldsB64 _ o => mScratch o && evenV o.d
  | .stsB32 _ o => mScratch o
  | .stsB64 _ o => mScratch o && evenV o.d
  | .fence _ o => scopeOk o.scope
  | .bar _ o => o.scope.toNat == 2 || o.scope.toNat == 4
  | .atomI32 _ o => atom32 o
  | .atomW32 _ o => atom32 o
  | .atomI64 _ o => atom64 o
  | .atomW64 _ o => atom64 o
  | .atomF32 _ o => scopeOk o.scope && o.op.toNat ≤ 2
  | .redI32 _ o => redOk o
  | .redW32 _ o => redOk o
  | .redI64 _ o => redOk o && evenV o.d
  | .redW64 _ o => redOk o && evenV o.d
  | .redF32 _ o => redOk o && o.op.toNat ≤ 2
  | .redF32Unord _ o => redOk o && o.op.toNat == 0
  | .bra _ _ => true
  | .braRg _ _ => true
  | .call _ _ => true
  | .calli _ o => o.b.toNat == 0
  | .jmpi _ o => o.d.toNat == 0 && o.b.toNat == 0
  | .jmpiRg _ o => o.d.toNat == 0 && o.b.toNat == 0
  | .ret _ o => o.d.toNat == 0 && o.b.toNat == 0
  | .loop _ _ => true
  | .endloop _ _ => true
  | .jset _ o => o.jb.toNat == 0 && o.disp.toNat == 0
  | .join _ o => o.jb.toNat == 0 && o.disp.toNat == 0
  | .joinRg _ o => o.jb.toNat == 0 && o.disp.toNat == 0
  | .leave _ o => decide (o.ja.toNat ≤ o.jb.toNat)
  | .leaveRg _ o => decide (o.ja.toNat ≤ o.jb.toNat)
  | .regroup _ _ => true
  | .reorder _ o => o.d.toNat == 0 && o.b.toNat == 0
  | .exit _ _ => true
  | .exitNext _ _ => true
  | .yield _ _ => true
  | .copy _ o => asyncOk 93 o
  | .gather _ o => asyncOk 92 o
  | .waitc _ _ => true
  | .mmaIssue _ o => o.t.toNat == 0 && o.sub.toNat == 0 && sOk o.p
  | .mmaCommit _ o => sOk o.t && o.p.toNat == 0 && o.sub.toNat == 0
  | .waitb _ o => o.t.toNat == 0 && o.sub.toNat == 0 && sOk o.p
  | .wload _ o => asyncOk 93 o
  | .accz _ o => o.t.toNat == 0 && o.sub.toNat == 0 && sOk o.p
  | .ldacc _ _ => true
  | .stacc _ _ => true
  | .batonTake _ _ => true
  | .batonPass _ _ => true
  | .qinit _ o => !o.nb && o.cn.toNat == 0
  | .qpush _ o => o.nb || o.cn.toNat == 0
  | .qpop _ o => o.nb || o.cn.toNat == 0
  | .qcred _ o => !o.nb && o.cn.toNat == 0
  | .coll _ o => asyncOk 92 o && 5 ≤ o.sub.toNat
  | .vdie _ o => urOk o && o.b.toNat == 0
  | .vhop _ o => urOk o
  | .spawn _ o => sOk o.s
  | .emit _ o => sOk o.s
  | .enqx _ o => sOk o.s
  | .stagePass _ o => o.s.toNat == 0 && o.v.toNat == 0 && o.len.toNat == 0
  | .stageDrop _ o => o.s.toNat == 0 && o.v.toNat == 0 && o.len.toNat == 0
  | .recld _ o => sOk o.s && o.v.toNat + o.len.toNat ≤ 63
  | .combine _ o => o.s.toNat == 0
  | .trap _ o => o.lit.isNone && o.imm.toNat < 64 && o.d.toNat == 0
  | .tret _ _ => true
  | .sysrd _ o => sOk o.s && sysNumOk o.num
  | .syswr _ o => sOk o.s && sysNumOk o.num
  | .inval _ o => sOk o.s && o.num.toNat ≤ 3
  | .sheafFormation _ => true
  | .loopBufferRefill _ _ => true
  | .variableLatencyReturn _ _ _ => true
  | .queueRetry _ _ => true
  | .ldfRetry _ => true
  | .backlogDrain _ => true
  | .storeApply _ => true
  | .loadRenew _ => true
  | .writeOwnershipGrant _ _ => true
  | .dirReadMiss _ _ => true
  | .dirWriteOwnership _ _ => true
  | .dirHomeAccess _ => true
  | .dirEviction _ _ => true
  | .lineDataReceive _ _ => true
  | .l2Eviction _ _ => true
  | .backInvalidateResponse _ _ => true
  | .hostWrite _ _ => true
  | .hostRead _ _ => true
  | .atomicApply _ => true
  | .reductionAccept _ => true
  | .exactSumClaim _ => true
  | .timeRebase _ => true
  | .copyComplete _ => true
  | .gatherComplete _ => true
  | .wloadComplete _ => true
  | .engineFaultPause _ => true
  | .mmaOperationStart _ => true
  | .segmentRead _ => true
  | .mmaOperationFinish _ => true
  | .collContribution _ => true
  | .collResult _ _ => true
  | .remoteAccessRequest _ => true
  | .remoteResponse _ _ => true
  | .duetteRouteTimeout _ => true
  | .recordArrival _ => true
  | .binAgeEligible _ _ => true
  | .binFiring _ => true
  | .recordUnspill _ => true
  | .heldRecordPlace _ => true
  | .cohortStart _ => true
  | .fabricTeamStart _ => true
  | .teamRestore _ => true
  | .discardedTeamRestart _ => true
  | .teamRetire _ => true
  | .applySetMask _ => true
  | .preemptionStart _ => true
  | .saveComplete _ => true
  | .drainBudgetExpiry _ => true
  | .drainForFit _ => true
  | .priorityAging _ => true
  | .teamOverdue _ => true
  | .tenureEnd _ => true
  | .launchTrigger _ _ _ => true
  | .launchParse _ _ => true
  | .contextCreate _ _ => true
  | .contextDestroy _ => true
  | .evset _ _ _ => true
  | .evclr _ _ _ => true
  | .slotCancel _ _ => true
  | .cancelComplete _ => true
  | .jtailWrite _ _ => true
  | .fqtailWrite _ _ => true
  | .resumeReplay _ _ => true
  | .resumeAbort _ _ => true
  | .invalidateTranslations _ => true
  | .invalidatePage _ _ => true
  | .invalidateDescriptor _ _ => true
  | .invalidateAllDescriptors _ => true
  | .invalidateComplete _ => true
  | .dieResetOrderly _ => true
  | .dieResetAbrupt _ => true
  | .fatalDieError _ => true
  | .dieResetComplete _ => true
  | .lostclr _ _ => true
  | .migrationStart _ _ => true
  | .migrationComplete _ => true
  | .hotRowThreshold _ _ _ => true
  | .gddr7HotRowThreshold _ _ => true
  | .refreshWindowEnd _ => true
  | .softError _ => true
  | .pclr _ _ => true
  | .attestationRequest _ => true
  | .attestationComplete => true
  | .recoveryImageLoad _ _ => true
  | .powerOn => true
  | .clockThrottle _ => true
  | .registerWrite _ _ => true
  | .hostCacheRequest _ _ _ => true
  | .hostCacheEviction _ _ _ => true
  | .duetteLinkLoss _ => true
  | .linkBringUp _ _ => true

end Sys2Proof
end

