-- ==== Sys2Proof/Decode.lean ====
section
/-! DEFINITION. Decoding (R153, R155, R157, R166, R167, R170, R172): total on any words, every refusal by name; and the
encoder, written from the same tables. -/

namespace Sys2Proof

/-- The decode conditions of R172 items 1 and 2. PRIVILEGED_INSTRUCTION (item 3) depends on the team and is raised
by the privileged instructions themselves. -/
inductive DecodeError where
  | illegalEncoding
  | illegalInstruction
deriving DecidableEq, Repr

def FN.ofBits (o : BitVec 22) : FN := ⟨o.extractLsb' 0 3⟩
def FN.bits (f : FN) : BitVec 22 := (0 : BitVec 19) ++ f.g
def FV3.ofBits (o : BitVec 22) : FV3 := ⟨o.extractLsb' 16 6, o.extractLsb' 10 6, o.extractLsb' 3 7, o.extractLsb' 0 3⟩
def FV3.bits (f : FV3) : BitVec 22 := f.d ++ f.a ++ f.b ++ f.g
def FVD.ofBits (o : BitVec 22) : FVD :=
  ⟨o.extractLsb' 16 6, o.extractLsb' 9 7, o.extractLsb' 5 4, o.extractLsb' 3 2, o.extractLsb' 0 3⟩
def FVD.bits (f : FVD) : BitVec 22 := f.d ++ f.b ++ f.t ++ f.m ++ f.g
def FVI.ofBits (o : BitVec 22) (lit : Option Word) : FVI :=
  ⟨o.extractLsb' 16 6, o.extractLsb' 10 6, o.extractLsb' 3 7, o.extractLsb' 0 3, lit⟩
def FVI.bits (f : FVI) : BitVec 22 := f.d ++ f.a ++ f.imm ++ f.g
def FVC.ofBits (o : BitVec 22) : FVC :=
  ⟨o.extractLsb' 20 2, o.extractLsb' 16 4, o.extractLsb' 10 6, o.extractLsb' 3 7, o.extractLsb' 0 3⟩
def FVC.bits (f : FVC) : BitVec 22 := f.cn ++ f.code ++ f.a ++ f.b ++ f.g
def FUR.ofBits (o : BitVec 22) (lit : Option Word) : FUR :=
  ⟨o.extractLsb' 15 7, o.extractLsb' 8 7, o.extractLsb' 1 7, lit⟩
def FUR.bits (f : FUR) : BitVec 22 := f.d ++ f.a ++ f.b ++ (0 : BitVec 1)
def FG.ofBits (o : BitVec 22) : FG := ⟨o.extractLsb' 19 3, o.extractLsb' 17 2, o.extractLsb' 13 4⟩
def FG.bits (f : FG) : BitVec 22 := f.slot ++ f.cn ++ f.cond ++ (0 : BitVec 13)
def FM.ofBits (o : BitVec 22) (lit : Option Word) : FM :=
  ⟨o.extractLsb' 16 6, o.extractLsb' 10 6, o.extractLsb' 8 2, o.extractLsb' 3 5, o.extractLsb' 0 3, lit⟩
def FM.bits (f : FM) : BitVec 22 := f.d ++ f.p ++ f.mode ++ f.x ++ f.g
def FMA.ofBits (o : BitVec 22) : FMA :=
  ⟨o.extractLsb' 16 6, o.extractLsb' 12 4, o.extractLsb' 9 3, o.extractLsb' 7 2, o.extractLsb' 3 4, o.extractLsb' 0 3⟩
def FMA.bits (f : FMA) : BitVec 22 := f.d ++ f.p ++ f.op ++ f.ord ++ f.scope ++ f.g
def FS.ofBits (o : BitVec 22) : FS := ⟨o.extractLsb' 3 4, o.extractLsb' 0 3⟩
def FS.bits (f : FS) : BitVec 22 := (0 : BitVec 15) ++ f.scope ++ f.g
def FB.ofBits (o : BitVec 22) : FB := ⟨o.extractLsb' 3 19, o.extractLsb' 0 3⟩
def FB.bits (f : FB) : BitVec 22 := f.disp ++ f.g
def FJ.ofBits (o : BitVec 22) : FJ := ⟨o.extractLsb' 18 4, o.extractLsb' 14 4, o.extractLsb' 3 11, o.extractLsb' 0 3⟩
def FJ.bits (f : FJ) : BitVec 22 := f.ja ++ f.jb ++ f.disp ++ f.g
def FK.ofBits (o : BitVec 22) : FK := ⟨o.extractLsb' 20 2, o.extractLsb' 14 6, o.extractLsb' 0 3⟩
def FK.bits (f : FK) : BitVec 22 := f.cls ++ f.n ++ (0 : BitVec 11) ++ f.g
def FA.ofBits (o : BitVec 22) : FA := ⟨o.extractLsb' 15 7, o.extractLsb' 8 7, o.extractLsb' 4 4, o.extractLsb' 0 3⟩
def FA.bits (f : FA) : BitVec 22 := f.t ++ f.p ++ f.sub ++ (0 : BitVec 1) ++ f.g
def FQ.ofBits (o : BitVec 22) : FQ :=
  ⟨o.extractLsb' 18 4, o.extractLsb' 12 6, o.getLsbD 11, o.extractLsb' 9 2, o.extractLsb' 0 3⟩
def FQ.bits (f : FQ) : BitVec 22 := f.q ++ f.v ++ BitVec.ofBool f.nb ++ f.cn ++ (0 : BitVec 6) ++ f.g
def FX.ofBits (o : BitVec 22) : FX := ⟨o.extractLsb' 15 7, o.extractLsb' 9 6, o.extractLsb' 3 6, o.extractLsb' 0 3⟩
def FX.bits (f : FX) : BitVec 22 := f.s ++ f.v ++ f.len ++ f.g
def FY.ofBits (o : BitVec 22) : FY := ⟨o.extractLsb' 15 7, o.extractLsb' 3 12⟩
def FY.bits (f : FY) : BitVec 22 := f.s ++ f.num ++ (0 : BitVec 3)

/-- The parts of an instruction word: header, major opcode (Table 7-8), operand bits, literal. -/
structure Parts where
  h : Hdr
  major : BitVec 8
  ops : BitVec 22
  lit : Option Word
deriving DecidableEq, Repr

/-- The word of the parts (Table 7-1). -/
def Parts.word (p : Parts) : Word := BitVec.ofBool p.h.c ++ BitVec.ofBool p.h.w ++ p.major ++ p.ops

/-- The parts of each instruction; an event has none. -/
def Instr.parts : Instr → Option Parts
  | .nop h => some ⟨h, 0x00, 0, none⟩
  | .iadd h o => some ⟨h, 0x01, o.bits, none⟩
  | .isub h o => some ⟨h, 0x02, o.bits, none⟩
  | .imul h o => some ⟨h, 0x03, o.bits, none⟩
  | .imulhI32 h o => some ⟨h, 0x04, o.bits, none⟩
  | .imulhW32 h o => some ⟨h, 0x05, o.bits, none⟩
  | .idivI32 h o => some ⟨h, 0x06, o.bits, none⟩
  | .idivW32 h o => some ⟨h, 0x07, o.bits, none⟩
  | .iminI32 h o => some ⟨h, 0x08, o.bits, none⟩
  | .iminW32 h o => some ⟨h, 0x09, o.bits, none⟩
  | .imaxI32 h o => some ⟨h, 0x0A, o.bits, none⟩
  | .imaxW32 h o => some ⟨h, 0x0B, o.bits, none⟩
  | .imac h o => some ⟨h, 0x0C, o.bits, none⟩
  | .iaddVd h o => some ⟨h, 0x0D, o.bits, none⟩
  | .isubVd h o => some ⟨h, 0x0E, o.bits, none⟩
  | .imulVd h o => some ⟨h, 0x0F, o.bits, none⟩
  | .and h o => some ⟨h, 0x10, o.bits, none⟩
  | .or h o => some ⟨h, 0x11, o.bits, none⟩
  | .xor h o => some ⟨h, 0x12, o.bits, none⟩
  | .shl h o => some ⟨h, 0x13, o.bits, none⟩
  | .shrW32 h o => some ⟨h, 0x14, o.bits, none⟩
  | .shrI32 h o => some ⟨h, 0x15, o.bits, none⟩
  | .popc h o => some ⟨h, 0x16, o.bits, none⟩
  | .clz h o => some ⟨h, 0x17, o.bits, none⟩
  | .iminVd h o => some ⟨h, 0x18, o.bits, none⟩
  | .imaxVd h o => some ⟨h, 0x19, o.bits, none⟩
  | .shlVd h o => some ⟨h, 0x1A, o.bits, none⟩
  | .shrVd h o => some ⟨h, 0x1B, o.bits, none⟩
  | .icvt h o => some ⟨h, 0x1C, o.bits, none⟩
  | .iaddi h o => some ⟨h, 0x1D, o.bits, o.lit⟩
  | .andi h o => some ⟨h, 0x1E, o.bits, o.lit⟩
  | .ori h o => some ⟨h, 0x1F, o.bits, o.lit⟩
  | .xori h o => some ⟨h, 0x20, o.bits, o.lit⟩
  | .shli h o => some ⟨h, 0x21, o.bits, o.lit⟩
  | .shriW32 h o => some ⟨h, 0x22, o.bits, o.lit⟩
  | .shriI32 h o => some ⟨h, 0x23, o.bits, o.lit⟩
  | .mov h o => some ⟨h, 0x24, o.bits, none⟩
  | .movi h o => some ⟨h, 0x25, o.bits, o.lit⟩
  | .movs h o => some ⟨h, 0x26, o.bits, none⟩
  | .padd h o => some ⟨h, 0x27, o.bits, none⟩
  | .icmp h o => some ⟨h, 0x28, o.bits, none⟩
  | .gset h o => some ⟨h, 0x29, o.bits, none⟩
  | .sadd h o => some ⟨h, 0x2A, o.bits, o.lit⟩
  | .ssub h o => some ⟨h, 0x2B, o.bits, o.lit⟩
  | .smul h o => some ⟨h, 0x2C, o.bits, o.lit⟩
  | .sand h o => some ⟨h, 0x2D, o.bits, o.lit⟩
  | .sor h o => some ⟨h, 0x2E, o.bits, o.lit⟩
  | .sxor h o => some ⟨h, 0x2F, o.bits, o.lit⟩
  | .sshl h o => some ⟨h, 0x30, o.bits, o.lit⟩
  | .sshr h o => some ⟨h, 0x31, o.bits, o.lit⟩
  | .smov h o => some ⟨h, 0x32, o.bits, o.lit⟩
  | .xscanExAdd h o => some ⟨h, 0x33, o.bits, none⟩
  | .topk h o => some ⟨h, 0x34, o.bits, none⟩
  | .xselIdx h o => some ⟨h, 0x35, o.bits, none⟩
  | .xselUp h o => some ⟨h, 0x36, o.bits, none⟩
  | .xselDown h o => some ⟨h, 0x37, o.bits, none⟩
  | .xselXor h o => some ⟨h, 0x38, o.bits, none⟩
  | .xany h o => some ⟨h, 0x39, o.bits, none⟩
  | .xall h o => some ⟨h, 0x3A, o.bits, none⟩
  | .xmask h o => some ⟨h, 0x3B, o.bits, none⟩
  | .xredAdd h o => some ⟨h, 0x3C, o.bits, none⟩
  | .xredMin h o => some ⟨h, 0x3D, o.bits, none⟩
  | .xredMax h o => some ⟨h, 0x3E, o.bits, none⟩
  | .xscanAdd h o => some ⟨h, 0x3F, o.bits, none⟩
  | .faddF32 h o => some ⟨h, 0x40, o.bits, none⟩
  | .fsubF32 h o => some ⟨h, 0x41, o.bits, none⟩
  | .fmulF32 h o => some ⟨h, 0x42, o.bits, none⟩
  | .fmacF32 h o => some ⟨h, 0x43, o.bits, none⟩
  | .fminF32 h o => some ⟨h, 0x44, o.bits, none⟩
  | .fmaxF32 h o => some ⟨h, 0x45, o.bits, none⟩
  | .faddF16x2 h o => some ⟨h, 0x46, o.bits, none⟩
  | .fmulF16x2 h o => some ⟨h, 0x47, o.bits, none⟩
  | .fmacF16x2 h o => some ⟨h, 0x48, o.bits, none⟩
  | .faddBf16x2 h o => some ⟨h, 0x49, o.bits, none⟩
  | .fmulBf16x2 h o => some ⟨h, 0x4A, o.bits, none⟩
  | .fmacBf16x2 h o => some ⟨h, 0x4B, o.bits, none⟩
  | .fadd h o => some ⟨h, 0x4C, o.bits, none⟩
  | .fsub h o => some ⟨h, 0x4D, o.bits, none⟩
  | .fmul h o => some ⟨h, 0x4E, o.bits, none⟩
  | .fdiv h o => some ⟨h, 0x4F, o.bits, none⟩
  | .fmin h o => some ⟨h, 0x50, o.bits, none⟩
  | .fmax h o => some ⟨h, 0x51, o.bits, none⟩
  | .fcmp h o => some ⟨h, 0x52, o.bits, none⟩
  | .fsqrt h o => some ⟨h, 0x53, o.bits, none⟩
  | .frcp h o => some ⟨h, 0x54, o.bits, none⟩
  | .frsq h o => some ⟨h, 0x55, o.bits, none⟩
  | .fexp2 h o => some ⟨h, 0x56, o.bits, none⟩
  | .flog2 h o => some ⟨h, 0x57, o.bits, none⟩
  | .fsin h o => some ⟨h, 0x58, o.bits, none⟩
  | .fcos h o => some ⟨h, 0x59, o.bits, none⟩
  | .ftanh h o => some ⟨h, 0x5A, o.bits, none⟩
  | .cvtF32 h o => some ⟨h, 0x5B, o.bits, none⟩
  | .cvtF16 h o => some ⟨h, 0x5C, o.bits, none⟩
  | .cvtBf16 h o => some ⟨h, 0x5D, o.bits, none⟩
  | .cvtI32 h o => some ⟨h, 0x5E, o.bits, none⟩
  | .cvtW32 h o => some ⟨h, 0x5F, o.bits, none⟩
  | .cvtI64 h o => some ⟨h, 0x60, o.bits, none⟩
  | .cvtW64 h o => some ⟨h, 0x61, o.bits, none⟩
  | .dxenc h o => some ⟨h, 0x62, o.bits, none⟩
  | .dxdec h o => some ⟨h, 0x63, o.bits, none⟩
  | .frnd h o => some ⟨h, 0x64, o.bits, none⟩
  | .ldgW8 h o => some ⟨h, 0x80, o.bits, o.lit⟩
  | .ldgI8 h o => some ⟨h, 0x81, o.bits, o.lit⟩
  | .ldgW16 h o => some ⟨h, 0x82, o.bits, o.lit⟩
  | .ldgI16 h o => some ⟨h, 0x83, o.bits, o.lit⟩
  | .ldgB32 h o => some ⟨h, 0x84, o.bits, o.lit⟩
  | .ldgB64 h o => some ⟨h, 0x85, o.bits, o.lit⟩
  | .ldgB128 h o => some ⟨h, 0x86, o.bits, o.lit⟩
  | .stgB8 h o => some ⟨h, 0x87, o.bits, o.lit⟩
  | .stgB16 h o => some ⟨h, 0x88, o.bits, o.lit⟩
  | .stgB32 h o => some ⟨h, 0x89, o.bits, o.lit⟩
  | .stgB64 h o => some ⟨h, 0x8A, o.bits, o.lit⟩
  | .stgB128 h o => some ⟨h, 0x8B, o.bits, o.lit⟩
  | .stb h o => some ⟨h, 0x8C, o.bits, o.lit⟩
  | .ldf h o => some ⟨h, 0x8D, o.bits, o.lit⟩
  | .ldsB32 h o => some ⟨h, 0x8E, o.bits, o.lit⟩
  | .ldsB64 h o => some ⟨h, 0x8F, o.bits, o.lit⟩
  | .stsB32 h o => some ⟨h, 0x90, o.bits, o.lit⟩
  | .stsB64 h o => some ⟨h, 0x91, o.bits, o.lit⟩
  | .fence h o => some ⟨h, 0x92, o.bits, none⟩
  | .bar h o => some ⟨h, 0x93, o.bits, none⟩
  | .atomI32 h o => some ⟨h, 0x94, o.bits, none⟩
  | .atomW32 h o => some ⟨h, 0x95, o.bits, none⟩
  | .atomI64 h o => some ⟨h, 0x96, o.bits, none⟩
  | .atomW64 h o => some ⟨h, 0x97, o.bits, none⟩
  | .atomF32 h o => some ⟨h, 0x98, o.bits, none⟩
  | .redI32 h o => some ⟨h, 0x99, o.bits, none⟩
  | .redW32 h o => some ⟨h, 0x9A, o.bits, none⟩
  | .redI64 h o => some ⟨h, 0x9B, o.bits, none⟩
  | .redW64 h o => some ⟨h, 0x9C, o.bits, none⟩
  | .redF32 h o => some ⟨h, 0x9D, o.bits, none⟩
  | .redF32Unord h o => some ⟨h, 0x9E, o.bits, none⟩
  | .bra h o => some ⟨h, 0xA0, o.bits, none⟩
  | .braRg h o => some ⟨h, 0xA1, o.bits, none⟩
  | .call h o => some ⟨h, 0xA2, o.bits, none⟩
  | .calli h o => some ⟨h, 0xA3, o.bits, none⟩
  | .jmpi h o => some ⟨h, 0xA4, o.bits, none⟩
  | .jmpiRg h o => some ⟨h, 0xA5, o.bits, none⟩
  | .ret h o => some ⟨h, 0xA6, o.bits, none⟩
  | .loop h o => some ⟨h, 0xA7, o.bits, none⟩
  | .endloop h o => some ⟨h, 0xA8, o.bits, none⟩
  | .jset h o => some ⟨h, 0xA9, o.bits, none⟩
  | .join h o => some ⟨h, 0xAA, o.bits, none⟩
  | .joinRg h o => some ⟨h, 0xAB, o.bits, none⟩
  | .leave h o => some ⟨h, 0xAC, o.bits, none⟩
  | .leaveRg h o => some ⟨h, 0xAD, o.bits, none⟩
  | .regroup h o => some ⟨h, 0xAE, o.bits, none⟩
  | .reorder h o => some ⟨h, 0xAF, o.bits, none⟩
  | .exit h o => some ⟨h, 0xB0, o.bits, none⟩
  | .exitNext h o => some ⟨h, 0xB1, o.bits, none⟩
  | .yield h o => some ⟨h, 0xB2, o.bits, none⟩
  | .copy h o => some ⟨h, 0xC0, o.bits, none⟩
  | .gather h o => some ⟨h, 0xC1, o.bits, none⟩
  | .waitc h o => some ⟨h, 0xC2, o.bits, none⟩
  | .mmaIssue h o => some ⟨h, 0xC3, o.bits, none⟩
  | .mmaCommit h o => some ⟨h, 0xC4, o.bits, none⟩
  | .waitb h o => some ⟨h, 0xC5, o.bits, none⟩
  | .wload h o => some ⟨h, 0xC6, o.bits, none⟩
  | .accz h o => some ⟨h, 0xC7, o.bits, none⟩
  | .ldacc h o => some ⟨h, 0xC8, o.bits, none⟩
  | .stacc h o => some ⟨h, 0xC9, o.bits, none⟩
  | .batonTake h o => some ⟨h, 0xCA, o.bits, none⟩
  | .batonPass h o => some ⟨h, 0xCB, o.bits, none⟩
  | .qinit h o => some ⟨h, 0xCC, o.bits, none⟩
  | .qpush h o => some ⟨h, 0xCD, o.bits, none⟩
  | .qpop h o => some ⟨h, 0xCE, o.bits, none⟩
  | .qcred h o => some ⟨h, 0xCF, o.bits, none⟩
  | .coll h o => some ⟨h, 0xD0, o.bits, none⟩
  | .vdie h o => some ⟨h, 0xD1, o.bits, o.lit⟩
  | .vhop h o => some ⟨h, 0xD2, o.bits, o.lit⟩
  | .spawn h o => some ⟨h, 0xE0, o.bits, none⟩
  | .emit h o => some ⟨h, 0xE1, o.bits, none⟩
  | .enqx h o => some ⟨h, 0xE2, o.bits, none⟩
  | .stagePass h o => some ⟨h, 0xE3, o.bits, none⟩
  | .stageDrop h o => some ⟨h, 0xE4, o.bits, none⟩
  | .recld h o => some ⟨h, 0xE5, o.bits, none⟩
  | .combine h o => some ⟨h, 0xE6, o.bits, none⟩
  | .trap h o => some ⟨h, 0xF0, o.bits, o.lit⟩
  | .tret h o => some ⟨h, 0xF1, o.bits, none⟩
  | .sysrd h o => some ⟨h, 0xF2, o.bits, none⟩
  | .syswr h o => some ⟨h, 0xF3, o.bits, none⟩
  | .inval h o => some ⟨h, 0xF4, o.bits, none⟩
  | .sheafFormation _ => none
  | .loopBufferRefill _ _ => none
  | .variableLatencyReturn _ _ _ => none
  | .queueRetry _ _ => none
  | .ldfRetry _ => none
  | .backlogDrain _ => none
  | .storeApply _ => none
  | .loadRenew _ => none
  | .writeOwnershipGrant _ _ => none
  | .dirReadMiss _ _ => none
  | .dirWriteOwnership _ _ => none
  | .dirHomeAccess _ => none
  | .dirEviction _ _ => none
  | .lineDataReceive _ _ => none
  | .l2Eviction _ _ => none
  | .backInvalidateResponse _ _ => none
  | .hostWrite _ _ => none
  | .hostRead _ _ => none
  | .atomicApply _ => none
  | .reductionAccept _ => none
  | .exactSumClaim _ => none
  | .timeRebase _ => none
  | .copyComplete _ => none
  | .gatherComplete _ => none
  | .wloadComplete _ => none
  | .engineFaultPause _ => none
  | .mmaOperationStart _ => none
  | .segmentRead _ => none
  | .mmaOperationFinish _ => none
  | .collContribution _ => none
  | .collResult _ _ => none
  | .remoteAccessRequest _ => none
  | .remoteResponse _ _ => none
  | .duetteRouteTimeout _ => none
  | .recordArrival _ => none
  | .binAgeEligible _ _ => none
  | .binFiring _ => none
  | .recordUnspill _ => none
  | .heldRecordPlace _ => none
  | .cohortStart _ => none
  | .fabricTeamStart _ => none
  | .teamRestore _ => none
  | .discardedTeamRestart _ => none
  | .teamRetire _ => none
  | .applySetMask _ => none
  | .preemptionStart _ => none
  | .saveComplete _ => none
  | .drainBudgetExpiry _ => none
  | .drainForFit _ => none
  | .priorityAging _ => none
  | .teamOverdue _ => none
  | .tenureEnd _ => none
  | .launchTrigger _ _ _ => none
  | .launchParse _ _ => none
  | .contextCreate _ _ => none
  | .contextDestroy _ => none
  | .evset _ _ _ => none
  | .evclr _ _ _ => none
  | .slotCancel _ _ => none
  | .cancelComplete _ => none
  | .jtailWrite _ _ => none
  | .fqtailWrite _ _ => none
  | .resumeReplay _ _ => none
  | .resumeAbort _ _ => none
  | .invalidateTranslations _ => none
  | .invalidatePage _ _ => none
  | .invalidateDescriptor _ _ => none
  | .invalidateAllDescriptors _ => none
  | .invalidateComplete _ => none
  | .dieResetOrderly _ => none
  | .dieResetAbrupt _ => none
  | .fatalDieError _ => none
  | .dieResetComplete _ => none
  | .lostclr _ _ => none
  | .migrationStart _ _ => none
  | .migrationComplete _ => none
  | .hotRowThreshold _ _ _ => none
  | .gddr7HotRowThreshold _ _ => none
  | .refreshWindowEnd _ => none
  | .softError _ => none
  | .pclr _ _ => none
  | .attestationRequest _ => none
  | .attestationComplete => none
  | .recoveryImageLoad _ _ => none
  | .powerOn => none
  | .clockThrottle _ => none
  | .registerWrite _ _ => none
  | .hostCacheRequest _ _ _ => none
  | .hostCacheEviction _ _ _ => none
  | .duetteLinkLoss _ => none
  | .linkBringUp _ _ => none

/-- The words of an instruction: the instruction word and its literal word. -/
def encode (i : Instr) : Option (Word × Option Word) := i.parts.map (fun p => (p.word, p.lit))

/-- The opcode map of Table 7-8: for each assigned major, the instruction its header, operand bits and literal name. -/
def majorTable : List (Nat × (Hdr → BitVec 22 → Option Word → Instr)) :=
  majors0 ++ majors1 ++ majors2 ++ majors3
where
  majors0 : List (Nat × (Hdr → BitVec 22 → Option Word → Instr)) :=
    [ (0x00, fun h _ _ => .nop h),
      (0x01, fun h o _ => .iadd h (FV3.ofBits o)),
      (0x02, fun h o _ => .isub h (FV3.ofBits o)),
      (0x03, fun h o _ => .imul h (FV3.ofBits o)),
      (0x04, fun h o _ => .imulhI32 h (FV3.ofBits o)),
      (0x05, fun h o _ => .imulhW32 h (FV3.ofBits o)),
      (0x06, fun h o _ => .idivI32 h (FV3.ofBits o)),
      (0x07, fun h o _ => .idivW32 h (FV3.ofBits o)),
      (0x08, fun h o _ => .iminI32 h (FV3.ofBits o)),
      (0x09, fun h o _ => .iminW32 h (FV3.ofBits o)),
      (0x0A, fun h o _ => .imaxI32 h (FV3.ofBits o)),
      (0x0B, fun h o _ => .imaxW32 h (FV3.ofBits o)),
      (0x0C, fun h o _ => .imac h (FV3.ofBits o)),
      (0x0D, fun h o _ => .iaddVd h (FVD.ofBits o)),
      (0x0E, fun h o _ => .isubVd h (FVD.ofBits o)),
      (0x0F, fun h o _ => .imulVd h (FVD.ofBits o)),
      (0x10, fun h o _ => .and h (FV3.ofBits o)),
      (0x11, fun h o _ => .or h (FV3.ofBits o)),
      (0x12, fun h o _ => .xor h (FV3.ofBits o)),
      (0x13, fun h o _ => .shl h (FV3.ofBits o)),
      (0x14, fun h o _ => .shrW32 h (FV3.ofBits o)),
      (0x15, fun h o _ => .shrI32 h (FV3.ofBits o)),
      (0x16, fun h o _ => .popc h (FV3.ofBits o)),
      (0x17, fun h o _ => .clz h (FV3.ofBits o)),
      (0x18, fun h o _ => .iminVd h (FVD.ofBits o)),
      (0x19, fun h o _ => .imaxVd h (FVD.ofBits o)),
      (0x1A, fun h o _ => .shlVd h (FVD.ofBits o)),
      (0x1B, fun h o _ => .shrVd h (FVD.ofBits o)),
      (0x1C, fun h o _ => .icvt h (FVD.ofBits o)),
      (0x1D, fun h o l => .iaddi h (FVI.ofBits o l)),
      (0x1E, fun h o l => .andi h (FVI.ofBits o l)),
      (0x1F, fun h o l => .ori h (FVI.ofBits o l)),
      (0x20, fun h o l => .xori h (FVI.ofBits o l)),
      (0x21, fun h o l => .shli h (FVI.ofBits o l)),
      (0x22, fun h o l => .shriW32 h (FVI.ofBits o l)),
      (0x23, fun h o l => .shriI32 h (FVI.ofBits o l)),
      (0x24, fun h o _ => .mov h (FV3.ofBits o)),
      (0x25, fun h o l => .movi h (FVI.ofBits o l)),
      (0x26, fun h o _ => .movs h (FV3.ofBits o)),
      (0x27, fun h o _ => .padd h (FV3.ofBits o)),
      (0x28, fun h o _ => .icmp h (FVC.ofBits o)),
      (0x29, fun h o _ => .gset h (FG.ofBits o)),
      (0x2A, fun h o l => .sadd h (FUR.ofBits o l)),
      (0x2B, fun h o l => .ssub h (FUR.ofBits o l)),
      (0x2C, fun h o l => .smul h (FUR.ofBits o l)),
      (0x2D, fun h o l => .sand h (FUR.ofBits o l)) ]
  majors1 : List (Nat × (Hdr → BitVec 22 → Option Word → Instr)) :=
    [ (0x2E, fun h o l => .sor h (FUR.ofBits o l)),
      (0x2F, fun h o l => .sxor h (FUR.ofBits o l)),
      (0x30, fun h o l => .sshl h (FUR.ofBits o l)),
      (0x31, fun h o l => .sshr h (FUR.ofBits o l)),
      (0x32, fun h o l => .smov h (FUR.ofBits o l)),
      (0x33, fun h o _ => .xscanExAdd h (FVD.ofBits o)),
      (0x34, fun h o _ => .topk h (FV3.ofBits o)),
      (0x35, fun h o _ => .xselIdx h (FV3.ofBits o)),
      (0x36, fun h o _ => .xselUp h (FV3.ofBits o)),
      (0x37, fun h o _ => .xselDown h (FV3.ofBits o)),
      (0x38, fun h o _ => .xselXor h (FV3.ofBits o)),
      (0x39, fun h o _ => .xany h (FVC.ofBits o)),
      (0x3A, fun h o _ => .xall h (FVC.ofBits o)),
      (0x3B, fun h o _ => .xmask h (FVC.ofBits o)),
      (0x3C, fun h o _ => .xredAdd h (FVD.ofBits o)),
      (0x3D, fun h o _ => .xredMin h (FVD.ofBits o)),
      (0x3E, fun h o _ => .xredMax h (FVD.ofBits o)),
      (0x3F, fun h o _ => .xscanAdd h (FVD.ofBits o)),
      (0x40, fun h o _ => .faddF32 h (FV3.ofBits o)),
      (0x41, fun h o _ => .fsubF32 h (FV3.ofBits o)),
      (0x42, fun h o _ => .fmulF32 h (FV3.ofBits o)),
      (0x43, fun h o _ => .fmacF32 h (FV3.ofBits o)),
      (0x44, fun h o _ => .fminF32 h (FV3.ofBits o)),
      (0x45, fun h o _ => .fmaxF32 h (FV3.ofBits o)),
      (0x46, fun h o _ => .faddF16x2 h (FV3.ofBits o)),
      (0x47, fun h o _ => .fmulF16x2 h (FV3.ofBits o)),
      (0x48, fun h o _ => .fmacF16x2 h (FV3.ofBits o)),
      (0x49, fun h o _ => .faddBf16x2 h (FV3.ofBits o)),
      (0x4A, fun h o _ => .fmulBf16x2 h (FV3.ofBits o)),
      (0x4B, fun h o _ => .fmacBf16x2 h (FV3.ofBits o)),
      (0x4C, fun h o _ => .fadd h (FVD.ofBits o)),
      (0x4D, fun h o _ => .fsub h (FVD.ofBits o)),
      (0x4E, fun h o _ => .fmul h (FVD.ofBits o)),
      (0x4F, fun h o _ => .fdiv h (FVD.ofBits o)),
      (0x50, fun h o _ => .fmin h (FVD.ofBits o)),
      (0x51, fun h o _ => .fmax h (FVD.ofBits o)),
      (0x52, fun h o _ => .fcmp h (FVC.ofBits o)),
      (0x53, fun h o _ => .fsqrt h (FVD.ofBits o)),
      (0x54, fun h o _ => .frcp h (FVD.ofBits o)),
      (0x55, fun h o _ => .frsq h (FVD.ofBits o)),
      (0x56, fun h o _ => .fexp2 h (FVD.ofBits o)),
      (0x57, fun h o _ => .flog2 h (FVD.ofBits o)),
      (0x58, fun h o _ => .fsin h (FVD.ofBits o)),
      (0x59, fun h o _ => .fcos h (FVD.ofBits o)),
      (0x5A, fun h o _ => .ftanh h (FVD.ofBits o)),
      (0x5B, fun h o _ => .cvtF32 h (FVD.ofBits o)) ]
  majors2 : List (Nat × (Hdr → BitVec 22 → Option Word → Instr)) :=
    [ (0x5C, fun h o _ => .cvtF16 h (FVD.ofBits o)),
      (0x5D, fun h o _ => .cvtBf16 h (FVD.ofBits o)),
      (0x5E, fun h o _ => .cvtI32 h (FVD.ofBits o)),
      (0x5F, fun h o _ => .cvtW32 h (FVD.ofBits o)),
      (0x60, fun h o _ => .cvtI64 h (FVD.ofBits o)),
      (0x61, fun h o _ => .cvtW64 h (FVD.ofBits o)),
      (0x62, fun h o _ => .dxenc h (FV3.ofBits o)),
      (0x63, fun h o _ => .dxdec h (FV3.ofBits o)),
      (0x64, fun h o _ => .frnd h (FVD.ofBits o)),
      (0x80, fun h o l => .ldgW8 h (FM.ofBits o l)),
      (0x81, fun h o l => .ldgI8 h (FM.ofBits o l)),
      (0x82, fun h o l => .ldgW16 h (FM.ofBits o l)),
      (0x83, fun h o l => .ldgI16 h (FM.ofBits o l)),
      (0x84, fun h o l => .ldgB32 h (FM.ofBits o l)),
      (0x85, fun h o l => .ldgB64 h (FM.ofBits o l)),
      (0x86, fun h o l => .ldgB128 h (FM.ofBits o l)),
      (0x87, fun h o l => .stgB8 h (FM.ofBits o l)),
      (0x88, fun h o l => .stgB16 h (FM.ofBits o l)),
      (0x89, fun h o l => .stgB32 h (FM.ofBits o l)),
      (0x8A, fun h o l => .stgB64 h (FM.ofBits o l)),
      (0x8B, fun h o l => .stgB128 h (FM.ofBits o l)),
      (0x8C, fun h o l => .stb h (FM.ofBits o l)),
      (0x8D, fun h o l => .ldf h (FM.ofBits o l)),
      (0x8E, fun h o l => .ldsB32 h (FM.ofBits o l)),
      (0x8F, fun h o l => .ldsB64 h (FM.ofBits o l)),
      (0x90, fun h o l => .stsB32 h (FM.ofBits o l)),
      (0x91, fun h o l => .stsB64 h (FM.ofBits o l)),
      (0x92, fun h o _ => .fence h (FS.ofBits o)),
      (0x93, fun h o _ => .bar h (FS.ofBits o)),
      (0x94, fun h o _ => .atomI32 h (FMA.ofBits o)),
      (0x95, fun h o _ => .atomW32 h (FMA.ofBits o)),
      (0x96, fun h o _ => .atomI64 h (FMA.ofBits o)),
      (0x97, fun h o _ => .atomW64 h (FMA.ofBits o)),
      (0x98, fun h o _ => .atomF32 h (FMA.ofBits o)),
      (0x99, fun h o _ => .redI32 h (FMA.ofBits o)),
      (0x9A, fun h o _ => .redW32 h (FMA.ofBits o)),
      (0x9B, fun h o _ => .redI64 h (FMA.ofBits o)),
      (0x9C, fun h o _ => .redW64 h (FMA.ofBits o)),
      (0x9D, fun h o _ => .redF32 h (FMA.ofBits o)),
      (0x9E, fun h o _ => .redF32Unord h (FMA.ofBits o)),
      (0xA0, fun h o _ => .bra h (FB.ofBits o)),
      (0xA1, fun h o _ => .braRg h (FB.ofBits o)),
      (0xA2, fun h o _ => .call h (FB.ofBits o)),
      (0xA3, fun h o _ => .calli h (FV3.ofBits o)),
      (0xA4, fun h o _ => .jmpi h (FV3.ofBits o)),
      (0xA5, fun h o _ => .jmpiRg h (FV3.ofBits o)) ]
  majors3 : List (Nat × (Hdr → BitVec 22 → Option Word → Instr)) :=
    [ (0xA6, fun h o _ => .ret h (FV3.ofBits o)),
      (0xA7, fun h o _ => .loop h (FN.ofBits o)),
      (0xA8, fun h o _ => .endloop h (FN.ofBits o)),
      (0xA9, fun h o _ => .jset h (FJ.ofBits o)),
      (0xAA, fun h o _ => .join h (FJ.ofBits o)),
      (0xAB, fun h o _ => .joinRg h (FJ.ofBits o)),
      (0xAC, fun h o _ => .leave h (FJ.ofBits o)),
      (0xAD, fun h o _ => .leaveRg h (FJ.ofBits o)),
      (0xAE, fun h o _ => .regroup h (FN.ofBits o)),
      (0xAF, fun h o _ => .reorder h (FV3.ofBits o)),
      (0xB0, fun h o _ => .exit h (FN.ofBits o)),
      (0xB1, fun h o _ => .exitNext h (FB.ofBits o)),
      (0xB2, fun h o _ => .yield h (FN.ofBits o)),
      (0xC0, fun h o _ => .copy h (FA.ofBits o)),
      (0xC1, fun h o _ => .gather h (FA.ofBits o)),
      (0xC2, fun h o _ => .waitc h (FK.ofBits o)),
      (0xC3, fun h o _ => .mmaIssue h (FA.ofBits o)),
      (0xC4, fun h o _ => .mmaCommit h (FA.ofBits o)),
      (0xC5, fun h o _ => .waitb h (FA.ofBits o)),
      (0xC6, fun h o _ => .wload h (FA.ofBits o)),
      (0xC7, fun h o _ => .accz h (FA.ofBits o)),
      (0xC8, fun h o _ => .ldacc h (FV3.ofBits o)),
      (0xC9, fun h o _ => .stacc h (FV3.ofBits o)),
      (0xCA, fun h o _ => .batonTake h (FN.ofBits o)),
      (0xCB, fun h o _ => .batonPass h (FN.ofBits o)),
      (0xCC, fun h o _ => .qinit h (FQ.ofBits o)),
      (0xCD, fun h o _ => .qpush h (FQ.ofBits o)),
      (0xCE, fun h o _ => .qpop h (FQ.ofBits o)),
      (0xCF, fun h o _ => .qcred h (FQ.ofBits o)),
      (0xD0, fun h o _ => .coll h (FA.ofBits o)),
      (0xD1, fun h o l => .vdie h (FUR.ofBits o l)),
      (0xD2, fun h o l => .vhop h (FUR.ofBits o l)),
      (0xE0, fun h o _ => .spawn h (FX.ofBits o)),
      (0xE1, fun h o _ => .emit h (FX.ofBits o)),
      (0xE2, fun h o _ => .enqx h (FX.ofBits o)),
      (0xE3, fun h o _ => .stagePass h (FX.ofBits o)),
      (0xE4, fun h o _ => .stageDrop h (FX.ofBits o)),
      (0xE5, fun h o _ => .recld h (FX.ofBits o)),
      (0xE6, fun h o _ => .combine h (FX.ofBits o)),
      (0xF0, fun h o l => .trap h (FVI.ofBits o l)),
      (0xF1, fun h o _ => .tret h (FN.ofBits o)),
      (0xF2, fun h o _ => .sysrd h (FY.ofBits o)),
      (0xF3, fun h o _ => .syswr h (FY.ofBits o)),
      (0xF4, fun h o _ => .inval h (FY.ofBits o)) ]

/-- The instruction that parts name, before any field check; `none` for a reserved major. -/
def build (p : Parts) : Option Instr :=
  (majorTable.find? (fun r => r.1 == p.major.toNat)).map (fun r => r.2 p.h p.ops p.lit)

/-- The header and fields of a word (Table 7-1). -/
def splitWord (w : Word) (lit : Option Word) : Parts :=
  ⟨⟨w.getLsbD 31, w.getLsbD 30⟩, w.extractLsb' 22 8, w.extractLsb' 0 22, lit⟩

/-- The majors of Table 8-2 whose immediate field may select a literal (R166). -/
def literalVI (m : Nat) : Bool := m == 0x1D || m == 0x1E || m == 0x1F || m == 0x20 || m == 0x25

/-- The UR majors (Table 7-8). -/
def majorUR (m : Nat) : Bool := (0x2A ≤ m && m ≤ 0x32) || m == 0xD1 || m == 0xD2

/-- The M majors (Table 7-8). -/
def majorM (m : Nat) : Bool := 0x80 ≤ m && m ≤ 0x91

/-- Whether an instruction word takes the next word as its literal: by its major and one field only (R166). -/
def takesLiteral (w : Word) : Bool :=
  let m := (w.extractLsb' 22 8).toNat
  (literalVI m && (w.extractLsb' 3 7).toNat == 64)
    || (majorUR m && ((w.extractLsb' 8 7).toNat == 127 || (w.extractLsb' 1 7).toNat == 127))
    || (majorM m && (w.extractLsb' 8 2).toNat == 3)

/-- Decode one instruction word with its literal. ILLEGAL_INSTRUCTION for a reserved major (R170), a field value that
`Instr.wf` refuses, or a reserved bit that is not 0: the word is then not the word of the instruction it names. -/
def decodeWord (w : Word) (lit : Option Word) : Except DecodeError Instr :=
  match build (splitWord w lit) with
  | none => .error .illegalInstruction
  | some i => if i.wf && i.parts == some (splitWord w lit) then .ok i else .error .illegalInstruction

/-- What a packet position holds (R155). -/
inductive PacketWord where
  | instr (w : Word) (lit : Option Word)
  | literal
deriving DecidableEq, Repr

/-- The three words of a packet, divided into instruction words and literal words from word 0 on (R155). An
instruction in word 2 that takes a literal keeps `none`, which `groupFrom` refuses. -/
def packetWords (w0 w1 w2 : Word) : List PacketWord :=
  if takesLiteral w0 then [.instr w0 (some w1), .literal, .instr w2 none]
  else if takesLiteral w1 then [.instr w0 none, .instr w1 (some w2), .literal]
  else [.instr w0 none, .instr w1 none, .instr w2 none]

/-- The pipes of Table 7-2. -/
inductive Pipe where
  | integer
  | float
  | memory
  | control
  | async
deriving DecidableEq, Repr

/-- The pipe of a major (Table 7-2); `none` for a reserved major outside its ranges. -/
def pipeOf (m : Nat) : Option Pipe :=
  if m ≤ 0x28 then some .integer
  else if m ≤ 0x32 then some .control
  else if m ≤ 0x64 then some .float
  else if 0x80 ≤ m && m ≤ 0x9E then some .memory
  else if 0xA0 ≤ m && m ≤ 0xB2 then some .control
  else if m == 0xC8 || m == 0xC9 || (0xCC ≤ m && m ≤ 0xCF) then some .memory
  else if m == 0xC2 || m == 0xC5 || m == 0xCA || m == 0xCB || m == 0xD1 || m == 0xD2 || (0xF0 ≤ m && m ≤ 0xF4) then
    some .control
  else if m == 0xC0 || m == 0xC1 || m == 0xC3 || m == 0xC4 || m == 0xC6 || m == 0xC7 || m == 0xD0
      || (0xE0 ≤ m && m ≤ 0xE6) then some .async
  else none

/-- The major of a word. -/
def majorOf (w : Word) : Nat := (w.extractLsb' 22 8).toNat

/-- A register file that a word may write, for the check of R157. -/
inductive WriteTarget where
  | v (n : Nat)
  | s (n : Nat)
  | cc (n : Nat)
  | g (n : Nat)
deriving DecidableEq, Repr

/-- The vector registers d to d + n - 1. -/
def vTargets (d : BitVec 6) (n : Nat) : List WriteTarget := (List.range n).map (fun k => .v (d.toNat + k))

/-- The registers, flags and definitions that an instruction writes (R157): the token registers of asynchronous words
and the batch-number register of MMA.COMMIT among them. -/
def Instr.writes : Instr → List WriteTarget
  | .nop _ => []
  | .iadd _ o => vTargets o.d 1
  | .isub _ o => vTargets o.d 1
  | .imul _ o => vTargets o.d 1
  | .imulhI32 _ o => vTargets o.d 1
  | .imulhW32 _ o => vTargets o.d 1
  | .idivI32 _ o => vTargets o.d 1
  | .idivW32 _ o => vTargets o.d 1
  | .iminI32 _ o => vTargets o.d 1
  | .iminW32 _ o => vTargets o.d 1
  | .imaxI32 _ o => vTargets o.d 1
  | .imaxW32 _ o => vTargets o.d 1
  | .imac _ o => vTargets o.d 1
  | .iaddVd _ o => vTargets o.d (if is64 o.t then 2 else 1)
  | .isubVd _ o => vTargets o.d (if is64 o.t then 2 else 1)
  | .imulVd _ o => vTargets o.d (if is64 o.t then 2 else 1)
  | .and _ o => vTargets o.d 1
  | .or _ o => vTargets o.d 1
  | .xor _ o => vTargets o.d 1
  | .shl _ o => vTargets o.d 1
  | .shrW32 _ o => vTargets o.d 1
  | .shrI32 _ o => vTargets o.d 1
  | .popc _ o => vTargets o.d 1
  | .clz _ o => vTargets o.d 1
  | .iminVd _ o => vTargets o.d (if is64 o.t then 2 else 1)
  | .imaxVd _ o => vTargets o.d (if is64 o.t then 2 else 1)
  | .shlVd _ o => vTargets o.d (if is64 o.t then 2 else 1)
  | .shrVd _ o => vTargets o.d (if is64 o.t then 2 else 1)
  | .icvt _ o => vTargets o.d (if is64 o.t then 2 else 1)
  | .iaddi _ o => vTargets o.d 1
  | .andi _ o => vTargets o.d 1
  | .ori _ o => vTargets o.d 1
  | .xori _ o => vTargets o.d 1
  | .shli _ o => vTargets o.d 1
  | .shriW32 _ o => vTargets o.d 1
  | .shriI32 _ o => vTargets o.d 1
  | .mov _ o => vTargets o.d 1
  | .movi _ o => vTargets o.d 1
  | .movs _ o => vTargets o.d (if o.a.toNat == 1 then 2 else 1)
  | .padd _ o => vTargets o.d 1
  | .icmp _ o => [.cc o.cn.toNat]
  | .gset _ o => [.g o.slot.toNat]
  | .sadd _ o => [.s o.d.toNat]
  | .ssub _ o => [.s o.d.toNat]
  | .smul _ o => [.s o.d.toNat]
  | .sand _ o => [.s o.d.toNat]
  | .sor _ o => [.s o.d.toNat]
  | .sxor _ o => [.s o.d.toNat]
  | .sshl _ o => [.s o.d.toNat]
  | .sshr _ o => [.s o.d.toNat]
  | .smov _ o => [.s o.d.toNat]
  | .xscanExAdd _ o => vTargets o.d (if is64 o.t then 2 else 1)
  | .topk _ o => vTargets o.d 1
  | .xselIdx _ o => vTargets o.d 1
  | .xselUp _ o => vTargets o.d 1
  | .xselDown _ o => vTargets o.d 1
  | .xselXor _ o => vTargets o.d 1
  | .xany _ o => vTargets o.a 1
  | .xall _ o => vTargets o.a 1
  | .xmask _ o => vTargets o.a 2
  | .xredAdd _ o => vTargets o.d (if is64 o.t then 2 else 1)
  | .xredMin _ o => vTargets o.d (if is64 o.t then 2 else 1)
  | .xredMax _ o => vTargets o.d (if is64 o.t then 2 else 1)
  | .xscanAdd _ o => vTargets o.d (if is64 o.t then 2 else 1)
  | .faddF32 _ o => vTargets o.d 1
  | .fsubF32 _ o => vTargets o.d 1
  | .fmulF32 _ o => vTargets o.d 1
  | .fmacF32 _ o => vTargets o.d 1
  | .fminF32 _ o => vTargets o.d 1
  | .fmaxF32 _ o => vTargets o.d 1
  | .faddF16x2 _ o => vTargets o.d 1
  | .fmulF16x2 _ o => vTargets o.d 1
  | .fmacF16x2 _ o => vTargets o.d 1
  | .faddBf16x2 _ o => vTargets o.d 1
  | .fmulBf16x2 _ o => vTargets o.d 1
  | .fmacBf16x2 _ o => vTargets o.d 1
  | .fadd _ o => vTargets o.d (if is64 o.t then 2 else 1)
  | .fsub _ o => vTargets o.d (if is64 o.t then 2 else 1)
  | .fmul _ o => vTargets o.d (if is64 o.t then 2 else 1)
  | .fdiv _ o => vTargets o.d (if is64 o.t then 2 else 1)
  | .fmin _ o => vTargets o.d (if is64 o.t then 2 else 1)
  | .fmax _ o => vTargets o.d (if is64 o.t then 2 else 1)
  | .fcmp _ o => [.cc o.cn.toNat]
  | .fsqrt _ o => vTargets o.d (if is64 o.t then 2 else 1)
  | .frcp _ o => vTargets o.d (if is64 o.t then 2 else 1)
  | .frsq _ o => vTargets o.d (if is64 o.t then 2 else 1)
  | .fexp2 _ o => vTargets o.d (if is64 o.t then 2 else 1)
  | .flog2 _ o => vTargets o.d (if is64 o.t then 2 else 1)
  | .fsin _ o => vTargets o.d (if is64 o.t then 2 else 1)
  | .fcos _ o => vTargets o.d (if is64 o.t then 2 else 1)
  | .ftanh _ o => vTargets o.d (if is64 o.t then 2 else 1)
  | .cvtF32 _ o => vTargets o.d 1
  | .cvtF16 _ o => vTargets o.d 1
  | .cvtBf16 _ o => vTargets o.d 1
  | .cvtI32 _ o => vTargets o.d 1
  | .cvtW32 _ o => vTargets o.d 1
  | .cvtI64 _ o => vTargets o.d 2
  | .cvtW64 _ o => vTargets o.d 2
  | .dxenc _ o => vTargets o.d 1
  | .dxdec _ o => vTargets o.d 1
  | .frnd _ o => vTargets o.d (if is64 o.t then 2 else 1)
  | .ldgW8 _ o => vTargets o.d 1
  | .ldgI8 _ o => vTargets o.d 1
  | .ldgW16 _ o => vTargets o.d 1
  | .ldgI16 _ o => vTargets o.d 1
  | .ldgB32 _ o => vTargets o.d 1
  | .ldgB64 _ o => vTargets o.d 2
  | .ldgB128 _ o => vTargets o.d 4
  | .stgB8 _ _ => []
  | .stgB16 _ _ => []
  | .stgB32 _ _ => []
  | .stgB64 _ _ => []
  | .stgB128 _ _ => []
  | .stb _ _ => []
  | .ldf _ o => vTargets o.d 2
  | .ldsB32 _ o => vTargets o.d 1
  | .ldsB64 _ o => vTargets o.d 2
  | .stsB32 _ _ => []
  | .stsB64 _ _ => []
  | .fence _ _ => []
  | .bar _ _ => []
  | .atomI32 _ o => vTargets o.d 1
  | .atomW32 _ o => vTargets o.d 1
  | .atomI64 _ o => vTargets o.d 2
  | .atomW64 _ o => vTargets o.d 2
  | .atomF32 _ o => vTargets o.d 1
  | .redI32 _ _ => []
  | .redW32 _ _ => []
  | .redI64 _ _ => []
  | .redW64 _ _ => []
  | .redF32 _ _ => []
  | .redF32Unord _ _ => []
  | .bra _ _ => []
  | .braRg _ _ => []
  | .call _ _ => [.v 63]
  | .calli _ o => vTargets o.d 1
  | .jmpi _ _ => []
  | .jmpiRg _ _ => []
  | .ret _ _ => []
  | .loop _ _ => []
  | .endloop _ _ => []
  | .jset _ _ => []
  | .join _ _ => []
  | .joinRg _ _ => []
  | .leave _ _ => []
  | .leaveRg _ _ => []
  | .regroup _ _ => []
  | .reorder _ _ => []
  | .exit _ _ => []
  | .exitNext _ _ => []
  | .yield _ _ => []
  | .copy _ o => [.s o.t.toNat]
  | .gather _ o => [.s o.t.toNat]
  | .waitc _ _ => []
  | .mmaIssue _ _ => []
  | .mmaCommit _ o => [.s o.t.toNat]
  | .waitb _ _ => []
  | .wload _ o => [.s o.t.toNat]
  | .accz _ _ => []
  | .ldacc _ o => vTargets o.d 1
  | .stacc _ _ => []
  | .batonTake _ _ => []
  | .batonPass _ _ => []
  | .qinit _ _ => []
  | .qpush _ o => if o.nb then [.cc o.cn.toNat] else []
  | .qpop _ o => .v o.v.toNat :: (if o.nb then [.cc o.cn.toNat] else [])
  | .qcred _ _ => []
  | .coll _ o => [.s o.t.toNat]
  | .vdie _ o => [.s o.d.toNat]
  | .vhop _ o => [.s o.d.toNat]
  | .spawn _ _ => []
  | .emit _ _ => []
  | .enqx _ _ => []
  | .stagePass _ _ => []
  | .stageDrop _ _ => []
  | .recld _ o => vTargets o.v (o.len.toNat + 1)
  | .combine _ _ => []
  | .trap _ _ => []
  | .tret _ _ => vTargets 60 4
  | .sysrd _ o => [.s o.s.toNat]
  | .syswr _ _ => []
  | .inval _ _ => []
  | .sheafFormation _ => []
  | .loopBufferRefill _ _ => []
  | .variableLatencyReturn _ _ _ => []
  | .queueRetry _ _ => []
  | .ldfRetry _ => []
  | .backlogDrain _ => []
  | .storeApply _ => []
  | .loadRenew _ => []
  | .writeOwnershipGrant _ _ => []
  | .dirReadMiss _ _ => []
  | .dirWriteOwnership _ _ => []
  | .dirHomeAccess _ => []
  | .dirEviction _ _ => []
  | .lineDataReceive _ _ => []
  | .l2Eviction _ _ => []
  | .backInvalidateResponse _ _ => []
  | .hostWrite _ _ => []
  | .hostRead _ _ => []
  | .atomicApply _ => []
  | .reductionAccept _ => []
  | .exactSumClaim _ => []
  | .timeRebase _ => []
  | .copyComplete _ => []
  | .gatherComplete _ => []
  | .wloadComplete _ => []
  | .engineFaultPause _ => []
  | .mmaOperationStart _ => []
  | .segmentRead _ => []
  | .mmaOperationFinish _ => []
  | .collContribution _ => []
  | .collResult _ _ => []
  | .remoteAccessRequest _ => []
  | .remoteResponse _ _ => []
  | .duetteRouteTimeout _ => []
  | .recordArrival _ => []
  | .binAgeEligible _ _ => []
  | .binFiring _ => []
  | .recordUnspill _ => []
  | .heldRecordPlace _ => []
  | .cohortStart _ => []
  | .fabricTeamStart _ => []
  | .teamRestore _ => []
  | .discardedTeamRestart _ => []
  | .teamRetire _ => []
  | .applySetMask _ => []
  | .preemptionStart _ => []
  | .saveComplete _ => []
  | .drainBudgetExpiry _ => []
  | .drainForFit _ => []
  | .priorityAging _ => []
  | .teamOverdue _ => []
  | .tenureEnd _ => []
  | .launchTrigger _ _ _ => []
  | .launchParse _ _ => []
  | .contextCreate _ _ => []
  | .contextDestroy _ => []
  | .evset _ _ _ => []
  | .evclr _ _ _ => []
  | .slotCancel _ _ => []
  | .cancelComplete _ => []
  | .jtailWrite _ _ => []
  | .fqtailWrite _ _ => []
  | .resumeReplay _ _ => []
  | .resumeAbort _ _ => []
  | .invalidateTranslations _ => []
  | .invalidatePage _ _ => []
  | .invalidateDescriptor _ _ => []
  | .invalidateAllDescriptors _ => []
  | .invalidateComplete _ => []
  | .dieResetOrderly _ => []
  | .dieResetAbrupt _ => []
  | .fatalDieError _ => []
  | .dieResetComplete _ => []
  | .lostclr _ _ => []
  | .migrationStart _ _ => []
  | .migrationComplete _ => []
  | .hotRowThreshold _ _ _ => []
  | .gddr7HotRowThreshold _ _ => []
  | .refreshWindowEnd _ => []
  | .softError _ => []
  | .pclr _ _ => []
  | .attestationRequest _ => []
  | .attestationComplete => []
  | .recoveryImageLoad _ _ => []
  | .powerOn => []
  | .clockThrottle _ => []
  | .registerWrite _ _ => []
  | .hostCacheRequest _ _ _ => []
  | .hostCacheEviction _ _ _ => []
  | .duetteLinkLoss _ => []
  | .linkBringUp _ _ => []

/-- One word of a chained group: its byte offset within the packet, the raw word, its literal. -/
structure GroupWord where
  pos : Nat
  word : Word
  lit : Option Word
deriving DecidableEq, Repr

/-- The run of instruction words from position k on in which every word but the last has C = 1 (R157), literals
passed over; the flag tells that the run reached the packet's end with C = 1 set. -/
def runFrom : List PacketWord → Nat → List GroupWord × Bool
  | [], _ => ([], true)
  | .literal :: rest, k => runFrom rest (k + 1)
  | .instr w lit :: rest, k =>
    if w.getLsbD 31 then
      let r := runFrom rest (k + 1)
      (⟨4 * k, w, lit⟩ :: r.1, r.2)
    else ([⟨4 * k, w, lit⟩], false)

/-- Two elements of the list are equal. -/
def hasRepeat {α : Type} [DecidableEq α] : List α → Bool
  | [] => false
  | x :: rest => rest.contains x || hasRepeat rest

/-- What a word of a group would write, for a word that decodes; one that fails R172's second item names no register (DESIGN
CHOICE, log 25). -/
def targetsOf (g : GroupWord) : List WriteTarget :=
  match decodeWord g.word g.lit with
  | .ok i => i.writes
  | .error _ => []

/-- Some target is written by two different words of the group. -/
def crossWrites : List GroupWord → Bool
  | [] => false
  | g :: rest => (rest.any fun r => (targetsOf g).any (fun t => (targetsOf r).contains t)) || crossWrites rest

/-- A fetched group: its words, and the packet offset of the first instruction word after it (12 at the end). -/
structure Group where
  words : List GroupWord
  after : Nat
deriving DecidableEq, Repr

/-- Packet offset of the first instruction word at or after position k. -/
def nextInstr : List PacketWord → Nat → Nat
  | [], k => 4 * k
  | .literal :: rest, k => nextInstr rest (k + 1)
  | .instr _ _ :: _, k => 4 * k

/-- The group that a thread issues at word k of a packet (R157, R159), or ILLEGAL_ENCODING: a literal wanted in word 2
(R155), C = 1 at the packet's last instruction word, two words of one pipe, two words that write one register. -/
def groupFrom (ws : List PacketWord) (k : Nat) : Except DecodeError Group :=
  let r := runFrom (ws.drop k) k
  let last := match r.1.getLast? with | some g => g.pos / 4 | none => k
  if r.2 then .error .illegalEncoding
  else if r.1.any (fun g => g.pos == 8 && takesLiteral g.word) then .error .illegalEncoding
  else if hasRepeat (r.1.filterMap (fun g => pipeOf (majorOf g.word))) then .error .illegalEncoding
  else if crossWrites r.1 then .error .illegalEncoding
  else .ok ⟨r.1, nextInstr (ws.drop (last + 1)) (last + 1)⟩

/-- A packet position is a literal word, so no transfer may land there (R159). -/
def isLiteralAt (ws : List PacketWord) (k : Nat) : Bool := ws[k]? == some .literal

/-- A little-endian word of four bytes (R153). -/
def wordOfBytes (b0 b1 b2 b3 : Byte) : Word := b3 ++ b2 ++ b1 ++ b0

/-- The instruction the decoder reads from bits w, numbered from the least significant bit of the first word. The table
gives one 32-bit word a row; a literal word, where the instruction takes one, lies above it and is 0. -/
def decodeTableWord (_nbits w : Nat) : Option Instr :=
  let word := BitVec.ofNat 32 w
  match decodeWord word (if takesLiteral word then some 0 else none) with
  | .ok i => some i
  | .error _ => none

end Sys2Proof
end

