-- ==== Sys2Proof/Machine/State.lean ====
section
/-! DEFINITION. The state of the package as plain data: threads and teams, launches, contexts, dies and their
coherence, the record fabric, placement, devices and trust; why a step can stop; the state after reset.
A location is one number: ((die × 256) + channel) × 2^54 + chaddr for device memory (R114), 2^70 + address for host
memory reached through CXL.cache (R342). -/

namespace Sys2Proof.Machine

/-- A number of a float or DX type, exact (R89, R95): (−1)^neg × man × 2^exp. -/
inductive Num where
  | nan
  | inf (neg : Bool)
  | fin (neg : Bool) (man : Nat) (exp : Int)
deriving DecidableEq, Repr

/-- The four flags of a condition-code register (R74). -/
structure Flags where
  n : Bool
  z : Bool
  c : Bool
  v : Bool
deriving DecidableEq, Repr

/-- All flags 0 (R77). -/
def Flags.zero : Flags := ⟨false, false, false, false⟩

/-- A thread's own registers: vector registers by physical number (R66 to R68), loop level (R67), c0 to c3 (R74). -/
structure Regs where
  v : Sparse Word
  level : Nat
  c : List Flags
deriving DecidableEq, Repr

/-- A guard-slot definition (R75). -/
structure GuardDef where
  cn : BitVec 2
  cond : BitVec 4
deriving DecidableEq, Repr

/-- The uniform registers and guard-slot definitions g1 to g7 of a home sheaf (R39, R71). -/
structure Uniform where
  s : Sparse DWord
  g : List GuardDef
deriving DecidableEq, Repr

/-- An instruction of a group and the address of its word. -/
structure Placed where
  pc : BitVec 64
  i : Instr
deriving DecidableEq, Repr

/-- What a thread brought to a rendezvous (R61, R195): the group it issued, in which slot, and the lowest TID of the sub-sheaf
that issued it; its registers, PT, core and CYC as they stood then. -/
structure Arrival where
  pc : BitVec 64
  replay : BitVec 64
  fall : BitVec 64
  cycle : Nat
  words : List Placed
  regs : Regs
  uni : Uniform
  slot : Nat
  lead : Nat
  pt : Nat
  core : Nat
  cyc : Nat
deriving DecidableEq, Repr

/-- How a parked thread's condition stands: awaiting a resume command (class F); a trap waiting for pending writes
(R349); a trap or fault whose report could not enter the backlog (R353); a condition that an abort makes the thread of a saved
team take at its restore (R351). -/
inductive ParkKind where
  | fault
  | trap
  | held (thenFault : Bool)
  | abortAtRestore
deriving DecidableEq, Repr

/-- A condition raised in a thread (R347, R349): code, aux, the faulting word and the replay PC of R57, and HOFF as it
stood when the trap arose (Table 15-5). -/
structure Park where
  code : Nat
  aux : DWord
  pc : BitVec 64
  rp : BitVec 64
  kind : ParkKind
  hoff : BitVec 64
  /-- true when taken by abort or reported already: no second record (R355) -/
  aborted : Bool
deriving DecidableEq, Repr

/-- What a live thread that is not simply in its sheaf waits for (Table 2-1, R33, R53); `leaving`: it ends when the other
words of its group have taken effect (R207), with the outcome it reports for a stage record (R288). -/
inductive Wait where
  | none
  | join (k : Nat)
  | rendezvous (a : Arrival)
  | reorder (key : Nat)
  | pooled (stamp : Nat)
  | parked (p : Park)
  | leaving (passed : Bool)
  | ended
  | waitc (cls n : Nat)
  | waitb (n : Nat)
  | baton (since : Nat)
  | inval (serial : Nat)
deriving DecidableEq, Repr

/-- A memory-pipe word a thread is blocked in, whatever else its group does: a queue operation (R236), a future load
(R148), a barrier (R224). -/
inductive Block where
  | none
  | push (q : Nat) (value : Word) (since : Nat)
  | pop (q : Nat) (serial : Nat) (since : Nat)
  | ldf (acc : Nat)
  /-- a future load that met a class F condition as it executed again: it waits for the resume command (R148, R355) -/
  | ldfFault (acc : Nat) (p : Park)
  | bar (cohort : Bool) (cycle : Nat)
deriving DecidableEq, Repr

/-- A variable-latency result on its way (R160 to R163): the registers it writes, each with its value once known. `exact`:
it lands in the cycle `notBefore`, as a QPOP's does (R235). -/
structure Pend where
  serial : Nat
  regs : List (Nat × Word)
  ready : Bool
  notBefore : Nat
  ldf : Bool
  exact : Bool
deriving DecidableEq, Repr

/-- An answer to a request a thread made before going past an instruction (a claim of R143, an access of another
device of R375): the word that asked, and a condition or none with the data. -/
structure Answer where
  pc : BitVec 64
  code : Nat
  data : List Byte
  /-- the condition was met on the other device (R375) -/
  remote : Bool
  /-- the location a claim was made for (R143); 0 for an answer of another device -/
  loc : Nat
deriving DecidableEq, Repr

/-- A thread (R10). Its place is a sheaf slot and lane, or none when pooled or ended (R50). -/
structure Thread where
  tid : Nat
  wid : Nat
  pc : BitVec 64
  regs : Regs
  place : Option (Nat × Nat)
  wait : Wait
  block : Block
  pend : List Pend
  /-- threads whose pending writes a marker waits for (R161) -/
  marker : List Nat
  earliest : Nat
  age : Nat
  ready : Bool
  lastLone : Option Nat
  /-- loop-buffer blocks: block number and cycle of last use (R31) -/
  blocks : List (Nat × Nat)
  refill : Option (Nat × Nat)
  pt : Nat
  lct : Nat
  asked : Option Nat
  answer : Option Answer
  /-- cycle of the last retry of a blocking queue operation (R236) -/
  tried : Nat
  /-- fixed-latency results not yet available: physical register, or 2^20 + flag register, and the cycle (R219, R238) -/
  late : List (Nat × Nat)
deriving DecidableEq, Repr

/-- A join record (R41): expected and arrived sets; the update of this cycle with the highest TID, and whether it
was an arrival by JOIN.RG (R44, R47). -/
structure JoinRec where
  e : List Nat
  a : List Nat
  last : Option (Nat × Bool)
deriving DecidableEq, Repr

/-- An operation still counted by an outstanding-operation counter (R144). -/
structure OutOp where
  cls : Nat
  serial : Nat
  done : Bool
  wts : Nat
deriving DecidableEq, Repr

/-- A home sheaf (R20): uniform state, join records j0 to j15, pending tokens (register, operation), write times of
completed tokens (R146), counted operations, largest write time per class. -/
structure Sheaf where
  uni : Uniform
  joins : List JoinRec
  tokens : List (Nat × Nat)
  tokenW : Sparse Nat
  out : List OutOp
  topW : List Nat
deriving DecidableEq, Repr

/-- A team queue (R234). -/
structure Queue where
  base : Nat
  depth : Nat
  head : Nat
  count : Nat
  allow : Nat
deriving DecidableEq, Repr

/-- A weight slot (R251, R260): its format tag and its B-blocks, each 256 values and the bytes it takes. -/
structure WSlot where
  tag : Option Nat
  blocks : List (List Num × Nat)
deriving DecidableEq, Repr

/-- A matrix operation issued and not finished (R252 to R254): its parameter block, the segments read so far. -/
structure MOp where
  serial : Nat
  sheaf : Nat
  tid : Nat
  block : List DWord
  batch : Option Nat
  started : Bool
  segs : List (Nat × List Byte)
deriving DecidableEq, Repr

/-- Residency of a team (Table 14-4). Draining holds the cycle at which the budget passes. -/
inductive Res where
  | resident
  | draining (budgetEnd : Nat)
  | saving
  | saved (cycle : Nat)
  | discarded
  | ended
deriving DecidableEq, Repr

/-- A regroup event of the cycle under way: the slot, the threads that go on at a next PC, and the lowest TID of the
issuing sub-sheaf (R47, R52). -/
structure RegroupEv where
  slot : Nat
  tids : List Nat
  key : Nat
deriving DecidableEq, Repr

/-- Where a record of the fabric stands (R269 to R277): on its way, in a bin, waiting for an entry of its set's full
window, taken by a firing, in the window entry of an input record, held by its generator for want of room, or past every
stage of its set while the router holds another. -/
inductive RecAt where
  | moving
  | binned
  | atInput
  | fired
  | window (entry : Nat)
  | heldBack
  | passed
deriving DecidableEq, Repr

/-- A record (R265, R272, R273): target node, bytes, stamp, done bits and stage of a set's record, the input record it
was emitted for. -/
structure Record where
  id : Nat
  launch : Nat
  node : Nat
  bytes : List Byte
  stamp : Nat
  place : RecAt
  done : BitVec 8
  stage : Nat
  emittedFor : Option Nat
  stored : Bool
  spilled : Bool
  /-- sender and issue, for arrival order (R269) -/
  sender : Nat
  issue : Nat
deriving DecidableEq, Repr

/-- A team (R12). -/
structure Team where
  id : Nat
  launch : Nat
  ctx : Nat
  cohort : Nat
  number : Nat
  die : Nat
  core : Nat
  /-- W of R11 and t of R16 -/
  width : Nat
  tbits : Nat
  depth : Nat
  scr : Nat
  acc : Nat
  /-- first granule of the register run and its length; other granules (R79, R317) -/
  run : Nat × Nat
  granules : List Nat
  /-- scheduler and lane group of each sheaf slot (R26, R50) -/
  slots : List (Nat × Nat)
  /-- cycle of each slot's last broadcast issue (R33) -/
  lastIssue : List Nat
  threads : List Thread
  sheaves : List Sheaf
  scratch : Sparse Byte
  tiles : Sparse Word
  wslots : List WSlot
  queues : List Queue
  /-- holder of the baton (R248): a number that no home sheaf has while it waits for the accesses in `passing`, those of the
  threads that passed it (R151) -/
  baton : Option Nat
  passing : List Nat
  /-- batches committed (R255) and matrix operations unfinished, in issue order -/
  batches : Nat
  mops : List MOp
  /-- fabric team: node, stage set and bound records by TID (R268) -/
  node : Option Nat
  bound : List (Option Nat)
  /-- bound records that have retired while the team may still be discarded, as they were (R283, R332) -/
  ended : List Record
  vdie : Nat
  res : Res
  tenure : Option Nat
  overdue : Bool
  /-- priority a restored team keeps in tenure, or that aging gave a saved one (R325, R326) -/
  eff : Nat
  /-- progress counters of R329: T, N, E, and whether it has written (R330) -/
  progT : Nat
  progN : Nat
  progE : Nat
  written : Bool
  /-- cycle of its start, order of starts, cycle its present residency began (R329, R274) -/
  startCycle : Nat
  startOrder : Nat
  since : Nat
  saveUnits : Nat
  regroups : List RegroupEv
  /-- scratchpad writes of this cycle: offset, slot, TID (R150); elements pushed in it, the last first: offset, value (R236) -/
  wlog : List (Nat × Nat × Nat)
  pushed : List (Nat × Word)
  sup : Bool
deriving DecidableEq, Repr

/-- A trap raised in a thread of the issue under way (R158, R349). -/
structure TrapRec where
  tid : Nat
  code : Nat
  aux : DWord
  pc : BitVec 64
  /-- met on another device: class T whatever the code (R375) -/
  remote : Bool
deriving DecidableEq, Repr

/-- An issue chosen for this cycle (R28, R30). -/
structure Choice where
  team : Nat
  slot : Nat
  tids : List Nat
  lone : Bool
deriving DecidableEq, Repr

/-- Where an access is performed. -/
inductive Route where
  /-- coherent location of device memory (R131, R132) -/
  | coherent
  /-- STRM location, at its home slice (R121, R139) -/
  | strm
  /-- host memory through CXL.cache (R342) -/
  | host
  /-- a location of another device (R138, R374): device, virtual address -/
  | remote (device va : Nat)
deriving DecidableEq, Repr

/-- How loaded bytes become registers (R213, R214). -/
inductive Shape where
  | zero
  | sign
  | words
  /-- DX elements: format 1 or 2, and for each element the location of its header -/
  | dx (fmt : Nat) (headers : List Nat)
deriving DecidableEq, Repr

/-- What an access does. -/
inductive AccKind where
  | load (shape : Shape)
  | ldf
  | store
  | atomic (op typ : Nat) (a b : DWord)
  | reduce (op typ : Nat) (a : DWord)
  | unord (a : Word)
  | claim
  /-- a block store that another device performs (R374): gap code and values -/
  | block (gap : Nat) (values : List Word)
deriving DecidableEq, Repr

/-- Stages of an access: not yet performed; die-performed and waiting for wider scopes; performed at every scope it
can reach. -/
inductive Stage where
  | waiting
  | applied
  | done
deriving DecidableEq, Repr

/-- A memory access in flight (R111 to R149): the party, the word, where and how. `entry` is the collector's entry it
joined (R123), `shut` once no later request can join it. `wrote` are the byte writes of a store: location, value, mask (a DX4 nibble is written through its mask,
R217). `buffer` is the checked address as a pointer, `ptr` the pointer of the instruction. -/
structure Acc where
  id : Nat
  entry : Nat
  team : Nat
  tid : Nat
  ctx : Nat
  launch : Nat
  die : Nat
  core : Nat
  pc : BitVec 64
  rp : BitVec 64
  kind : AccKind
  route : Route
  loc : Nat
  size : Nat
  scope : Nat
  acquire : Bool
  release : Bool
  p : Nat
  lease : Nat
  wrote : List (Nat × Byte × Byte)
  dest : List Nat
  aux : DWord
  buffer : Nat
  ptr : DWord
  stage : Stage
  pkg : Bool
  sys : Bool
  parked : Bool
  inTable : Bool
  since : Nat
  shut : Bool
deriving DecidableEq, Repr

/-- The issue under way (R158): the threads, the word being executed, the replay PC, the fall-through word; threads
in which no word takes effect; traps so far; whether the words run at a rendezvous' completion (R62, R195). -/
structure Issue where
  team : Nat
  slot : Nat
  tids : List Nat
  pc : BitVec 64
  replay : BitVec 64
  fall : BitVec 64
  words : List Placed
  lone : Bool
  completing : Bool
  suppressed : List Nat
  trapped : List TrapRec
  /-- requests whose answers threads wait for before going past the group -/
  held : List Acc
  /-- threads that stay before the group while the others issue (R258) -/
  waiting : List Nat
  stalled : Bool
deriving DecidableEq, Repr

/-- An operation of the copy, gather, WLOAD or collective engine (R227, R228): parameters, descriptors as checked at
issue, the index of the last access of its thread that it waits for (R145), the cycle of issue. -/
structure Op where
  serial : Nat
  kind : Nat
  team : Nat
  sheaf : Nat
  tid : Nat
  ctx : Nat
  launch : Nat
  die : Nat
  core : Nat
  pc : BitVec 64
  token : Nat
  scope : Nat
  params : List DWord
  descs : List (Nat × List DWord)
  p : Nat
  after : Nat
  since : Nat
  /-- paused on a translation condition: code, virtual address (R354) -/
  paused : Option (Nat × Nat)
  /-- collective: tag, generation, ranks, root; whether the contribution was sent (R378) -/
  coll : Option (Nat × Nat × Nat × Nat)
  sent : Bool
  result : Option (List Byte)
  /-- stopped with a report that could not be entered yet (R353): completion value, write time -/
  final : Option (DWord × Nat)
  /-- a copy under way (R147): source bytes read, with what they become; destination bytes landed; largest write time -/
  taken : Sparse (List Byte)
  landed : List Nat
  wts : Nat
deriving DecidableEq, Repr

/-- A sector of 64 bytes in an L2 (R119, R130): keyed by location / 64. `mask` holds the bits written of each byte (a DX4
nibble is half of one, R217). -/
structure Sector where
  full : Bool
  mask : List Byte
  data : List Byte
  wts : Nat
  rts : Nat
deriving DecidableEq, Repr

/-- An L1 copy of a line of 64 bytes (R118, R131). -/
structure Copy where
  data : List Byte
  wts : Nat
  rts : Nat
deriving DecidableEq, Repr

/-- Directory state of a die for a line (R364). -/
inductive DirState where
  | i
  | s
  | e
  | m
deriving DecidableEq, Repr

/-- Host state of a line (R364). -/
inductive HostLine where
  | hi
  | hs
  | hm
deriving DecidableEq, Repr

/-- A directory entry of a home slice (R364, R367): one state for each compute die, the host's, and when allocated. -/
structure DirEntry where
  dies : List DirState
  host : HostLine
  order : Nat
deriving DecidableEq, Repr

/-- Line data on its way to a die's L2 (R366), and whether write ownership comes with it (R137). -/
structure Fill where
  die : Nat
  line : Nat
  data : List Byte
  own : Bool
deriving DecidableEq, Repr

/-- An exact sum held or claimed at a home slice (R143): location, 320-bit value, NaN or infinity met, owner launch (0 for
one of another device), context. -/
structure ExactSum where
  loc : Nat
  held : Bool
  value : BitVec 320
  special : Option Num
  launch : Nat
  ctx : Nat
deriving DecidableEq, Repr

/-- Reservation of cores for a unit with its victims (R327). -/
structure Reserve where
  unit : Nat
  cores : List Nat
  victims : List Nat
deriving DecidableEq, Repr

/-- What a placement unit is (R315). -/
inductive UnitKind where
  | cohorts (lo hi : Nat)
  | fabric (node : Nat) (recs : List Nat)
  | saved (team : Nat)
  | discarded (team : Nat)
deriving DecidableEq, Repr

/-- A placement unit in a waiting order (R315, R316): its launch, when it entered, the die chosen. -/
structure WaitUnit where
  id : Nat
  kind : UnitKind
  launch : Nat
  entered : Nat
  die : Option Nat
deriving DecidableEq, Repr

/-- Router state of a stage (R274): passes per 1,024 and mean cost in force; the open window's outcomes. -/
structure StageStat where
  node : Nat
  p : Nat
  c : Nat
  seen : Nat
  passes : Nat
  cost : Nat
deriving DecidableEq, Repr

/-- An entry of a reorder window (R277): input record, whether it has retired, records waiting in it. -/
structure WinEntry where
  node : Nat
  input : Nat
  retired : Bool
  emitted : List (Nat × Nat)
deriving DecidableEq, Repr

/-- A combine slot that is not empty (R280). -/
structure Combine where
  id : Nat
  layer : Nat
  k : Nat
  parts : List (Nat × List Word)
deriving DecidableEq, Repr

/-- Life of a launch (Table 13-5, R309 to R311); `retiring`: its retired entry is written, its SET mask not yet applied.
A launch with its terminal entry and nothing left to do is dropped from the state. -/
inductive LPhase where
  | waiting
  | running
  | ending (cancelled : Bool) (cause : Nat)
  | retiring
deriving DecidableEq, Repr

/-- An accepted launch (R302, R303). -/
structure Launch where
  id : Nat
  ctx : Nat
  slot : Nat
  rseq : Nat
  jseq : Nat
  prio : Nat
  sup : Bool
  words : List DWord
  ext : List DWord
  nodes : List (List DWord)
  eligible : Bool
  phase : LPhase
  started : Bool
  /-- cohorts that have retired -/
  cohortsDone : Nat
  /-- teams of started cohorts that have retired: cohort and count (R22) -/
  teamsDone : Sparse Nat
  /-- device memory at the launch's start, for fetch, and the number of its start (R154) -/
  code0 : List Host.Cell
  /-- the keys of its lines then (R388) -/
  codeTags : Sparse Nat
  born : Nat
  lottery : Sparse Nat
  stats : List StageStat
  windows : List WinEntry
  combine : List Combine
  /-- full slots whose release waits for the combine unit, oldest first (R272) -/
  fullSlots : List Nat
  /-- combine slots whose bytes something else stored to (R280) -/
  spoiled : List Nat
  spillUsed : Nat
  /-- outcomes of running stage teams: team, TID, passed (R274) -/
  outcomes : List (Nat × Nat × Bool)
deriving DecidableEq, Repr

/-- A class F record awaiting its resume command (R355): the threads, team by team, and the operations it covers. -/
structure Await where
  fseq : Nat
  launch : Nat
  who : List (Nat × List Nat)
  ops : List Nat
deriving DecidableEq, Repr

/-- A fault report (Table 15-6) before its number is given: the four words' fields. -/
structure Report where
  ctx : Nat
  launch : Nat
  code : Nat
  count : Nat
  eng : Bool
  nores : Bool
  die : Nat
  rseq : Nat
  cohort : Nat
  number : Nat
  tid : Nat
  core : Nat
  slot : Nat
  pc : BitVec 64
  aux : DWord
  who : List (Nat × List Nat)
  ops : List Nat
deriving DecidableEq, Repr

/-- An invalidate under way (R346): kind, argument, the accesses and operations it waits for, host or thread. -/
structure Inval where
  serial : Nat
  ctx : Nat
  kind : Nat
  arg : Nat
  host : Bool
  /-- the home sheaf whose INVAL it is: team, sheaf -/
  sheaf : Option (Nat × Nat)
  waitsFor : List Nat
deriving DecidableEq, Repr

/-- An old value of a translation or descriptor that accesses may still use (R110, R345): location of the 8-byte
entry or the 32-byte descriptor, its former bytes, the context. -/
structure Stale where
  ctx : Nat
  loc : Nat
  desc : Bool
  bytes : List Byte
deriving DecidableEq, Repr

/-- A trigger awaiting its parse (R301). -/
structure Trigger where
  slot : Nat
  order : Nat
deriving DecidableEq, Repr

/-- A context (Tables 13-1, 15-5, 16-5, 16-9). -/
structure Ctx where
  ctl : DWord
  btab : DWord
  ptroot : DWord
  jrnl : DWord
  jhead : Nat
  jtail : Nat
  event : BitVec 256
  /-- SEQ of the last accepted record of each slot -/
  seqs : Sparse Nat
  held : List Trigger
  /-- the launch window: 64 slots of 128 bytes (R299) -/
  window : Sparse Byte
  trap0 : DWord
  trap1 : DWord
  fq : DWord
  fqhead : Nat
  fqtail : Nat
  ovf : Bool
  invdone : Nat
  awaits : List Await
  /-- reports held outside queue and backlog (R353) -/
  heldReports : List Report
  /-- records with their places in the queue whose line the host still caches or a reset holds (R352, R368, R369) -/
  fqwait : List Report
  mbuf : DWord
  mbase : DWord
  mplace : DWord
  mbusy : Bool
  mstatus : Nat
  mdone : Nat
  /-- accesses and operations past the port that a migration waits for (R372) -/
  mwait : List Nat
  grpBase : DWord
  grpN : DWord
  /-- COLLs so far of a group and rank (R378): key group × 65536 + rank -/
  collGen : Sparse Nat
  measure : List Byte
  /-- the context's memory keys, by a number of their own; 0 without (R388) -/
  key : Nat
  dying : Bool
deriving DecidableEq, Repr

/-- A compute die (Tables 14-3, 16-2, 17-1) with its L2, L1s, directory, placer and fabric. -/
structure Die where
  present : Bool
  state : Nat
  lostcnt : Nat
  /-- cycle of the last reset, from which CYC counts -/
  since : Nat
  hwm : Nat
  l2 : Sparse Sector
  /-- memory lines in the memory-side slices of a B-die, each dirty or clean (R381) -/
  slice : Sparse Bool
  /-- activations of each bank in the refresh window and the row last activated (R382): key channel × 2^16 + bank -/
  acts : Sparse (Nat × Nat)
  /-- L1 copies: key core × 2^80 + location / 64 -/
  l1 : Sparse Copy
  dir : Sparse DirEntry
  sums : List ExactSum
  reserves : List Reserve
  /-- cores in drain-for-fit and the unit that holds them (R320) -/
  drainFit : List (Nat × Nat)
  spv : Bool
  spbase : DWord
  spunits : Nat
  spused : Nat
  /-- record-store units in use (R272) -/
  used : Nat
  /-- bins eligible by age in firing order (R271): dispatcher cycle they became so, launch, node -/
  byAge : List (Nat × Nat × Nat)
  /-- the last dispatcher cycle with firings and how many it had (R271) -/
  fired : Nat × Nat
  /-- the last dispatcher cycle in which stage teams retired and the last of them by start (R274) -/
  stageOut : Nat × Nat
  backlog : List Report
  cwdcnt : Nat
  psncnt : Nat
  capcnt : Nat
  rfmcnt : Nat
  lastcwd : DWord
  lastpsn : DWord
  alert : Bool
  cwd : Bool
  psn : Bool
  capfull : Bool
  /-- messages of MSI-X vector 1 that these four have sent (Table 17-1) -/
  msix : Nat
  hotth : Nat
  /-- captured rows: channel, row, windows left (R382) -/
  captured : List (Nat × Nat × Nat)
deriving DecidableEq, Repr

/-- A set open at this device's collective unit (R378). -/
structure CollSet where
  tag : Nat
  gen : Nat
  parts : List Contribution
deriving DecidableEq, Repr

/-- Why a step could stop. No meaning of this model raises one: every event that cannot occur leaves the state as it
is, and every condition of the spec is taken as the spec says. Kept because the interface asks for the type. -/
inductive Fault where
  /-- raised by nothing; safe -/
  | unreachable
deriving DecidableEq, Repr

/-- Why a step could be refused. -/
inductive Refusal where
  /-- an instruction without a meaning in this model; safe: the run stops. No arm raises it. -/
  | notModelled (mnemonic : String)
deriving DecidableEq, Repr

/-- The package. -/
structure State where
  cycle : Nat
  /-- the model's own: numbers given to accesses, operations, teams, units and records -/
  serial : Nat
  /-- the model's own: counts the free choices taken (log 2) -/
  freeCtr : Nat
  /-- the model's own: events of the world outside, in arrival order (log 1) -/
  inputs : List Instr
  /-- the model's own: the issues chosen for this cycle, those made of them so far, and the teams as the cycle found them
  (log 4) -/
  plan : List Choice
  made : List Choice
  view : List Team
  issue : Option Issue
  teams : List Team
  launches : List Launch
  ctxs : List Ctx
  dies : List Die
  accs : List Acc
  ops : List Op
  fills : List Fill
  records : List Record
  units : List WaitUnit
  invals : List Inval
  stale : List Stale
  /-- exact sums of words of host memory, which no slice of the package holds (R142) -/
  hostSums : List ExactSum
  collSets : List CollSet
  /-- collective answers on their way to an operation of this device -/
  collAnswers : List (Nat × Nat × List Byte)
  mem : List Host.Cell
  lost : List Nat
  poison : List Nat
  /-- the keys of a memory line written under keys (R388) -/
  ktag : Sparse Nat
  /-- lines of STRM pages that the host may cache, with no host state (R122) -/
  strm : List Nat
  /-- what stores have made of a sector while a launch lives, each with a number and the key of its line then (R154, R388) -/
  stored : Sparse (List (Nat × Nat × List Byte))
  domain0 : DWord
  expBase : DWord
  expN : DWord
  /-- devices no working route leads to, each with the cycle of its loss (R375) -/
  lostDevices : List (Nat × Nat)
  /-- host link and Duette ports with encryption running (R389) -/
  hostIde : Bool
  ports : List Nat
  fwState : Nat
  fwErr : Nat
  fwSvn : Nat
  lmsLeft : Nat
  attStat : Nat
  attCtx : Nat
  attNonce : List Byte
  attReport : List Byte
  moduleImage : Image
  /-- the image that runs, and one under verification (R390 to R392) -/
  fwImage : Image
  verifying : Option Image
  /-- the recovery window (R391) -/
  rcvWindow : Sparse Byte
  /-- core clock in MHz (R1, R393) and whether the module's limits hold -/
  clock : Nat
deriving DecidableEq, Repr

/-- A context as power-on leaves it (Reset columns of Tables 13-1, 15-5, 16-5 and 16-9). The measurement's start is a
DESIGN CHOICE (log 14). -/
def Ctx.reset : Ctx :=
  { ctl := 0, btab := 0, ptroot := 0, jrnl := 0, jhead := 0, jtail := 0, event := 0, seqs := [], held := [],
    window := [], trap0 := 0, trap1 := 0, fq := 0, fqhead := 0, fqtail := 0, ovf := false, invdone := 0, awaits := [],
    heldReports := [], fqwait := [], mbuf := 0, mbase := 0, mplace := 0, mbusy := false, mstatus := 0, mdone := 0, mwait := [],
    grpBase := 0, grpN := 0, collGen := [], measure := List.replicate 48 0, key := 0, dying := false }

/-- A compute die at power-on (Reset columns of Tables 14-3, 16-2 and 17-1). -/
def Die.reset (present : Bool) : Die :=
  { present := present, state := if present then 1 else 0, lostcnt := 0, since := 0, hwm := 0,
    l2 := [], slice := [], acts := [], l1 := [], dir := [], sums := [], reserves := [], drainFit := [], spv := false, spbase := 0,
    spunits := 0, spused := 0, used := 0, byAge := [], fired := (0, 0), stageOut := (0, 0), backlog := [], cwdcnt := 0, psncnt := 0, capcnt := 0,
    rfmcnt := 0, lastcwd := 0, lastpsn := 0, alert := false, cwd := false, psn := false, capfull := false,
    msix := 0, hotth := 0x800, captured := [] }

/-- The package at power-on, before the boot ROM has run (step 1 of Table 17-3): no context, no launch, no thread. -/
def State.reset : State :=
  { cycle := 0, serial := 1, freeCtr := 0, inputs := [], plan := [], made := [], view := [], issue := none, teams := [],
    launches := [], ctxs := List.replicate 64 Ctx.reset,
    dies := [Die.reset (Config.present 0), Die.reset (Config.present 1), Die.reset (Config.present 2),
      Die.reset (Config.present 3)],
    accs := [], ops := [], fills := [], records := [], units := [], invals := [], stale := [],
    hostSums := [], collSets := [], collAnswers := [], mem := [], lost := [], poison := [], ktag := [],
    strm := [], stored := [], domain0 := 0,
    expBase := 0, expN := 0, lostDevices := [], hostIde := false, ports := [], fwState := 0, fwErr := 0, fwSvn := 0,
    lmsLeft := 0, attStat := 0, attCtx := 0, attNonce := List.replicate 48 0, attReport := [],
    moduleImage := ⟨true, true, true, 0, []⟩, fwImage := ⟨false, false, false, 0, []⟩, verifying := none, rcvWindow := [],
    clock := 1100 }

end Sys2Proof.Machine
end

