-- ==== Sys2Proof/Machine/Sparse.lean ====
section
/-! DEFINITION. Sparse stores in canonical form (keys strictly rising, no row at the default) and memory as such a store
of cells; small operations on lists and bits that every later file uses. -/

namespace Sys2Proof.Machine

/-- Value of a key, or the default of an unlisted one. -/
def sget {α : Type} (d : α) : Sparse α → Nat → α
  | [], _ => d
  | (k, x) :: r, key => if k = key then x else sget d r key

/-- The store with a key's rows removed. -/
def serase {α : Type} : Sparse α → Nat → Sparse α
  | [], _ => []
  | (k, x) :: r, key => if k = key then serase r key else (k, x) :: serase r key

/-- The store with a row at its place in the order. -/
def sinsert {α : Type} : Sparse α → Nat → α → Sparse α
  | [], key, v => [(key, v)]
  | (k, x) :: r, key, v =>
    if key < k then (key, v) :: (k, x) :: r
    else if k = key then (key, v) :: r
    else (k, x) :: sinsert r key v

/-- Write: writing the default removes the row. -/
def sset {α : Type} [DecidableEq α] (d : α) (m : Sparse α) (key : Nat) (v : α) : Sparse α :=
  if v = d then serase m key else sinsert m key v

/-- The row of a key, if any; for stores whose rows exist or not. -/
def sfind {α : Type} : Sparse α → Nat → Option α
  | [], _ => none
  | (k, x) :: r, key => if k = key then some x else sfind r key

/-- Keys strictly rising from a lower bound. -/
def keysFrom {α : Type} : Nat → Sparse α → Bool
  | _, [] => true
  | lo, (k, _) :: r => decide (lo ≤ k) && keysFrom (k + 1) r

/-- Canonical form of a store with a default. -/
def swf {α : Type} [DecidableEq α] (d : α) (m : Sparse α) : Bool := keysFrom 0 m && m.all (fun r => decide (r.2 ≠ d))

/-- What an unlisted byte of memory reads as: 0. Device memory holds zeros after step 4 of power-on (R392); before it,
and in host memory, DESIGN CHOICE (log 6). -/
def unlistedByte : Byte := 0

/-- Canonical form of memory. -/
abbrev Memory.wf (m : List Host.Cell) : Bool := swf unlistedByte m

/-- One byte of memory. -/
def byteAt (m : List Host.Cell) (loc : Nat) : Byte := sget unlistedByte m loc

/-- Memory with one byte written. -/
def putByte (m : List Host.Cell) (loc : Nat) (b : Byte) : List Host.Cell := sset unlistedByte m loc b

/-- Consecutive bytes. -/
def bytesAt (m : List Host.Cell) (loc n : Nat) : List Byte := (List.range n).map (fun k => byteAt m (loc + k))

/-- Consecutive bytes written, the first at the lowest location. -/
def putBytes (m : List Host.Cell) (loc : Nat) : List Byte → List Host.Cell
  | [] => m
  | b :: r => putBytes (putByte m loc b) (loc + 1) r

/-- A number from its bytes, least significant first (R153). -/
def ofBytes : List Byte → Nat
  | [] => 0
  | b :: r => b.toNat + 256 * ofBytes r

/-- The low n bytes of a number, least significant first. -/
def toBytes (x : Nat) : Nat → List Byte
  | 0 => []
  | n + 1 => BitVec.ofNat 8 x :: toBytes (x / 256) n

/-- A field of a 64-bit register or word: n bits from bit lo. -/
def fld (w : DWord) (lo n : Nat) : Nat := (w.toNat / 2 ^ lo) % 2 ^ n

/-- One bit of a word. -/
def bit (w : DWord) (k : Nat) : Bool := w.getLsbD k

/-- Element k of a list changed. -/
def modifyAt {α : Type} (l : List α) (k : Nat) (f : α → α) : List α :=
  match l, k with
  | [], _ => []
  | x :: r, 0 => f x :: r
  | x :: r, k + 1 => x :: modifyAt r k f

/-- Insertion into a rising list without repeats. -/
def insertNat (x : Nat) : List Nat → List Nat
  | [] => [x]
  | y :: r => if x < y then x :: y :: r else if x = y then y :: r else y :: insertNat x r

/-- Insertion by a key, after equal keys. -/
def insertBy {α : Type} (key : α → List Nat) (x : α) : List α → List α
  | [] => [x]
  | y :: r => if key x < key y then x :: y :: r else y :: insertBy key x r

/-- A list sorted by lexicographic keys, equal keys in their order. -/
def sortBy {α : Type} (key : α → List Nat) (l : List α) : List α := l.foldl (fun acc x => insertBy key x acc) []

/-- Distinct elements, each at its first place. -/
def distinct {α : Type} [DecidableEq α] (l : List α) : List α :=
  l.foldl (fun acc x => if acc.contains x then acc else acc ++ [x]) []

/-- The element with the smallest key, the first of equals. -/
def leastBy {α : Type} (key : α → List Nat) : List α → Option α
  | [] => none
  | x :: r => some (r.foldl (fun b y => if key y < key b then y else b) x)

/-- Numbers below a bound. -/
def upto (n : Nat) : List Nat := List.range n

/-- ⌈a / b⌉. -/
def ceilDiv (a b : Nat) : Nat := (a + b - 1) / b

/-- Smallest power of two not below n, at most 2^k. -/
def pow2Above (n : Nat) : Nat → Nat
  | 0 => 1
  | k + 1 => if n ≤ pow2Above n k then pow2Above n k else 2 ^ (k + 1)

/-- Base-2 logarithm of a power of two below 2^64. -/
def log2 (n : Nat) : Nat := Nat.log2 n

/-- A 64-bit number from a low and a high word (R66). -/
def pairWord (lo hi : Word) : DWord := hi ++ lo

/-- Low and high word of a 64-bit number (R66). -/
def lowWord (x : DWord) : Word := x.extractLsb' 0 32
def highWord (x : DWord) : Word := x.extractLsb' 32 32

end Sys2Proof.Machine
end

