-- ==== Sys2Proof/Machine/Coherence.lean ====
section
/-! DEFINITION. Locations, the L2 and L1 of each die, the cross-die directory and the stores and loads at a slice
(05 R118 to R121, 06 R128 to R143, 16 R364 to R368). -/

namespace Sys2Proof.Machine

/-- Location of (die, channel, chaddr) (R114). -/
def locOf (die channel chaddr : Nat) : Nat := (die * 256 + channel) * 2 ^ 54 + chaddr

/-- Locations from here up are host memory (R342). -/
def hostBase : Nat := 2 ^ 70

/-- Home die of a location (R364); 4 or more for host memory. -/
def homeOf (loc : Nat) : Nat := if loc < hostBase then loc / 2 ^ 62 else 4

/-- The 256-byte line and the 64-byte sector of a location (R119, R380). -/
def lineOf (loc : Nat) : Nat := loc / 256
def secOf (loc : Nat) : Nat := loc / 64
def lineHome (line : Nat) : Nat := homeOf (line * 256)

/-- Placement of a die physical address by an interleave (R113). -/
def placeDpa (die gran chfirst chcount dpa : Nat) : Nat :=
  let g := 256 * 2 ^ gran
  let stripe := dpa / g
  locOf die (chfirst + stripe % chcount) (stripe / chcount * g + dpa % g)

/-- Placement by the default interleave of a die (R398). -/
def dpaLoc (die dpa : Nat) : Nat := placeDpa die 0 0 (Config.channels die) dpa

def State.die (s : State) (d : Nat) : Die := s.dies.getD d (Die.reset false)

def State.mapDie (s : State) (d : Nat) (f : Die → Die) : State := { s with dies := modifyAt s.dies d f }

/-- The directory entry of a line with no row: every die I, the host HI (R364). -/
def DirEntry.none : DirEntry := ⟨[.i, .i, .i, .i], .hi, 0⟩

def State.dirOf (s : State) (line : Nat) : DirEntry := (sfind (s.die (lineHome line)).dir line).getD DirEntry.none

def DirEntry.of (e : DirEntry) (d : Nat) : DirState := e.dies.getD d .i

def DirEntry.isNone (e : DirEntry) : Bool := e.dies == [.i, .i, .i, .i] && e.host == .hi

/-- A directory entry written; one that says nothing leaves no row. -/
def State.setDir (s : State) (line : Nat) (e : DirEntry) : State :=
  s.mapDie (lineHome line) (fun d =>
    { d with dir := if e.isNone then serase d.dir line else sinsert d.dir line e })

/-- A die's own state for a line changed. A row is allocated when the line first needs one (R367). -/
def State.setDirDie (s : State) (line die : Nat) (st : DirState) : State :=
  let e := s.dirOf line
  let e' := { e with dies := modifyAt e.dies die (fun _ => st) }
  if e.isNone then { s with serial := s.serial + 1 }.setDir line { e' with order := s.serial } else s.setDir line e'

def State.setHost (s : State) (line : Nat) (h : HostLine) : State :=
  let e := s.dirOf line
  let e' := { e with host := h }
  if e.isNone then { s with serial := s.serial + 1 }.setDir line { e' with order := s.serial } else s.setDir line e'

/-- Every other die is I for the line. -/
def DirEntry.othersI (e : DirEntry) (d : Nat) : Bool :=
  (upto 4).all (fun k => k == d || e.of k == .i)

/-- The die that holds the line in E or M, if any (R364). -/
def DirEntry.owner (e : DirEntry) : Option Nat :=
  (upto 4).find? (fun k => e.of k == .e || e.of k == .m)

def State.sector (s : State) (d sec : Nat) : Option Sector := sfind (s.die d).l2 sec

/-- A byte with the bits of a mask taken from another. -/
def mergeByte (under new mask : Byte) : Byte := (under &&& ~~~mask) ||| (new &&& mask)

/-- A byte a sector holds: filled or written (R119). -/
def Sector.has (x : Sector) (k : Nat) : Bool := x.full || x.mask.getD k 0 == 0xFF

/-- A byte of a sector over the byte beneath it. -/
def Sector.over (x : Sector) (k : Nat) (under : Byte) : Byte :=
  if x.full then x.data.getD k 0 else mergeByte under (x.data.getD k 0) (x.mask.getD k 0)

/-- Some byte of the sector has been written since it was last clean. -/
def Sector.dirty (x : Sector) : Bool := x.mask.any (fun m => m != 0)

def noMask : List Byte := List.replicate 64 0

/-- The byte the home die holds: its L2 over memory. -/
def State.homeByte (s : State) (loc : Nat) : Byte :=
  match s.sector (homeOf loc) (secOf loc) with
  | some x => x.over (loc % 64) (byteAt s.mem loc)
  | none => byteAt s.mem loc

/-- The current value of a byte: the owning die's over the home's (R119, R364). -/
def State.truth (s : State) (loc : Nat) : Byte :=
  match (s.dirOf (lineOf loc)).owner with
  | some y =>
    match s.sector y (secOf loc) with
    | some x => x.over (loc % 64) (s.homeByte loc)
    | none => s.homeByte loc
  | none => s.homeByte loc

/-- A byte as a die sees it: its own L2 over the current value (R119, R137). -/
def State.dieByte (s : State) (d loc : Nat) : Byte :=
  match s.sector d (secOf loc) with
  | some x => x.over (loc % 64) (s.truth loc)
  | none => s.truth loc

def State.dieBytes (s : State) (d loc n : Nat) : List Byte := (upto n).map (fun k => s.dieByte d (loc + k))

/-- Removal of a line's L1 copies on a die (R120). -/
def dropL1 (line : Nat) (d : Die) : Die :=
  { d with l1 := d.l1.filter (fun r => decide (r.1 % 2 ^ 80 / 4 ≠ line)) }

/-- Removal of a line from a die's L2 and L1s. -/
def dropLine (line : Nat) (d : Die) : Die :=
  { dropL1 line d with l2 := d.l2.filter (fun r => decide (r.1 / 4 ≠ line)) }

/-- Future loads parked on a sector in a slice's wait table are woken: they execute again (R148). -/
def State.wake (s : State) (d sec : Nat) : State :=
  { s with accs := s.accs.map (fun a =>
      if a.kind = .ldf ∧ a.parked ∧ a.inTable ∧ secOf a.loc = sec ∧ (if a.route = .strm then homeOf a.loc = d else a.die = d)
      then { a with parked := false, inTable := false } else a) }

def State.wakeLine (s : State) (d line : Nat) : State :=
  (upto 4).foldl (fun s k => s.wake d (line * 4 + k)) s

/-- A directory action on a die's copy wakes the line's waiters there and at the home slice (R365). -/
def State.wakeBoth (s : State) (d line : Nat) : State := (s.wakeLine d line).wakeLine (lineHome line) line

/-- Channel and chaddr of a location (Table 17-1). -/
def placeWord (loc : Nat) : DWord := BitVec.ofNat 64 (loc / 2 ^ 54 % 256 * 2 ^ 56 + loc % 2 ^ 48)

def sat32 (n : Nat) : Nat := min n (2 ^ 32 - 1)

/-- The count of MSI-X messages when an event bit of the health block is set: one more where it was 0 (Table 17-1). -/
def Die.sends (D : Die) (was : Bool) : Nat := if was then D.msix else D.msix + 1

/-- A poisoning adds one to the home die's count, names the line and sets PSN (R386). -/
def State.countPoison (s : State) (loc : Nat) : State :=
  s.mapDie (homeOf loc) (fun d =>
    { d with psncnt := sat32 (d.psncnt + 1), lastpsn := placeWord loc, psn := true, msix := d.sends d.psn })

/-! ### Memory below the L2s: memory-side slices and activations (R381 to R383) -/

/-- The key of a location's channel among its die's. -/
def channelOf (loc : Nat) : Nat := loc / 2 ^ 54 % 256

/-- Lines of a channel in its memory-side slice. -/
def Die.sliceLines (D : Die) (channel : Nat) : List Nat :=
  (D.slice.map Prod.fst).filter (fun x => channelOf (x * 64) == channel)

/-- Row of a location in its channel: 1 KiB (R382; DEDUCED, log 16: aligned in chaddr). -/
def rowOf (loc : Nat) : Nat := loc % 2 ^ 54 / 1024

/-- A memory line captured with its row (R382). -/
def Die.pinned (D : Die) (sec : Nat) : Bool :=
  D.captured.any (fun r => r.1 == channelOf (sec * 64) && r.2.1 == rowOf (sec * 64))

/-- An access of a die's memory freely activates its row, which its bank counts, or finds it open (R382; log 16). -/
def State.activate (s : State) (d loc : Nat) : State :=
  let key := channelOf loc * 2 ^ 16 + Config.bankOf d (channelOf loc) (rowOf loc) % 2 ^ 16
  ({ s with freeCtr := s.freeCtr + 1 } : State).mapDie d (fun D => { D with
    acts := if Config.freeChoice s.freeCtr % 2 = 0 then D.acts
            else sinsert D.acts key ((sget (0, 0) D.acts key).1 + 1, rowOf loc) })

/-- A memory line enters its channel's slice; a full slice gives up a line that is not pinned (DESIGN CHOICE, log 16: any
of them), written back where it is dirty. -/
def State.sliceTakes (s : State) (sec : Nat) (dirty : Bool) : State :=
  let d := homeOf (sec * 64)
  let D := s.die d
  let here := D.sliceLines (channelOf (sec * 64))
  if here.length < Config.sliceCapacity then s.mapDie d (fun D => { D with slice := sinsert D.slice sec dirty })
  else
    let free := here.filter (fun x => !D.pinned x)
    let out := free.getD (Config.freeChoice s.freeCtr % free.length) 0
    let s : State := { s with freeCtr := s.freeCtr + 1 }
    let s := if sfind D.slice out = some true then s.activate d (out * 64) else s
    s.mapDie d (fun D => { D with slice := sinsert (serase D.slice out) sec dirty })

/-- An access of an L2 to a memory line: served by the slice that holds it, or by the memory behind it, which may activate
a row of the channel and, on a B-die, puts the line in the slice (R381, R382). -/
def State.memTouch (s : State) (sec : Nat) (write : Bool) : State :=
  let loc := sec * 64
  if hostBase ≤ loc then s
  else
    let d := homeOf loc
    if Config.isM d then s.activate d loc
    else
      match sfind (s.die d).slice sec with
      | some dirty => s.mapDie d (fun D => { D with slice := sinsert D.slice sec (dirty || write) })
      | none => (s.activate d loc).sliceTakes sec write

/-- Written bytes of a die's sector put back in memory; over a poisoned line they are discarded, which adds one to PSNCNT
(R386). -/
def State.writeBack (s : State) (sec : Nat) (x : Sector) : State :=
  if x.dirty then
    if s.poison.contains sec then s.mapDie (homeOf (sec * 64)) (fun d => { d with psncnt := sat32 (d.psncnt + 1) })
    else { s.memTouch sec true with mem := (upto 64).foldl (fun m k =>
        if x.mask.getD k 0 = 0 then m else putByte m (sec * 64 + k) (mergeByte (byteAt m (sec * 64 + k)) (x.data.getD k 0) (x.mask.getD k 0))) s.mem }
  else s

/-- A line leaves a die's L2: written bytes of dirty sectors go to memory, copies are removed (R119, R120). -/
def State.evictLine (s : State) (d line : Nat) : State :=
  let s := (upto 4).foldl (fun s k =>
    match s.sector d (line * 4 + k) with
    | some x => s.writeBack (line * 4 + k) x
    | none => s) s
  s.mapDie d (dropLine line)

/-- Line data on its way to a die is passed over when the home changes the die's state first. -/
def State.dropFills (s : State) (d line : Nat) : State :=
  { s with fills := s.fills.filter (fun f => !(f.die == d && f.line == line)) }

/-- A recall of a die: it writes back, drops the line, is I, and wakes its waiters (R365). -/
def State.recall (s : State) (d line : Nat) : State :=
  (((s.evictLine d line).setDirDie line d .i).dropFills d line).wakeBoth d line

/-- A downgrade: a recall that leaves the die in S (R365); its copy stays, clean. -/
def State.downgrade (s : State) (d line : Nat) : State :=
  let s := (upto 4).foldl (fun s k =>
    match s.sector d (line * 4 + k) with
    | some x =>
      (s.writeBack (line * 4 + k) x).mapDie d (fun D =>
        { D with l2 := if x.full then sinsert D.l2 (line * 4 + k) { x with mask := noMask }
                       else serase D.l2 (line * 4 + k) })
    | none => s) s
  (((s.mapDie d (dropL1 line)).setDirDie line d .s).dropFills d line).wakeBoth d line

/-- An invalidation: the die's copy is removed without data (R137, R365). Bytes not yet package-performed stay. -/
def State.invalidate (s : State) (d line : Nat) : State :=
  let s := (upto 4).foldl (fun s k =>
    match s.sector d (line * 4 + k) with
    | some x => s.mapDie d (fun D =>
        { D with l2 := if x.dirty then sinsert D.l2 (line * 4 + k) { x with full := false }
                       else serase D.l2 (line * 4 + k) })
    | none => s) s
  (((s.mapDie d (dropL1 line)).setDirDie line d .i).dropFills d line).wakeBoth d line

/-- Any access by the home die or one that needs every other die I for its data: an E or M die is recalled (R365). -/
def State.homeRecall (s : State) (line : Nat) : State :=
  match (s.dirOf line).owner with
  | some y => s.recall y line
  | none => s

/-- Write ownership for the home die: every other die I (R365). -/
def State.homeOwn (s : State) (line : Nat) : State :=
  (upto 4).foldl (fun s k => if (s.dirOf line).of k == .s then s.invalidate k line else s) (s.homeRecall line)

/-- The home L2's bytes of a line go to memory and its copy is dropped. -/
def State.dropHome (s : State) (line : Nat) : State := (s.evictLine (lineHome line) line).wakeLine (lineHome line) line

def State.lineBytes (s : State) (line : Nat) : List Byte := (upto 256).map (fun k => s.truth (line * 256 + k))

/-- The home L2 holds some sector of the line. -/
def State.homeHolds (s : State) (line : Nat) : Bool :=
  (upto 4).any (fun k => (s.sector (lineHome line) (line * 4 + k)).isSome)

/-- The line of a sector's line data read from memory where the home L2 does not hold it. -/
def State.lineTouch (s : State) (line : Nat) : State :=
  (upto 4).foldl (fun s k =>
    if (s.sector (lineHome line) (line * 4 + k)).any (fun x => x.full) then s else s.memTouch (line * 4 + k) false) s

/-- A sector read at its home slice: from memory where the L2 does not hold the whole of it (R381). -/
def State.homeTouch (s : State) (sec : Nat) : State :=
  if hostBase ≤ sec * 64 ∨ (s.sector (homeOf (sec * 64)) sec).any (fun x => x.full) then s else s.memTouch sec false

/-- Some locations read at their home slices. -/
def State.touchAll (s : State) (locs : List Nat) : State := (distinct (locs.map secOf)).foldl State.homeTouch s

/-- The set of a line's directory entry: the slice's, by the hash of R119 (R367). -/
def dirSetOf (line : Nat) : Nat :=
  (Config.sliceHash (lineHome line) (line * 256 / 2 ^ 54 % 256) (line * 256 % 2 ^ 54) % 32) * Config.dirSets
    + line % Config.dirSets

/-- The entry that gives way to a line that needs one: in a full set, the least recently allocated (R367). -/
def State.victim (s : State) (line : Nat) : Option (Nat × DirEntry) :=
  let D := s.die (lineHome line)
  if D.dir.length < Config.dirWays || (sfind D.dir line).isSome then none
  else
    let rows := D.dir.filter (fun r => decide (dirSetOf r.1 = dirSetOf line))
    if rows.length < Config.dirWays then none else leastBy (fun r => [r.2.order]) rows

/-- An entry can be allocated for the line: none gives way to it, or the host has given up the one that does, as the snoop
of its recall asks (R367, R368). -/
def State.hasRoom (s : State) (line : Nat) : Bool := match s.victim line with | some r => r.2.host == .hi | none => true

/-- Room for an entry: the line that gives way is recalled from every die (R367). -/
def State.makeRoom (s : State) (line : Nat) : State :=
  match s.victim line with
  | some r =>
    let s := s.homeRecall r.1
    (upto 4).foldl (fun s k => if (s.dirOf r.1).of k == .s then s.invalidate k r.1 else s) s
  | none => s

/-- Every line that a die not its home needs finds an entry, each after those before it (R367): one after another they are allocated
as `makeRoom` and the directory's rows have it. -/
def State.dirRoom (d : Nat) : List Nat → State → Bool
  | [], _ => true
  | l :: rest, s =>
    if lineHome l = d ∨ hostBase ≤ l * 256 ∨ (sfind (s.die (lineHome l)).dir l).isSome then State.dirRoom d rest s
    else s.hasRoom l && State.dirRoom d rest ((s.makeRoom l).setDirDie l d .s)

/-- A read miss of die X applied at the home directory (Table 16-4, first three rows): data goes on its way. -/
def State.applyReadMiss (s : State) (x line : Nat) : State :=
  let s := s.makeRoom line
  let e := s.dirOf line
  let s' := match e.owner with
    | some y => if y = x then s else (s.downgrade y line).setDirDie line x .s
    | none =>
      if e.othersI x && !s.homeHolds line then s.setDirDie line x .e else s.setDirDie line x .s
  let s' := s'.lineTouch line
  { s' with fills := s'.fills ++ [⟨x, line, s.lineBytes line, false⟩] }

/-- Write ownership for die X applied at the home directory (Table 16-4, fourth and fifth rows): data goes on its way
with the grant. -/
def State.applyOwn (s : State) (x line : Nat) : State :=
  let s := s.makeRoom line
  let s := match (s.dirOf line).owner with
    | some y => if y = x then s else s.recall y line
    | none => s
  let data := s.lineBytes line
  let s := (upto 4).foldl (fun s k => if k ≠ x ∧ (s.dirOf line).of k == .s then s.invalidate k line else s) s
  let s := if lineHome line = x then s else (s.lineTouch line).dropHome line
  let s := s.setDirDie line x .m
  { s with fills := s.fills ++ [⟨x, line, data, true⟩] }

/-- Line data received by a die's L2: sectors filled beneath the written bytes, with fresh times (R119, R366). -/
def State.receive (s : State) (f : Fill) : State :=
  let D := s.die f.die
  let t := D.hwm + 1
  s.mapDie f.die (fun D =>
    { D with
      hwm := t,
      l2 := (upto 4).foldl (fun m k =>
        let sec := f.line * 4 + k
        let old := (sfind m sec).getD ⟨false, noMask, List.replicate 64 0, 0, 0⟩
        sinsert m sec ⟨true, old.mask, (upto 64).map (fun j =>
            mergeByte (f.data.getD (k * 64 + j) 0) (old.data.getD j 0) (old.mask.getD j 0)), t, t⟩) D.l2 })

/-- A sector of a line homed on the die filled from memory beneath its written bytes, with fresh times as R366 gives
(DEDUCED, log 11). -/
def State.fillHome (s : State) (d sec : Nat) : State :=
  match s.sector d sec with
  | some x =>
    if x.full then s
    else (s.memTouch sec false).mapDie d (fun D => { D with
      hwm := D.hwm + 1,
      l2 := sinsert D.l2 sec ⟨true, x.mask, (upto 64).map (fun j =>
        x.over j (byteAt s.mem (sec * 64 + j))), D.hwm + 1, D.hwm + 1⟩ })
  | none => (s.memTouch sec false).mapDie d (fun D => { D with
      hwm := D.hwm + 1,
      l2 := sinsert D.l2 sec ⟨true, noMask, bytesAt s.mem (sec * 64) 64, D.hwm + 1, D.hwm + 1⟩ })

/-- Directory state of a die as it bears on its own L2: the home die holds the line in M when every other die is I and
in S otherwise. -/
def State.holds (s : State) (d line : Nat) : DirState :=
  let e := s.dirOf line
  if lineHome line = d then (if e.othersI d then .m else .s) else e.of d

/-- A die's L2 may serve a load of the location: it holds the byte, or the line is its own and no other die owns it. -/
def State.mayRead (s : State) (d loc n : Nat) : Bool :=
  if homeOf loc = d then (match (s.dirOf (lineOf loc)).owner with | some y => y == d | none => true)
  else
    match s.sector d (secOf loc) with
    | some x => (upto n).all (fun k => x.has (loc % 64 + k))
    | none => false

/-- The values that stores give to words of memory while a launch lives, for fetches that may see any of them (R154). -/
def State.noteStored (s : State) (d sec : Nat) : State :=
  if s.launches.isEmpty then s
  else { s with
    serial := s.serial + 1,
    stored := sinsert s.stored sec (((sfind s.stored sec).getD []) ++ [(s.serial, sget 0 s.ktag sec, s.dieBytes d (sec * 64) 64)]) }

/-- A store of bytes of one sector applied at a die's slice (R132): the sector's write time, which it returns. -/
def State.storeSector (s : State) (d sec : Nat) (ws : List (Nat × Byte × Byte)) (p : Nat) : State × Nat :=
  let D := s.die d
  let old := (s.sector d sec).getD ⟨false, noMask, List.replicate 64 0, D.hwm, D.hwm⟩
  let t := max p (old.rts + 1)
  let mine := ws.filter (fun w => decide (secOf w.1 = sec))
  let data := mine.foldl (fun l w => modifyAt l (w.1 % 64) (fun o => mergeByte o w.2.1 w.2.2)) old.data
  let mask := mine.foldl (fun l w => modifyAt l (w.1 % 64) (fun m => m ||| w.2.2)) old.mask
  let s := s.mapDie d (fun D => { D with hwm := max D.hwm t, l2 := sinsert D.l2 sec ⟨old.full, mask, data, t, t⟩ })
  ((s.noteStored d sec).wake d sec, t)

/-- The L1 copy of a core written when a store of a thread of that core completes (R118, R132). -/
def State.storeL1 (s : State) (d core sec : Nat) (ws : List (Nat × Byte × Byte)) (t : Nat) : State :=
  s.mapDie d (fun D =>
    match sfind D.l1 (core * 2 ^ 80 + sec) with
    | none => D
    | some c =>
      let data := (ws.filter (fun w => decide (secOf w.1 = sec))).foldl (fun l w =>
        modifyAt l (w.1 % 64) (fun o => mergeByte o w.2.1 w.2.2)) c.data
      { D with l1 := sinsert D.l1 (core * 2 ^ 80 + sec) ⟨data, t, t⟩ })

/-- Writes applied at a slice, sector by sector; the largest write time. -/
def State.storeAt (s : State) (d : Nat) (ws : List (Nat × Byte × Byte)) (p : Nat) : State × Nat :=
  (distinct (ws.map (fun w => secOf w.1))).foldl (fun r sec =>
    let q := r.1.storeSector d sec ws p
    (q.1, max r.2 q.2)) (s, 0)

/-- A read of a sector renewed at a slice (R131): its lease raised; data and times. -/
def State.renew (s : State) (d sec pt lease : Nat) : State × Sector :=
  let x := (s.sector d sec).getD ⟨true, noMask, bytesAt s.mem (sec * 64) 64, 0, 0⟩
  let x' := { x with rts := max x.rts (max x.wts (pt + lease)) }
  (s.mapDie d (fun D => { D with hwm := max D.hwm x'.rts, l2 := sinsert D.l2 sec x' }), x')

/-- Everything a die needs to read a line, done at once: for engines, page walks and the I/O die, whose accesses are
performed whole (log 8). -/
def State.readyRead (s : State) (d loc : Nat) : State :=
  let line := lineOf loc
  if hostBase ≤ loc then s
  else if homeOf loc = d then
    (if s.mayRead d loc 1 then s else s.homeRecall line).fillHome d (secOf loc)
  else if s.mayRead d (secOf loc * 64) 64 then s
  else
    let s := if (s.dirOf line).of d == .i then s.applyReadMiss d line else { s with fills := s.fills ++ [⟨d, line, s.lineBytes line, false⟩] }
    let s' := s.fills.foldl (fun t f => if f.die = d ∧ f.line = line then t.receive f else t) s
    { s' with fills := s'.fills.filter (fun f => !(f.die == d && f.line == line)) }

/-- Everything a die needs to own a line, done at once (log 8). -/
def State.readyOwn (s : State) (d loc : Nat) : State :=
  let line := lineOf loc
  if hostBase ≤ loc then s
  else if homeOf loc = d then s.homeOwn line
  else
    match (s.dirOf line).of d with
    | .m => s
    | .e => s.setDirDie line d .m
    | _ =>
      let s := s.applyOwn d line
      let s' := s.fills.foldl (fun t f => if f.die = d ∧ f.line = line then t.receive f else t) s
      { s' with fills := s'.fills.filter (fun f => !(f.die == d && f.line == line)) }

/-- Bytes of host memory written. -/
def State.putHost (s : State) (ws : List (Nat × Byte × Byte)) : State :=
  { s with mem := ws.foldl (fun m w => putByte m w.1 (mergeByte (byteAt m w.1) w.2.1 w.2.2)) s.mem }

/-- An applied store has nothing more to wait for. -/
def Acc.finished (a : Acc) : Bool := a.stage == .applied && a.pkg && a.sys

/-- No host cache holds the line any more: its stores are system-performed. -/
def State.hostGone (s : State) (line : Nat) : State :=
  let s := s.setHost line .hi
  let f (a : Acc) : Acc := if a.stage = .applied ∧ a.pkg ∧ lineOf a.loc = line then { a with sys := true } else a
  { s with accs := (s.accs.map f).filter (fun a => !a.finished) }

/-- A line of a STRM page is accessed: it has no host state (R122). One that the host cached before its page was mapped so is the
host's own to maintain (DESIGN CHOICE, log 22). -/
def State.noteStrm (s : State) (loc : Nat) : State :=
  let line := lineOf loc
  if hostBase ≤ loc ∨ (s.dirOf line).host = .hi then s
  else ({ s with strm := insertNat line s.strm } : State).hostGone line

/-- A write performed at once at the home slice of each byte, every other die I, nothing filled (R119, R140, R368, R398). L1 copies
on the home die stay under their leases (R132). -/
def State.homeWrite (s : State) (ws : List (Nat × Byte × Byte)) (p : Nat) : State × Nat :=
  (distinct (ws.map (fun w => secOf w.1))).foldl (fun r sec =>
    let loc := sec * 64
    if hostBase ≤ loc then (r.1.putHost (ws.filter (fun w => decide (secOf w.1 = sec))), r.2)
    else
      let d := homeOf loc
      let q := (r.1.readyOwn d loc).storeSector d sec ws p
      (q.1, max r.2 q.2)) (s, 0)

/-- Whole-byte writes from consecutive bytes. -/
def wholeWrites (loc : Nat) (bs : List Byte) : List (Nat × Byte × Byte) :=
  (upto bs.length).map (fun k => (loc + k, bs.getD k 0, 0xFF))

/-- Current bytes at consecutive locations. -/
def State.truthBytes (s : State) (loc n : Nat) : List Byte := (upto n).map (fun k => s.truth (loc + k))

end Sys2Proof.Machine
end

