-- ==== Sys2Proof/Machine/Float.lean ====
section
/-! DEFINITION. Exact arithmetic on float values and one rounding (04 R89 to R93, 10 R238 to R245). -/

namespace Sys2Proof.Machine

/-- A binary float layout (Table 4-2): exponent and fraction bits. -/
structure FFmt where
  eb : Nat
  fb : Nat
deriving DecidableEq, Repr

def f32 : FFmt := ⟨8, 23⟩
def f16 : FFmt := ⟨5, 10⟩
def bf16 : FFmt := ⟨8, 7⟩

def FFmt.bias (f : FFmt) : Nat := 2 ^ (f.eb - 1) - 1
def FFmt.width (f : FFmt) : Nat := f.eb + f.fb + 1
/-- Bits of +∞, of the largest finite value, of the canonical NaN and of the sign (Table 4-2). -/
def FFmt.infBits (f : FFmt) : Nat := (2 ^ f.eb - 1) * 2 ^ f.fb
def FFmt.maxBits (f : FFmt) : Nat := f.infBits - 1
def FFmt.nanBits (f : FFmt) : Nat := f.infBits + 2 ^ (f.fb - 1)
def FFmt.signBit (f : FFmt) : Nat := 2 ^ (f.eb + f.fb)

/-- The layout of a type code (Table 7-5): 10 and 13 to 14 by their element. -/
def fmtOf (t : BitVec 4) : FFmt := if t.toNat = 10 then f32 else if t.toNat = 11 ∨ t.toNat = 13 then f16 else bf16

/-- Rounding codes of R90. -/
inductive Mode where
  | rn
  | rz
  | ru
  | rd
deriving DecidableEq, Repr

def modeOf (m : BitVec 2) : Mode := if m = 0 then .rn else if m = 1 then .rz else if m = 2 then .ru else .rd

def Num.zero (neg : Bool) : Num := .fin neg 0 0
def Num.isZero : Num → Bool
  | .fin _ m _ => m == 0
  | _ => false
def Num.isNan : Num → Bool
  | .nan => true
  | _ => false
def Num.neg? : Num → Bool
  | .nan => false
  | .inf n => n
  | .fin n _ _ => n
def Num.negate : Num → Num
  | .nan => .nan
  | .inf n => .inf (!n)
  | .fin n m e => .fin (!n) m e

/-- The value of a bit pattern (R89, R91, R92). -/
def unpack (f : FFmt) (bits : Nat) : Num :=
  let neg := decide (bits / f.signBit % 2 = 1)
  let ex := bits / 2 ^ f.fb % 2 ^ f.eb
  let fr := bits % 2 ^ f.fb
  if ex = 2 ^ f.eb - 1 then (if fr = 0 then .inf neg else .nan)
  else if ex = 0 then .fin neg fr (1 - (f.bias : Int) - f.fb)
  else .fin neg (2 ^ f.fb + fr) ((ex : Int) - f.bias - f.fb)

def signed (f : FFmt) (neg : Bool) (bits : Nat) : Nat := if neg then f.signBit + bits else bits

/-- Whether rounding moves away from zero: quotient odd, remainder r of divisor d (R90). -/
def roundsUp (mode : Mode) (neg : Bool) (odd : Bool) (r d : Nat) : Bool :=
  match mode with
  | .rn => decide (2 * r > d) || (decide (2 * r = d) && odd)
  | .rz => false
  | .ru => decide (r ≠ 0) && !neg
  | .rd => decide (r ≠ 0) && neg

/-- Overflow under a mode (R90). -/
def overflow (f : FFmt) (mode : Mode) (neg : Bool) : Nat :=
  match mode with
  | .rn => signed f neg f.infBits
  | .rz => signed f neg f.maxBits
  | .ru => if neg then signed f true f.maxBits else f.infBits
  | .rd => if neg then signed f true f.infBits else f.maxBits

/-- floor(log2(n / d)) for n, d > 0. -/
def ilog2 (n d : Nat) : Int :=
  let k : Int := (Nat.log2 n : Int) - (Nat.log2 d : Int)
  let le := if 0 ≤ k then d * 2 ^ k.toNat ≤ n else d ≤ n * 2 ^ (-k).toNat
  if le then k else k - 1

/-- (−1)^neg × n/d × 2^e rounded once to a layout (R90). -/
def roundQ (f : FFmt) (mode : Mode) (neg : Bool) (n d : Nat) (e : Int) : Nat :=
  if n = 0 then signed f neg 0
  else
    let emin : Int := 1 - (f.bias : Int)
    let ex := ilog2 n d + e
    let ulp : Int := (if ex < emin then emin else ex) - f.fb
    let sh := e - ulp
    let nn := if 0 ≤ sh then n * 2 ^ sh.toNat else n
    let dd := if 0 ≤ sh then d else d * 2 ^ (-sh).toNat
    let q := nn / dd
    let q' := if roundsUp mode neg (decide (q % 2 = 1)) (nn % dd) dd then q + 1 else q
    let bits := if q' < 2 ^ f.fb then q' else ((ulp + f.fb - emin).toNat + 1) * 2 ^ f.fb + (q' - 2 ^ f.fb)
    if f.infBits ≤ bits then overflow f mode neg else signed f neg bits

/-- A value rounded once to a layout; NaN is canonical (R92). -/
def pack (f : FFmt) (mode : Mode) : Num → Nat
  | .nan => f.nanBits
  | .inf neg => signed f neg f.infBits
  | .fin neg m e => roundQ f mode neg m 1 e

/-- Signed integer of a finite value at a common exponent. -/
def atExp (neg : Bool) (m : Nat) (e e0 : Int) : Int :=
  let x : Int := (m : Int) * 2 ^ (e - e0).toNat
  if neg then -x else x

/-- Exact sum; the sign of an exact zero sum follows R91. -/
def Num.add (mode : Mode) : Num → Num → Num
  | .nan, _ => .nan
  | _, .nan => .nan
  | .inf a, .inf b => if a = b then .inf a else .nan
  | .inf a, _ => .inf a
  | _, .inf b => .inf b
  | .fin an am ae, .fin bn bm be =>
    if am = 0 ∧ bm = 0 then (if an = bn then .fin an 0 0 else .fin (mode == .rd) 0 0)
    else
      let e0 := min ae be
      let x := atExp an am ae e0 + atExp bn bm be e0
      if x = 0 then .fin (mode == .rd) 0 0 else .fin (decide (x < 0)) x.natAbs e0

def Num.mul : Num → Num → Num
  | .nan, _ => .nan
  | _, .nan => .nan
  | .inf a, b => if b.isZero then .nan else .inf (a != b.neg?)
  | .fin an am _, .inf b => if am = 0 then .nan else .inf (an != b)
  | .fin an am ae, .fin bn bm be => .fin (an != bn) (am * bm) (ae + be)

/-- Order of two values that are not NaN, −0 below +0 only where `zeros` says so. -/
def Num.lt (zeros : Bool) : Num → Num → Bool
  | .nan, _ => false
  | _, .nan => false
  | .inf a, .inf b => a && !b
  | .inf a, .fin _ _ _ => a
  | .fin _ _ _, .inf b => !b
  | .fin an am ae, .fin bn bm be =>
    if am = 0 ∧ bm = 0 then zeros && an && !bn
    else decide (atExp an am ae (min ae be) < atExp bn bm be (min ae be))

/-- Flags of a float compare (Table 3-2). -/
def floatFlags (a b : Num) : Flags :=
  if a.isNan || b.isNan then ⟨false, false, false, true⟩
  else if a.lt false b then ⟨true, false, false, false⟩
  else if b.lt false a then ⟨false, false, true, false⟩
  else ⟨false, true, true, false⟩

/-- FMIN and FMAX on bit patterns (R241). -/
def fminBits (f : FFmt) (a b : Nat) : Nat :=
  match (unpack f a).isNan, (unpack f b).isNan with
  | true, true => f.nanBits
  | true, false => b
  | false, true => a
  | false, false => if (unpack f b).lt true (unpack f a) then b else a

def fmaxBits (f : FFmt) (a b : Nat) : Nat :=
  match (unpack f a).isNan, (unpack f b).isNan with
  | true, true => f.nanBits
  | true, false => b
  | false, true => a
  | false, false => if (unpack f a).lt true (unpack f b) then b else a

def faddBits (f : FFmt) (m : Mode) (a b : Nat) : Nat := pack f m ((unpack f a).add m (unpack f b))
def fsubBits (f : FFmt) (m : Mode) (a b : Nat) : Nat := pack f m ((unpack f a).add m (unpack f b).negate)
def fmulBits (f : FFmt) (m : Mode) (a b : Nat) : Nat := pack f m ((unpack f a).mul (unpack f b))
/-- A × B + D rounded once (R90, R239). -/
def fmacBits (f : FFmt) (m : Mode) (a b d : Nat) : Nat :=
  pack f m (((unpack f a).mul (unpack f b)).add m (unpack f d))

/-- Division rounded once (R240). -/
def fdivBits (f : FFmt) (m : Mode) (a b : Nat) : Nat :=
  match unpack f a, unpack f b with
  | .nan, _ => f.nanBits
  | _, .nan => f.nanBits
  | .inf _, .inf _ => f.nanBits
  | .inf x, .fin y _ _ => signed f (x != y) f.infBits
  | .fin x _ _, .inf y => signed f (x != y) 0
  | .fin x mx ex, .fin y my ey =>
    if my = 0 then (if mx = 0 then f.nanBits else signed f (x != y) f.infBits)
    else roundQ f m (x != y) mx my (ex - ey)

/-- Integer square root by Newton's steps from above. -/
def isqrtLoop (n : Nat) : Nat → Nat → Nat
  | 0, x => x
  | k + 1, x => let y := (x + n / x) / 2; if y < x then isqrtLoop n k y else x

def isqrt (n : Nat) : Nat := if n = 0 then 0 else isqrtLoop n 2048 (2 ^ (Nat.log2 n / 2 + 1))

/-- A square root to many bits with a sticky bit below them: (value, exponent). -/
def rootOf (n : Nat) : Nat := let r := isqrt n; 2 * r + (if r * r = n then 0 else 1)

def fsqrtBits (f : FFmt) (m : Mode) (b : Nat) : Nat :=
  match unpack f b with
  | .nan => f.nanBits
  | .inf neg => if neg then f.nanBits else f.infBits
  | .fin neg x e =>
    if x = 0 then signed f neg 0
    else if neg then f.nanBits
    else
      let o := (e % 2).toNat
      roundQ f m false (rootOf (x * 2 ^ (128 + o))) 1 ((e - o - 128) / 2 - 1)

def frcpBits (f : FFmt) (m : Mode) (b : Nat) : Nat :=
  match unpack f b with
  | .nan => f.nanBits
  | .inf neg => signed f neg 0
  | .fin neg x e => if x = 0 then signed f neg f.infBits else roundQ f m neg 1 x (-e)

/-- 1/√x: the root of 2^(2k)/x with a sticky bit for the remainder. -/
def frsqBits (f : FFmt) (b : Nat) : Nat :=
  match unpack f b with
  | .nan => f.nanBits
  | .inf neg => if neg then f.nanBits else 0
  | .fin neg x e =>
    if x = 0 then signed f neg f.infBits
    else if neg then f.nanBits
    else
      let o := (e % 2).toNat
      let y := x * 2 ^ o
      let q := 2 ^ 256 / y
      let r := isqrt q
      roundQ f .rn false (2 * r + (if r * r * y = 2 ^ 256 then 0 else 1)) 1 (-128 - (e - o) / 2 - 1)

/-- Fixed point with 400 fractional bits for the series below (log 7). -/
def fpBits : Nat := 400
def fpOne : Nat := 2 ^ fpBits

/-- Σ over odd k of z^k/k, with signs alternating where `alt` holds: atanh z, or atan z. -/
def oddSeries (alt : Bool) (z : Nat) (terms : Nat) : Int :=
  let z2 := z * z / fpOne
  ((upto terms).foldl (fun (acc : Int × Nat) k =>
    let t : Int := (acc.2 / (2 * k + 1) : Nat)
    (if alt && decide (k % 2 = 1) then acc.1 - t else acc.1 + t, acc.2 * z2 / fpOne)) ((0 : Int), z)).1

def fpLn2 : Nat := (2 * oddSeries false (fpOne / 3) 140).toNat
def fpPi : Nat := (16 * oddSeries true (fpOne / 5) 100 - 4 * oddSeries true (fpOne / 239) 40).toNat

/-- e^z for 0 ≤ z < 1 in fixed point. -/
def fpExp (z : Nat) : Nat :=
  ((upto 100).foldl (fun (acc : Nat × Nat) k => (acc.1 + acc.2, acc.2 * z / fpOne / (k + 1))) (0, fpOne)).1

/-- Sine and cosine for 0 ≤ z ≤ π/2 in fixed point. -/
def fpSinCos (z : Nat) : Int × Int :=
  let r := (upto 120).foldl (fun (acc : Int × Int × Nat) k =>
    let t : Int := acc.2.2
    let acc' := if k % 4 = 0 then (acc.1, acc.2.1 + t)
      else if k % 4 = 1 then (acc.1 + t, acc.2.1)
      else if k % 4 = 2 then (acc.1, acc.2.1 - t)
      else (acc.1 - t, acc.2.1)
    (acc'.1, acc'.2, acc.2.2 * z / fpOne / (k + 1))) ((0 : Int), (0 : Int), fpOne)
  (r.1, r.2.1)

/-- A finite magnitude in fixed point, for exponents of −400 and above. -/
def toFp (m : Nat) (e : Int) : Nat := m * 2 ^ (e + fpBits).toNat

def roundFp (f : FFmt) (x : Int) : Nat := roundQ f .rn (decide (x < 0)) x.natAbs 1 (-(fpBits : Int))

/-- 2^x (Table 10-2). -/
def fexp2Bits (f : FFmt) (b : Nat) : Nat :=
  match unpack f b with
  | .nan => f.nanBits
  | .inf neg => if neg then 0 else f.infBits
  | .fin neg m e =>
    if 10 ≤ ilog2 (m + 1) 1 + e then (if neg then 0 else f.infBits)
    else
      let x := toFp m e
      let z : Int := if neg then -(x : Int) else x
      let n := z / (fpOne : Int)
      let fr := (z % (fpOne : Int)).toNat
      roundQ f .rn false (fpExp (fr * fpLn2 / fpOne)) 1 (n - fpBits)

/-- log2 x (Table 10-2): the exponent and 2 atanh((m − 1)/(m + 1)) / ln 2. -/
def flog2Bits (f : FFmt) (b : Nat) : Nat :=
  match unpack f b with
  | .nan => f.nanBits
  | .inf neg => if neg then f.nanBits else f.infBits
  | .fin neg m e =>
    if m = 0 then signed f true f.infBits
    else if neg then f.nanBits
    else
      let k := Nat.log2 m
      let d := 2 ^ k
      let ln : Int := 2 * oddSeries false ((m - d) * fpOne / (m + d)) 140
      roundFp f (((k : Int) + e) * fpOne + ln * fpOne / fpLn2)

/-- Sine and cosine with the argument reduced exactly (R243): quadrant and remainder. -/
def trig (f : FFmt) (cosine : Bool) (b : Nat) : Nat :=
  match unpack f b with
  | .nan => f.nanBits
  | .inf _ => f.nanBits
  | .fin neg m e =>
    if m = 0 then (if cosine then pack f .rn (.fin false 1 0) else signed f neg 0)
    else
      let x := toFp m e
      let half := fpPi / 2
      let q := x / half % 4
      let sc := fpSinCos (x % half)
      let r : Int :=
        if cosine then (if q = 0 then sc.2 else if q = 1 then -sc.1 else if q = 2 then -sc.2 else sc.1)
        else (if q = 0 then sc.1 else if q = 1 then sc.2 else if q = 2 then -sc.1 else -sc.2)
      roundFp f (if neg && !cosine then -r else r)

/-- tanh x = (e^2x − 1)/(e^2x + 1). -/
def ftanhBits (f : FFmt) (b : Nat) : Nat :=
  match unpack f b with
  | .nan => f.nanBits
  | .inf neg => pack f .rn (.fin neg 1 0)
  | .fin neg m e =>
    if m = 0 then signed f neg 0
    else if 6 ≤ ilog2 m 1 + e then pack f .rn (.fin neg 1 0)
    else
      let y := 2 * toFp m e
      let n := y / fpLn2
      let ex := fpExp (y % fpLn2) * 2 ^ n
      roundQ f .rn neg (ex - fpOne) (ex + fpOne) 0

/-- A finite value rounded to an integer (R90, R93). -/
def roundInt (mode : Mode) (neg : Bool) (m : Nat) (e : Int) : Int :=
  let q := if 0 ≤ e then m * 2 ^ e.toNat else m / 2 ^ (-e).toNat
  let up := if 0 ≤ e then false
    else roundsUp mode neg (decide (q % 2 = 1)) (m % 2 ^ (-e).toNat) (2 ^ (-e).toNat)
  let r : Int := if up then q + 1 else q
  if neg then -r else r

/-- FRND (R244). -/
def frndBits (f : FFmt) (mode : Mode) (b : Nat) : Nat :=
  match unpack f b with
  | .nan => f.nanBits
  | .inf neg => signed f neg f.infBits
  | .fin neg m e => pack f mode (.fin neg (roundInt mode neg m e).natAbs 0)

/-- A value of an integer as a Num. -/
def numOfInt (x : Int) : Num := .fin (decide (x < 0)) x.natAbs 0

/-- Float to integer, rounded and clamped; NaN gives 0 (R93). -/
def floatToInt (f : FFmt) (mode : Mode) (lo hi : Int) (b : Nat) : Int :=
  match unpack f b with
  | .nan => 0
  | .inf neg => if neg then lo else hi
  | .fin neg m e => max lo (min hi (roundInt mode neg m e))

/-- An operation on each half of a packed word (R66, R238). -/
def packed2 (op : Nat → Nat → Nat) (a b : Word) : Word :=
  BitVec.ofNat 32 (op (a.toNat % 65536) (b.toNat % 65536) + 65536 * op (a.toNat / 65536) (b.toNat / 65536))

def packed3 (op : Nat → Nat → Nat → Nat) (a b d : Word) : Word :=
  BitVec.ofNat 32 (op (a.toNat % 65536) (b.toNat % 65536) (d.toNat % 65536)
    + 65536 * op (a.toNat / 65536) (b.toNat / 65536) (d.toNat / 65536))

/-- A two-operand float operation at a type code: packed for 13 and 14, bits [15:0] for 11 and 12 (R89, R238). -/
def floatOp2 (op : FFmt → Nat → Nat → Nat) (t : BitVec 4) (a b : Word) : Word :=
  let f := fmtOf t
  if t.toNat = 13 ∨ t.toNat = 14 then packed2 (op f) a b
  else BitVec.ofNat 32 (op f (a.toNat % 2 ^ f.width) (b.toNat % 2 ^ f.width))

/-- A one-operand float operation at a type code. -/
def floatOp1 (op : FFmt → Nat → Nat) (t : BitVec 4) (b : Word) : Word :=
  let f := fmtOf t
  if t.toNat = 13 ∨ t.toNat = 14 then packed2 (fun _ y => op f y) b b
  else BitVec.ofNat 32 (op f (b.toNat % 2 ^ f.width))

end Sys2Proof.Machine
end

