-- ==== Sys2Proof/Machine/Dx.lean ====
section
/-! DEFINITION. The DX block formats: decoding, encoding, positions on format pages; the trees in which sums are formed
(04 R94 to R107, 10 R246, R247). Format codes are those of Table 4-4: 1 DX8, 2 DX4. -/

namespace Sys2Proof.Machine

/-- Largest magnitude and the shift of a format (R95). -/
def dxMax (fmt : Nat) : Nat := if fmt = 1 then 63 else 3
def dxShift (fmt : Nat) : Nat := if fmt = 1 then 5 else 1

/-- Selector, sign and magnitude of an element code (Table 4-3). -/
def dxSel (fmt code : Nat) : Nat := if fmt = 1 then code / 128 % 2 else code / 8 % 2
def dxSign (fmt code : Nat) : Bool := if fmt = 1 then decide (code / 64 % 2 = 1) else decide (code / 4 % 2 = 1)
def dxMag (fmt code : Nat) : Nat := if fmt = 1 then code % 64 else code % 4

/-- The value of an active element (R96). -/
def dxDecode (fmt header code : Nat) : Num :=
  let e := if dxSel fmt code = 0 then header % 256 else header / 256 % 256
  if e = 255 then .nan
  else if dxMag fmt code = 0 then .fin false 0 0
  else .fin (dxSign fmt code) (dxMag fmt code) ((e : Int) - 127 - dxShift fmt)

/-- A decoded element as binary16 (R97). -/
def dxHalf (fmt header code : Nat) : Nat := pack f16 .rn (dxDecode fmt header code)

/-- The exponent gap of a gap code (R98). -/
def dxGap (code : Nat) : Nat := if code = 0 then 2 else if code = 1 then 3 else if code = 2 then 4 else 6

def Num.special : Num → Bool
  | .fin _ _ _ => false
  | _ => true

def Num.man : Num → Nat
  | .fin _ m _ => m
  | _ => 0

def Num.ex : Num → Int
  | .fin _ _ e => e
  | _ => 0

/-- rne(|x| / 2^k) (R99). -/
def dxRne (x : Num) (k : Int) : Nat := (roundInt .rn false x.man (x.ex - k)).natAbs

/-- | |x| − m × 2^k | as a magnitude at exponent e0. -/
def dxErr (x : Num) (m : Nat) (k e0 : Int) : Nat := (atExp false x.man x.ex e0 - atExp false m k e0).natAbs

/-- e0 and e1 of the block whose largest magnitude is a (R99). -/
def dxExps (fmt gap : Nat) (a : Num) : Nat × Nat :=
  let sh : Int := dxShift fmt
  let e0 : Nat :=
    if a.man = 0 then 0
    else
      let e : Nat := (min (max (ilog2 a.man 1 + a.ex + 127) 0) 254).toNat
      if e < 254 ∧ dxRne a ((e : Int) - 127 - sh) > dxMax fmt then e + 1 else e
  (e0, e0 - gap)

/-- The element code encode_dx gives a finite value under e0 and e1 (R99). -/
def dxElement (fmt e0 e1 : Nat) (x : Num) : Nat :=
  let k0 : Int := (e0 : Int) - 127 - dxShift fmt
  let k1 : Int := (e1 : Int) - 127 - dxShift fmt
  let m0 := min (dxRne x k0) (dxMax fmt)
  let m1 := dxRne x k1
  let low := min (min k0 k1) x.ex
  let pick1 := decide (m1 ≤ dxMax fmt) && decide (dxErr x m1 k1 low < dxErr x m0 k0 low)
  let m := if pick1 then m1 else m0
  let sign := if m = 0 then 0 else if x.neg? then 1 else 0
  let sel := if pick1 then 1 else 0
  if fmt = 1 then sel * 128 + sign * 64 + m else sel * 8 + sign * 4 + m

/-- Magnitude order of finite values. -/
def magLt (a b : Num) : Bool := decide (atExp false a.man a.ex (min a.ex b.ex) < atExp false b.man b.ex (min a.ex b.ex))

/-- The largest magnitude of a list. -/
def maxMag (xs : List Num) : Num := xs.foldl (fun m x => if magLt m x then x else m) (.fin false 0 0)

/-- Header and element codes of a block (R99). -/
def dxEncode (fmt gap : Nat) (xs : List Num) : Nat × List Nat :=
  if xs.any Num.special then (0xFFFF, xs.map (fun _ => 0))
  else
    let e := dxExps fmt gap (maxMag xs)
    (e.2 * 256 + e.1, xs.map (dxElement fmt e.1 e.2))

/-- DXENC (R246): D from the value A and the control word B. -/
def dxenc (a b : Word) : Word :=
  let fmt := if b.getLsbD 2 then 2 else 1
  let x := unpack f32 a.toNat
  if b.getLsbD 3 then
    let e0 := b.toNat / 2 ^ 16 % 256
    let e1 := b.toNat / 2 ^ 24
    if e0 = 255 ∨ e1 = 255 ∨ x.special then 0 else BitVec.ofNat 32 (dxElement fmt e0 e1 x)
  else if x.special then 0xFFFF
  else
    let e := dxExps fmt (dxGap (b.toNat % 4)) x
    BitVec.ofNat 32 (e.2 * 256 + e.1)

/-- DXDEC (R247). -/
def dxdec (a b : Word) : Word :=
  let fmt := if b.getLsbD 2 then 2 else 1
  let v := dxDecode fmt (b.toNat / 65536) (a.toNat % 256)
  if b.getLsbD 3 then BitVec.ofNat 32 (pack f16 .rn v) else BitVec.ofNat 32 (pack f32 .rn v)

/-- Blocks of a DX page by its size (Table 4-5): the data region in bytes, the blocks. -/
def dxBlocks (fmt page : Nat) : Nat :=
  let k := page / 65536
  if fmt = 1 then 1920 * k else 3584 * k

/-- Bytes of the data region, after which the scale plane begins (Table 4-5). -/
def dxData (fmt page : Nat) : Nat := if fmt = 1 then dxBlocks fmt page * 32 else dxBlocks fmt page * 16

/-- The block of an element (R100). -/
def blockOf (geom e : Nat) : Nat := if geom = 0 then e / 32 else e / 1024 * 32 + e % 32

/-- Element number of a block's element i (R217). -/
def elementOf (geom b i : Nat) : Nat := if geom = 0 then 32 * b + i else b / 32 * 1024 + 32 * i + b % 32

/-- Sum of two absent-or-present values by an operation (R105). -/
def combine2 {α : Type} (op : α → α → α) : Option α → Option α → Option α
  | none, b => b
  | a, none => a
  | some a, some b => some (op a b)

/-- One level of the tree of R105. -/
def treeLevel {α : Type} (op : α → α → α) : List (Option α) → List (Option α)
  | a :: b :: r => combine2 op a b :: treeLevel op r
  | [a] => [a]
  | [] => []

/-- The tree of R105 over a list, padded with absent places to 2^n. -/
def treeReduce {α : Type} (op : α → α → α) : Nat → List (Option α) → Option α
  | 0, l => (l.head?).getD none
  | n + 1, l => treeReduce op n (treeLevel op l)

/-- Group sum of eight exact products (R104): exact, then rounded once; exact zero gives +0. -/
def groupSum (ps : List (Option Num)) : Nat :=
  match treeReduce (Num.add .rn) 3 ps with
  | none => 0
  | some t => if t.isZero then 0 else pack f32 .rn t

end Sys2Proof.Machine
end

