-- ==== Sys2Proof/Machine/Addr.lean ====
section
/-! DEFINITION. Pointers, buffer descriptors, the port's checks, translation, format pages and keys
(05 R108 to R117, 15 R340 to R345, 17 R386, R388, R389). -/

namespace Sys2Proof.Machine

/-- A condition of Table 15-4 and its aux value (R349). -/
structure Cond where
  code : Nat
  aux : DWord
deriving DecidableEq, Repr

/-- What an access does to memory, for its rights (Table 5-2). -/
inductive AKind where
  | load
  | store
  | atom
  | red
  | fetch
deriving DecidableEq, Repr

def AKind.writes : AKind → Bool
  | .load => false
  | .fetch => false
  | _ => true

def State.ctx (s : State) (k : Nat) : Ctx := s.ctxs.getD k Ctx.reset
def State.mapCtx (s : State) (k : Nat) (f : Ctx → Ctx) : State := { s with ctxs := modifyAt s.ctxs k f }

/-- Fields of CTL (Table 13-1). -/
def Ctx.valid (c : Ctx) : Bool := bit c.ctl 63
def Ctx.conf (c : Ctx) : Bool := bit c.ctl 62
def Ctx.prioCap (c : Ctx) : Nat := fld c.ctl 48 3
def Ctx.lease (c : Ctx) : Nat := fld c.ctl 32 16

/-- The physical die a virtual die binds, when its entry is valid (Table 13-1). -/
def Ctx.vdie (c : Ctx) (v : Nat) : Option Nat :=
  let e := fld c.ctl (16 + 4 * v) 4
  if 8 ≤ e then some (e % 8) else none

/-! ### Keys (R388, R389) -/

/-- A memory line coded under a key, block by block of 16 bytes, and read under one. -/
def cipher (key sec : Nat) (raw : List Byte) : List Byte :=
  (upto 4).flatMap (fun k => (Config.blockCode key sec k).enc ((raw.drop (16 * k)).take 16))
def decipher (key sec : Nat) (stored : List Byte) : List Byte :=
  (upto 4).flatMap (fun k => (Config.blockCode key sec k).dec ((stored.drop (16 * k)).take 16))

/-- Key of a context's accesses (R388). -/
def State.keyOf (s : State) (ctx : Nat) (r : Route) : Nat :=
  if r = .host then 0 else if (s.ctx ctx).conf then (s.ctx ctx).key else 0

/-- Bytes of a memory line that lie there under the keys `tag`, as a key reads them (R388, R389). -/
def viewUnder (tag key sec : Nat) (raw : List Byte) : List Byte :=
  if tag = key then raw
  else
    let stored := if tag = 0 then raw else cipher tag sec raw
    if key = 0 then stored else decipher key sec stored

/-- Bytes of a memory line as a key reads them now. -/
def State.viewLine (s : State) (key sec : Nat) (raw : List Byte) : List Byte := viewUnder (sget 0 s.ktag sec) key sec raw

/-- Before a write under a key, a line under another is rewritten as that key reads it (R389); no L1 copy of it stays. -/
def State.rekey (s : State) (key loc : Nat) : State :=
  let sec := secOf loc
  if hostBase ≤ loc ∨ sget 0 s.ktag sec = key then s
  else
    let v := s.viewLine key sec (s.truthBytes (sec * 64) 64)
    (({ s.homeTouch sec with ktag := sset 0 s.ktag sec key } : State).homeWrite (wholeWrites (sec * 64) v) 0).1.mapDie (homeOf loc)
      (dropL1 (lineOf loc))

/-- Every sector of some writes under a key. -/
def State.rekeyAll (s : State) (key : Nat) (locs : List Nat) : State :=
  (distinct (locs.map secOf)).foldl (fun s sec => s.rekey key (sec * 64)) s

/-- Bytes a context reads at a die, under its key. -/
def State.keyedBytes (s : State) (key d loc n : Nat) : List Byte :=
  (upto n).map (fun k =>
    let sec := secOf (loc + k)
    (s.viewLine key sec (s.dieBytes d (sec * 64) 64)).getD ((loc + k) % 64) 0)

/-! ### Structures named by a die physical address (R398) -/

def dpaLocs (die dpa n : Nat) : List Nat := (upto n).map (fun k => dpaLoc die (dpa + k))

/-- Their bytes, each placed, read with no key (R388). -/
def State.dpaBytes (s : State) (die dpa n : Nat) : List Byte :=
  (dpaLocs die dpa n).map (fun l =>
    if sget 0 s.ktag (secOf l) = 0 then s.truth l
    else (s.viewLine 0 (secOf l) (s.truthBytes (secOf l * 64) 64)).getD (l % 64) 0)

def State.dpaWord (s : State) (die dpa : Nat) : DWord := BitVec.ofNat 64 (ofBytes (s.dpaBytes die dpa 8))

/-- A line that carries a lost or a poison mark (R370, R386), for an access to n bytes. -/
def State.memError (s : State) (loc n : Nat) : Option Nat :=
  if (upto n).any (fun k => s.lost.contains (lineOf (loc + k))) then some 0x30
  else if (upto n).any (fun k => s.poison.contains (secOf (loc + k))) then some 0x31
  else none

/-- The mark met by an access to bytes of such a structure. -/
def State.dpaError (s : State) (die dpa n : Nat) : Option Nat :=
  (dpaLocs die dpa n).findSome? (fun l => s.memError l 1)

/-- Bytes written with no key; a marked line refuses them (R386, R388). -/
def State.dpaWrite (s : State) (die dpa : Nat) (bs : List Byte) : State :=
  let ws : List (Nat × Byte × Byte) := ((upto bs.length).map (fun k => (dpaLoc die (dpa + k), bs.getD k 0, 0xFF)))
  let ws := ws.filter (fun w => (s.memError w.1 1).isNone)
  ((s.rekeyAll 0 (ws.map Prod.fst)).homeWrite ws 0).1

/-- The home slice of a location serves at once: its die runs, and no host holds the line modified (R368, R369). -/
def State.slicesFree (s : State) (locs : List Nat) : Bool :=
  locs.all (fun l => decide (hostBase ≤ l) || ((s.die (homeOf l)).state == 1 && (s.dirOf (lineOf l)).host != .hm))

/-- A place of a page can be accessed at once: of a STRM page whatever the host caches (R122, R368, R369). -/
def State.placeFree (s : State) (r : Route) (loc : Nat) : Bool :=
  match r with
  | .strm => (s.die (homeOf loc)).state == 1
  | _ => s.slicesFree [loc]

/-- A place of a page is read there: a STRM line takes no host state, and memory serves what its home L2 does not hold (R122,
R381). -/
def State.placeTouch (s : State) (r : Route) (loc : Nat) : State :=
  match r with
  | .strm => (s.noteStrm loc).homeTouch (secOf loc)
  | _ => s.homeTouch (secOf loc)

/-- A write there is system-performed at once: no host caches the line either (R128, R368). -/
def State.dpaFree (s : State) (die dpa n : Nat) : Bool :=
  let locs := dpaLocs die dpa n
  s.slicesFree locs && locs.all (fun l => (s.dirOf (lineOf l)).host == .hi)

/-! ### Descriptors (R110) -/

/-- Words as an access of the context sees them: a translation's as the TLBs hold it, a descriptor's as it is or as a
cache still holds it (R110, R345; log 10). -/
def State.cachedWord (s : State) (ctx loc : Nat) (desc : Bool) (cur : List Byte) : List Byte :=
  match s.stale.find? (fun c => c.ctx == ctx && c.loc == loc && c.desc == desc) with
  | some c => if c.bytes = cur then cur else if desc && Config.seesNew s.serial then cur else c.bytes
  | none => cur

/-- Where a descriptor stands. -/
def State.descPlace (s : State) (ctx idx : Nat) : Nat × Nat :=
  let c := s.ctx ctx
  (fld c.btab 56 2, fld c.btab 0 54 + 32 * idx)

def State.descBytes (s : State) (ctx idx : Nat) : List Byte :=
  s.dpaBytes (s.descPlace ctx idx).1 (s.descPlace ctx idx).2 32

/-- The four words of a buffer descriptor (Table 5-1). -/
def State.descOf (s : State) (ctx idx : Nat) : List DWord :=
  let bs := s.cachedWord ctx idx true (s.descBytes ctx idx)
  (upto 4).map (fun k => BitVec.ofNat 64 (ofBytes ((bs.drop (8 * k)).take 8)))

/-- The slice of a descriptor's line serves (R368, R369). -/
def State.descFree (s : State) (ctx idx : Nat) : Bool := s.slicesFree [dpaLoc (s.descPlace ctx idx).1 (s.descPlace ctx idx).2]

/-- A descriptor on a marked line (R370, R386). -/
def State.descError (s : State) (ctx idx : Nat) : Option Nat :=
  s.dpaError (s.descPlace ctx idx).1 (s.descPlace ctx idx).2 32

def dword (d : List DWord) (k : Nat) : DWord := d.getD k 0

/-- Fields of a descriptor (Table 5-1). -/
def dBase (d : List DWord) : Nat := fld (dword d 0) 0 54
def dLimit (d : List DWord) : Nat := fld (dword d 1) 0 54
def dFmto (d : List DWord) : Bool := bit (dword d 2) 4
def dOkind (d : List DWord) : Nat := fld (dword d 2) 8 2
def dOid (d : List DWord) : Nat := fld (dword d 2) 10 11
def dGran (d : List DWord) : Nat := fld (dword d 3) 0 4
def dVd (d : List DWord) : Nat := fld (dword d 3) 4 2
def dChfirst (d : List DWord) : Nat := fld (dword d 3) 8 8
def dChcount (d : List DWord) : Nat := fld (dword d 3) 16 8

/-- Channels of the die a virtual die binds; none when the entry is invalid (R362). -/
def Ctx.vchannels (c : Ctx) (v : Nat) : Nat := match c.vdie v with | some d => Config.channels d | none => 0

/-- The first check of R111, with the OID rule of R112. -/
def descInvalid (c : Ctx) (d : List DWord) : Bool :=
  !bit (dword d 0) 63 || fld (dword d 0) 54 9 != 0 || fld (dword d 1) 54 10 != 0 || fld (dword d 2) 21 43 != 0
  || fld (dword d 2) 5 3 != 0 || fld (dword d 3) 24 40 != 0 || fld (dword d 3) 6 2 != 0 || dBase d % 256 != 0
  || decide (dGran d > 8) || dChcount d == 0 || decide (dChfirst d + dChcount d > c.vchannels (dVd d))
  || ((dOkind d == 0 || dOkind d == 2) && dOid d != 0) || (dOkind d == 1 && decide (dOid d > 63))

/-- The owner check of R111 (Table 5-3); `slot` is the requester's launch slot. -/
def ownerAdmits (d : List DWord) (slot : Nat) : Bool :=
  dOkind d == 0 || (dOkind d == 1 && dOid d == slot) || dOkind d == 3

/-- The rights check of R111 (Table 5-2). -/
def rightsCover (d : List DWord) : AKind → Bool
  | .load => bit (dword d 2) 0
  | .store => bit (dword d 2) 1
  | .atom => bit (dword d 2) 3 && bit (dword d 2) 0 && bit (dword d 2) 1
  | .red => bit (dword d 2) 3 && bit (dword d 2) 1
  | .fetch => bit (dword d 2) 2

/-- The checks of R111 in their order: the virtual address, or the first that fails. The alignment checked may differ
from the size (R228). -/
def checkAccess (c : Ctx) (d : List DWord) (slot : Nat) (off : Int) (size align : Nat) (kind : AKind) (aux : DWord) :
    Except Cond Nat :=
  if descInvalid c d then .error ⟨0x10, aux⟩
  else if !ownerAdmits d slot then .error ⟨0x11, aux⟩
  else if !rightsCover d kind then .error ⟨0x12, aux⟩
  else if off < 0 ∨ off + size > dLimit d then .error ⟨0x13, aux⟩
  else
    let va := dBase d + off.toNat
    if 2 ^ 54 ≤ va then .error ⟨0x13, aux⟩
    else if va % align ≠ 0 then .error ⟨0x14, aux⟩
    else .ok va

/-- The checks of R111 on the descriptor that a pointer names; one on a marked line is not read (R370; DEDUCED, log 20:
its aux is the pointer, since no virtual address is known). -/
def State.checked (s : State) (ctx slot : Nat) (off : Int) (size align : Nat) (kind : AKind) (ptr : DWord) :
    Except Cond Nat :=
  match s.descError ctx (fld ptr 54 10) with
  | some code => .error ⟨code, ptr⟩
  | none => checkAccess (s.ctx ctx) (s.descOf ctx (fld ptr 54 10)) slot off size align kind ptr

/-- A page found by a walk (R342): its address and size in bytes, attributes. -/
structure Page where
  addr : Nat
  size : Nat
  strm : Bool
  host : Bool
  fmt : Nat
  geom : Nat
  ro : Bool
deriving DecidableEq, Repr

/-- Bits of va that index a level's table, and the bytes a leaf of the level maps (Table 15-2). -/
def levelShift (n : Nat) : Nat := if n = 4 then 48 else if n = 3 then 39 else if n = 2 then 30 else if n = 1 then 21 else 16
def levelEntries (n : Nat) : Nat := if n = 4 then 64 else if n = 0 then 32 else 512

/-- A page-table entry breaks R342 or the alignment of R341. `cap` is the capacity of the die the buffer's VD binds. -/
def entryBad (n : Nat) (e : DWord) (tdie cap : Nat) : Bool :=
  let leaf := bit e 62
  let addr := fld e 0 54 / 256 * 256
  bit e 54 || fld e 0 8 != 0 || (leaf && decide (3 ≤ n)) || (!leaf && n == 0)
  || (!leaf && (fld e 55 7 != 0 || addr % (levelEntries (n - 1) * 8) != 0
        || decide (addr + levelEntries (n - 1) * 8 > Config.capacity tdie)))
  || (leaf && (addr % 2 ^ levelShift n != 0
        || (if bit e 59 then fld e 55 4 != 0 || bit e 61 else decide (addr + 2 ^ levelShift n > cap))))

/-- The walk of R343 from a level's table down. -/
def walk (s : State) (ctx tdie cap va : Nat) : Nat → Nat → Except Cond Page
  | n, table =>
    let ea := table + 8 * (va / 2 ^ levelShift n % levelEntries n)
    let cur := s.dpaBytes tdie ea 8
    let e : DWord := BitVec.ofNat 64 (ofBytes (s.cachedWord ctx ea false cur))
    let aux : DWord := BitVec.ofNat 64 va
    match s.memError (dpaLoc tdie ea) 8 with
    | some code => .error ⟨code, aux⟩
    | none =>
      if !bit e 63 then .error ⟨0x18, aux⟩
      else if entryBad n e tdie cap then .error ⟨0x19, aux⟩
      else if bit e 62 then
        .ok ⟨fld e 0 54 / 256 * 256, 2 ^ levelShift n, bit e 61, bit e 59, fld e 57 2, fld e 55 2, bit e 60⟩
      else
        match n with
        | 0 => .error ⟨0x19, aux⟩
        | m + 1 => walk s ctx tdie cap va m (fld e 0 54 / 256 * 256)

/-- Translation of a virtual address for a kind of access (R343); the die is the buffer's. -/
def State.translate (s : State) (ctx die va : Nat) (kind : AKind) : Except Cond Page :=
  let c := s.ctx ctx
  match walk s ctx (fld c.ptroot 56 2) (Config.capacity die) va 4 (fld c.ptroot 0 54) with
  | .error e => .error e
  | .ok p =>
    if p.ro && kind.writes then .error ⟨0x1A, BitVec.ofNat 64 va⟩
    else if kind = .fetch ∧ (p.fmt ≠ 0 ∨ p.host) then .error ⟨0x1A, BitVec.ofNat 64 va⟩
    else .ok p

/-- The location of an offset in a page (R113, R342). -/
def pageLoc (d : List DWord) (die : Nat) (p : Page) (off : Nat) : Nat :=
  if p.host then hostBase + p.addr + off
  else placeDpa die (dGran d) (dChfirst d) (dChcount d) (p.addr + off)

def pageRoute (p : Page) : Route := if p.host then .host else if p.strm then .strm else .coherent

/-- The leaves with STRM = 1 of a table and of the tables below it, by its level: virtual address, address and size (R342). -/
def strmLeaves (s : State) (tdie : Nat) : Nat → Nat → Nat → List (Nat × Nat × Nat)
  | n, table, va =>
    (upto (levelEntries n)).flatMap (fun k =>
      let e := s.dpaWord tdie (table + 8 * k)
      let v := va + k * 2 ^ levelShift n
      let addr := fld e 0 54 / 256 * 256
      if !bit e 63 || entryBad n e tdie (2 ^ 54) then []
      else if bit e 62 then (if bit e 61 then [(v, addr, 2 ^ levelShift n)] else [])
      else
        match n with
        | 0 => []
        | m + 1 => strmLeaves s tdie m addr v)

/-- The die physical address that a buffer's interleave places at a line (R113). -/
def dpaOf (d : List DWord) (line : Nat) : Option Nat :=
  let ch := channelOf (line * 256)
  let x := line * 256 % 2 ^ 54
  let g := 256 * 2 ^ dGran d
  if dChfirst d ≤ ch ∧ ch < dChfirst d + dChcount d then some ((x / g * dChcount d + (ch - dChfirst d)) * g + x % g) else none

/-- A line of a STRM page: a buffer of a valid context reaches it through a leaf with STRM = 1 (R121, R122, R342). -/
def State.strmLine (s : State) (line : Nat) : Bool :=
  (upto s.ctxs.length).any (fun k =>
    let c := s.ctx k
    let leaves := if c.valid then strmLeaves s (fld c.ptroot 56 2) 4 (fld c.ptroot 0 54) 0 else []
    !leaves.isEmpty && (upto 1024).any (fun idx =>
      let d := s.descOf k idx
      !descInvalid c d && dOkind d != 3 && c.vdie (dVd d) == some (lineHome line)
      && (match dpaOf d line with
        | none => false
        | some dpa => leaves.any (fun l => decide (l.2.1 ≤ dpa) && decide (dpa < l.2.1 + l.2.2)
            && decide (dBase d ≤ l.1 + (dpa - l.2.1)) && decide (l.1 + (dpa - l.2.1) < dBase d + dLimit d)))))

/-- R100: a reserved geometry, or a geometry on a page without blocks. -/
def geomBad (p : Page) : Bool := decide (2 ≤ p.geom) || (p.geom != 0 && (p.fmt == 0 || p.fmt == 3))

/-- Where a checked access goes: buffer, its descriptor, virtual address, die, page, route, location; the pointer it was made
through. -/
structure Target where
  buffer : Nat
  desc : List DWord
  va : Nat
  die : Nat
  page : Option Page
  route : Route
  loc : Nat
  ptr : DWord
deriving DecidableEq, Repr

/-- Checks of R111 and translation of an access of one size through a pointer and a displacement, and the page's geometry
(R100, R109, R211 items 2 to 4). An owner kind of 3 is not translated (R374). -/
def State.target (s : State) (ctx slot : Nat) (ptr : DWord) (disp : Int) (size align : Nat) (kind : AKind) :
    Except Cond Target :=
  let c := s.ctx ctx
  let d := s.descOf ctx (fld ptr 54 10)
  match s.checked ctx slot ((fld ptr 0 54 : Int) + disp) size align kind ptr with
  | .error e => .error e
  | .ok va =>
    let die := (c.vdie (dVd d)).getD 0
    if dOkind d = 3 then .ok ⟨fld ptr 54 10, d, va, die, none, .remote (dOid d) va, 0, ptr⟩
    else
      match s.translate ctx die va kind with
      | .error e => .error e
      | .ok p =>
        if geomBad p then .error ⟨0x1C, 0⟩
        else .ok ⟨fld ptr 54 10, d, va, die, some p, pageRoute p, pageLoc d die p (va % p.size), ptr⟩

/-- Where the entries stand that a walk of R343 reads. -/
def walkLocs (s : State) (ctx tdie va : Nat) : Nat → Nat → List Nat
  | n, table =>
    let ea := table + 8 * (va / 2 ^ levelShift n % levelEntries n)
    let e : DWord := BitVec.ofNat 64 (ofBytes (s.cachedWord ctx ea false (s.dpaBytes tdie ea 8)))
    match n with
    | 0 => [dpaLoc tdie ea]
    | m + 1 =>
      dpaLoc tdie ea :: (if bit e 63 && !bit e 62 then walkLocs s ctx tdie va m (fld e 0 54 / 256 * 256) else [])

/-- The slices serve the table reads of an access at an offset of a buffer: the descriptor's and the walk's (R368, R369). -/
def State.pathFree (s : State) (ctx : Nat) (ptr : DWord) (disp : Int) : Bool :=
  let c := s.ctx ctx
  let p := s.descPlace ctx (fld ptr 54 10)
  s.slicesFree [dpaLoc p.1 p.2]
  && (let d := s.descOf ctx (fld ptr 54 10)
    let va := dBase d + ((fld ptr 0 54 : Int) + disp).toNat
    dOkind d == 3 || decide (2 ^ 54 ≤ va)
      || s.slicesFree (walkLocs s ctx (fld c.ptroot 56 2) va 4 (fld c.ptroot 0 54)))

/-- The uses of a walk and a descriptor enter the caches (R345): kept until an invalidate covers them (log 10). They are read
from memory where the home L2 does not hold them (R381). -/
def State.noteEntry (s : State) (ctx loc : Nat) (desc : Bool) (bytes : List Byte) : State :=
  if s.stale.any (fun c => c.ctx == ctx && c.loc == loc && c.desc == desc) then s
  else
    let p := if desc then s.descPlace ctx loc else (fld (s.ctx ctx).ptroot 56 2, loc)
    ({ s with stale := s.stale ++ [⟨ctx, loc, desc, bytes⟩] } : State).homeTouch (secOf (dpaLoc p.1 p.2))

/-- The entries with V = 1 that a walk reads, whatever its end: any change of one reaches an access only after an invalidate
(R345, R355; DEDUCED, log 10). -/
def walkPath (s : State) (ctx tdie va : Nat) : Nat → Nat → List (Nat × List Byte)
  | n, table =>
    let ea := table + 8 * (va / 2 ^ levelShift n % levelEntries n)
    let bs := s.cachedWord ctx ea false (s.dpaBytes tdie ea 8)
    let e : DWord := BitVec.ofNat 64 (ofBytes bs)
    if (s.memError (dpaLoc tdie ea) 8).isSome || !bit e 63 then []
    else
      match n with
      | 0 => [(ea, bs)]
      | m + 1 =>
        if bit e 62 || entryBad n e tdie 0 then [(ea, bs)]
        else (ea, bs) :: walkPath s ctx tdie va m (fld e 0 54 / 256 * 256)

/-- A translation of a virtual address was asked for. -/
def State.noteWalk (s : State) (ctx va : Nat) : State :=
  let c := s.ctx ctx
  (walkPath s ctx (fld c.ptroot 56 2) va 4 (fld c.ptroot 0 54)).foldl (fun s e => s.noteEntry ctx e.1 false e.2) s

/-- A descriptor was used. -/
def State.noteDesc (s : State) (ctx idx : Nat) : State := s.noteEntry ctx idx true (s.descBytes ctx idx)

/-- An access through a pointer used a descriptor and, where it was translated or its translation refused, a path of the
page tables; a descriptor on a marked line is not read. -/
def State.noteUse (s : State) (ctx : Nat) (ptr : DWord) (disp : Int) : State :=
  if (s.descError ctx (fld ptr 54 10)).isSome then s
  else
    let d := s.descOf ctx (fld ptr 54 10)
    let va := dBase d + ((fld ptr 0 54 : Int) + disp).toNat
    let s := s.noteDesc ctx (fld ptr 54 10)
    if dOkind d = 3 ∨ 2 ^ 54 ≤ va then s else s.noteWalk ctx va

/-- The use of an access that a check refuses: where the checks of R111 fail, nothing is translated. -/
def State.noteRefused (s : State) (ctx : Nat) (ptr : DWord) (disp : Int) (code : Nat) : State :=
  if 0x10 ≤ code ∧ code ≤ 0x14 then s.noteDesc ctx (fld ptr 54 10) else s.noteUse ctx ptr disp

end Sys2Proof.Machine
end

