-- ==== Sys2Proof/Machine/ExactSum.lean ====
section
/-! DEFINITION. The exact sums of .UNORD float adds (06 R143). -/

namespace Sys2Proof.Machine

/-- The exact sum held for a location, if any. -/
def State.sumAt (s : State) (loc : Nat) : Option ExactSum :=
  (if loc < hostBase then (s.die (homeOf loc)).sums else s.hostSums).find? (fun e => e.loc == loc)

/-- A contribution added exactly: fixed point of 2^−149; NaN and infinities as R143 says. -/
def ExactSum.add (e : ExactSum) (w : Word) : ExactSum :=
  match unpack f32 w.toNat with
  | .nan => { e with special := some .nan }
  | .inf n =>
    { e with special := match e.special with
        | none => some (.inf n)
        | some (.inf m) => if m = n then some (.inf n) else some .nan
        | some _ => some .nan }
  | .fin n m x =>
    let k : BitVec 320 := BitVec.ofNat 320 (m * 2 ^ (x + 149).toNat)
    { e with value := if n then e.value - k else e.value + k }

/-- The rounded value written at retirement: +0 for an exact zero (R143). -/
def ExactSum.rounded (e : ExactSum) : Word :=
  match e.special with
  | some .nan => BitVec.ofNat 32 f32.nanBits
  | some (.inf n) => BitVec.ofNat 32 (signed f32 n f32.infBits)
  | _ => BitVec.ofNat 32 (pack f32 .rn (.fin (decide (e.value.toInt < 0)) e.value.toInt.natAbs (-149)))

/-- The sums of the slice, or of host memory, that a location belongs to. -/
def State.mapSums (s : State) (loc : Nat) (f : List ExactSum → List ExactSum) : State :=
  if loc < hostBase then s.mapDie (homeOf loc) (fun D => { D with sums := f D.sums }) else { s with hostSums := f s.hostSums }

/-- Where an exact sum's word lies, as it bears on keys (R388). -/
def sumRoute (loc : Nat) : Route := if hostBase ≤ loc then .host else .coherent

/-- A .UNORD add to the location is on its way: it needed no claim when it issued. -/
def State.addComing (s : State) (loc : Nat) : Bool :=
  s.accs.any (fun a => a.loc == loc && (match a.kind with | .unord _ => true | _ => false))

/-- A sum retires: its value is written under its launch's key, no L1 copy hides it, and its place in the slice becomes free.
DESIGN CHOICE (log 25): while an add to it is on its way, the place stays claimed for that add. -/
def State.retireSum (s : State) (e : ExactSum) : State :=
  let s := s.mapSums e.loc (fun l =>
    if s.addComing e.loc then
      l.map (fun x => if x.loc = e.loc then { x with held := false, value := 0, special := none } else x)
    else l.filter (fun x => decide (x.loc ≠ e.loc)))
  if e.held then
    ((s.rekey (s.keyOf e.ctx (sumRoute e.loc)) e.loc).homeWrite (wholeWrites e.loc (toBytes e.rounded.toNat 4)) 0).1.mapDie
      (homeOf e.loc) (dropL1 (lineOf e.loc))
  else s

/-- The sums whose words some of these locations touch. -/
def State.sumsAt (s : State) (locs : List Nat) : List ExactSum :=
  (s.dies.flatMap Die.sums ++ s.hostSums).filter (fun e =>
    e.held && locs.any (fun l => decide (e.loc ≤ l) && decide (l < e.loc + 4)))

/-- Every sum that an access to these locations meets retires (R143). -/
def State.retireAt (s : State) (locs : List Nat) : State := (s.sumsAt locs).foldl (fun s e => s.retireSum e) s

/-- A launch's sums retire with it (R143). -/
def State.retireSumsOf (s : State) (launch : Nat) : State :=
  ((s.dies.flatMap Die.sums ++ s.hostSums).filter (fun e => e.launch == launch)).foldl (fun s e => s.retireSum e) s

/-- The slice of a location on its die (R119; log 12). -/
def sliceOf (loc : Nat) : Nat := Config.sliceHash (homeOf loc) (loc / 2 ^ 54 % 256) (loc % 2 ^ 54) % 32

/-- A claim succeeds: the slice holds and has claimed fewer than 1,024 sums (R143). -/
def State.sumRoom (s : State) (loc : Nat) : Bool :=
  decide (hostBase ≤ loc)
    || decide (((s.die (homeOf loc)).sums.filter (fun e => decide (sliceOf e.loc = sliceOf loc))).length < Config.exactSums)

/-- A .UNORD add accepted at its location (R141, R143). The initial value is what the launch's key reads. -/
def State.addSum (s : State) (launch ctx loc : Nat) (w : Word) : State :=
  let d := homeOf loc
  let start : ExactSum :=
    (⟨loc, true, 0, none, launch, ctx⟩ : ExactSum).add
      (BitVec.ofNat 32 (ofBytes (s.keyedBytes (s.keyOf ctx (sumRoute loc)) d loc 4)))
  s.mapSums loc (fun l =>
    match l.find? (fun e => e.loc == loc && e.held) with
    | some _ => l.map (fun e => if e.loc = loc then e.add w else e)
    | none => l.filter (fun e => decide (e.loc ≠ loc)) ++ [start.add w])

end Sys2Proof.Machine
end

