-- ==== Sys2Proof/Machine/Ops.lean ====
section
/-! DEFINITION. The named operations over teams, threads and registers that the meanings share; raising, reporting and
taking a condition (15 R347 to R353) and the return TRET makes. -/

namespace Sys2Proof.Machine

/-- What a meaning answers. -/
abbrev Result := Host.Outcome State Fault Refusal

/-! ### Teams and threads -/

def State.team? (s : State) (id : Nat) : Option Team := s.teams.find? (fun t => t.id == id)

def State.mapTeam (s : State) (id : Nat) (f : Team → Team) : State :=
  { s with teams := s.teams.map (fun t => if t.id = id then f t else t) }

def Team.thread? (t : Team) (tid : Nat) : Option Thread := t.threads[tid]?

def Team.mapThread (t : Team) (tid : Nat) (f : Thread → Thread) : Team :=
  { t with threads := modifyAt t.threads tid f }

def Team.mapSheaf (t : Team) (h : Nat) (f : Sheaf → Sheaf) : Team := { t with sheaves := modifyAt t.sheaves h f }

def State.mapThread (s : State) (team tid : Nat) (f : Thread → Thread) : State :=
  s.mapTeam team (fun t => t.mapThread tid f)

def State.mapSheaf (s : State) (team h : Nat) (f : Sheaf → Sheaf) : State :=
  s.mapTeam team (fun t => t.mapSheaf h f)

def State.thread? (s : State) (team tid : Nat) : Option Thread := (s.team? team).bind (fun t => t.thread? tid)

def State.launch? (s : State) (id : Nat) : Option Launch := s.launches.find? (fun l => l.id == id)

def State.mapLaunch (s : State) (id : Nat) (f : Launch → Launch) : State :=
  { s with launches := s.launches.map (fun l => if l.id = id then f l else l) }

/-- Bit position of boundary k of a launch's work identifier (R15). -/
def Launch.b (l : Launch) (k : Nat) : Nat := (upto k).foldl (fun n j => n + fld (l.words.getD 11 0) (6 * j) 6) 0
/-- Team and cohort boundaries (R16, Table 13-2). -/
def Launch.tb (l : Launch) : Nat := fld (l.words.getD 11 0) 36 3
def Launch.cb (l : Launch) : Nat := fld (l.words.getD 11 0) 39 3
/-- Teams of a cohort, and cohorts of the launch (Table 1-2). -/
def Launch.cohortTeams (l : Launch) : Nat := 2 ^ (l.b l.cb - l.b l.tb)
def Launch.cohorts (l : Launch) : Nat := 2 ^ (l.b 6 - l.b l.cb)

/-- Teams of a team's cohort; a fabric team is its own (R13, R268). -/
def State.cohortSize (s : State) (t : Team) : Nat :=
  match t.node, s.launch? t.launch with
  | none, some l => l.cohortTeams
  | _, _ => 1

/-- Two teams belong to one cohort. -/
def sameCohort (t u : Team) : Bool :=
  t.id == u.id || (t.launch == u.launch && t.cohort == u.cohort && t.node == none && u.node == none)

def Thread.live (x : Thread) : Bool := x.wait != .ended

def Team.live (t : Team) : List Thread := t.threads.filter Thread.live

/-- The members of a home sheaf (R20). -/
def Team.members (t : Team) (h : Nat) : List Thread := t.threads.filter (fun x => x.tid / t.width == h)

/-- Uniform registers at team start: all 0, every guard-slot definition (c0, NV) (R39, R77). -/
def Uniform.reset : Uniform := ⟨[], List.replicate 7 ⟨0, 15⟩⟩

def Sheaf.reset : Sheaf := ⟨Uniform.reset, List.replicate 16 ⟨[], [], none⟩, [], [], [], [0, 0, 0, 0]⟩

/-- Registers at team start (R21, R77). -/
def Regs.reset : Regs := ⟨[], 0, List.replicate 4 Flags.zero⟩

def Thread.reset (tid wid : Nat) (pc : BitVec 64) (place : Option (Nat × Nat)) (pt : Nat) (cycle : Nat) : Thread :=
  { tid := tid, wid := wid, pc := pc, regs := Regs.reset, place := place, wait := .none, block := .none, pend := [], marker := [],
    earliest := cycle, age := 0, ready := false, lastLone := none, blocks := [], refill := none, pt := pt, lct := 0,
    asked := none, answer := none, tried := 0, late := [] }

/-! ### Accesses in flight -/

/-- An access performed at a scope (Table 6-2). -/
def Acc.performed (a : Acc) (scope : Nat) : Bool :=
  match a.stage with
  | .waiting => false
  | .done => true
  | .applied => decide (scope ≤ 5) || (decide (scope ≤ 7) && a.pkg) || (a.pkg && a.sys)

/-- A thread's accesses that are not performed at a scope; a parked future load blocks its own thread. -/
def State.unperformed (s : State) (team tid scope : Nat) : Bool :=
  s.accs.any (fun a => a.team == team && a.tid == tid && !a.parked && !a.performed scope)

/-! ### Registers -/

/-- The physical register a name reaches at a loop level (R68). -/
def phys : Nat → Nat → Nat
  | 0, i => i
  | n + 1, i => if i < 48 then 64 + 48 * n + i else phys n (i - 48)

def Regs.get (r : Regs) (i : Nat) : Word := sget 0 r.v (phys r.level i)
def Regs.set (r : Regs) (i : Nat) (x : Word) : Regs := { r with v := sset 0 r.v (phys r.level i) x }
/-- A pair: low word in the even register (R66). -/
def Regs.get64 (r : Regs) (i : Nat) : DWord := pairWord (r.get i) (r.get (i + 1))
def Regs.set64 (r : Regs) (i : Nat) (x : DWord) : Regs := (r.set i (lowWord x)).set (i + 1) (highWord x)
def Regs.flags (r : Regs) (cn : BitVec 2) : Flags := r.c.getD cn.toNat Flags.zero
def Regs.setFlags (r : Regs) (cn : BitVec 2) (f : Flags) : Regs := { r with c := modifyAt r.c cn.toNat (fun _ => f) }

def Uniform.get (u : Uniform) (i : Nat) : DWord := sget 0 u.s i
def Uniform.set (u : Uniform) (i : Nat) (x : DWord) : Uniform := { u with s := sset 0 u.s i x }

/-- What an instruction reads in one thread: its own registers and its home sheaf's uniform state, as they stood before
the cycle's issues, or at arrival for a rendezvous' completion (R158, R191, R195). -/
structure Reads where
  tid : Nat
  sheaf : Nat
  regs : Regs
  uni : Uniform
deriving DecidableEq, Repr

def readsOf (completing : Bool) (t : Team) (tid : Nat) : Reads :=
  let h := tid / t.width
  let u := ((t.sheaves[h]?).getD Sheaf.reset).uni
  match t.threads[tid]? with
  | none => ⟨tid, h, Regs.reset, u⟩
  | some x =>
    match completing, x.wait with
    | true, .rendezvous a => ⟨tid, h, a.regs, a.uni⟩
    | _, _ => ⟨tid, h, x.regs, u⟩

/-- A condition on flags (Table 3-3). -/
def condHolds (code : BitVec 4) (f : Flags) : Bool :=
  match code.toNat with
  | 0 => f.z
  | 1 => !f.z
  | 2 => f.n != f.v
  | 3 => f.n == f.v
  | 4 => !f.z && f.n == f.v
  | 5 => f.z || f.n != f.v
  | 6 => !f.c
  | 7 => f.c
  | 8 => f.c && !f.z
  | 9 => !f.c || f.z
  | 10 => f.n
  | 11 => !f.n
  | 12 => f.v
  | 13 => !f.v
  | 14 => true
  | _ => false

/-- The guard of a lane: g0 is true, g1 to g7 by the home sheaf's definition (R39). -/
def Reads.guard (r : Reads) (g : BitVec 3) : Bool :=
  if g = 0 then true
  else
    let d := r.uni.g.getD (g.toNat - 1) ⟨0, 15⟩
    condHolds d.cond (r.regs.flags d.cn)

/-! ### The issue under way -/

/-- The team of the issue, as the cycle found it. -/
def State.viewTeam (s : State) (iss : Issue) : Option Team := s.view.find? (fun t => t.id == iss.team)

/-- The issuing threads in ascending TID. -/
def Issue.threads (iss : Issue) (t : Team) : List Nat := (upto t.threads.length).filter (fun x => iss.tids.contains x)

/-- The threads in which a word takes effect, ascending: guard true, no trap in the group (R40, R158). -/
def Issue.laneTids (iss : Issue) (t : Team) (g : BitVec 3) : List Nat :=
  (iss.threads t).filter (fun x => !iss.suppressed.contains x && (readsOf iss.completing t x).guard g)

/-- What each of them reads. -/
def State.lanes (s : State) (g : BitVec 3) : List Reads :=
  match s.issue with
  | none => []
  | some iss =>
    match s.viewTeam iss with
    | none => []
    | some t => (iss.laneTids t g).map (readsOf iss.completing t)

/-- The registers of one thread changed. -/
def State.mapRegs (s : State) (team tid : Nat) (f : Regs → Regs) : State :=
  s.mapThread team tid (fun x => { x with regs := f x.regs })

/-- An effect on the registers of each lane (R180). -/
def State.lanewise (s : State) (g : BitVec 3) (f : Reads → Regs → Regs) : State :=
  match s.issue with
  | none => s
  | some iss => (s.lanes g).foldl (fun s r => s.mapRegs iss.team r.tid (f r)) s

/-- An effect on the state for each lane, in ascending TID. -/
def State.eachLane (s : State) (g : BitVec 3) (f : Issue → Team → Reads → State → State) : State :=
  match s.issue with
  | none => s
  | some iss =>
    match s.viewTeam iss with
    | none => s
    | some t => (s.lanes g).foldl (fun s r => f iss t r s) s

/-- Home sheaves with an issuing thread, ascending (R63). -/
def Issue.sheaves (iss : Issue) (t : Team) : List Nat :=
  (upto t.sheaves.length).filter (fun h => (iss.threads t).any (fun x => x / t.width == h))

/-- A uniform-class execution for each home sheaf none of whose issuing threads trapped (R63, R158). The reads are
those of the sheaf's lowest issuing thread. -/
def State.eachSheaf (s : State) (f : Issue → Team → Reads → State → State) : State :=
  match s.issue with
  | none => s
  | some iss =>
    match s.viewTeam iss with
    | none => s
    | some t =>
      (iss.sheaves t).foldl (fun s h =>
        let mine := (iss.threads t).filter (fun x => x / t.width == h)
        if mine.any (fun x => iss.suppressed.contains x) then s
        else
          match mine with
          | [] => s
          | x :: _ => f iss t (readsOf iss.completing t x) s) s

/-- An effect once for each home sheaf with a guard-true thread, for its electing thread: the lowest guard-true thread
(R227). An execution whose electing thread trapped has no effect; so too for MMA.COMMIT, where R255 names no electing thread
(DESIGN CHOICE, log 25). -/
def State.eachElect (s : State) (g : BitVec 3) (f : Issue → Team → Reads → State → State) : State :=
  match s.issue with
  | none => s
  | some iss =>
    match s.viewTeam iss with
    | none => s
    | some t =>
      (iss.sheaves t).foldl (fun s h =>
        match (((iss.threads t).filter (fun x => x / t.width == h)).map (readsOf iss.completing t)).filter
            (fun r => r.guard g) with
        | [] => s
        | r :: _ => if iss.suppressed.contains r.tid then s else f iss t r s) s

/-- An effect once for each home sheaf with a guard-true thread in which the group takes effect, for the lowest of them (R158,
R248). -/
def State.eachHome (s : State) (g : BitVec 3) (f : Issue → Team → Reads → State → State) : State :=
  match s.issue with
  | none => s
  | some iss =>
    match s.viewTeam iss with
    | none => s
    | some t =>
      (iss.sheaves t).foldl (fun s h =>
        match ((iss.laneTids t g).filter (fun x => x / t.width == h)).map (readsOf iss.completing t) with
        | [] => s
        | r :: _ => f iss t r s) s

def State.mapIssue (s : State) (f : Issue → Issue) : State := { s with issue := s.issue.map f }

/-- A condition raised in a thread by the word being executed (R348). -/
def State.raise (s : State) (tid code : Nat) (aux : DWord) : State :=
  s.mapIssue (fun i => { i with trapped := i.trapped ++ [⟨tid, code, aux, i.pc, false⟩] })

/-- A condition another device returned (R375): class T with the local pointer; one of this device is taken as usual. -/
def State.raiseAnswer (s : State) (tid : Nat) (a : Answer) (va : Nat) (ptr : DWord) : State :=
  s.mapIssue (fun i => { i with
    trapped := i.trapped ++ [⟨tid, a.code, if a.remote then ptr else BitVec.ofNat 64 va, i.pc, a.remote⟩] })

/-- A thread waits for the answer of a request before going past the group (R143, R375). -/
def State.hold (s : State) (a : Acc) : State := s.mapIssue (fun i => { i with held := i.held ++ [a] })

/-- The issue cannot go on in this cycle. -/
def State.stall (s : State) : State := s.mapIssue (fun i => { i with stalled := true })

/-- A variable-latency write of known registers and values joins the thread's pending writes (R160). -/
def State.addPend (s : State) (team tid : Nat) (regs : List (Nat × Word)) (ready : Bool) (notBefore : Nat) (ldf : Bool) :
    State :=
  { s.mapThread team tid (fun x => { x with pend := x.pend ++ [⟨s.serial, regs, ready, notBefore, ldf, false⟩] }) with
    serial := s.serial + 1 }

/-- A value that lands in a cycle known beforehand (R235). -/
def State.addExact (s : State) (team tid : Nat) (regs : List (Nat × Word)) (cycle : Nat) : State :=
  { s.mapThread team tid (fun x => { x with pend := x.pend ++ [⟨s.serial, regs, true, cycle, false, true⟩] }) with
    serial := s.serial + 1 }

/-- A variable-latency result of fixed value (IDIV, FDIV and the like). -/
def State.variable (s : State) (g : BitVec 3) (f : Reads → List (Nat × Word)) : State :=
  s.eachLane g (fun iss _ r s => s.addPend iss.team r.tid (f r) true s.cycle false)

/-! ### The regroup pool -/

def Thread.pooled (x : Thread) : Bool := match x.wait with | .pooled _ => true | _ => false

/-- PCs of the pool's entries (R51). -/
def Team.poolPcs (t : Team) : List (BitVec 64) := distinct ((t.threads.filter Thread.pooled).map Thread.pc)

/-- The pool has an entry for p or a free entry. -/
def Team.poolTakes (t : Team) (p : BitVec 64) : Bool := t.poolPcs.contains p || decide (t.poolPcs.length < 16)

/-- A thread pooled at a PC with a stamp, or staying in its lane there when the pool cannot take it (R57, R60). -/
def Team.poolThread (t : Team) (tid : Nat) (p : BitVec 64) (stamp : Nat) : Team :=
  if t.poolTakes p then
    t.mapThread tid (fun x => { x with pc := p, wait := .pooled stamp, place := none })
  else t.mapThread tid (fun x => { x with pc := p, wait := .none })

/-! ### Ends -/

/-- The baton goes to the waiting home sheaf with the oldest wait, or becomes free (R248). -/
def Team.passBaton (t : Team) (cycle : Nat) : Team :=
  let waits := t.threads.filterMap (fun x => match x.wait with
    | .baton since => some (since, x.tid / t.width)
    | _ => none)
  match leastBy (fun w => [w.1, w.2]) waits with
  | none => { t with baton := none, passing := [] }
  | some w =>
    { t with
      baton := some w.2
      passing := []
      threads := t.threads.map (fun x =>
        match x.wait with
        | .baton _ => if x.tid / t.width = w.2 then { x with wait := .none, earliest := max x.earliest (cycle + 2) } else x
        | _ => x) }

/-- A thread removed from E of a record (R45, R46). -/
def JoinRec.remove (j : JoinRec) (tid : Nat) : JoinRec :=
  if j.e.contains tid then
    { e := j.e.filter (fun x => decide (x ≠ tid)), a := j.a.filter (fun x => decide (x ≠ tid)),
      last := match j.last with
        | some (m, rg) => if m < tid then some (tid, false) else some (m, rg)
        | none => some (tid, false) }
  else j

/-- A thread ends: it leaves its sheaf and every expected set; its pending writes are discarded; the baton passes when
its home sheaf has no live thread left (R22, R46, R207, R248). -/
def Team.endThread (t : Team) (tid cycle : Nat) : Team :=
  let h := tid / t.width
  let t : Team := (t.mapThread tid (fun x => { x with wait := .ended, block := .none, place := none, pend := [], marker := [], asked := none }))
  let t : Team := t.mapSheaf h (fun f => { f with joins := f.joins.map (fun j => j.remove tid) })
  let t : Team := { t with progE := t.progE + 1 }
  if t.baton = some h ∧ (t.members h).all (fun x => !x.live) then t.passBaton cycle else t

/-! ### Reports (R352, R353) -/

/-- The four words of a fault record (Table 15-6); a confidential context's record hides PC and AUX[15:0] (R389). -/
def Report.words (r : Report) (fseq : Nat) (conf : Bool) : List DWord :=
  let w (n : Nat) : DWord := BitVec.ofNat 64 n
  [w (fseq % 2 ^ 32 * 2 ^ 32 + r.code * 2 ^ 24 + min r.count 255 * 2 ^ 16 + (if r.eng then 2 ^ 15 else 0)
      + (if r.nores then 2 ^ 14 else 0) + r.die * 2 ^ 12 + r.rseq),
   w (r.cohort * 2 ^ 32 + r.number * 2 ^ 28 + r.tid * 2 ^ 17 + r.core * 2 ^ 10 + r.slot * 2 ^ 4),
   w (if conf then 0 else r.pc.toNat % 2 ^ 32),
   if conf then r.aux &&& ~~~(0xFFFF : DWord) else r.aux]

def wordsBytes (ws : List DWord) : List Byte := (ws.map (fun w => toBytes w.toNat 8)).flatten

/-- Records in the queue, those with a place in it among them. -/
def Ctx.fqFull (c : Ctx) : Bool := decide (256 ≤ (c.fqhead + 2 ^ 32 - c.fqtail) % 2 ^ 32 + c.fqwait.length)

/-- Where the next record is written. -/
def Ctx.fqPlace (c : Ctx) : Nat × Nat := (fld c.fq 56 2, fld c.fq 0 54 + 32 * (c.fqhead % 256))

/-- A record performed at system scope; a class F record then awaits its resume command (R352, R355). -/
def State.putRecord (s : State) (r : Report) : State :=
  let c := s.ctx r.ctx
  let s := s.dpaWrite c.fqPlace.1 c.fqPlace.2 (wordsBytes (r.words c.fqhead c.conf))
  s.mapCtx r.ctx (fun c =>
    { c with fqhead := (c.fqhead + 1) % 2 ^ 32,
             awaits := if r.nores then c.awaits else c.awaits ++ [⟨c.fqhead, r.launch, r.who, r.ops⟩] })

/-- The next record of a context can be performed at system scope (R368, R369). -/
def State.queueFree (s : State) (ctx : Nat) : Bool := s.dpaFree (s.ctx ctx).fqPlace.1 (s.ctx ctx).fqPlace.2 32

/-- A record takes its place in the queue: written, or waiting for its line (R352). -/
def State.writeRecord (s : State) (r : Report) : State :=
  if (s.ctx r.ctx).fqwait.isEmpty && s.queueFree r.ctx then s.putRecord r
  else s.mapCtx r.ctx (fun c => { c with fqwait := c.fqwait ++ [r] })

/-- The records of a context that wait for their lines, written in order as these come free. -/
def State.writeWaiting (ctx : Nat) : List Report → State → State
  | [], s => s
  | r :: rest, s =>
    if s.queueFree ctx then
      State.writeWaiting ctx rest ((s.mapCtx ctx (fun c => { c with fqwait := rest })).putRecord r)
    else s

/-- A class of conditions that are about a translation (R352). -/
def isTranslation (code : Nat) : Bool := code == 0x18 || code == 0x19 || code == 0x1A

/-- Whether a report joins a backlog entry (R353). -/
def Report.joins (a b : Report) : Bool :=
  a.ctx == b.ctx && a.slot == b.slot && a.rseq == b.rseq && a.code == b.code && a.eng == b.eng
  && (if isTranslation a.code then fld a.aux 16 48 == fld b.aux 16 48 else a.pc == b.pc)

/-- The joined record: it awaits a resume when one of the two does, for the threads and operations that do (R353, R355;
DEDUCED, log 20). -/
def Report.joined (a b : Report) : Report :=
  { a with count := min 255 (a.count + b.count), nores := a.nores && b.nores,
           who := (if a.nores then [] else a.who) ++ (if b.nores then [] else b.who),
           ops := (if a.nores then [] else a.ops) ++ (if b.nores then [] else b.ops) }

/-- A report entered in the backlog of its die; none when it can neither join nor find a free entry. -/
def State.enterBacklog (s : State) (r : Report) : Option State :=
  let D := s.die r.die
  if D.backlog.any (fun e => e.joins r) then
    some (s.mapDie r.die (fun D => { D with backlog := D.backlog.map (fun e => if e.joins r then e.joined r else e) }))
  else if D.backlog.length < Config.backlogEntries then
    some (s.mapDie r.die (fun D => { D with backlog := D.backlog ++ [r] }))
  else none

/-- A report: into the queue, else the backlog, else held with the thread or engine that raised it (R352, R353). The
flag says whether it left the raiser. -/
def State.report (s : State) (r : Report) : State × Bool :=
  let c := s.ctx r.ctx
  if !c.fqFull then (s.writeRecord r, true)
  else
    match s.enterBacklog r with
    | some s' => (s', true)
    | none => (s.mapCtx r.ctx (fun c => { c with ovf := true, heldReports := c.heldReports ++ [r] }), false)

/-- The report of a condition of threads of a team. -/
def State.threadReport (s : State) (t : Team) (code : Nat) (aux : DWord) (pc : BitVec 64) (tids : List Nat) (nores : Bool) :
    Report :=
  let l := s.launch? t.launch
  { ctx := t.ctx, launch := t.launch, code := code, count := tids.length, eng := false, nores := nores, die := t.die,
    rseq := (l.map Launch.rseq).getD 0, cohort := t.cohort, number := t.number, tid := tids.headD 0, core := t.core,
    slot := (l.map Launch.slot).getD 0, pc := pc, aux := aux, who := [(t.id, tids)], ops := [] }

/-! ### Faulting a launch (R310, R311, R350) -/

/-- Store units of a record (R272). -/
def Record.units (r : Record) : Nat := ceilDiv (r.bytes.length + 16) 64

/-- The descriptor of a node as read at acceptance (R266), its kind, and the die its VD binds. -/
def Launch.node (l : Launch) (n : Nat) : List DWord := l.nodes.getD n []
def nodeKind (d : List DWord) : Nat := fld (d.getD 0 0) 39 3
def State.nodeDie (s : State) (launch n : Nat) : Option Nat :=
  (s.launch? launch).bind (fun l => (s.ctx l.ctx).vdie (fld ((l.node n).getD 0 0) 42 2))

/-- The die whose store a record occupies (R272): of its target, or of the window it waits in. -/
def State.recordDie (s : State) (r : Record) : Option Nat :=
  match r.place with
  | .window i =>
    match s.records.find? (fun q => q.id == i) with
    | some q => s.nodeDie r.launch q.node
    | none => s.nodeDie r.launch r.node
  | _ => s.nodeDie r.launch r.node

/-- A record's units given back to its store or to the launch's spill region (R272). -/
def State.freeUnits (s : State) (r : Record) : State :=
  if r.spilled then s.mapLaunch r.launch (fun l => { l with spillUsed := l.spillUsed - r.units })
  else if r.stored then
    match s.recordDie r with
    | some d => s.mapDie d (fun D => { D with used := D.used - r.units })
    | none => s
  else s

/-- A completion value of Table 9-8. -/
def completion (status count first : Nat) : DWord :=
  BitVec.ofNat 64 (first * 2 ^ 40 + status * 2 ^ 32 + count % 2 ^ 32)

/-- An operation leaves its counter with the older ones that wait behind it (R144): the completed prefix of its class
is taken off, and the class's largest write time raised. -/
def popDone (cls : Nat) : List OutOp → Nat → List OutOp × Nat
  | [], top => ([], top)
  | o :: r, top =>
    if o.cls = cls then
      if o.done then popDone cls r (max top o.wts) else (o :: r, top)
    else
      let q := popDone cls r top
      (o :: q.1, q.2)

def Sheaf.complete (f : Sheaf) (cls serial wts : Nat) : Sheaf :=
  let out := f.out.map (fun o => if o.serial = serial then { o with done := true, wts := wts } else o)
  let q := popDone cls out (f.topW.getD cls 0)
  { f with out := q.1, topW := modifyAt f.topW cls (fun _ => q.2) }

/-- Engine class of an operation kind: 0 copy, 1 WLOAD, 2 gather, 3 collective (R144). -/
def Sheaf.counter (f : Sheaf) (cls : Nat) : Nat := (f.out.filter (fun o => o.cls == cls)).length

/-- An operation completes: token value written and no longer pending, counter, reported write time (R73, R144, R146). -/
def State.completeOp (s : State) (o : Op) (value : DWord) (wts : Nat) : State :=
  { s.mapSheaf o.team o.sheaf (fun f =>
      { (f.complete o.kind o.serial wts) with
        tokens := f.tokens.filter (fun p => decide (p.2 ≠ o.serial)),
        tokenW := sset 0 f.tokenW o.token wts,
        uni := f.uni.set o.token value }) with
    ops := s.ops.filter (fun q => decide (q.serial ≠ o.serial)) }

/-- The remaining work of a launch that ends early (R311, R350, R351, R379): threads issue nothing more, records, bins
and combine slots are discarded, paused operations complete with status 5 and collectives with status 10; other
operations are left to complete; stores performed remain and issued ones land. -/
def State.stopLaunch (s : State) (id : Nat) : State :=
  let s : State := (s.records.filter (fun r => r.launch == id)).foldl (fun s r => s.freeUnits r) s
  let s : State := (s.teams.filter (fun t => t.launch == id)).foldl (fun s t =>
    s.mapDie t.die (fun D => { D with spused := D.spused - t.saveUnits })) s
  let s : State := { s with
    records := s.records.filter (fun r => decide (r.launch ≠ id)),
    accs := s.accs.filter (fun a => decide (a.launch ≠ id) || (match a.kind with
      | .store => true
      | .reduce _ _ _ => true
      | .unord _ => true
      | _ => false)),
    plan := s.plan.filter (fun c => match s.team? c.team with
      | some t => decide (t.launch ≠ id)
      | none => false),
    dies := s.dies.map (fun D =>
      { D with
        byAge := D.byAge.filter (fun b => decide (b.2.1 ≠ id)),
        reserves := D.reserves.filter (fun r => (s.units.find? (fun u => u.id == r.unit)).any (fun u => u.launch != id)),
        drainFit := D.drainFit.filter (fun r => (s.units.find? (fun u => u.id == r.2)).any (fun u => u.launch != id)) }),
    teams := s.teams.map (fun t => if t.launch = id then
        { t with res := .ended, saveUnits := 0, threads := t.threads.map (fun x =>
            { x with wait := .ended, block := .none, place := none, pend := [], asked := none }) }
      else t),
    ctxs := s.ctxs.map (fun c => { c with awaits := c.awaits.filter (fun w => decide (w.launch ≠ id)) }) }
  let s : State := { s with units := s.units.filter (fun u => decide (u.launch ≠ id)) }
  let s : State := s.mapLaunch id (fun l => { l with windows := [], combine := [], fullSlots := [] })
  (s.ops.filter (fun o => o.launch == id)).foldl (fun s o =>
    if o.kind = 3 then s.completeOp o (completion 10 0 0) 0
    else
      match o.final with
      | some v => s.completeOp o v.1 v.2
      | none => if o.paused.isSome then s.completeOp o (completion 5 0 0) 0 else s) s

/-- A launch faults with a cause (R310); one that is already ending keeps its first end (R311). -/
def State.faultLaunch (s : State) (id cause : Nat) : State :=
  match s.launch? id with
  | none => s
  | some l =>
    match l.phase with
    | .waiting => (s.stopLaunch id).mapLaunch id (fun l => { l with phase := .ending false cause })
    | .running => (s.stopLaunch id).mapLaunch id (fun l => { l with phase := .ending false cause })
    | _ => s

/-! ### Taking a condition (R347 to R349) -/

/-- Class F of Table 15-4. -/
def isFaultCode (code : Nat) : Bool := isTranslation code
/-- Class N of Table 15-4. -/
def isNCode (code : Nat) : Bool := code == 0x30 || code == 0x31

/-- No handler takes the condition: none is armed, or the word lies in the handler (R349). -/
def Ctx.noHandler (c : Ctx) (pc : BitVec 64) : Bool :=
  let hoff := fld c.trap1 0 32
  !bit c.trap0 63 || (decide (hoff ≤ pc.toNat) && decide (pc.toNat < hoff + fld c.trap1 32 32))

/-- Bytes of the team's own scratchpad written (R81). -/
def Team.putScratch (t : Team) (off : Nat) (bs : List Byte) : Team :=
  { t with scratch := (upto bs.length).foldl (fun m k => sset 0 m (off + k) (bs.getD k 0)) t.scratch }

def Team.scratchBytes (t : Team) (off n : Nat) : List Byte := (upto n).map (fun k => sget 0 t.scratch (off + k))

/-- Offset of a thread's trap frame (R349); negative when the scratchpad cannot hold the frames. -/
def Team.frame (t : Team) (tid : Nat) : Int := (t.scr : Int) * 0x4000 - 32 * 2 ^ t.tbits + 32 * tid

/-- Handler entry of R349, once the thread has no pending write: the frame of a supervisor team's thread, v60 to v63,
and the pool at HOFF. -/
def State.enterHandler (s : State) (teamId tid : Nat) (p : Park) : State :=
  match s.team? teamId with
  | none => s
  | some t =>
    match t.thread? tid with
    | none => s
    | some x =>
      let f := t.frame tid
      if t.sup ∧ f < 0 then s.faultLaunch t.launch p.code
      else
        let words : List Word := [x.regs.get 60, x.regs.get 61, x.regs.get 62, x.regs.get 63,
          BitVec.ofNat 32 p.rp.toNat, BitVec.ofNat 32 p.code, 0, 0]
        s.mapTeam teamId (fun t =>
          let t := if t.sup then t.putScratch f.toNat ((words.map (fun w => toBytes w.toNat 4)).flatten) else t
          let t := t.mapThread tid (fun x =>
            { x with regs := (((x.regs.set 60 (BitVec.ofNat 32 p.code)).set 61 (BitVec.ofNat 32 p.rp.toNat)).set 62
                (lowWord p.aux)).set 63 (highWord p.aux) })
          t.poolThread tid p.hoff (s.cycle + 1))

/-- A parked thread whose trap waits enters the handler when its last pending write has landed (R349). -/
def State.tryHandler (s : State) (teamId tid : Nat) : State :=
  match s.thread? teamId tid with
  | some x =>
    match x.wait with
    | .parked p => if p.kind = .trap ∧ x.pend = [] then s.enterHandler teamId tid p else s
    | _ => s
  | none => s

/-- A thread parks in its lane on a condition (R57). -/
def State.park (s : State) (teamId tid : Nat) (p : Park) : State :=
  s.mapThread teamId tid (fun x => { x with wait := .parked p, pc := p.rp, marker := [], asked := none, answer := none })

/-- One condition taken in threads of a team that share code and page or PC (R349, R352). `abort`: taken by an abort,
as class T (R355); `remote`: met on another device, class T, with no record of a translation condition (R375). Threads
in ascending TID with their aux values; `rp` is each one's replay PC. -/
def State.takeGroup (s : State) (t : Team) (code : Nat) (pc : BitVec 64) (rp : Nat → BitVec 64) (xs : List (Nat × DWord))
    (abort remote : Bool) : State :=
  let tids := xs.map Prod.fst
  let aux := (xs.map Prod.snd).headD 0
  let fault := isFaultCode code && !abort && !remote
  let kind : ParkKind := if fault then .fault else .trap
  let hoff : BitVec 64 := BitVec.ofNat 64 (fld (s.ctx t.ctx).trap1 0 32)
  let s := xs.foldl (fun s x => s.park t.id x.1 ⟨code, x.2, pc, rp x.1, kind, hoff, abort⟩) s
  if fault then (s.report (s.threadReport t code aux pc tids false)).1
  else
    let none? := (s.ctx t.ctx).noHandler pc
    if remote ∧ isTranslation code ∧ none? then s.faultLaunch t.launch code
    else if none? ∨ (isNCode code ∧ !remote) then
      let q := s.report (s.threadReport t code aux pc tids true)
      if !q.2 then
        xs.foldl (fun s x => s.park t.id x.1 ⟨code, x.2, pc, rp x.1, .held none?, hoff, abort⟩) q.1
      else if none? then q.1.faultLaunch t.launch code
      else xs.foldl (fun s x => s.tryHandler t.id x.1) q.1
    else xs.foldl (fun s x => s.tryHandler t.id x.1) s

/-- Groups of R352: traps that share code and, for translations, the 64 KiB page of aux, otherwise the PC. -/
def trapKey (r : TrapRec) : Nat × Nat × Bool :=
  (r.code, if isTranslation r.code && !r.remote then fld r.aux 16 48 else r.pc.toNat, r.remote)

/-- Every condition of an issue taken: each thread by its first trapping word (R158), reported by groups (R352). -/
def State.takeTraps (s : State) (teamId : Nat) (rp : Nat → BitVec 64) (trapped : List TrapRec) : State :=
  match s.team? teamId with
  | none => s
  | some t =>
    let tids := trapped.foldl (fun l r => insertNat r.tid l) []
    let firsts := tids.filterMap (fun x => trapped.find? (fun r => r.tid == x))
    (distinct (firsts.map trapKey)).foldl (fun s k =>
      let grp := firsts.filter (fun r => trapKey r == k)
      match grp with
      | [] => s
      | r :: _ => s.takeGroup t r.code r.pc rp (grp.map (fun r => (r.tid, r.aux))) false r.remote) s

/-- A thread goes to a PC. -/
def State.setPc (s : State) (team tid : Nat) (p : BitVec 64) : State := s.mapThread team tid (fun x => { x with pc := p })

end Sys2Proof.Machine
end

