-- ==== Sys2Proof/Machine/Fetch.lean ====
section
/-! DEFINITION. Instruction fetch: the code buffer's checks, the packet of a PC, the chained group a sub-sheaf issues,
decode errors, and the targets of transfers (07 R153 to R159, R171, R172; 15 R343). -/

namespace Sys2Proof.Machine

/-- The launch-window slot of a team's launch. -/
def State.slotOf (s : State) (t : Team) : Nat := ((s.launch? t.launch).map Launch.slot).getD 0

/-- A pointer into the team's code buffer, the buffer of its launch's ENTRY (R154, Table 13-2). -/
def State.codePtr (s : State) (t : Team) (pc : BitVec 64) : DWord :=
  let w := ((s.launch? t.launch).map (fun l => l.words.getD 8 0)).getD 0
  BitVec.ofNat 64 (fld w 54 10 * 2 ^ 54 + pc.toNat % 2 ^ 54)

/-- The checks of a fetch of the word at pc, and where it lies (R100, R111, R154, R343). -/
def State.fetchTarget (s : State) (t : Team) (pc : BitVec 64) : Except Cond Target :=
  s.target t.ctx (s.slotOf t) (s.codePtr t pc) ((pc.toNat / 2 ^ 54 * 2 ^ 54 : Nat) : Int) 4 4 .fetch

/-- First word of the packet of a PC, and the word's place in it (R154). -/
def packetStart (pc : BitVec 64) : BitVec 64 := BitVec.ofNat 64 (pc.toNat / 12 * 12)
def packetPos (pc : BitVec 64) : Nat := pc.toNat % 12 / 4

/-- The slices serve a fetch of the packet of pc: its table reads and its words (R368, R369). -/
def State.fetchFree (s : State) (t : Team) (pc : BitVec 64) : Bool :=
  (upto 3).all (fun k =>
    let p := packetStart pc + BitVec.ofNat 64 (4 * k)
    s.pathFree t.ctx (s.codePtr t p) ((p.toNat / 2 ^ 54 * 2 ^ 54 : Nat) : Int)
    && (match s.fetchTarget t p with | .error _ => true | .ok x => s.placeFree x.route x.loc))

/-- Words of the code object are read: their translations enter the TLBs (R345), and memory serves what the L2s do not hold (R381). -/
def State.noteCode (s : State) (t : Team) (pcs : List (BitVec 64)) : State :=
  let s := pcs.foldl (fun s p => s.noteUse t.ctx (s.codePtr t p) ((p.toNat / 2 ^ 54 * 2 ^ 54 : Nat) : Int)) s
  pcs.foldl (fun s p => match s.fetchTarget t p with
    | .ok x => s.placeTouch x.route x.loc
    | .error _ => s) s

/-- The packet of pc is fetched for a broadcast issue. -/
def State.noteFetch (s : State) (t : Team) (pc : BitVec 64) : State := s.noteCode t [packetStart pc, packetStart pc + 8]

def wordOf (bs : List Byte) : Word := wordOfBytes (bs.getD 0 0) (bs.getD 1 0) (bs.getD 2 0) (bs.getD 3 0)

/-- A code word as the context's key reads it, from some bytes of memory that lie there under the keys `tag`. -/
def codeWord (tag key loc : Nat) (read : Nat → Nat → List Byte) : Word :=
  if tag = key then wordOf (read loc 4) else wordOf ((viewUnder tag key (secOf loc) (read (secOf loc * 64) 64)).drop (loc % 64))

/-- The values a code word has had while a launch lives: at its start, as stores left it, and now (R154). -/
def State.codeValues (s : State) (t : Team) (key loc : Nat) : List Word :=
  let l := s.launch? t.launch
  let stored := ((sfind s.stored (secOf loc)).getD []).filter (fun e => decide ((l.map Launch.born).getD 0 ≤ e.1))
  distinct ([codeWord (sget 0 ((l.map Launch.codeTags).getD []) (secOf loc)) key loc (bytesAt ((l.map Launch.code0).getD []))]
    ++ stored.map (fun e => wordOf ((viewUnder e.2.1 key (secOf loc) e.2.2).drop (loc % 64)))
    ++ [codeWord (sget 0 s.ktag (secOf loc)) key loc s.truthBytes])

/-- The word fetched at pc: its value at the launch's start or, where stores have changed it since, freely that or a value
it was given (R154; log 5). -/
def State.fetchWord (s : State) (t : Team) (tid : Nat) (pc : BitVec 64) : Except Cond Word :=
  match s.fetchTarget t pc with
  | .error e => .error e
  | .ok x =>
    match s.memError x.loc 4 with
    | some code => .error ⟨code, BitVec.ofNat 64 x.va⟩
    | none =>
      let vs := s.codeValues t (s.keyOf t.ctx x.route) x.loc
      .ok (match vs with
        | [v] => v
        | _ => vs.getD (Config.fetchNew s.cycle x.loc tid % vs.length) 0)

/-- The words of a packet from the first on, up to one that cannot be fetched and its condition. -/
def State.packetOf (s : State) (t : Team) (tid : Nat) (base : BitVec 64) : List Word × Option (Nat × Cond) :=
  match s.fetchWord t tid base with
  | .error e => ([], some (0, e))
  | .ok w0 =>
    match s.fetchWord t tid (base + 4) with
    | .error e => ([w0], some (1, e))
    | .ok w1 =>
      match s.fetchWord t tid (base + 8) with
      | .error e => ([w0, w1], some (2, e))
      | .ok w2 => ([w0, w1, w2], none)

def packetWordsOf (ws : List Word) : List PacketWord := packetWords (ws.getD 0 0) (ws.getD 1 0) (ws.getD 2 0)

/-- Positions a group needs from its packet: every word up to its last and their literals. -/
def groupNeeds (ws : List PacketWord) (k : Nat) : Nat :=
  let last := match (runFrom (ws.drop k) k).1.getLast? with | some g => g.pos / 4 | none => k
  if isLiteralAt ws (last + 1) then last + 2 else last + 1

/-- What a sub-sheaf at a PC finds: the words of its group with their addresses and the first word after the group, or
the condition every one of its threads takes and the word it is reported against (R154, R172; log 20). -/
structure Fetched where
  words : List Placed
  fall : BitVec 64
  bad : Option (Cond × BitVec 64)
deriving DecidableEq, Repr

def privileged : Instr → Bool
  | .tret _ _ => true
  | .sysrd _ _ => true
  | .syswr _ _ => true
  | .inval _ _ => true
  | _ => false

/-- Decode of the words of a group in packet order; the first that fails gives the condition (R158, R171, R172). -/
def decodeGroup (sup : Bool) (base : BitVec 64) : List GroupWord → List Placed × Option (Cond × BitVec 64)
  | [] => ([], none)
  | g :: r =>
    let pc := base + BitVec.ofNat 64 g.pos
    match decodeWord g.word g.lit with
    | .error _ => ([], some (⟨0x02, 0⟩, pc))
    | .ok i =>
      if privileged i && !sup then ([], some (⟨0x03, 0⟩, pc))
      else
        let q := decodeGroup sup base r
        (⟨pc, i⟩ :: q.1, q.2)

def State.fetchGroup (s : State) (t : Team) (tid : Nat) (pc : BitVec 64) : Fetched :=
  let base := packetStart pc
  let k := packetPos pc
  let q := s.packetOf t tid base
  let ws := packetWordsOf q.1
  let fail := match q.2 with
    | some (j, e) => if j < max (k + 1) (groupNeeds ws k) then some (e, base + BitVec.ofNat 64 (4 * j)) else none
    | none => none
  match fail with
  | some e => ⟨[], pc, some e⟩
  | none =>
    match groupFrom ws k with
    | .error _ => ⟨[], pc, some (⟨0x01, 0⟩, pc)⟩
    | .ok g =>
      let d := decodeGroup t.sup base g.words
      ⟨d.1, base + BitVec.ofNat 64 g.after, d.2⟩

/-- The checks of a transfer's target (R159): the condition it raises, if any. -/
def State.badTarget (s : State) (t : Team) (tid : Nat) (p : BitVec 64) : Option Cond :=
  if p.toNat % 4 ≠ 0 then some ⟨0x04, 0⟩
  else
    let ptr := s.codePtr t p
    match s.checked t.ctx (s.slotOf t) p.toNat 4 4 .fetch ptr with
    | .error e => some e
    | .ok _ =>
      let q := s.packetOf t tid (packetStart p)
      if packetPos p ≤ q.1.length && isLiteralAt (packetWordsOf q.1) (packetPos p) then some ⟨0x04, 0⟩ else none

end Sys2Proof.Machine
end

