-- ==== Sys2Proof/Machine/Fabric.lean ====
section
/-! DEFINITION. The record fabric's operations: room, sending, routing, emission, retirement, combine slots, the end of a
bound thread (11 R265 to R283). -/

namespace Sys2Proof.Machine

/-- Fields of a node descriptor (Table 11-1). -/
def nEntry (d : List DWord) : Nat := fld (dword d 0) 0 32
def nVd (d : List DWord) : Nat := fld (dword d 0) 42 2
def nEff (d : List DWord) : Bool := bit (dword d 0) 44
def nAuto (d : List DWord) : Bool := bit (dword d 0) 45
def nOrd (d : List DWord) : Bool := bit (dword d 0) 46
def nWidth (d : List DWord) : Nat := 8 * 2 ^ fld (dword d 1) 0 2
def nTbits (d : List DWord) : Nat := fld (dword d 1) 4 4
def nPart (d : List DWord) : Nat := fld (dword d 1) 32 32
def nCoal (d : List DWord) : Nat := fld (dword d 3) 0 12
def nTimer (d : List DWord) : Nat := fld (dword d 3) 16 16
def nP0 (d : List DWord) : Nat := fld (dword d 3) 32 11
def nC0 (d : List DWord) : Nat := fld (dword d 3) 48 16

/-- The node a port names, when the port is valid. -/
def nPort (d : List DWord) (k : Nat) : Option Nat :=
  if bit (dword d 2) (13 * k + 12) then some (fld (dword d 2) (13 * k) 12) else none

/-- The node of stage k of a set, when the field is valid. -/
def nStage (d : List DWord) (k : Nat) : Option Nat :=
  let w := dword d (if k < 4 then 4 else 5)
  if bit w (13 * (k % 4) + 12) then some (fld w (13 * (k % 4)) 12) else none

/-- Stages of a set (R267: without a gap from STG0). -/
def nStages (d : List DWord) : List Nat := (upto 8).filterMap (nStage d)

/-- The set that names a stage node, and the stage's number in it (R267). -/
def Launch.setOf (l : Launch) (n : Nat) : Option (Nat × Nat) :=
  ((upto l.nodes.length).findSome? (fun m =>
    if nodeKind (l.node m) = 2 then
      ((upto 8).find? (fun k => nStage (l.node m) k == some n)).map (fun k => (m, k))
    else none))

/-- Dispatcher cycle of a die (R265). -/
def State.dispatch (s : State) (d : Nat) : Nat := (s.cycle - (s.die d).since) / 2

def recordUnits (bytes : Nat) : Nat := ceilDiv (bytes + 16) 64

/-- Room of a launch's spill region in units (R272, Table 13-3). -/
def Launch.spillUnits (l : Launch) : Nat := fld (l.ext.getD 3 0) 0 54 / 64

/-- Room for a record to a node: in the store, in the spill region, or none (R272). -/
inductive Room where
  | store
  | spill
  | none
deriving DecidableEq, Repr

def State.roomFor (s : State) (launch node units : Nat) : Room :=
  match s.launch? launch, s.nodeDie launch node with
  | some l, some d =>
    if (s.die d).used + units ≤ Config.storeUnits then .store
    else if l.spillUsed + units ≤ l.spillUnits then .spill
    else .none
  | _, _ => .none

/-- The place of a byte of a launch's spill region, when its slice takes a write there (R272, R368, R369, R386). -/
def State.spillByte (s : State) (l : Launch) (off : Nat) : Option (Nat × Route) :=
  match s.target l.ctx l.slot (l.ext.getD 2 0) ((off : Nat) : Int) 1 1 .store with
  | .ok x => if x.page.isSome && s.placeFree x.route x.loc && (s.memError x.loc 1).isNone then some (x.loc, x.route) else none
  | .error _ => none

/-- Units of a record written to the spill region, under the context's key: where in it each lies and what its 64 bytes then
hold is open (R272, R388; log 18). -/
def State.writeSpill (s : State) (launch : Nat) : Nat → State
  | 0 => s
  | n + 1 =>
    match s.launch? launch with
    | none => s
    | some l =>
      let at_ := 64 * (Config.freeChoice s.freeCtr % max 1 l.spillUnits)
      let ps := (upto 64).filterMap (fun k => (s.spillByte l (at_ + k)).map (fun p => (k, p)))
      let ws : List (Nat × Byte × Byte) := ps.map (fun p => (p.2.1, Config.freeByte (s.freeCtr + 1 + p.1), 0xFF))
      let s := ({ s with freeCtr := s.freeCtr + 65 } : State).noteUse l.ctx (l.ext.getD 2 0) ((at_ : Nat) : Int)
      let s := ps.foldl (fun s p => (if p.2.2 = .strm then s.noteStrm p.2.1 else s).rekey (s.keyOf l.ctx p.2.2) p.2.1) s
      (s.homeWrite ws 0).1.writeSpill launch n

/-- A record's units claimed where there is room. -/
def State.claimUnits (s : State) (launch node units : Nat) : Room → State
  | .store => match s.nodeDie launch node with
    | some d => s.mapDie d (fun D => { D with used := D.used + units })
    | none => s
  | .spill => (s.mapLaunch launch (fun l => { l with spillUsed := l.spillUsed + units })).writeSpill launch units
  | .none => s

def State.mapRecord (s : State) (id : Nat) (f : Record → Record) : State :=
  { s with records := s.records.map (fun r => if r.id = id then f r else r) }

def State.record? (s : State) (id : Nat) : Option Record := s.records.find? (fun r => r.id == id)

/-- A unit of the fabric holds a record it generated for want of room, and generates no more till there is room (R272): a
launch's combine unit, the unit that releases a node's window, a die's router for every launch (DESIGN CHOICE, log 25: the rule
does not name the units). -/
def State.unitHolds (s : State) (launch sender : Nat) : Bool :=
  s.records.any (fun r => r.place == .heldBack && r.sender == sender && (r.launch == launch || decide (2 ^ 62 ≤ sender)))

/-- A record made with its place claimed: on its way, or held by its generator when there is no room (R272). -/
def State.makeRecord (s : State) (launch node : Nat) (bytes : List Byte) (emittedFor : Option Nat) (sender issue : Nat) :
    State :=
  let u := recordUnits bytes.length
  let room := s.roomFor launch node u
  let s := s.claimUnits launch node u room
  { s with
    serial := s.serial + 1,
    records := s.records ++ [⟨s.serial, launch, node, bytes, 0, if room = .none then .heldBack else .moving, 0, 0,
      emittedFor, room == .store, room == .spill, sender, issue⟩] }

/-- Senders other than threads: the unit that releases a node's window, a launch's combine unit, a die's router. -/
def senderWindow (node : Nat) : Nat := 2 ^ 60 + node
def senderCombine (launch : Nat) : Nat := 2 ^ 61 + launch
def senderRouter (d : Nat) : Nat := 2 ^ 62 + d
def senderThread (team tid : Nat) : Nat := team * 2048 + tid

def ordSender (x : Nat) : Bool := decide (x < 2 ^ 62)

/-- Records that stay in the store only as long as they have not retired. -/
def State.dropRecord (s : State) (id : Nat) : State :=
  match s.record? id with
  | some r => { s.freeUnits r with records := s.records.filter (fun q => decide (q.id ≠ id)) }
  | none => s

/-- A record released from an ordered node's window moves on to its port's target, numbered anew in release order (R269);
where that store has no room the releasing unit holds it (R272). -/
def State.releaseRecord (s : State) (launch node target : Nat) (r : Record) : State :=
  let s := s.freeUnits r
  let room := s.roomFor launch target r.units
  State.mapRecord { s.claimUnits launch target r.units room with serial := s.serial + 1 } r.id (fun r =>
    { r with id := s.serial, node := target, place := if room = .none then .heldBack else .moving, stored := room == .store,
             spilled := room == .spill, sender := senderWindow node, issue := s.serial })

/-- The thread that sent a record has accesses before it that are not performed at package scope: a send is a release (R151). -/
def State.sentLate (s : State) (r : Record) : Bool :=
  s.accs.any (fun a => senderThread a.team a.tid == r.sender && decide (a.id < r.id) && !a.parked && !a.performed 6)

/-- The oldest entry of an ordered node's window while it has retired: its records released in the order sent, then the
entry freed, then the next (R277); a unit that holds a record releases none, nor does it pass one that its own sender
still holds (R272) or whose sender's accesses before it are not performed (R151). -/
def State.releaseWindow (s : State) (launch node : Nat) : Nat → State
  | 0 => s
  | n + 1 =>
    match (s.launch? launch).bind (fun l => l.windows.find? (fun w => w.node == node)) with
    | none => s
    | some w =>
      if !w.retired ∨ s.unitHolds launch (senderWindow node) then s
      else
        match w.emitted with
        | [] => (s.mapLaunch launch (fun l => { l with windows := l.windows.erase w })).releaseWindow launch node n
        | e :: rest =>
          let s' := s.mapLaunch launch (fun l => { l with windows := l.windows.map (fun v =>
            if v.input = w.input then { v with emitted := rest } else v) })
          match s.record? e.1 with
          | none => s'.releaseWindow launch node n
          | some r =>
            if r.place = .heldBack ∨ s.sentLate r then s
            else (s'.releaseRecord launch node e.2 r).releaseWindow launch node n

/-- Entries and records of a node's window, with which a release ends. -/
def Launch.windowFuel (l : Launch) (node : Nat) : Nat :=
  (l.windows.filter (fun w => w.node == node)).foldl (fun n w => n + 1 + w.emitted.length) 1

/-- Releases of a node's window as far as they go (R277). -/
def State.releaseNode (s : State) (launch node : Nat) : State :=
  match s.launch? launch with
  | some l => s.releaseWindow launch node (l.windowFuel node)
  | none => s

/-- A record emitted for an input record through a port of a node or set (R277). -/
def State.emitTo (s : State) (launch node port : Nat) (bytes : List Byte) (input sender issue : Nat) : State :=
  match s.launch? launch with
  | none => s
  | some l =>
    match nPort (l.node node) port with
    | none => s
    | some target =>
      if nOrd (l.node node) then
        let u := recordUnits bytes.length
        let room := s.roomFor launch node u
        let id := s.serial
        let s := s.claimUnits launch node u room
        let s : State := { s with
          serial := s.serial + 1,
          records := s.records ++ [⟨id, launch, node, bytes, 0, if room = .none then .heldBack else .window input, 0, 0,
            some input, room == .store, room == .spill, sender, issue⟩] }
        s.mapLaunch launch (fun l => { l with windows := l.windows.map (fun w =>
          if w.node = node ∧ w.input = input then { w with emitted := w.emitted ++ [(id, target)] } else w) })
      else s.makeRecord launch target bytes (some input) sender issue

/-- An input record retires (R272, R277): its units are freed; its window entry, if any, may release. -/
def State.retireRecord (s : State) (id : Nat) : State :=
  match s.record? id with
  | none => s
  | some r =>
    let s := s.dropRecord id
    let s := s.mapLaunch r.launch (fun l => { l with windows := l.windows.map (fun w =>
      if w.input = id then { w with retired := true } else w) })
    match (s.launch? r.launch).bind (fun l => l.windows.find? (fun w => w.input == id)) with
    | some w => s.releaseNode r.launch w.node
    | none => s

/-- Router values of a stage node in force (R274). -/
def Launch.stat (l : Launch) (n : Nat) : StageStat :=
  (l.stats.find? (fun x => x.node == n)).getD ⟨n, nP0 (l.node n), nC0 (l.node n), 0, 0, 0⟩

/-- Records in the bin of a stage of a set. -/
def State.stageBin (s : State) (launch set stage : Nat) : List Record :=
  s.records.filter (fun r => r.launch == launch && r.node == set && r.place == .binned && r.stage == stage)

/-- The lottery's step (R275). -/
def lotteryStep (x : Nat) : Nat :=
  let m := 2 ^ 32
  let x := x ^^^ (x * 2 ^ 13 % m)
  let x := x ^^^ (x / 2 ^ 17)
  x ^^^ (x * 2 ^ 5 % m)

/-- Lottery state at acceptance (R275). -/
def lotterySeed (seed n : Nat) : Nat :=
  let x := seed ^^^ (n * 0x9E3779B9 % 2 ^ 32)
  if x = 0 then 1 else x

/-- A draw among the pure stages left (R275): the new state and the stage. -/
def State.draw (s : State) (l : Launch) (set : Nat) (pure_ : List Nat) : Nat × Nat :=
  let x := lotteryStep (sget 0 l.lottery set)
  let ws := pure_.map (fun i =>
    let n := (nStage (l.node set) i).getD 0
    let st := l.stat n
    let q := min (s.stageBin l.id set i).length 65535
    let w := (1024 - st.p) * 2 ^ 24 / (st.c * (256 + q))
    (i, if w = 0 then 1 else w))
  let total := ws.foldl (fun a w => a + w.2) 0
  let r := x * total / 2 ^ 32
  let pick := ws.foldl (fun (acc : Nat × Option Nat) w =>
    let sum := acc.1 + w.2
    (sum, match acc.2 with | some i => some i | none => if r < sum then some w.1 else none)) (0, none)
  (x, pick.2.getD (pure_.headD 0))

/-- The fabric of the die has fired in its present dispatcher cycle, or the cycle's firings are over: what arrives still
belongs to the next (R270). -/
def State.hasFired (s : State) (d : Nat) : Bool :=
  decide ((s.die d).fired.1 = s.dispatch d) && decide (0 < (s.die d).fired.2)

/-- Dispatcher cycle of an arrival now. -/
def State.arrivalCycle (s : State) (d : Nat) : Nat := s.dispatch d + (if s.hasFired d then 1 else 0)

/-- A record appended to a bin at a node, stamped there (R269, R270): the list of records keeps arrival order. -/
def State.binRecord (s : State) (r : Record) (node : Nat) : State :=
  match s.nodeDie r.launch node with
  | none => s
  | some d =>
    { s with records := s.records.filter (fun q => decide (q.id ≠ r.id))
        ++ [{ r with place := .binned, stamp := s.arrivalCycle d }] }

/-- Routing of a set's record (R273). -/
def State.route (s : State) (id : Nat) : State :=
  match s.record? id with
  | none => s
  | some r =>
    match s.launch? r.launch with
    | none => s
    | some l =>
      let d := l.node r.node
      let k := (nStages d).length
      let left := (upto k).filter (fun i => !r.done.getLsbD i)
      let effOf (i : Nat) : Bool := nEff (l.node ((nStage d i).getD 0))
      match left.filter (fun i => !effOf i) with
      | p :: ps =>
        let q := s.draw l r.node (p :: ps)
        (s.mapLaunch l.id (fun l => { l with lottery := sset 0 l.lottery r.node q.1 })).binRecord { r with stage := q.2 }
          ((nStage d q.2).getD 0)
      | [] =>
        match left with
        | e :: _ => s.binRecord { r with stage := e } ((nStage d e).getD 0)
        | [] =>
          let unit := senderRouter ((s.nodeDie l.id r.node).getD 0)
          if nAuto d && (nPort d 0).isSome then
            if s.unitHolds l.id unit then s.mapRecord id (fun r => { r with place := .passed })
            else (s.emitTo l.id r.node 0 r.bytes id unit s.serial).retireRecord id
          else s.retireRecord id

/-- A record takes its place at its node (R269, R273, R277): its stamp, then a bin, the window of an ordered set, or the
router. -/
def State.arriveRecord (s : State) (id : Nat) : State :=
  match s.record? id with
  | none => s
  | some r =>
    match s.launch? r.launch, s.nodeDie r.launch r.node with
    | some l, some d =>
      let dsc := l.node r.node
      let s : State := { s with records := s.records.filter (fun q => decide (q.id ≠ id)) ++ [{ r with stamp := s.arrivalCycle d }] }
      if nodeKind dsc = 2 then
        if nOrd dsc then
          if (l.windows.filter (fun w => w.node == r.node)).length < Config.windowEntries
              ∧ !(s.records.any (fun q => q.launch == l.id && q.node == r.node && q.place == .atInput)) then
            (s.mapLaunch l.id (fun l => { l with windows := l.windows ++ [⟨r.node, id, false, []⟩] })).route id
          else s.mapRecord id (fun r => { r with place := .atInput })
        else s.route id
      else s.binRecord r r.node
    | _, _ => s

/-- Records waiting at the input of a set whose window has an entry again begin their routing, in arrival order (R277). -/
def State.admitInputs (s : State) : State :=
  (s.records.filter (fun r => r.place == .atInput)).foldl (fun s r =>
    match s.launch? r.launch with
    | some l =>
      if (l.windows.filter (fun w => w.node == r.node)).length < Config.windowEntries then
        (s.mapLaunch l.id (fun l => { l with windows := l.windows ++ [⟨r.node, r.id, false, []⟩] })).route r.id
      else s
    | none => s) s

/-- The record bound to a thread (R268). -/
def Team.boundRec (t : Team) (tid : Nat) : Option Nat := (t.bound.getD tid none)

/-- The node a fabric team runs, with its descriptor. -/
def State.teamNode (s : State) (t : Team) : Option (Nat × List DWord) :=
  match t.node, s.launch? t.launch with
  | some n, some l => some (n, l.node n)
  | _, _ => none

/-- The bound record of a thread that ends by no PASS retires; while its team has written nothing it may be discarded, and
is started again with it (R283, R332). -/
def State.retireBound (s : State) (t : Team) (id : Nat) : State :=
  let s := match s.record? id with
    | some r => if t.written then s else s.mapTeam t.id (fun t => { t with ended := t.ended ++ [r] })
    | none => s
  s.retireRecord id

/-- A thread ends (R22); its bound record retires, or its stage's outcome is reported (R272, R273, R288). -/
def State.endThread (s : State) (team tid : Nat) (passed : Bool) : State :=
  match s.team? team with
  | none => s
  | some t =>
    let s := s.mapTeam team (fun t => t.endThread tid s.cycle)
    match t.boundRec tid, s.teamNode t with
    | some id, some (_, d) =>
      if nodeKind d = 3 then
        let s := s.mapLaunch t.launch (fun l => { l with outcomes := l.outcomes ++ [(team, tid, passed)] })
        if passed then
          (s.mapRecord id (fun r => { r with done := r.done ||| (1#8 <<< r.stage) })).route id
        else s.retireBound t id
      else s.retireBound t id
    | _, _ => s

/-- Vectors of a combine slot summed in ascending expert number, each addition rounded (R280). -/
def combineSum (parts : List (Nat × List Word)) : List Word :=
  match parts with
  | [] => []
  | p :: _ =>
    (sortBy (fun q => [q.1]) parts).foldl (fun acc q =>
      (upto acc.length).map (fun j =>
        BitVec.ofNat 32 (faddBits f32 .rn (acc.getD j 0).toNat (q.2.getD j 0).toNat))) (p.2.map (fun _ => 0))

/-- A launch without its terminal entry. -/
def Launch.live (l : Launch) : Bool := l.phase != .retiring

/-- Bytes of a launch's combine region (Table 13-3). -/
def Launch.combSize (l : Launch) : Nat := fld (l.ext.getD 5 0) 0 54

/-- Bytes of the region that make up its slots. -/
def Launch.combBytes (l : Launch) : Nat := l.combSize / 2048 * 2048

/-- Place of a byte of the combine region. -/
def State.combineByte (s : State) (l : Launch) (off : Nat) : Option Nat :=
  match s.target l.ctx l.slot (l.ext.getD 4 0) ((off : Nat) : Int) 1 1 .store with
  | .ok x => some x.loc
  | .error _ => none

/-- The region cut where a line of 256 bytes of its addresses begins, so that each piece lies in one line of memory: first byte and
length. -/
def State.combinePieces (s : State) (l : Launch) : List (Nat × Nat) :=
  if l.combBytes = 0 then []
  else
    let ptr := l.ext.getD 4 0
    let b := (dBase (s.descOf l.ctx (fld ptr 54 10)) + fld ptr 0 54) % 256
    (upto (ceilDiv (b + l.combBytes) 256)).map (fun k => (256 * k - b, min l.combBytes (256 * (k + 1) - b) - (256 * k - b)))

/-- The live launch and combine slot a location belongs to (R280). -/
def State.combineSlotOf (s : State) (loc : Nat) : Option (Nat × Nat) :=
  s.launches.findSome? (fun l =>
    if l.live then
      (s.combinePieces l).findSome? (fun p => match s.combineByte l p.1 with
        | some x => if x ≤ loc ∧ loc < x + p.2 then some (l.id, (p.1 + (loc - x)) / 2048) else none
        | none => none)
    else none)

/-- A byte of a live launch's combine region that is read: each read of each place gives an unspecified one (R280; log 18). -/
def State.combineFree (s : State) (loc : Nat) : Byte := Config.freeByte ((s.freeCtr + 1) * 2 ^ 72 + loc)

/-- A read of a live launch's combine region returns unspecified bytes (R280). -/
def State.maskCombine (s : State) (loc : Nat) (bs : List Byte) : List Byte :=
  (upto bs.length).map (fun k => if (s.combineSlotOf (loc + k)).isSome then s.combineFree (loc + k) else bs.getD k 0)

/-- A store into a combine slot makes its released sum unspecified (R280; log 18). -/
def State.spoil (s : State) (locs : List Nat) : State :=
  (distinct (locs.filterMap s.combineSlotOf)).foldl (fun s q =>
    s.mapLaunch q.1 (fun l => { l with spoiled := insertNat q.2 l.spoiled })) s

/-- Some line of a slot carries a lost or poison mark, so that the combine unit cannot use its bytes: the slot is as one stored into
(R370, R386; DESIGN CHOICE, log 18). -/
def State.slotMarked (s : State) (l : Launch) (id : Nat) : Bool :=
  ((upto 32).map (fun j => 2048 * id + 64 * j) ++ [2048 * id + 2047]).any (fun off =>
    match s.combineByte l off with
    | some x => (s.memError x 1).isSome
    | none => false)

/-- A full slot released (R280): its sum sent to PORT0 of the lowest contributing expert, the slot emptied. A spoiled slot
freely stays full or releases an unspecified sum; so does one on a marked line. -/
def State.releaseSlot (s : State) (l : Launch) (c : Combine) : State :=
  let bad := l.spoiled.contains c.id || s.slotMarked l c.id
  let n := s.freeCtr
  let s := if bad then { s with freeCtr := n + 256 } else s
  if bad && Config.freeChoice n % 2 == 0 then s
  else
    let lowest := (leastBy (fun e => [e]) (c.parts.map Prod.fst)).getD 0
    let s := s.mapLaunch l.id (fun l => { l with
      combine := l.combine.filter (fun x => decide (x.id ≠ c.id)), spoiled := l.spoiled.filter (fun x => decide (x ≠ c.id)) })
    let sum := (combineSum c.parts).flatMap (fun w => toBytes w.toNat 4)
    let sum := if bad then (upto sum.length).map (fun j => Config.freeByte (n + 1 + j)) else sum
    match nPort (l.node lowest) 0 with
    | none => s
    | some target =>
      s.makeRecord l.id target (toBytes c.id 4 ++ toBytes ((c.layer + 1) % 65536) 4 ++ sum) none (senderCombine l.id) s.serial

/-- Full slots released in the order they completed, while the combine unit holds no record (R269, R272). -/
def State.releaseSlots (s : State) (launch : Nat) : Nat → State
  | 0 => s
  | n + 1 =>
    if s.unitHolds launch (senderCombine launch) then s
    else
      match s.launch? launch with
      | none => s
      | some l =>
        match l.fullSlots with
        | [] => s
        | id :: rest =>
          let s := s.mapLaunch launch (fun l => { l with fullSlots := rest })
          let s := match l.combine.find? (fun c => c.id == id && decide (c.k ≤ c.parts.length)) with
            | some c => s.releaseSlot l c
            | none => s
          s.releaseSlots launch n

/-- A contribution applied to a token's slot; a full slot completes (R280). One that meets a marked line spoils the slot. -/
def State.combineInto (s : State) (launch id layer k expert : Nat) (vec : List Word) : State :=
  match s.launch? launch with
  | none => s
  | some l =>
    let old := (l.combine.find? (fun c => c.id == id)).getD ⟨id, layer, k, []⟩
    let c : Combine := { old with parts := old.parts ++ [(expert, vec)] }
    let full := decide (c.k ≤ c.parts.length)
    let marked := s.slotMarked l id
    let s := s.mapLaunch launch (fun l => { l with
      combine := l.combine.filter (fun c => decide (c.id ≠ id)) ++ [c],
      fullSlots := if full then l.fullSlots ++ [id] else l.fullSlots,
      spoiled := if marked then insertNat id l.spoiled else l.spoiled })
    if full then s.releaseSlots launch (l.fullSlots.length + 1) else s

/-- Units whose held records have found room generate again: routers, windows and combine units (R272). -/
def State.resumeFabric (s : State) : State :=
  let s := (s.records.filter (fun r => r.place == .passed)).foldl (fun s r => s.route r.id) s
  s.launches.foldl (fun s l =>
    ((distinct (l.windows.map WinEntry.node)).foldl (fun s n => s.releaseNode l.id n) s).releaseSlots l.id l.fullSlots.length) s

end Sys2Proof.Machine
end

