-- ==== Sys2Proof/Machine/Operands.lean ====
section
/-! DEFINITION. Operand forms: the register fields of Table 7-4 as a lane reads them (R68, R71, R168), integer types
(R87, R88), immediates and literals (R166), displacements (R169). -/

namespace Sys2Proof.Machine

/-- A v field. -/
def Reads.v (r : Reads) (i : BitVec 6) : Word := r.regs.get i.toNat
def Reads.v64 (r : Reads) (i : BitVec 6) : DWord := r.regs.get64 i.toNat

/-- A b field: v0 to v63, or bits [31:0] of s0 to s63 (R71, R168). -/
def Reads.b (r : Reads) (i : BitVec 7) : Word :=
  if i.toNat < 64 then r.regs.get i.toNat else lowWord (r.uni.get (i.toNat - 64))

/-- A 64-bit b operand: a pair, or all 64 bits of an s register. -/
def Reads.b64 (r : Reads) (i : BitVec 7) : DWord :=
  if i.toNat < 64 then r.regs.get64 i.toNat else r.uni.get (i.toNat - 64)

/-- An s field. -/
def Reads.s (r : Reads) (i : Nat) : DWord := r.uni.get i

/-- A source of a UR instruction: a literal is sign-extended (R166, R190). -/
def Reads.ur (r : Reads) (i : BitVec 7) (lit : Option Word) : DWord :=
  if i.toNat = 127 then (match lit with | some l => l.signExtend 64 | none => 0) else r.uni.get i.toNat

/-- An immediate: 7 bits sign-extended, or the literal that replaces it (R166, R168). -/
def viImm (o : FVI) : Word := match o.lit with | some l => l | none => o.imm.signExtend 32

/-- Width of an integer type code (Table 7-5), and whether it is signed. -/
def intWidth (t : BitVec 4) : Nat :=
  match t.toNat with
  | 0 => 8
  | 4 => 8
  | 1 => 16
  | 5 => 16
  | 3 => 64
  | 7 => 64
  | 9 => 64
  | _ => 32
def intSigned (t : BitVec 4) : Bool := t.toNat < 4

/-- The low n bits of a number read as signed or unsigned (R87). -/
def readInt (sgn : Bool) (n : Nat) (x : Nat) : Int :=
  let y := x % 2 ^ n
  if sgn && decide (2 ^ (n - 1) ≤ y) then (y : Int) - 2 ^ n else y

/-- Range of an integer type (Table 4-1). -/
def intMin (sgn : Bool) (n : Nat) : Int := if sgn then -(2 ^ (n - 1)) else 0
def intMax (sgn : Bool) (n : Nat) : Int := if sgn then 2 ^ (n - 1) - 1 else 2 ^ n - 1

/-- The exact result clamped, or wrapped and read back in the type's signedness (R88, R187). -/
def narrow (sat sgn : Bool) (n : Nat) (e : Int) : Int :=
  if sat then max (intMin sgn n) (min (intMax sgn n) e) else readInt sgn n (e % (2 ^ n : Int)).toNat

/-- A shift of R183 before wrapping: x × 2^y, or floor(x / 2^y). Counts of 64 and above give what 64 gives after
wrapping; a left shift to be clamped keeps its sign. -/
def shlExact (x : Int) (y : Nat) : Int := x * 2 ^ (min y 128)
def shrExact (x : Int) (y : Nat) : Int := x / 2 ^ (min y 128)

/-- Destination of a VD integer result: one register extended, or a pair (R87, R187). -/
def Regs.setInt (r : Regs) (d : BitVec 6) (n : Nat) (e : Int) : Regs :=
  if n = 64 then r.set64 d.toNat (BitVec.ofInt 64 e) else r.set d.toNat (BitVec.ofInt 32 e)

/-- A VD integer instruction in one lane (R187): `shift` reads the count as B[31:0]. -/
def vdInteger (op : Int → Int → Int) (shift : Bool) (o : FVD) (r : Reads) (q : Regs) : Regs :=
  let n := intWidth o.t
  let sgn := intSigned o.t
  let x := readInt sgn n (if n = 64 then (r.v64 o.d).toNat else (r.v o.d).toNat)
  let y : Int := if shift then ((r.b o.b).toNat : Int)
    else readInt sgn n (if n = 64 then (r.b64 o.b).toNat else (r.b o.b).toNat)
  q.setInt o.d n (narrow (o.m.getLsbD 1) sgn n (op x y))

/-- The 32-bit register a V3 integer instruction writes. -/
def setV3 (o : FV3) (f : Reads → Word → Word → Word) (r : Reads) (q : Regs) : Regs :=
  q.set o.d.toNat (f r (r.v o.a) (r.b o.b))

/-- Byte displacement of a signed word count (R169), sign-extended to the PC's width. -/
def wordDisp {n : Nat} (d : BitVec n) : BitVec 64 := (d.signExtend 64) <<< (2 : Nat)

/-- Displacement of an M-format operand in bytes (Table 7-7). -/
def mDisp (o : FM) (size : Nat) (r : Reads) : Int :=
  if o.mode = 0 then (r.v (o.x.setWidth 6)).toInt
  else if o.mode = 1 then o.x.toInt * size
  else if o.mode = 2 then 0
  else match o.lit with | some l => l.toInt | none => 0

/-- The scope of a mode-2 operand; the other modes are relaxed at thread scope (Table 7-7). -/
def mOrdered (o : FM) : Bool := o.mode == 2
def mScope (o : FM) : Nat := if o.mode = 2 then o.x.toNat / 2 else 0

end Sys2Proof.Machine
end

