-- ==== Sys2Proof/Machine/Flags.lean ====
section
/-! DEFINITION. The flags of compares (Table 3-2, R74, R189, R242) and of the non-blocking queue forms (R236). -/

namespace Sys2Proof.Machine

/-- Flags of a − b at a width (Table 3-2): N the top bit of the difference, Z equality, C no borrow, V signed overflow. -/
def intFlags (n : Nat) (a b : Nat) : Flags :=
  let x := a % 2 ^ n
  let y := b % 2 ^ n
  let d := (x + 2 ^ n - y) % 2 ^ n
  let exact := readInt true n x - readInt true n y
  { n := decide (2 ^ (n - 1) ≤ d), z := decide (x = y), c := decide (y ≤ x),
    v := decide (exact < intMin true n) || decide (intMax true n < exact) }

/-- Flags ICMP writes in one lane (R189). -/
def icmpFlags (o : FVC) (r : Reads) : Flags :=
  if intWidth o.code = 64 then intFlags 64 (r.v64 o.a).toNat (r.b64 o.b).toNat
  else intFlags (intWidth o.code) (r.v o.a).toNat (r.b o.b).toNat

/-- Flags FCMP writes in one lane (R242). -/
def fcmpFlags (o : FVC) (r : Reads) : Flags :=
  let f := fmtOf o.code
  floatFlags (unpack f ((r.v o.a).toNat % 2 ^ f.width)) (unpack f ((r.b o.b).toNat % 2 ^ f.width))

/-- Flags of a non-blocking queue operation: Z says it was not done (R236). -/
def queueFlags (ok : Bool) : Flags := ⟨false, !ok, false, false⟩

end Sys2Proof.Machine
end

