-- ==== Sys2Proof/Machine/Scratch.lean ====
section
/-! DEFINITION. Scratchpad space, accumulator tiles and team queues (03 R81, R82; 09 R219, R234 to R236; 10 R257, R262). -/

namespace Sys2Proof.Machine

/-- Start of the accumulator window (Table 3-6). -/
def accWindow : Nat := 0x200000

/-- Every byte of a range lies in a mapped range of the team's scratchpad space (R81). -/
def Team.mapped (t : Team) (off n : Nat) : Bool :=
  (n == 0) || decide (off + n ≤ t.scr * 0x4000) || (decide (accWindow ≤ off) && decide (off + n ≤ accWindow + t.acc * 0x4000))
  || (t.scr == 128 && decide (off < accWindow) && decide (off + n ≤ accWindow + t.acc * 0x4000))

/-- Every byte of a range lies in the team's scratchpad, the window excluded. -/
def Team.inScratch (t : Team) (off n : Nat) : Bool := decide (off + n ≤ t.scr * 0x4000)

/-- Fields of a matrix parameter block (Table 10-6). -/
def bOp (b : List DWord) : Nat := fld (dword b 0) 0 8
def bAfmt (b : List DWord) : Nat := fld (dword b 0) 8 3
def bBfmt (b : List DWord) : Nat := fld (dword b 0) 12 3
def bCfmt (b : List DWord) : Nat := fld (dword b 0) 16 1
def bZi (b : List DWord) : Bool := bit (dword b 0) 17
def bTa (b : List DWord) : Bool := bit (dword b 0) 18
def bLayout (b : List DWord) : Bool := bit (dword b 0) 19
def bKstep (b : List DWord) : Nat := fld (dword b 0) 24 8
def bM (b : List DWord) : Nat := fld (dword b 0) 32 9
def bN (b : List DWord) : Nat := fld (dword b 0) 48 8
def bAoff (b : List DWord) : Nat := fld (dword b 1) 0 32
def bAstride (b : List DWord) : Nat := fld (dword b 1) 32 32
def bBslot (b : List DWord) : Nat := fld (dword b 2) 0 7
def bBspan (b : List DWord) : Nat := fld (dword b 2) 8 3
def bCtile (b : List DWord) : Nat := fld (dword b 2) 16 7
def bTm (b : List DWord) : Nat := ceilDiv (bM b) 16
def bTn (b : List DWord) : Nat := ceilDiv (bN b) 16

/-- A tile named by an issued and unfinished operation (R257). -/
def Team.busy (t : Team) (tile : Nat) : Bool :=
  t.mops.any (fun m => decide (bCtile m.block ≤ tile) && decide (tile < bCtile m.block + bTm m.block * bTn m.block))

/-- Some byte of a range lies in a busy tile. -/
def Team.busyRange (t : Team) (off n : Nat) : Bool :=
  decide (0 < n) && (upto 128).any (fun k =>
    decide (off < accWindow + 1024 * (k + 1)) && decide (accWindow + 1024 * k < off + n) && t.busy k)

/-- A word of scratchpad space. -/
def Team.readWord (t : Team) (off : Nat) : Word :=
  if off < accWindow then BitVec.ofNat 32 (ofBytes (t.scratchBytes off 4)) else sget 0 t.tiles ((off - accWindow) / 4)

def Team.putWord (t : Team) (off : Nat) (w : Word) : Team :=
  if off < accWindow then t.putScratch off (toBytes w.toNat 4)
  else { t with tiles := sset 0 t.tiles ((off - accWindow) / 4) w }

/-- A byte of scratchpad space, for engines. -/
def Team.readByte (t : Team) (off : Nat) : Byte :=
  if off < accWindow then sget 0 t.scratch off
  else (toBytes (t.readWord (off / 4 * 4)).toNat 4).getD (off % 4) 0

def Team.putByte (t : Team) (off : Nat) (b : Byte) : Team :=
  if off < accWindow then { t with scratch := sset 0 t.scratch off b }
  else
    let bs := toBytes (t.readWord (off / 4 * 4)).toNat 4
    t.putWord (off / 4 * 4) (BitVec.ofNat 32 (ofBytes (modifyAt bs (off % 4) (fun _ => b))))

def Team.putBytes (t : Team) (off : Nat) (bs : List Byte) : Team :=
  (upto bs.length).foldl (fun t k => t.putByte (off + k) (bs.getD k 0)) t

/-- A write of a cycle: writes to one place apply in ascending slot, then ascending TID (R150). -/
def Team.writeWord (t : Team) (slot tid off : Nat) (w : Word) : Team :=
  if t.wlog.any (fun e => e.1 == off && decide ([slot, tid] < [e.2.1, e.2.2])) then t
  else { t.putWord off w with wlog := t.wlog ++ [(off, slot, tid)] }

/-- The offset of a scratchpad access after its checks (R211, R219). -/
def scratchCheck (t : Team) (base : DWord) (disp : Int) (size : Nat) : Except Nat Nat :=
  let off : Int := (base.toNat : Int) + disp
  if off < 0 ∨ 2 ^ 32 ≤ off then .error 0x20
  else if !t.mapped off.toNat size then .error 0x20
  else if off.toNat % size ≠ 0 then .error 0x14
  else if t.busyRange off.toNat size then .error 0x21
  else .ok off.toNat

/-- A scratchpad load: the bytes as the cycle found them (R150, R219). -/
def State.scratchLoad (s : State) (o : FM) (size : Nat) : State :=
  s.eachLane o.g (fun iss t r s' =>
    match scratchCheck t (r.s o.p.toNat) (mDisp o size r) size with
    | .error c => s'.raise r.tid c 0
    | .ok off =>
      s'.mapRegs iss.team r.tid (fun q =>
        (upto (size / 4)).foldl (fun q k => q.set (o.d.toNat + k) (t.readWord (off + 4 * k))) q))

/-- A scratchpad store (R150, R219). -/
def State.scratchStore (s : State) (o : FM) (size : Nat) : State :=
  s.eachLane o.g (fun iss t r s' =>
    match scratchCheck t (r.s o.p.toNat) (mDisp o size r) size with
    | .error c => s'.raise r.tid c 0
    | .ok off =>
      s'.mapTeam iss.team (fun t =>
        (upto (size / 4)).foldl (fun t k => t.writeWord iss.slot r.tid (off + 4 * k) (r.regs.get (o.d.toNat + k))) t))

/-- LDS.B32 (R219). -/
def execLdsB32 (_h : Hdr) (o : FM) (s : State) : Result := .next (s.scratchLoad o 4)
/-- LDS.B64 (R219). -/
def execLdsB64 (_h : Hdr) (o : FM) (s : State) : Result := .next (s.scratchLoad o 8)
/-- STS.B32 (R219). -/
def execStsB32 (_h : Hdr) (o : FM) (s : State) : Result := .next (s.scratchStore o 4)
/-- STS.B64 (R219). -/
def execStsB64 (_h : Hdr) (o : FM) (s : State) : Result := .next (s.scratchStore o 8)

/-- Window offset of a tile element, or the condition of R262. -/
def elementCheck (t : Team) (o : FV3) (r : Reads) : Except Nat Nat :=
  let tile := (r.b o.b).toNat
  let idx := (r.v o.a).toNat
  if 16 * t.acc ≤ tile ∨ 256 ≤ idx then .error 0x20
  else if t.busy tile then .error 0x21
  else .ok (accWindow + 1024 * tile + 4 * idx)

/-- LDACC: an element of a tile, variable-latency (R262). -/
def execLdacc (_h : Hdr) (o : FV3) (s : State) : Result :=
  .next (s.eachLane o.g (fun iss t r s' =>
    match elementCheck t o r with
    | .error c => s'.raise r.tid c 0
    | .ok off => s'.addPend iss.team r.tid [(phys r.regs.level o.d.toNat, t.readWord off)] true s.cycle false))

/-- STACC writes an element of a tile (R262). -/
def execStacc (_h : Hdr) (o : FV3) (s : State) : Result :=
  .next (s.eachLane o.g (fun iss t r s' =>
    match elementCheck t o r with
    | .error c => s'.raise r.tid c 0
    | .ok off => s'.mapTeam iss.team (fun t => t.writeWord iss.slot r.tid off (r.v o.d))))

/-! ### Queues -/

def Team.queue (t : Team) (k : Nat) : Queue := t.queues.getD k ⟨0, 0, 0, 0, 0⟩

def Queue.canPush (q : Queue) : Bool := decide (q.count < q.depth) && decide (0 < q.allow)
def Queue.slot (q : Queue) (k : Nat) : Nat := q.base + 4 * ((q.head + k) % q.depth)

/-- A push that can proceed (R235). Its ring write comes after those of the cycle's queue operations before it (R236); with
other scratchpad writes it is in the order of R150. -/
def Team.doPush (t : Team) (k slot tid : Nat) (w : Word) : Team :=
  let q := t.queue k
  let off := q.slot q.count
  let t := if t.pushed.any (fun e => e.1 == off) then { t.putWord off w with wlog := t.wlog ++ [(off, slot, tid)] } else t.writeWord slot tid off w
  { t with
    pushed := (off, w) :: t.pushed,
    queues := modifyAt t.queues k (fun q => { q with count := q.count + 1, allow := q.allow - 1 }) }

/-- A pop that can proceed: the team and the element, as a queue operation of the cycle pushed it (R236) or as the cycle found
the scratchpad, `before` (R150). -/
def Team.doPop (t before : Team) (k : Nat) : Team × Word :=
  let q := t.queue k
  let off := q.slot 0
  ({ t with queues := modifyAt t.queues k (fun q => { q with head := (q.head + 1) % q.depth, count := q.count - 1 }) },
    ((t.pushed.find? (fun e => e.1 == off)).map Prod.snd).getD (before.readWord off))

/-- QINIT sets a queue's state (R234, R235). -/
def execQinit (_h : Hdr) (o : FQ) (s : State) : Result :=
  .next (s.eachLane o.g (fun iss t r s' =>
    let v := (r.v o.v).toNat
    let depth := v / 2 ^ 22
    let base := v % 2 ^ 22
    if depth = 0 then s'.raise r.tid 0x28 0
    else if t.scr * 0x4000 < base + 4 * depth then s'.raise r.tid 0x20 0
    else if base % 4 ≠ 0 then s'.raise r.tid 0x14 0
    else s'.mapTeam iss.team (fun t =>
      { t with queues := modifyAt t.queues o.q.toNat (fun _ => ⟨base, depth, 0, 0, depth⟩) })))

/-- A queue operation on the state as the operations before it left it; QUEUE_PARAM on an unset queue (R235, R236). -/
def State.queueOp (s : State) (o : FQ) (f : Issue → Team → Team → Reads → State → State) : State :=
  s.eachLane o.g (fun iss before r s' =>
    match s'.team? iss.team with
    | none => s'
    | some t => if (t.queue o.q.toNat).depth = 0 then s'.raise r.tid 0x28 0 else f iss before t r s')

/-- QPUSH: pushes, or the thread waits, or with .NB cN tells (R235, R236). -/
def execQpush (_h : Hdr) (o : FQ) (s : State) : Result :=
  .next (s.queueOp o (fun iss _ t r s' =>
    let k := o.q.toNat
    let can := (t.queue k).canPush
    let s' := if can then s'.mapTeam iss.team (fun t => t.doPush k iss.slot r.tid (r.v o.v)) else s'
    if o.nb then s'.mapRegs iss.team r.tid (fun q => q.setFlags o.cn (queueFlags can))
    else if can then s'
    else s'.mapThread iss.team r.tid (fun x => { x with block := .push k (r.v o.v) s.cycle })))

/-- QPOP: pops into a variable-latency destination, or the thread waits, or with .NB cN tells (R235, R236). -/
def execQpop (_h : Hdr) (o : FQ) (s : State) : Result :=
  .next (s.queueOp o (fun iss before t r s' =>
    let k := o.q.toNat
    let can := decide (0 < (t.queue k).count)
    let d := phys r.regs.level o.v.toNat
    let s' :=
      if can then
        let q := t.doPop before k
        (s'.mapTeam iss.team (fun _ => q.1)).addExact iss.team r.tid [(d, q.2)] (s.cycle + 4)
      else s'
    if o.nb then s'.mapRegs iss.team r.tid (fun q => q.setFlags o.cn (queueFlags can))
    else if can then s'
    else
      let n := s'.serial
      (s'.addPend iss.team r.tid [(d, 0)] false s.cycle false).mapThread iss.team r.tid (fun x =>
        { x with block := .pop k n s.cycle })))

/-- QCRED returns credit to the allowance (R235). -/
def execQcred (_h : Hdr) (o : FQ) (s : State) : Result :=
  .next (s.queueOp o (fun iss _ _ r s' =>
    s'.mapTeam iss.team (fun t =>
      { t with queues := modifyAt t.queues o.q.toNat (fun q =>
          { q with allow := min (q.allow + (r.v o.v).toNat) q.depth }) })))

/-- A waiting queue operation tried again (R236). -/
def execQueueRetry (team tid : Nat) (s : State) : Result :=
  .next (match s.team? team, s.thread? team tid with
    | some t, some x =>
      let s' := s.mapThread team tid (fun x => { x with tried := s.cycle })
      match x.block with
      | .push k v _ =>
        if (t.queue k).canPush then
          (s'.mapTeam team (fun t => t.doPush k ((x.place.map Prod.fst).getD 0) tid v)).mapThread team tid (fun x => { x with block := .none })
        else s'
      | .pop k n _ =>
        if 0 < (t.queue k).count then
          let before := (s.view.find? (fun u => u.id == team)).getD t
          let w := (t.doPop before k).2
          ((s'.mapTeam team (fun t => (t.doPop before k).1)).mapThread team tid (fun x =>
            { x with block := .none,
                     pend := x.pend.map (fun p =>
                       if p.serial = n then { p with regs := p.regs.map (fun r => (r.1, w)), ready := true, notBefore := s.cycle + 4, exact := true }
                       else p) }))
        else s'
      | _ => s
    | _, _ => s)

end Sys2Proof.Machine
end

