-- ==== Sys2Proof/Machine/UniformOps.lean ====
section
/-! DEFINITION. The uniform instructions and guard definitions (08 R190 to R194). -/

namespace Sys2Proof.Machine

/-- A uniform register of an executing home sheaf written; a completed token's write time goes with its value (R73). -/
def State.setUniform (s : State) (team h d : Nat) (v : DWord) : State :=
  s.mapSheaf team h (fun f => { f with uni := f.uni.set d v, tokenW := serase f.tokenW d })

/-- A UR instruction: once for each home sheaf, on its own registers (R63, R190). -/
def State.uniformly (s : State) (o : FUR) (f : DWord → DWord → DWord) : State :=
  s.eachSheaf (fun iss _ r s => s.setUniform iss.team r.sheaf o.d.toNat (f (r.ur o.a o.lit) (r.ur o.b o.lit)))

/-- D := A + B (R190). -/
def execSadd (_h : Hdr) (o : FUR) (s : State) : Result :=
  .next (s.uniformly o (fun a b => a + b))

/-- D := A − B (R190). -/
def execSsub (_h : Hdr) (o : FUR) (s : State) : Result :=
  .next (s.uniformly o (fun a b => a - b))

/-- D := low 64 bits of A × B (R190). -/
def execSmul (_h : Hdr) (o : FUR) (s : State) : Result :=
  .next (s.uniformly o (fun a b => a * b))

/-- Bitwise AND (R190). -/
def execSand (_h : Hdr) (o : FUR) (s : State) : Result :=
  .next (s.uniformly o (fun a b => a &&& b))

/-- Bitwise OR (R190). -/
def execSor (_h : Hdr) (o : FUR) (s : State) : Result :=
  .next (s.uniformly o (fun a b => a ||| b))

/-- Bitwise XOR (R190). -/
def execSxor (_h : Hdr) (o : FUR) (s : State) : Result :=
  .next (s.uniformly o (fun a b => a ^^^ b))

/-- D := A × 2^B mod 2^64; 0 for a count of 64 or more (R190). -/
def execSshl (_h : Hdr) (o : FUR) (s : State) : Result :=
  .next (s.uniformly o (fun a b => if 64 ≤ b.toNat then 0 else a <<< b.toNat))

/-- D := floor(A / 2^B), unsigned; 0 for a count of 64 or more (R190). -/
def execSshr (_h : Hdr) (o : FUR) (s : State) : Result :=
  .next (s.uniformly o (fun a b => if 64 ≤ b.toNat then 0 else a >>> b.toNat))

/-- D := A (R190). -/
def execSmov (_h : Hdr) (o : FUR) (s : State) : Result :=
  .next (s.uniformly o (fun a _ => a))

/-- GSET writes a guard-slot definition of each executing home sheaf (R194). -/
def execGset (_h : Hdr) (o : FG) (s : State) : Result :=
  .next (s.eachSheaf (fun iss _ r s => s.mapSheaf iss.team r.sheaf (fun f =>
    { f with uni := { f.uni with g := modifyAt f.uni.g (o.slot.toNat - 1) (fun _ => ⟨o.cn, o.cond⟩) } })))

/-- VDIE: the virtual die of the buffer A names, or 2^63 + device for owner kind 3, after the first two checks of R111;
a failed check traps in the lowest thread of the home sheaf (R192), as does a descriptor on a marked line (R370, R386; log 20). The
descriptor's use is noted (R110), and it waits where a slice does not serve it (R368, R369). -/
def execVdie (_h : Hdr) (o : FUR) (s : State) : Result :=
  .next (s.eachSheaf (fun iss t r s' =>
    let ptr := r.ur o.a o.lit
    let buf := fld ptr 54 10
    let d := s.descOf t.ctx buf
    let slot := ((s.launch? t.launch).map Launch.slot).getD 0
    if !s.descFree t.ctx buf then s'.stall
    else
      match s.descError t.ctx buf with
      | some c => s'.raise r.tid c ptr
      | none =>
        let s' := s'.noteDesc t.ctx buf
        if descInvalid (s.ctx t.ctx) d then s'.raise r.tid 0x10 ptr
        else if !ownerAdmits d slot then s'.raise r.tid 0x11 ptr
        else
          s'.setUniform iss.team r.sheaf o.d.toNat
            (BitVec.ofNat 64 (if dOkind d = 3 then 2 ^ 63 + dOid d else dVd d))))

/-- VHOP: the hop distance between the dies two virtual dies bind (R193, R363). -/
def execVhop (_h : Hdr) (o : FUR) (s : State) : Result :=
  .next (s.eachSheaf (fun iss t r s' =>
    let c := s.ctx t.ctx
    let v : DWord :=
      match c.vdie (fld (r.ur o.a o.lit) 0 2), c.vdie (fld (r.ur o.b o.lit) 0 2) with
      | some x, some y => BitVec.ofNat 64 (Config.hop x y)
      | _, _ => -1
    s'.setUniform iss.team r.sheaf o.d.toNat v))

end Sys2Proof.Machine
end

