-- ==== Sys2Proof/Machine/Matrix.lean ====
section
/-! DEFINITION. The matrix path: the baton, parameter blocks, matrix operations and their segments, batches and tiles
(10 R248 to R257, R261). -/

namespace Sys2Proof.Machine

/-- The team of the issue as the words before this one left it. -/
def State.teamNow (s : State) (iss : Issue) (t : Team) : Team := (s.team? iss.team).getD t

/-! ### The baton -/

/-- BATON.TAKE: the baton goes to the executing home sheaf when free; its guard-true threads wait while another holds it
(R248). -/
def execBatonTake (_h : Hdr) (o : FN) (s : State) : Result :=
  .next (s.eachHome o.g (fun iss t r s' =>
    match (s'.teamNow iss t).baton with
    | none => s'.mapTeam iss.team (fun t => { t with baton := some r.sheaf })
    | some h =>
      if h = r.sheaf then s'
      else
        ((s.lanes o.g).filter (fun q => q.sheaf == r.sheaf)).foldl (fun s' q =>
          s'.mapThread iss.team q.tid (fun x => { x with wait := .baton s.cycle })) s'))

/-- Accesses of the threads of a home sheaf in which a word takes effect that are not performed at team scope. -/
def State.lateOf (s : State) (reads : List Reads) (team sheaf : Nat) : List Nat :=
  (s.accs.filter (fun a => a.team == team && !a.parked && !a.performed 2
    && reads.any (fun q => q.sheaf == sheaf && q.tid == a.tid))).map Acc.id

/-- BATON.PASS: to the oldest waiter, or free; BATON_STATE without the baton (R248). As a release at team scope it takes effect
when the accesses of its threads before it, a word of its group among them, are performed (R151). -/
def execBatonPass (_h : Hdr) (o : FN) (s : State) : Result :=
  .next (s.eachHome o.g (fun iss t r s' =>
    if (s'.teamNow iss t).baton = some r.sheaf then
      let late := s'.lateOf (s.lanes o.g) iss.team r.sheaf
      s'.mapTeam iss.team (fun t =>
        if late.isEmpty then t.passBaton s.cycle else { t with baton := some t.sheaves.length, passing := late })
    else s'.raise r.tid 0x23 0))

/-- A baton that waits for accesses passes when they are performed (R151). -/
def State.passWaiting (s : State) (t : Team) : State :=
  if t.passing.isEmpty || s.accs.any (fun a => t.passing.contains a.id && !a.performed 2) then s
  else s.mapTeam t.id (fun u => u.passBaton s.cycle)

/-! ### The parameter block -/

/-- The reserved fields and values of a parameter block (R249, Table 10-6). -/
def blockOk (b : List DWord) : Bool :=
  ((b.drop 3).all (fun w => w == 0)) && fld (dword b 2) 23 41 == 0 && fld (dword b 2) 11 5 == 0
  && fld (dword b 2) 7 1 == 0 && fld (dword b 0) 56 8 == 0 && fld (dword b 0) 41 7 == 0 && fld (dword b 0) 20 4 == 0
  && !bit (dword b 0) 15 && !bit (dword b 0) 11
  && bAoff b % 64 == 0 && bAstride b % 64 == 0
  && decide (1 ≤ bN b) && decide (bN b ≤ 128) && decide (1 ≤ bM b) && decide (bM b ≤ 256)
  && decide (8 ≤ bKstep b) && decide (bKstep b ≤ 64) && bKstep b % 8 == 0
  && (!bTa b || decide (bAfmt b ≤ 1))
  && (if bOp b = 0 then decide (bAfmt b ≤ 3) && decide (bBfmt b ≤ 3) && bCfmt b == 0
      else decide (bOp b ≤ 2) && bAfmt b == 4 && bBfmt b == 4 && bCfmt b == 1)

/-- Stored rows of operand A and the bytes of each (Table 10-7). -/
def aRows (b : List DWord) : Nat := if bTa b then bKstep b else bM b
def aRowBytes (b : List DWord) : Nat :=
  if bAfmt b ≤ 1 then (if bTa b then 2 * bM b else 2 * bKstep b) else if bAfmt b = 4 then bKstep b else 128

/-- Segments of the stored rows in ascending offset (R250, R254). -/
def aSegments (b : List DWord) : List Nat :=
  ((upto (aRows b)).map (fun q =>
    (upto (ceilDiv (aRowBytes b) 64)).map (fun j => bAoff b + q * bAstride b + 64 * j))).flatten.foldl
      (fun l x => insertNat x l) []

/-- Weight slots a team has (R83). -/
def Team.weightSlots (t : Team) : Nat := t.acc * Config.slotsPerGranule t.die

/-- The issue checks of R252 in their order. -/
def mmaCheck (t : Team) (h off : Nat) (b : List DWord) : Option Nat :=
  if t.baton ≠ some h then some 0x23
  else if t.acc = 0 ∨ !t.inScratch off 64 then some 0x20
  else if off % 64 ≠ 0 then some 0x14
  else if !blockOk b then some 0x22
  else if 16 * t.acc < bCtile b + bTm b * bTn b ∨ t.weightSlots < bBslot b + bBspan b + 1
      ∨ !t.inScratch (bAoff b + (aRows b - 1) * bAstride b) (aRowBytes b) then some 0x20
  else if (upto (bBspan b + 1)).any (fun k =>
      match (t.wslots.getD (bBslot b + k) ⟨none, []⟩).tag with
      | some f => f != bBfmt b
      | none => false) then some 0x22
  else none

/-- MMA.ISSUE: one operation joins the team's open batch (R252). -/
def execMmaIssue (_h : Hdr) (o : FA) (s : State) : Result :=
  .next (s.eachElect o.g (fun iss t r s' =>
    let now := s'.teamNow iss t
    let f := (now.sheaves[r.sheaf]?).getD Sheaf.reset
    if 63 ≤ f.counter 1 ∨ 64 ≤ now.mops.length then s'.stall
    else
      let off := (r.s o.p.toNat).toNat
      let b := (upto 8).map (fun k => BitVec.ofNat 64 (ofBytes (t.scratchBytes (off + 8 * k) 8)))
      match mmaCheck now r.sheaf off b with
      | some c => s'.raise r.tid c 0
      | none =>
        let n := s'.serial
        { s'.mapTeam iss.team (fun t =>
            { t.mapSheaf r.sheaf (fun f => { f with out := f.out ++ [⟨1, n, false, 0⟩] }) with
              mops := t.mops ++ [⟨n, r.sheaf, r.tid, b, none, false, []⟩] }) with
          serial := n + 1 }))

/-! ### Batches -/

/-- Batch n has completed: every operation in it and in the batches before it has finished (R255). -/
def Team.batchDone (t : Team) (n : Nat) : Bool :=
  decide (n ≤ t.batches) && t.mops.all (fun m => match m.batch with | some k => decide (n < k) | none => true)

/-- Committed batches that have not completed. -/
def Team.openBatches (t : Team) : Nat :=
  ((upto t.batches).filter (fun k => !t.batchDone (k + 1))).length

/-- MMA.COMMIT: closes the open batch and returns its number (R255). DESIGN CHOICE (log 25): with 8 batches open it stalls
before BATON_STATE is checked. -/
def execMmaCommit (_h : Hdr) (o : FA) (s : State) : Result :=
  .next (s.eachElect o.g (fun iss t r s' =>
    let now := s'.teamNow iss t
    if 8 ≤ now.openBatches then s'.stall
    else if now.baton ≠ some r.sheaf then s'.raise r.tid 0x23 0
    else
      let n := now.batches + 1
      (s'.mapTeam iss.team (fun t =>
        { t with batches := n,
                 mops := t.mops.map (fun m => if m.batch.isNone then { m with batch := some n } else m) })).setUniform
        iss.team r.sheaf o.t.toNat (BitVec.ofNat 64 n)))

/-- WAITB: each guard-true thread waits until the batch has completed; ASYNC_PARAM above the latest number (R256). -/
def execWaitb (_h : Hdr) (o : FA) (s : State) : Result :=
  .next (s.eachLane o.g (fun iss t r s' =>
    let now := s'.teamNow iss t
    let n := (r.s o.p.toNat).toNat
    if now.batches < n then s'.raise r.tid 0x22 0
    else if now.batchDone n then s'
    else s'.mapThread iss.team r.tid (fun x => { x with wait := .waitb n })))

/-- ACCZ clears a run of tiles (R261). -/
def execAccz (_h : Hdr) (o : FA) (s : State) : Result :=
  .next (s.eachElect o.g (fun iss t r s' =>
    let w := r.s o.p.toNat
    let first := fld w 0 7
    let count := fld w 8 8
    if fld w 16 48 ≠ 0 ∨ bit w 7 ∨ count = 0 ∨ 128 < count then s'.raise r.tid 0x22 0
    else if 16 * t.acc < first + count then s'.raise r.tid 0x20 0
    else if (upto count).any (fun k => t.busy (first + k)) then s'.raise r.tid 0x21 0
    else s'.mapTeam iss.team (fun t =>
      (upto (256 * count)).foldl (fun t k => t.writeWord iss.slot r.tid (accWindow + 1024 * first + 4 * k) 0) t)))

/-! ### The array -/

/-- The array starts a team's next operation once every WLOAD issued before it has completed (R253). DESIGN CHOICE (log 25):
its segment reads begin once the operation before it has finished. -/
def State.mmaCanStart (s : State) (t : Team) : Bool :=
  match t.mops with
  | [] => false
  | m :: _ => !m.started && !(s.ops.any (fun o => o.kind == 1 && o.team == t.id && decide (o.serial < m.serial)))

def Team.headOp (t : Team) (f : MOp → MOp) : Team := { t with mops := modifyAt t.mops 0 f }

/-- The event MMA_OPERATION_START. -/
def execMmaOperationStart (team : Nat) (s : State) : Result :=
  .next (match s.team? team with
    | some t => if s.mmaCanStart t then s.mapTeam team (fun t => t.headOp (fun m => { m with started := true })) else s
    | none => s)

/-- The next segment the running operation reads. -/
def Team.nextSegment (t : Team) : Option Nat :=
  match t.mops with
  | [] => none
  | m :: _ => if m.started then (aSegments m.block)[m.segs.length]? else none

/-- A segment can be read: its operation was issued before this cycle, whose scratchpad writes a read of the cycle does not find
(R150, R151). -/
def State.segmentReady (s : State) (t : Team) : Bool :=
  match t.mops, s.view.find? (fun u => u.id == t.id) with
  | m :: _, some u => t.nextSegment.isSome && u.mops.any (fun x => x.serial == m.serial)
  | _, _ => t.nextSegment.isSome

/-- A segment read at one instant, before the writes of its cycle (R150, R254). -/
def execSegmentRead (team : Nat) (s : State) : Result :=
  .next (match s.team? team with
    | some t =>
      match t.nextSegment with
      | some off =>
        if s.segmentReady t then
          let before := (s.view.find? (fun u => u.id == team)).getD t
          s.mapTeam team (fun t => t.headOp (fun m => { m with segs := m.segs ++ [(off, before.scratchBytes off 64)] }))
        else s
      | none => s
    | none => s)

/-- A byte of operand A as the operation read it. -/
def segByte (segs : List (Nat × List Byte)) (off : Nat) : Nat :=
  match segs.find? (fun g => g.1 == off / 64 * 64) with
  | some g => (g.2.getD (off % 64) 0).toNat
  | none => 0

/-- A float type of an A or B format. -/
def elementFmt (f : Nat) : FFmt := if f = 0 then f16 else bf16

/-- A(i, k) (Table 10-7); a bit reads as 0 or 1. -/
def elemA (b : List DWord) (segs : List (Nat × List Byte)) (i k : Nat) : Num :=
  let row (q : Nat) : Nat := bAoff b + q * bAstride b
  if bAfmt b ≤ 1 then
    let at_ := if bTa b then row k + 2 * i else row i + 2 * k
    unpack (elementFmt (bAfmt b)) (segByte segs at_ + 256 * segByte segs (at_ + 1))
  else if bAfmt b = 4 then .fin false (segByte segs (row i + k / 8) / 2 ^ (k % 8) % 2) 0
  else
    let h := row i + 64 + 2 * (k / 32)
    let hdr := segByte segs h + 256 * segByte segs (h + 1)
    let code := if bAfmt b = 2 then segByte segs (row i + k) else segByte segs (row i + k / 2) / 16 ^ (k % 2) % 16
    dxDecode (if bAfmt b = 2 then 1 else 2) hdr code

/-- Depth in elements (R249). -/
def bDepth (b : List DWord) : Nat := if bOp b = 0 then bKstep b else 8 * bKstep b

/-- The operation's stream of B-blocks; an unfilled slot holds sixteen blocks of +0 (R251). -/
def Team.stream (t : Team) (b : List DWord) : List (List Num) :=
  ((upto (bBspan b + 1)).map (fun k =>
    let s := t.wslots.getD (bBslot b + k) ⟨none, []⟩
    if s.blocks = [] then List.replicate 16 [] else s.blocks.map Prod.fst)).flatten

/-- B(k, j); a block beyond the stream reads as zeros (R251, R253). -/
def elemB (b : List DWord) (stream : List (List Num)) (k j : Nat) : Num :=
  (stream.getD (j / 16 * ceilDiv (bDepth b) 16 + k / 16) []).getD (k % 16 * 16 + j % 16) (.fin false 0 0)

/-- An element of a multiply-accumulate operation (R104). -/
def mmaElement (b : List DWord) (segs : List (Nat × List Byte)) (stream : List (List Num)) (c : Word) (i j : Nat) : Word :=
  let acc := (upto (bKstep b / 8)).foldl (fun acc g =>
    let s := groupSum ((upto 8).map (fun k => some ((elemA b segs i (8 * g + k)).mul (elemB b stream (8 * g + k) j))))
    faddBits f32 .rn acc s) (if bZi b then 0 else c.toNat)
  BitVec.ofNat 32 acc

/-- An element of a binary operation (R103, R253). -/
def binElement (b : List DWord) (segs : List (Nat × List Byte)) (stream : List (List Num)) (c : Word) (i j : Nat) : Word :=
  let n := (upto (bDepth b)).foldl (fun n k =>
    let x := !(elemA b segs i k).isZero
    let y := !(elemB b stream k j).isZero
    if (if bOp b = 1 then x != y else x && y) then n + 1 else n) 0
  (if bZi b then 0 else c) + BitVec.ofNat 32 n

/-- The tile writes of an operation (R253). -/
def Team.mmaWrite (t : Team) (m : MOp) : Team :=
  let b := m.block
  let stream := t.stream b
  let f := if bOp b = 0 then mmaElement b m.segs stream else binElement b m.segs stream
  (upto (bM b * bN b)).foldl (fun u q =>
    let i := q / bN b
    let j := q % bN b
    let tm := i / 16
    let tn := j / 16
    let tile := bCtile b + (if bLayout b then tn * bTm b + tm else tm * bTn b + tn)
    let off := accWindow + 1024 * tile + 4 * (16 * (i % 16) + j % 16)
    u.putWord off (f (t.readWord off) i j)) t

/-- The running operation has read every segment. -/
def Team.mmaCanFinish (t : Team) : Bool :=
  match t.mops with
  | [] => false
  | m :: _ => m.started && t.nextSegment.isNone

/-- The event MMA_OPERATION_FINISH: tile writes performed, the counter falls (R253). -/
def execMmaOperationFinish (team : Nat) (s : State) : Result :=
  .next (match s.team? team with
    | some t =>
      if t.mmaCanFinish then
        s.mapTeam team (fun t =>
          match t.mops with
          | [] => t
          | m :: r => { (t.mmaWrite m).mapSheaf m.sheaf (fun f => f.complete 1 m.serial 0) with mops := r })
      else s
    | none => s)

end Sys2Proof.Machine
end

