-- ==== Sys2Proof/Machine/CrossLane.lean ====
section
/-! DEFINITION. Cross-lane instructions: arrival at rendezvous and the execution at its completion (02 R61, R62,
08 R195 to R199, 04 R105, R106). -/

namespace Sys2Proof.Machine

/-- Every issuing thread, guard-true or not, arrives at rendezvous with its group, its registers and its home sheaf's
uniform state as they stood when the group issued (R61, R195). -/
def State.arrive (s : State) : State :=
  match s.issue with
  | none => s
  | some iss =>
    match s.viewTeam iss with
    | none => s
    | some t =>
      ((iss.threads t).filter (fun x => !iss.suppressed.contains x)).foldl (fun s tid =>
        let r := readsOf false t tid
        s.mapThread iss.team tid (fun x =>
          { x with wait := .rendezvous ⟨iss.pc, iss.replay, iss.fall, s.cycle, iss.words, r.regs, r.uni, iss.slot, (iss.threads t).headD 0, x.pt, t.core,
              s.cycle - (s.die t.die).since⟩ })) s

/-- A cross-lane word: its threads arrive when it issues; at completion each active lane gets what `f` makes of the
active lanes, in ascending home lane. -/
def State.crossLane (s : State) (g : BitVec 3) (f : Nat → List Reads → Reads → Regs → Regs) : State :=
  match s.issue with
  | none => s
  | some iss =>
    if iss.completing then
      match s.viewTeam iss with
      | none => s
      | some t => s.lanewise g (f t.width (s.lanes g))
    else s.arrive

/-- The lane at an index, when it is active. -/
def laneAt (w : Nat) (act : List Reads) (l : Int) : Option Reads :=
  if l < 0 ∨ w ≤ l then none else act.find? (fun r => r.tid % w == l.toNat)

/-- A shuffle (R196): A of the lane named, or of the lane itself. -/
def shuffle (o : FV3) (from_ : Nat → Nat → Int) (w : Nat) (act : List Reads) (r : Reads) (q : Regs) : Regs :=
  match laneAt w act (from_ (r.tid % w) (r.b o.b).toNat) with
  | some l => q.set o.d.toNat (l.v o.a)
  | none => q.set o.d.toNat (r.v o.a)

/-- XSEL.IDX: from lane B (R196). -/
def execXselIdx (_h : Hdr) (o : FV3) (s : State) : Result :=
  .next (s.crossLane o.g (shuffle o (fun _ y => (y : Int))))

/-- XSEL.UP: from lane i − B (R196). -/
def execXselUp (_h : Hdr) (o : FV3) (s : State) : Result :=
  .next (s.crossLane o.g (shuffle o (fun i y => (i : Int) - y)))

/-- XSEL.DOWN: from lane i + B (R196). -/
def execXselDown (_h : Hdr) (o : FV3) (s : State) : Result :=
  .next (s.crossLane o.g (shuffle o (fun i y => (i : Int) + y)))

/-- XSEL.XOR: from lane i XOR B (R196). -/
def execXselXor (_h : Hdr) (o : FV3) (s : State) : Result :=
  .next (s.crossLane o.g (shuffle o (fun i y => ((i ^^^ y : Nat) : Int))))

/-- TOPK's order: values above lower ones, every NaN below −∞, equals by the lower lane (R199). -/
def topkBefore (j i : Reads) (a : BitVec 6) : Bool :=
  let x := unpack f32 (j.v a).toNat
  let y := unpack f32 (i.v a).toNat
  match x.isNan, y.isNan with
  | true, true => decide (j.tid < i.tid)
  | true, false => false
  | false, true => true
  | false, false => if y.lt false x then true else if x.lt false y then false else decide (j.tid < i.tid)

/-- TOPK: the lane's rank if below k, else all ones; k is B of the lowest active lane (R199). -/
def execTopk (_h : Hdr) (o : FV3) (s : State) : Result :=
  .next (s.crossLane o.g (fun _ act r q =>
    let k := match act with | [] => 0 | l :: _ => (l.b o.b).toNat
    let rank := (act.filter (fun j => topkBefore j r o.a)).length
    q.set o.d.toNat (if rank < k then BitVec.ofNat 32 rank else 0xFFFFFFFF)))

/-- The condition of a vote in a lane (R197). -/
def vote (o : FVC) (r : Reads) : Bool := condHolds o.code (r.regs.flags o.cn)

/-- XANY: 1 when the condition holds in any active lane (R197). -/
def execXany (_h : Hdr) (o : FVC) (s : State) : Result :=
  .next (s.crossLane o.g (fun _ act _ q => q.set o.a.toNat (if act.any (vote o) then 1 else 0)))

/-- XALL: 1 when the condition holds in every active lane (R197). -/
def execXall (_h : Hdr) (o : FVC) (s : State) : Result :=
  .next (s.crossLane o.g (fun _ act _ q => q.set o.a.toNat (if act.all (vote o) then 1 else 0)))

/-- XMASK: the mask of the active lanes in which the condition holds (R197). -/
def execXmask (_h : Hdr) (o : FVC) (s : State) : Result :=
  .next (s.crossLane o.g (fun w act _ q =>
    q.set64 o.a.toNat (BitVec.ofNat 64 ((act.filter (vote o)).foldl (fun m r => m + 2 ^ (r.tid % w)) 0))))

/-- Operations of sheaf reductions and scans (R198). -/
inductive XOp where
  | add
  | min
  | max
deriving DecidableEq, Repr

/-- One combination at the type and rounding of the word, on bit patterns (R105, R198). -/
def xCombine (op : XOp) (o : FVD) (a b : Nat) : Nat :=
  if o.t.toNat < 8 then
    let n := intWidth o.t
    let sg := intSigned o.t
    match op with
    | .add => (a + b) % 2 ^ n
    | .min => if readInt sg n b < readInt sg n a then b else a
    | .max => if readInt sg n a < readInt sg n b then b else a
  else
    let f := fmtOf o.t
    match op with
    | .add => faddBits f (modeOf o.m) a b
    | .min => fminBits f a b
    | .max => fmaxBits f a b

/-- A lane's operand B as bits of the type. -/
def xOperand (o : FVD) (r : Reads) : Nat :=
  if o.t.toNat < 8 then (if intWidth o.t = 64 then (r.b64 o.b).toNat else (r.b o.b).toNat)
  else (r.b o.b).toNat % 2 ^ (fmtOf o.t).width

/-- D(i) := D(i) op x. -/
def xAccumulate (op : XOp) (o : FVD) (r : Reads) (x : Nat) (q : Regs) : Regs :=
  if o.t.toNat < 8 ∧ intWidth o.t = 64 then
    q.set64 o.d.toNat (BitVec.ofNat 64 (xCombine op o (r.v64 o.d).toNat x))
  else
    let d := (r.v o.d).toNat
    let d := if o.t.toNat < 8 then d else d % 2 ^ (fmtOf o.t).width
    q.set o.d.toNat (BitVec.ofNat 32 (xCombine op o d x))

/-- The reduction of R105 over the active lanes; some lane is active wherever it is used. -/
def xReduce (op : XOp) (o : FVD) (w : Nat) (act : List Reads) : Nat :=
  (treeReduce (xCombine op o) (log2 w) ((upto w).map (fun (i : Nat) => (laneAt w act i).map (xOperand o)))).getD 0

/-- A scan of R106 over some lanes in ascending order; the identity when there are none. -/
def xScan (o : FVD) : List Reads → Nat
  | [] => 0
  | r :: rest => rest.foldl (fun a x => xCombine .add o a (xOperand o x)) (xOperand o r)

/-- XRED.ADD (R105, R198). -/
def execXredAdd (_h : Hdr) (o : FVD) (s : State) : Result :=
  .next (s.crossLane o.g (fun w act r => xAccumulate .add o r (xReduce .add o w act)))

/-- XRED.MIN (R105, R198). -/
def execXredMin (_h : Hdr) (o : FVD) (s : State) : Result :=
  .next (s.crossLane o.g (fun w act r => xAccumulate .min o r (xReduce .min o w act)))

/-- XRED.MAX (R105, R198). -/
def execXredMax (_h : Hdr) (o : FVD) (s : State) : Result :=
  .next (s.crossLane o.g (fun w act r => xAccumulate .max o r (xReduce .max o w act)))

/-- XSCAN.ADD: the active lanes up to and with the lane itself (R106, R198). -/
def execXscanAdd (_h : Hdr) (o : FVD) (s : State) : Result :=
  .next (s.crossLane o.g (fun _ act r =>
    xAccumulate .add o r (xScan o (act.filter (fun x => decide (x.tid ≤ r.tid))))))

/-- XSCAN.EX.ADD: the active lanes before the lane (R106, R198). -/
def execXscanExAdd (_h : Hdr) (o : FVD) (s : State) : Result :=
  .next (s.crossLane o.g (fun _ act r =>
    xAccumulate .add o r (xScan o (act.filter (fun x => decide (x.tid < r.tid))))))

end Sys2Proof.Machine
end

