-- ==== Sys2Proof/Machine/Memory.lean ====
section
/-! DEFINITION. Global loads and stores, block stores, future loads, atomics, reductions, fences and barriers as they
issue: their checks, their ordering steps, the accesses they make (09 R210 to R225, 06 R133, R141). How an access is
performed stands in Perform.lean. -/

namespace Sys2Proof.Machine

/-- An access of a thread of the issue, not yet given its number. -/
def State.accOf (s : State) (iss : Issue) (t : Team) (tid : Nat) (kind : AccKind) (x : Target) (size : Nat) : Acc :=
  let th := s.thread? iss.team tid
  { id := 0, entry := 0, team := iss.team, tid := tid, ctx := t.ctx, launch := t.launch, die := t.die, core := t.core, pc := iss.pc,
    rp := iss.replay, kind := kind, route := x.route, loc := x.loc, size := size, scope := 0, acquire := false,
    release := false, p := (th.map Thread.pt).getD 0, lease := (s.ctx t.ctx).lease, wrote := [], dest := [],
    aux := BitVec.ofNat 64 x.va, buffer := x.buffer * 2 ^ 54 + (x.va - dBase x.desc), ptr := x.ptr, stage := .waiting, pkg := false, sys := false, parked := false,
    inTable := false, since := s.cycle, shut := false }

/-- The kinds of R123: loads, stores, atomics. -/
def AccKind.entryKind : AccKind → Nat
  | .load _ => 0
  | .ldf => 0
  | .store => 1
  | _ => 2

/-- Two requests of one collector for one line of 64 bytes (R123); a line of another device by its virtual addresses. -/
def Acc.oneLine (a b : Acc) : Bool :=
  a.die == b.die && a.core == b.core
  && (match a.route, b.route with
    | .remote d x, .remote e y => d == e && secOf x == secOf y
    | r, q => r == q && secOf a.loc == secOf b.loc)

/-- Two accesses that one execution of a word made. -/
def Acc.oneIssue (a b : Acc) : Bool := a.team == b.team && a.pc == b.pc && a.since == b.since

/-- The request of a thread that an access is a part of. -/
def Acc.requestKey (a : Acc) : Nat × Nat × BitVec 64 × Nat := (a.team, a.tid, a.pc, a.since)

/-- The collector's entry of a request (R123): the newest entry for its line, where that is of its kind, is not full and has not
been sent; else a new one. The requests of one issue meet in one entry; whether an entry of an earlier issue has been sent is free
(log 9). DESIGN CHOICE (log 9): the request of a thread with another access waiting finds it sent. -/
def State.entryFor (s : State) (a : Acc) : Nat :=
  let line := s.accs.filter (fun b => b.stage == .waiting && a.oneLine b)
  match line.getLast? with
  | none => s.serial
  | some last =>
    let xs := line.filter (fun b => b.entry == last.entry)
    let room := xs.any (fun b => b.requestKey == a.requestKey) || decide ((distinct (xs.map Acc.requestKey)).length < 64)
    let unsent := xs.any a.oneIssue
      || (!Config.entrySent s.serial && xs.all (fun b => !b.shut && !b.parked)
          && s.accs.all (fun b => !(b.team == a.team && b.tid == a.tid && b.stage == .waiting) || a.oneIssue b))
    if last.kind.entryKind == a.kind.entryKind && room && unsent then last.entry else s.serial

/-- The entry of an access takes no more requests, for it has been sent; nor do the older ones for its line, for it was allocated
after them (R123). -/
def State.shutEntry (s : State) (a : Acc) : State :=
  { s with accs := s.accs.map (fun b =>
      if b.entry = a.entry ∨ (b.id < a.id ∧ a.oneLine b = true) then { b with shut := true } else b) }

/-- An access enters the memory system. -/
def State.addAcc (s : State) (a : Acc) : State :=
  { s with serial := s.serial + 1, accs := s.accs ++ [{ a with id := s.serial, entry := s.entryFor a }] }

/-- A global access that a check refuses (R211), with what it has used (R345). -/
def State.refuse (s : State) (t : Team) (tid : Nat) (ptr : DWord) (disp : Int) (c : Cond) : State :=
  (s.noteRefused t.ctx ptr disp c.code).raise tid c.code c.aux

/-- A load enters with its destination pending (R160): one number for both. -/
def State.addLoad (s : State) (a : Acc) : State :=
  let n := s.serial
  let s : State := s.mapThread a.team a.tid (fun x =>
    { x with pend := x.pend ++ [⟨n, a.dest.map (fun d => (d, 0)), false, 0, a.kind == .ldf, false⟩] })
  s.addAcc a

/-- Table 6-3, before an access: a release raises PT to LCT, an acquire raises it by 1, at cohort scope and wider. -/
def State.orderPt (s : State) (team tid scope : Nat) (acquire release : Bool) : State :=
  if scope < 4 then s
  else s.mapThread team tid (fun x =>
    let p := if release then max x.pt x.lct else x.pt
    { x with pt := if acquire then p + 1 else p })

def State.markWritten (s : State) (team : Nat) : State := s.mapTeam team (fun t => { t with written := true })

/-- Buffer offset of a checked access. -/
def Target.off (x : Target) : Int := (x.va : Int) - dBase x.desc

/-- A page read as a format page: its format is not plain and the buffer has FMTO = 0 (R117). -/
def Target.format (x : Target) : Option Page :=
  match x.page with
  | some p => if p.fmt ≠ 0 ∧ !dFmto x.desc then some p else none
  | none => none

/-- Elements of a load from the data region of a DX page (Table 5-4), by the number of its first. -/
def dxElements (fmt o size : Nat) : Option (List Nat) :=
  if fmt = 1 then (if size ≤ 4 then some ((upto size).map (fun k => o + k)) else none)
  else if size ≤ 2 then some ((upto (2 * size)).map (fun k => 2 * o + k)) else none

/-- How a load reads its page (R115, R214): its shape and how many registers it writes. -/
def loadShape (x : Target) (size : Nat) (plain : Shape) (d : BitVec 6) (ptr : DWord) : Except Cond (Shape × Nat) :=
  let plainRegs := ceilDiv size 4
  match x.format with
  | none => .ok (plain, plainRegs)
  | some p =>
    let o := x.va % p.size
    if p.fmt = 3 ∨ dxData p.fmt p.size ≤ o then .ok (plain, plainRegs)
    else
      match dxElements p.fmt o size with
      | none => .error ⟨0x1C, 0⟩
      | some es =>
        let hs := es.map (fun e => dxData p.fmt p.size + 2 * blockOf p.geom e)
        let inside (h : Nat) : Bool :=
          decide (0 ≤ x.off - o + h) && decide (x.off - o + h + 2 ≤ dLimit x.desc)
        if !(hs.all inside) then .error ⟨0x13, ptr⟩
        else if es.length = 4 ∧ d.toNat % 2 = 1 then .error ⟨0x1C, 0⟩
        else .ok (.dx p.fmt (hs.map (fun h => pageLoc x.desc x.die p h)), if es.length = 4 then 2 else 1)

/-- Locations whose lines a load touches. -/
def shapeLocs : Shape → List Nat
  | .dx _ hs => hs
  | _ => []

/-- Memory errors of an access and of the headers it uses (R211, item 6). -/
def State.errorAt (s : State) (loc size : Nat) (headers : List Nat) : Option Nat :=
  match s.memError loc size with
  | some c => some c
  | none => headers.findSome? (fun h => s.memError h 2)

/-- Registers of a destination, resolved at the thread's loop level. -/
def destRegs (r : Reads) (d : BitVec 6) (n : Nat) : List Nat := (upto n).map (fun k => phys r.regs.level (d.toNat + k))

/-- An answer held for the word being executed (R143, R375). -/
def State.answerFor (s : State) (iss : Issue) (tid : Nat) : Option Answer :=
  match (s.thread? iss.team tid).bind Thread.answer with
  | some a => if a.pc = iss.pc then some a else none
  | none => none

/-- Registers from loaded bytes (Table 9-2). -/
def plainWords (shape : Shape) (bs : List Byte) : List Word :=
  let n := bs.length
  if n < 4 then
    match shape with
    | .sign => [BitVec.ofInt 32 (readInt true (8 * n) (ofBytes bs))]
    | _ => [BitVec.ofNat 32 (ofBytes bs)]
  else (upto (n / 4)).map (fun k => BitVec.ofNat 32 (ofBytes ((bs.drop (4 * k)).take 4)))

/-- Registers from the data another device returns for a load of some size: its bytes, or the two bytes of each decoded
element, which are more (R214, R374). -/
def answerWords (shape : Shape) (size : Nat) (bs : List Byte) : List Word :=
  if bs.length = size then plainWords shape bs else plainWords .words (bs ++ List.replicate (4 - min 4 bs.length) 0)

/-- A global load (R213): an access for each aligned unit of up to 8 bytes (R129). -/
def State.globalLoad (s : State) (o : FM) (size : Nat) (shape : Shape) : State :=
  s.eachLane o.g (fun iss t r s' =>
    let ptr := r.s o.p.toNat
    match s.target t.ctx (s.slotOf t) ptr (mDisp o size r) size size .load with
    | .error c => s'.refuse t r.tid ptr (mDisp o size r) c
    | .ok x =>
      let s' := s'.noteUse t.ctx ptr (mDisp o size r)
      match loadShape x size shape o.d ptr with
      | .error c => s'.raise r.tid c.code c.aux
      | .ok (sh, n) =>
        let dest := destRegs r o.d n
        match x.route with
        | .remote _ _ =>
          match s.answerFor iss r.tid with
          | some a =>
            if a.code ≠ 0 then s'.raiseAnswer r.tid a x.va ptr
            else
              let ws := answerWords shape size a.data
              if size < 8 ∧ ws.length = 2 ∧ o.d.toNat % 2 = 1 then s'.raiseAnswer r.tid { a with code := 0x1C, remote := true } x.va ptr
              else
                let s' := s'.orderPt iss.team r.tid (mScope o) (mOrdered o) false
                s'.addPend iss.team r.tid ((destRegs r o.d ws.length).zip ws) true s.cycle false
          | none => s'.hold { s.accOf iss t r.tid (.load sh) x size with scope := mScope o, acquire := mOrdered o }
        | _ =>
          match s.errorAt x.loc size (shapeLocs sh) with
          | some c => s'.raise r.tid c (BitVec.ofNat 64 x.va)
          | none =>
            let s' := s'.orderPt iss.team r.tid (mScope o) (mOrdered o) false
            let a : Acc := { s'.accOf iss t r.tid (.load sh) x size with scope := mScope o, acquire := mOrdered o, dest := dest }
            if size = 16 then
              (s'.addLoad { a with size := 8, dest := dest.take 2 }).addLoad
                { a with loc := a.loc + 8, aux := a.aux + 8, size := 8, dest := dest.drop 2 }
            else s'.addLoad a)

/-- LDG.W8 (R213). -/
def execLdgW8 (_h : Hdr) (o : FM) (s : State) : Result := .next (s.globalLoad o 1 .zero)
/-- LDG.I8 (R213). -/
def execLdgI8 (_h : Hdr) (o : FM) (s : State) : Result := .next (s.globalLoad o 1 .sign)
/-- LDG.W16 (R213). -/
def execLdgW16 (_h : Hdr) (o : FM) (s : State) : Result := .next (s.globalLoad o 2 .zero)
/-- LDG.I16 (R213). -/
def execLdgI16 (_h : Hdr) (o : FM) (s : State) : Result := .next (s.globalLoad o 2 .sign)
/-- LDG.B32 (R213). -/
def execLdgB32 (_h : Hdr) (o : FM) (s : State) : Result := .next (s.globalLoad o 4 .words)
/-- LDG.B64 (R213). -/
def execLdgB64 (_h : Hdr) (o : FM) (s : State) : Result := .next (s.globalLoad o 8 .words)
/-- LDG.B128 (R213). -/
def execLdgB128 (_h : Hdr) (o : FM) (s : State) : Result := .next (s.globalLoad o 16 .words)

/-- Byte writes divided into aligned 8-byte units (R129). -/
def unitsOf (ws : List (Nat × Byte × Byte)) : List (List (Nat × Byte × Byte)) :=
  (distinct (ws.map (fun w => w.1 / 8))).map (fun u => ws.filter (fun w => w.1 / 8 == u))

/-- The accesses of a store's writes. -/
def State.addStores (s : State) (a : Acc) (ws : List (Nat × Byte × Byte)) : State :=
  (unitsOf ws).foldl (fun s u => s.addAcc { a with wrote := u, loc := (u.map Prod.fst).headD a.loc, size := u.length }) s

/-- The low bytes of the data registers (Table 9-3). -/
def storeBytes (r : Reads) (d : BitVec 6) (size : Nat) : List Byte :=
  (((upto (ceilDiv size 4)).map (fun k => toBytes (r.regs.get (d.toNat + k)).toNat 4)).flatten).take size

/-- A global store (R215). -/
def State.globalStore (s : State) (o : FM) (size : Nat) : State :=
  s.eachLane o.g (fun iss t r s' =>
    let ptr := r.s o.p.toNat
    match s.target t.ctx (s.slotOf t) ptr (mDisp o size r) size size .store with
    | .error c => s'.refuse t r.tid ptr (mDisp o size r) c
    | .ok x =>
      let s' := s'.noteUse t.ctx ptr (mDisp o size r)
      if x.format.isSome then s'.raise r.tid 0x1D 0
      else
        let bs := storeBytes r o.d size
        let a (s' : State) : Acc :=
          { s'.accOf iss t r.tid .store x size with scope := mScope o, release := mOrdered o, wrote := wholeWrites x.loc bs }
        match x.route with
        | .remote _ _ =>
          match s.answerFor iss r.tid with
          | some w =>
            if w.code ≠ 0 then s'.raiseAnswer r.tid w x.va ptr
            else (s'.orderPt iss.team r.tid (mScope o) false (mOrdered o)).markWritten iss.team
          | none => s'.hold (a s')
        | _ =>
          match s.errorAt x.loc size [] with
          | some c => s'.raise r.tid c (BitVec.ofNat 64 x.va)
          | none =>
            let s' := s'.orderPt iss.team r.tid (mScope o) false (mOrdered o)
            (s'.addStores (a s') (wholeWrites x.loc bs)).markWritten iss.team)

/-- STG.B8 (R215). -/
def execStgB8 (_h : Hdr) (o : FM) (s : State) : Result := .next (s.globalStore o 1)
/-- STG.B16 (R215). -/
def execStgB16 (_h : Hdr) (o : FM) (s : State) : Result := .next (s.globalStore o 2)
/-- STG.B32 (R215). -/
def execStgB32 (_h : Hdr) (o : FM) (s : State) : Result := .next (s.globalStore o 4)
/-- STG.B64 (R215). -/
def execStgB64 (_h : Hdr) (o : FM) (s : State) : Result := .next (s.globalStore o 8)
/-- STG.B128 (R215). -/
def execStgB128 (_h : Hdr) (o : FM) (s : State) : Result := .next (s.globalStore o 16)

/-! ### STB -/

/-- A member's registers at a completion: as it arrived, or as they stand (R195, R216). -/
def memberRegs (t : Team) (tid : Nat) : Regs := (readsOf true t tid).regs

/-- The 32 values of a group's block, read as .F32 (R216). -/
def stbValues (o : FM) (t : Team) (h g : Nat) : List Num :=
  let w := min t.width 32
  let k := 32 / w
  (upto 32).map (fun i =>
    let tid := h * t.width + 32 * g + i / k
    unpack f32 ((memberRegs t tid).get (4 * (o.d.toNat / 4) + i % k)).toNat)

/-- The writes of a block at a checked slot address, or the condition of R217; none through a buffer of another device's,
which makes the other checks and the writes (R374). -/
def State.stbWrites (s : State) (ctx slot : Nat) (ptr : DWord) (disp : Int) (gap : Nat) (xs : List Num) :
    Except Cond (Target × List (Nat × Byte × Byte)) :=
  let d := s.descOf ctx (fld ptr 54 10)
  match s.checked ctx slot ((fld ptr 0 54 : Int) + disp) 2 2 .store ptr with
  | .error e => .error e
  | .ok va =>
    if dFmto d then .error ⟨0x1D, 0⟩
    else
      match s.target ctx slot ptr disp 2 2 .store with
      | .error e => .error e
      | .ok x =>
        match x.page with
        | none => .ok (x, [])
        | some p =>
          if p.fmt = 0 then .error ⟨0x1C, 0⟩
          else
            let o := va % p.size
            let inBounds (po n : Nat) : Bool :=
              decide (0 ≤ x.off - o + po) && decide (x.off - o + po + n ≤ dLimit d)
            if p.fmt = 3 then
              if va % 4 ≠ 0 then .error ⟨0x14, ptr⟩
              else if !inBounds o 4 then .error ⟨0x13, ptr⟩
              else
                let v := (upto 32).foldl (fun n i => if (xs.getD i (.zero false)).isZero then n else n + 2 ^ i) 0
                match s.memError x.loc 4 with
                | some c => .error ⟨c, BitVec.ofNat 64 va⟩
                | none => .ok (x, wholeWrites x.loc (toBytes v 4))
            else
              let base := dxData p.fmt p.size
              if o < base ∨ base + 2 * dxBlocks p.fmt p.size ≤ o then .error ⟨0x1C, 0⟩
              else
                let b := (o - base) / 2
                let pos (i : Nat) : Nat := elementOf p.geom b i
                let byteOf (i : Nat) : Nat := if p.fmt = 1 then pos i else pos i / 2
                if !((upto 32).all (fun i => inBounds (byteOf i) 1)) then .error ⟨0x13, ptr⟩
                else
                  let e := dxEncode p.fmt (dxGap gap) xs
                  let hdr : List (Nat × Byte × Byte) := (upto 2).map (fun k => (pageLoc d x.die p (o + k), BitVec.ofNat 8 (e.1 / 256 ^ k), 0xFF))
                  let data : List (Nat × Byte × Byte) := (upto 32).map (fun i =>
                    let code := e.2.getD i 0
                    let loc := pageLoc d x.die p (byteOf i)
                    if p.fmt = 1 then (loc, BitVec.ofNat 8 code, 0xFF)
                    else if pos i % 2 = 0 then (loc, BitVec.ofNat 8 code, 0x0F)
                    else (loc, BitVec.ofNat 8 (code * 16), 0xF0))
                  match (hdr ++ data).findSome? (fun w => s.memError w.1 1) with
                  | some c => .error ⟨c, BitVec.ofNat 64 va⟩
                  | none => .ok (x, hdr ++ data)

/-- LDF: a future load; the thread is blocked until the word is full (R148, R220). -/
def execLdf (_h : Hdr) (o : FM) (s : State) : Result :=
  .next (s.eachLane o.g (fun iss t r s' =>
    let ptr := r.s o.p.toNat
    match s.target t.ctx (s.slotOf t) ptr (mDisp o 8 r) 8 8 .load with
    | .error c => s'.refuse t r.tid ptr (mDisp o 8 r) c
    | .ok x =>
      let s' := s'.noteUse t.ctx ptr (mDisp o 8 r)
      if x.format.isSome then s'.raise r.tid 0x1C 0
      else
        let dest := destRegs r o.d 2
        let a (s' : State) : Acc :=
          { s'.accOf iss t r.tid .ldf x 8 with scope := mScope o, acquire := mOrdered o, dest := dest }
        let park (s' : State) (a : Acc) : State :=
          let n := s'.serial
          (s'.addLoad a).mapThread iss.team r.tid (fun x => { x with block := .ldf n })
        match x.route with
        | .remote _ _ =>
          match s.answerFor iss r.tid with
          | some w =>
            if w.code ≠ 0 then s'.raiseAnswer r.tid w x.va ptr
            else
              let s' := s'.orderPt iss.team r.tid (mScope o) (mOrdered o) false
              if ofBytes w.data < 2 ^ 63 then park s' { a s' with parked := true }
              else s'.addPend iss.team r.tid (dest.zip (plainWords .words w.data)) true s.cycle true
          | none => s'.hold (a s')
        | _ =>
          match s.errorAt x.loc 8 [] with
          | some c => s'.raise r.tid c (BitVec.ofNat 64 x.va)
          | none =>
            let s' := s'.orderPt iss.team r.tid (mScope o) (mOrdered o) false
            park s' (a s')))

/-! ### Atomics and reductions -/

/-- Types of the atomic majors: 0 .I32, 1 .W32, 2 .I64, 3 .W64, 4 .F32. -/
def atomWidth (typ : Nat) : Nat := if typ = 2 ∨ typ = 3 then 64 else 32

/-- Operands a and b of an atomic (Table 9-5). -/
def atomOperands (typ : Nat) (o : FMA) (r : Reads) : DWord × DWord :=
  if atomWidth typ = 64 then (r.v64 o.d, r.regs.get64 (o.d.toNat + 2))
  else ((r.v o.d).setWidth 64, (r.regs.get (o.d.toNat + 1)).setWidth 64)

/-- An atomic or reduction as it issues (R140, R141, R221, R222). A .UNORD add whose location has no exact sum claims one; a claim
answered for another location, or whose sum has retired since, is made again (R143). DESIGN CHOICE (log 25): host memory has no
home slice, so an add there makes no claim and never raises REDUCTION_FULL. -/
def State.atomicAt (s : State) (o : FMA) (typ : Nat) (returns unord : Bool) : State :=
  s.eachLane o.g (fun iss t r s' =>
    let n := atomWidth typ / 8
    let ptr := r.s o.p.toNat
    match s.target t.ctx (s.slotOf t) ptr 0 n n (if returns then .atom else .red) with
    | .error c => s'.refuse t r.tid ptr 0 c
    | .ok x =>
      let s' := s'.noteUse t.ctx ptr 0
      if x.format.isSome then s'.raise r.tid 0x1D 0
      else
        let ab := atomOperands typ o r
        let acq := o.ord.getLsbD 0
        let rel := o.ord.getLsbD 1
        let dest := if returns then destRegs r o.d (n / 4) else []
        let kind : AccKind :=
          if unord then .unord (r.v o.d) else if returns then .atomic o.op.toNat typ ab.1 ab.2 else .reduce o.op.toNat typ ab.1
        let a (s' : State) (k : AccKind) : Acc :=
          { s'.accOf iss t r.tid k x n with scope := o.scope.toNat, acquire := acq, release := rel, dest := dest }
        let goOn (s' : State) : State :=
          match s.errorAt x.loc n [] with
          | some c => s'.raise r.tid c (BitVec.ofNat 64 x.va)
          | none =>
            let s' := (s'.orderPt iss.team r.tid o.scope.toNat acq rel).markWritten iss.team
            if returns then s'.addLoad (a s' kind) else s'.addAcc (a s' kind)
        match x.route with
        | .remote _ _ =>
          match s.answerFor iss r.tid with
          | some w =>
            if w.code ≠ 0 then s'.raiseAnswer r.tid w x.va ptr
            else
              let s' := (s'.orderPt iss.team r.tid o.scope.toNat acq rel).markWritten iss.team
              if returns then s'.addPend iss.team r.tid (dest.zip (plainWords .words w.data)) true s.cycle false else s'
          | none => s'.hold (a s' kind)
        | .host => goOn s'
        | _ =>
          if unord ∧ !((s.die (homeOf x.loc)).sums.any (fun e => e.loc == x.loc)) then
            match s.answerFor iss r.tid with
            | some w => if w.code ≠ 0 ∧ w.loc = x.loc then s'.raise r.tid w.code 0 else s'.hold (a s' .claim)
            | none => s'.hold (a s' .claim)
          else goOn s')

/-- ATOM.I32 (R222). -/
def execAtomI32 (_h : Hdr) (o : FMA) (s : State) : Result := .next (s.atomicAt o 0 true false)
/-- ATOM.W32 (R222). -/
def execAtomW32 (_h : Hdr) (o : FMA) (s : State) : Result := .next (s.atomicAt o 1 true false)
/-- ATOM.I64 (R222). -/
def execAtomI64 (_h : Hdr) (o : FMA) (s : State) : Result := .next (s.atomicAt o 2 true false)
/-- ATOM.W64 (R222). -/
def execAtomW64 (_h : Hdr) (o : FMA) (s : State) : Result := .next (s.atomicAt o 3 true false)
/-- ATOM.F32 (R222). -/
def execAtomF32 (_h : Hdr) (o : FMA) (s : State) : Result := .next (s.atomicAt o 4 true false)
/-- RED.I32 (R222). -/
def execRedI32 (_h : Hdr) (o : FMA) (s : State) : Result := .next (s.atomicAt o 0 false false)
/-- RED.W32 (R222). -/
def execRedW32 (_h : Hdr) (o : FMA) (s : State) : Result := .next (s.atomicAt o 1 false false)
/-- RED.I64 (R222). -/
def execRedI64 (_h : Hdr) (o : FMA) (s : State) : Result := .next (s.atomicAt o 2 false false)
/-- RED.W64 (R222). -/
def execRedW64 (_h : Hdr) (o : FMA) (s : State) : Result := .next (s.atomicAt o 3 false false)
/-- RED.F32, ordered (R142, R222). -/
def execRedF32 (_h : Hdr) (o : FMA) (s : State) : Result := .next (s.atomicAt o 4 false false)
/-- RED.F32.UNORD: claims an exact sum where the location has none (R143). -/
def execRedF32Unord (_h : Hdr) (o : FMA) (s : State) : Result := .next (s.atomicAt o 4 false true)

/-- FENCE: PT := max(PT, LCT) + 1 at cohort scope and wider (Table 6-3); it issues once the thread's earlier accesses are
performed at its scope (R133, R223). -/
def execFence (_h : Hdr) (o : FS) (s : State) : Result :=
  .next (s.eachLane o.g (fun iss _ r s' => s'.orderPt iss.team r.tid o.scope.toNat true true))

/-- BAR: the thread arrives at the team or cohort barrier and waits (R224). -/
def execBar (_h : Hdr) (o : FS) (s : State) : Result :=
  .next (s.eachLane o.g (fun iss t r s' =>
    let cohort := o.scope == 4
    let s' := s'.mapThread iss.team r.tid (fun x => { x with block := .bar cohort s.cycle })
    if cohort ∧ s.cohortSize t ≠ 1 then s'.markWritten iss.team else s'))

end Sys2Proof.Machine
end

