-- ==== Sys2Proof/Machine/Engines.lean ====
section
/-! DEFINITION. The asynchronous engines: copies, gathers, weight loads and collectives from issue to completion, and the
wait on their counters (06 R144 to R147, 09 R226 to R233, 10 R258 to R260, 15 R354, 16 R376 to R379). A copy's units are
read and land apart; what is left of it, and any other operation, is performed in one step, its completion (log 8). -/

namespace Sys2Proof.Machine

/-! ### Issue (R227, R228) -/

/-- A buffer held by a migration (R372). -/
def State.bufferHeld (s : State) (ctx idx : Nat) : Bool :=
  let c := s.ctx ctx
  c.mbusy && fld c.mbuf 0 10 == idx

/-- Step 1 of R227: the token is pending, or the class counter is full. -/
def asyncBusy (f : Sheaf) (cls token : Nat) : Bool :=
  f.tokens.any (fun p => p.1 == token) || decide (63 ≤ f.counter cls)

/-- Where the group entry stands that a rank word names: die, die physical address. -/
def State.groupPlace (s : State) (ctx : Nat) (r : DWord) : Nat × Nat :=
  let c := s.ctx ctx
  (fld c.grpBase 56 2, fld c.grpBase 0 54 + 16 * fld r 32 8)

/-- An electing thread and the rest of its sub-sheaf's issue stay before the group: the threads of its home sheaf and of the
ones after it (R258; DEDUCED, log 20). -/
def State.waitFrom (s : State) (iss : Issue) (t : Team) (sheaf : Nat) : State :=
  s.mapIssue (fun i => { i with waiting := i.waiting ++ iss.tids.filter (fun x => decide (sheaf ≤ x / t.width)) })

/-- What the checks of an asynchronous word read: the descriptors of its buffers and, of a COLL, the entry of a group of its table
(R110, R376, R381). -/
def State.noteChecks (s : State) (ctx : Nat) (buffers : List Nat) (rank : Option DWord) : State :=
  let s := match rank with
    | some r =>
      let group := s.groupPlace ctx r
      if fld r 32 8 < fld (s.ctx ctx).grpN 0 9 then s.homeTouch (secOf (dpaLoc group.1 group.2)) else s
    | none => s
  buffers.foldl (fun s b => s.noteDesc ctx b) s

/-- The steps of R227 for one electing thread: `ptrs` names the parameters that are pointers, `check` makes the issue
checks and gives the collective's data, `after` what else the issue does. DESIGN CHOICE (log 25): the checks come before the
wait on a locked slot (R258). -/
def State.asyncIssue (s : State) (o : FA) (kind n : Nat) (ptrs : List DWord → List Nat)
    (check : Team → State → List DWord → Except Cond (Option (Nat × Nat × Nat × Nat)))
    (locked : Team → State → List DWord → Bool) (after : Issue → Reads → Op → State → State) : State :=
  s.eachElect o.g (fun iss t r s' =>
    let now := s'.teamNow iss t
    let f := (now.sheaves[r.sheaf]?).getD Sheaf.reset
    let token := o.t.toNat
    let params := (upto n).map (fun k => r.s (o.p.toNat + k))
    let buffers := (ptrs params).map (fun k => fld (dword params k) 54 10)
    let group := s'.groupPlace t.ctx (dword params 3)
    if asyncBusy f kind token ∨ buffers.any (fun b => s'.bufferHeld t.ctx b ∨ !s'.descFree t.ctx b)
        ∨ (kind = 3 ∧ !s'.slicesFree [dpaLoc group.1 group.2]) then s'.stall
    else
      let u := s'.noteChecks t.ctx buffers (if kind = 3 then some (dword params 3) else none)
      match check now s' params with
      | .error c => u.raise r.tid c.code c.aux
      | .ok coll =>
        if locked now s' params then u.waitFrom iss t r.sheaf
        else
          let id := s'.serial
          let op : Op :=
            { serial := id, kind := kind, team := iss.team, sheaf := r.sheaf, tid := r.tid, ctx := t.ctx,
              launch := t.launch, die := t.die, core := t.core, pc := iss.pc, token := token, scope := o.sub.toNat,
              params := params,
              descs := (ptrs params).map (fun k => (k, s'.descOf t.ctx (fld (dword params k) 54 10))),
              p := ((s'.thread? iss.team r.tid).map Thread.pt).getD 0, after := id, since := s.cycle, paused := none, coll := coll,
              sent := false, result := none, final := none, taken := [], landed := [], wts := 0 }
          let s'' : State := { u with serial := id + 1, ops := s'.ops ++ [op] }
          let s'' := s''.mapSheaf iss.team r.sheaf (fun f =>
            { f with out := f.out ++ [⟨kind, id, false, 0⟩], tokens := f.tokens ++ [(token, id)],
                     tokenW := serase f.tokenW token })
          after iss r op s'')

/-- The checks of R111 on a range of bytes named by a pointer. -/
def State.checkRange (s : State) (t : Team) (ptr : DWord) (n align : Nat) (kind : AKind) : Except Cond Unit :=
  match s.checked t.ctx (s.slotOf t) (fld ptr 0 54) n align kind ptr with
  | .error e => .error e
  | .ok _ => .ok ()

/-- STORAGE_RANGE, then ACC_BUSY, on a scratchpad range (R228). -/
def checkScratch (t : Team) (off n : Nat) : Except Cond Unit :=
  if !t.mapped off n then .error ⟨0x20, 0⟩ else if t.busyRange off n then .error ⟨0x21, 0⟩ else .ok ()

/-- Bytes an engine makes of one source byte (R229). -/
def expand (dexp : Nat) : Nat := 2 ^ dexp

/-- COPY's control word (Table 9-6). -/
def copyKind (w : DWord) : Nat := fld w 32 2
def copyDexp (w : DWord) : Nat := fld w 34 2
def copyLen (w : DWord) : Nat := fld w 0 32
def copyFromMem (w : DWord) : Bool := decide (copyKind w ≤ 1)
def copyToMem (w : DWord) : Bool := copyKind w == 0 || copyKind w == 2

def copyPtrs (ps : List DWord) : List Nat :=
  let w := dword ps 2
  (if copyFromMem w then [0] else []) ++ (if copyToMem w then [1] else [])

def copyCheck (t : Team) (s : State) (ps : List DWord) : Except Cond (Option (Nat × Nat × Nat × Nat)) :=
  let w := dword ps 2
  let n := copyLen w
  let m := n * expand (copyDexp w)
  if fld w 36 28 ≠ 0 ∨ copyDexp w = 3 ∨ 2 ^ 26 < n ∨ (!copyFromMem w ∧ copyDexp w ≠ 0) then .error ⟨0x22, 0⟩
  else
    match (if copyFromMem w then s.checkRange t (dword ps 0) n 1 .load else .ok ()) with
    | .error e => .error e
    | .ok _ =>
      match (if copyToMem w then s.checkRange t (dword ps 1) m 1 .store else .ok ()) with
      | .error e => .error e
      | .ok _ =>
        match (if copyFromMem w then .ok () else checkScratch t (dword ps 0).toNat n) with
        | .error e => .error e
        | .ok _ =>
          match (if copyToMem w then .ok () else checkScratch t (dword ps 1).toNat m) with
          | .error e => .error e
          | .ok _ => .ok none

/-- COPY (R226 to R229). A copy of no bytes completes at once with the value 0. -/
def execCopy (_h : Hdr) (o : FA) (s : State) : Result :=
  .next (s.asyncIssue o 0 3 copyPtrs copyCheck (fun _ _ _ => false) (fun iss _ op s =>
    let s := if copyToMem (dword op.params 2) then s.markWritten iss.team else s
    if copyLen (dword op.params 2) = 0 then s.completeOp op 0 0 else s))

/-- GATHER's control word (Table 9-7). -/
def gatherSize (w : DWord) : Nat := if fld w 32 2 = 3 then 64 else 4 * 2 ^ fld w 32 2
def gatherN (w : DWord) : Nat := fld w 0 32

def gatherCheck (t : Team) (s : State) (ps : List DWord) : Except Cond (Option (Nat × Nat × Nat × Nat)) :=
  let w := dword ps 2
  let ptr := dword ps 0
  let d := s.descOf t.ctx (fld ptr 54 10)
  if fld w 36 28 ≠ 0 ∨ copyDexp w = 3 ∨ 65536 < gatherN w ∨ (dword ps 1).toNat % 4 ≠ 0 then .error ⟨0x22, 0⟩
  else if (s.descError t.ctx (fld ptr 54 10)).isSome then .error ⟨(s.descError t.ctx (fld ptr 54 10)).getD 0, ptr⟩
  else if descInvalid (s.ctx t.ctx) d then .error ⟨0x10, ptr⟩
  else if !ownerAdmits d (s.slotOf t) then .error ⟨0x11, ptr⟩
  else if !rightsCover d .load then .error ⟨0x12, ptr⟩
  else
    match checkScratch t (dword ps 1).toNat (4 * gatherN w) with
    | .error e => .error e
    | .ok _ =>
      match checkScratch t (dword ps 3).toNat (gatherN w * gatherSize w * expand (copyDexp w)) with
      | .error e => .error e
      | .ok _ => .ok none

/-- GATHER (R226 to R228, R231). -/
def execGather (_h : Hdr) (o : FA) (s : State) : Result :=
  .next (s.asyncIssue o 2 4 (fun _ => [0]) gatherCheck (fun _ _ _ => false) (fun _ _ _ s => s))

/-- WLOAD's control word (Table 10-8). -/
def wRows (w : DWord) : Nat := fld w 0 10
def wCols (w : DWord) : Nat := fld w 16 8
def wFmt (w : DWord) : Nat := fld w 24 3
def wSlot (w : DWord) : Nat := fld w 32 7
def wSpan (w : DWord) : Nat := fld w 40 4

/-- Number of the element (r, c) counted from element (0, 0), by the stride. -/
def wElement (ps : List DWord) (r c : Nat) : Nat := r * fld (dword ps 1) 0 32 + c

def wControlBad (ps : List DWord) : Bool :=
  let w := dword ps 2
  fld (dword ps 1) 32 32 != 0 || fld w 44 20 != 0 || bit w 39 || fld w 27 5 != 0 || fld w 10 6 != 0 || wSpan w == 0
  || decide (8 < wSpan w) || decide (4 < wFmt w) || wCols w == 0 || decide (128 < wCols w) || wRows w == 0
  || decide ((if wFmt w = 4 then 512 else 64) < wRows w)

/-- Bytes from element (0, 0) to the last (R259). -/
def wBytes (ps : List DWord) : Nat :=
  let w := dword ps 2
  let e := wElement ps (wRows w - 1) (wCols w - 1)
  if wFmt w ≤ 1 then 2 * (e + 1) else if wFmt w = 2 then e + 1 else if wFmt w = 3 then e / 2 + 1 else e / 8 + 1

def wloadCheck (t : Team) (s : State) (ps : List DWord) : Except Cond (Option (Nat × Nat × Nat × Nat)) :=
  let w := dword ps 2
  if t.acc = 0 ∨ t.weightSlots < wSlot w + wSpan w then .error ⟨0x20, 0⟩
  else if wControlBad ps then .error ⟨0x22, 0⟩
  else
    match s.checkRange t (dword ps 0) (wBytes ps) (if wFmt w ≤ 1 then 2 else 1) .load with
    | .error e => .error e
    | .ok _ => .ok none

/-- A slot of the run is named by an unfinished operation or an incomplete WLOAD (R258). -/
def wloadLocked (t : Team) (s : State) (ps : List DWord) : Bool :=
  let w := dword ps 2
  let meets (first n : Nat) : Bool := decide (first < wSlot w + wSpan w) && decide (wSlot w < first + n)
  t.mops.any (fun m => meets (bBslot m.block) (bBspan m.block + 1))
  || s.ops.any (fun o => o.kind == 1 && o.team == t.id && meets (wSlot (dword o.params 2)) (wSpan (dword o.params 2)))

def Team.mapSlots (t : Team) (first n : Nat) (f : Nat → WSlot → WSlot) : Team :=
  { t with wslots := (upto n).foldl (fun l k => modifyAt l (first + k) (f k)) t.wslots }

/-- WLOAD: sets the tags of its run at issue (R258, R259). -/
def execWload (_h : Hdr) (o : FA) (s : State) : Result :=
  .next (s.asyncIssue o 1 3 (fun _ => [0]) wloadCheck wloadLocked (fun iss _ op s =>
    let w := dword op.params 2
    s.mapTeam iss.team (fun t => t.mapSlots (wSlot w) (wSpan w) (fun _ x => { x with tag := some (wFmt w) }))))

/-! ### Waiting on a counter (R146, R233) -/

/-- WAITC: PT takes the largest write time of the operations that have left the counter. -/
def State.waitcDone (s : State) (team tid h cls : Nat) : State :=
  match (s.team? team).bind (fun t => t.sheaves[h]?) with
  | some f => s.mapThread team tid (fun x => { x with wait := .none, pt := max x.pt (f.topW.getD cls 0) })
  | none => s

def execWaitc (_h : Hdr) (o : FK) (s : State) : Result :=
  .next (s.eachLane o.g (fun iss t r s' =>
    let f := ((s'.teamNow iss t).sheaves[r.sheaf]?).getD Sheaf.reset
    if f.counter o.cls.toNat ≤ o.n.toNat then s'.waitcDone iss.team r.tid r.sheaf o.cls.toNat
    else s'.mapThread iss.team r.tid (fun x => { x with wait := .waitc o.cls.toNat o.n.toNat })))

/-! ### What an engine reads and writes (R145) -/

/-- The descriptor held for a parameter. -/
def Op.desc (o : Op) (k : Nat) : List DWord := ((o.descs.find? (fun d => d.1 == k)).map Prod.snd).getD []

def Op.remote (o : Op) (k : Nat) : Bool := o.descs.any (fun d => d.1 == k && dOkind d.2 == 3)

/-- Pieces of a range that lie in one 64 KiB page each. -/
def pieces (va n : Nat) : Nat → List (Nat × Nat)
  | 0 => []
  | f + 1 =>
    if n = 0 then []
    else
      let m := min n (65536 - va % 65536)
      (va, m) :: pieces (va + m) (n - m) f

/-- A page for an engine, or the condition it meets with the virtual address. -/
def State.enginePage (s : State) (o : Op) (d : List DWord) (va : Nat) (kind : AKind) : Except (Nat × Nat) (Nat × Page) :=
  let die := ((s.ctx o.ctx).vdie (dVd d)).getD 0
  match s.translate o.ctx die va kind with
  | .error e => .error (e.code, va)
  | .ok p => if geomBad p then .error (0x1C, va) else .ok (die, p)

/-- Bytes at a location as the operation's engine reads them: at the thread's die, or at the home slice (R145). -/
def State.engineBytes (s : State) (o : Op) (r : Route) (loc n : Nat) : List Byte :=
  s.maskCombine loc (s.keyedBytes (s.keyOf o.ctx r) (match r with | .coherent => o.die | _ => homeOf loc) loc n)

/-- Elements whose codes lie in a byte of a DX page's data region, and the code of each. -/
def byteElements (fmt off : Nat) : List Nat := if fmt = 1 then [off] else [2 * off, 2 * off + 1]
def elementCode (fmt : Nat) (b : Byte) (e : Nat) : Nat := if fmt = 1 then b.toNat else b.toNat / 16 ^ (e % 2) % 16

/-- A place an engine reads, by its route. -/
abbrev ReadAt := Route × Nat

/-- The header and the code of elements of a DX page whose codes lie in the byte at va, with the places read (R229, R230). -/
def State.dxSource (s : State) (o : Op) (d : List DWord) (va fmt die : Nat) (p : Page) (es : List Nat) :
    Except (Nat × Nat) (List (Nat × Nat) × List ReadAt) :=
  let off := va % p.size
  let loc := pageLoc d die p off
  let hs := es.map (fun e => dxData p.fmt p.size + 2 * blockOf p.geom e)
  let hlocs := hs.map (fun h => pageLoc d die p h)
  let inside (h : Nat) : Bool :=
    decide (off + dBase d ≤ va + h) && decide (va + h + 2 ≤ off + dBase d + dLimit d)
  if p.fmt ≠ fmt ∨ dxData p.fmt p.size ≤ off ∨ !(hs.all inside) then .error (0x1C, va)
  else
    match (s.memError loc 1).or (hlocs.findSome? (fun h => s.memError h 2)) with
    | some c => .error (c, va)
    | none =>
      let r := pageRoute p
      let b := (s.engineBytes o r loc 1).getD 0 0
      .ok ((es.zip hlocs).map (fun q => (ofBytes (s.engineBytes o r q.2 2), elementCode p.fmt b q.1)),
        (loc :: hlocs.flatMap (fun h => [h, h + 1])).map (fun l => (r, l)))

/-- What an engine makes of one source byte, with the places it reads (R229, R230). -/
def State.sourceByte (s : State) (o : Op) (d : List DWord) (va dexp die : Nat) (p : Page) :
    Except (Nat × Nat) (List Byte × List ReadAt) :=
  let off := va % p.size
  let loc := pageLoc d die p off
  if dexp = 0 ∧ (dFmto d ∨ p.fmt = 0 ∨ p.fmt = 3) then
    match s.memError loc 1 with
    | some c => .error (c, va)
    | none => .ok (s.engineBytes o (pageRoute p) loc 1, [(pageRoute p, loc)])
  else if dexp = 0 ∨ dFmto d then .error (0x1C, va)
  else
    match s.dxSource o d va dexp die p (byteElements p.fmt off) with
    | .error c => .error c
    | .ok (xs, locs) => .ok (xs.flatMap (fun x => toBytes (dxHalf p.fmt x.1 x.2) 2), locs)

/-- The source bytes of a range, each with what becomes of it. -/
def State.sourceRange (s : State) (o : Op) (d : List DWord) (va n dexp : Nat) :
    List (Except (Nat × Nat) (List Byte × List ReadAt)) :=
  (pieces va n (n / 65536 + 2)).flatMap (fun q =>
    match s.enginePage o d q.1 .load with
    | .error e => List.replicate q.2 (.error e)
    | .ok (die, p) => (upto q.2).map (fun k => s.sourceByte o d (q.1 + k) dexp die p))

/-- A place an engine writes: scratchpad (no route) or memory. -/
abbrev EPlace := Option Route × Nat

/-- Where each byte of a destination range goes (R230). -/
def State.destRange (s : State) (o : Op) (d : List DWord) (va n : Nat) : List (Except (Nat × Nat) EPlace) :=
  (pieces va n (n / 65536 + 2)).flatMap (fun q =>
    match s.enginePage o d q.1 .store with
    | .error e => List.replicate q.2 (.error e)
    | .ok (die, p) =>
      if p.fmt ≠ 0 ∧ !dFmto d then List.replicate q.2 (.error (0x1D, q.1))
      else (upto q.2).map (fun k =>
        let loc := pageLoc d die p ((q.1 + k) % p.size)
        match s.memError loc 1 with
        | some c => .error (c, q.1 + k)
        | none => .ok (some (pageRoute p), loc)))

/-- A result of an engine's work on one unit: the writes it makes and the places it read. -/
abbrev Unit? := Except (Nat × Nat) (List (EPlace × Byte) × List ReadAt)

/-- A source unit joined with its places. -/
def joinUnit (src : Except (Nat × Nat) (List Byte × List ReadAt)) (ds : List (Except (Nat × Nat) EPlace)) : Unit? :=
  match src with
  | .error c => .error c
  | .ok (bs, locs) =>
    match ds.findSome? (fun d => match d with | .error c => some c | .ok _ => none) with
    | some c => .error c
    | none => .ok ((ds.zip bs).filterMap (fun q => match q.1 with | .ok p => some (p, q.2) | .error _ => none), locs)

/-- Source units joined with their places, e bytes each. -/
def joinUnits (e : Nat) : List (Except (Nat × Nat) (List Byte × List ReadAt)) → List (Except (Nat × Nat) EPlace) → List Unit?
  | [], _ => []
  | x :: r, dst => joinUnit x (dst.take e) :: joinUnits e r (dst.drop e)

/-- The first condition met, with the number of units before it. -/
def firstStop (us : List Unit?) : Option (Nat × Nat × Nat) :=
  (upto us.length).findSome? (fun k => match us.getD k (.ok ([], [])) with
    | .error c => some (k, c.1, c.2)
    | .ok _ => none)

/-- Reads of an engine, the free bytes of a combine region used: each coherent sector renewed at the slice with the thread's PT at issue; a STRM place at its home
slice (R145). -/
def State.engineReads (s : State) (o : Op) (locs : List ReadAt) : State :=
  let secs (r : Route) : List Nat := distinct ((locs.filter (fun l => l.1 == r)).map (fun l => secOf l.2))
  let s : State := if locs.any (fun l => (s.combineSlotOf l.2).isSome) then { s with freeCtr := s.freeCtr + 1 } else s
  let s := (secs .coherent).foldl (fun s sec =>
    ((s.readyRead o.die (sec * 64)).renew o.die sec o.p ((s.ctx o.ctx).lease)).1) s
  (secs .strm).foldl (fun s sec => (s.noteStrm (sec * 64)).homeTouch sec) s

/-- Stores of an engine to lines that a host caches are not system-performed until the host has given the lines up: what waits for the
launch's accesses waits for them (R128, R151, R152, R368). -/
def State.awaitHost (s : State) (o : Op) (lines : List Nat) : State :=
  (lines.filter (fun l => (s.dirOf l).host != .hi)).foldl (fun s l =>
    { s with
      serial := s.serial + 1,
      accs := s.accs ++ [
        { id := s.serial, entry := s.serial, team := 0, tid := 0, ctx := o.ctx, launch := o.launch, die := o.die, core := o.core,
          pc := o.pc, rp := o.pc, kind := .store, route := .coherent, loc := l * 256, size := 0, scope := o.scope, acquire := false,
          release := false, p := o.p, lease := 0, wrote := [], dest := [], aux := 0, buffer := 0, ptr := 0, stage := .applied,
          pkg := true, sys := false, parked := false, inTable := false, since := s.cycle, shut := true }] }) s

/-- Writes of an engine, coherent ones as stores of the thread with the copy in its core's L1, and the largest write time at
the slices of the thread's die (R132, R144, R145). -/
def State.engineWrites (s : State) (o : Op) (ws : List (EPlace × Byte)) : State × Nat :=
  let at_ (f : Option Route → Bool) : List (Nat × Byte × Byte) :=
    (ws.filter (fun w => f w.1.1)).map (fun w => (w.1.2, w.2, 0xFF))
  let scr := at_ (fun r => r.isNone)
  let coh := at_ (fun r => r == some .coherent)
  let strm := at_ (fun r => r == some .strm)
  let host := at_ (fun r => r == some .host)
  let s := s.mapTeam o.team (fun t => scr.foldl (fun t w => t.putByte w.1 w.2.1) t)
  let s := (coh ++ strm).foldl (fun s w => s.rekey (s.keyOf o.ctx .coherent) w.1) s
  let s := (distinct (coh.map (fun w => lineOf w.1))).foldl (fun s l => s.readyOwn o.die (l * 256)) s
  let s := strm.foldl (fun s w => s.noteStrm w.1) (s.spoil ((coh ++ strm).map Prod.fst))
  let q := (distinct (coh.map (fun w => secOf w.1))).foldl (fun (r : State × Nat) sec =>
    let x := r.1.storeSector o.die sec coh o.p
    (x.1.storeL1 o.die o.core sec coh x.2, max r.2 x.2)) (s, 0)
  ((((q.1.homeWrite strm 0).1).putHost host).awaitHost o (distinct (coh.map (fun w => lineOf w.1))), q.2)

/-- An engine reads a place at once: the slice it needs can be reached (R369); of a coherent line, no host cache holds it
modified (R368), and, at package scope or wider, no byte is one of a store of the die not
yet package-performed (R145). -/
def State.mayTake (s : State) (o : Op) (x : ReadAt) : Bool :=
  let l := x.2
  match x.1 with
  | .coherent =>
    (s.mayRead o.die (secOf l * 64) 64 || (s.die (homeOf l)).state == 1)
    && (s.dirOf (lineOf l)).host != .hm
    && (decide (o.scope < 6) || homeOf l == o.die || (s.dirOf (lineOf l)).of o.die == .m
        || !((s.sector o.die (secOf l)).any (fun x => x.mask.getD (l % 64) 0 != 0)))
  | .strm => (s.die (homeOf l)).state == 1
  | _ => true

/-- An engine writes a place at once; at system scope no host caches the line. -/
def State.mayPut (s : State) (o : Op) (x : EPlace) : Bool :=
  let line := lineOf x.2
  match x.1 with
  | some .coherent =>
    ((s.dirOf line).of o.die == .m || (s.die (homeOf x.2)).state == 1)
    && (s.dirOf line).host != .hm && (o.scope != 8 || (s.dirOf line).host == .hi)
  | some .strm => (s.die (homeOf x.2)).state == 1
  | _ => true

/-- Lines whose directory entries an engine needs for places it reads, and for places it writes (R367). -/
def takeLines (locs : List ReadAt) : List Nat := distinct ((locs.filter (fun l => l.1 == .coherent)).map (fun l => lineOf l.2))
def putLines (ws : List (EPlace × Byte)) : List Nat :=
  distinct ((ws.filter (fun w => w.1.1 == some .coherent)).map (fun w => lineOf w.1.2))

/-- The places that units read and write can be reached, and the directories have entries for all of them. -/
def State.engineMay (s : State) (o : Op) (us : List Unit?) : Bool :=
  us.all (fun u => match u with
    | .error _ => true
    | .ok (ws, locs) => locs.all (s.mayTake o) && ws.all (fun w => s.mayPut o w.1))
  && State.dirRoom o.die (us.flatMap (fun u => match u with | .ok (_, locs) => takeLines locs | .error _ => [])
      ++ us.flatMap (fun u => match u with | .ok (ws, _) => putLines ws | .error _ => [])) s

/-- Ranges of virtual addresses that an operation of its thread's context translates here: whether written, descriptor,
first byte, length. -/
def State.opRanges (s : State) (o : Op) : List (Bool × List DWord × Nat × Nat) :=
  let w := dword o.params 2
  let range (k n : Nat) (wr : Bool) : List (Bool × List DWord × Nat × Nat) :=
    if o.remote k then [] else [(wr, o.desc k, dBase (o.desc k) + fld (dword o.params k) 0 54, n)]
  match o.kind with
  | 0 =>
    (if copyFromMem w then range 0 (copyLen w) false else [])
    ++ (if copyToMem w then range 1 (copyLen w * expand (copyDexp w)) true else [])
  | 1 => range 0 (wBytes o.params) false
  | 2 =>
    if o.remote 0 then []
    else (upto (gatherN w)).filterMap (fun k =>
      let i := ((s.team? o.team).map (fun t => (t.readWord ((dword o.params 1).toNat + 4 * k)).toNat)).getD 0
      let off := fld (dword o.params 0) 0 54 + i * gatherSize w
      if off + gatherSize w ≤ dLimit (o.desc 0) then some (false, o.desc 0, dBase (o.desc 0) + off, gatherSize w) else none)
  | _ =>
    let n := fld w 0 32 * (if fld w 35 3 = 1 ∨ fld w 35 3 = 2 then 2 else 4)
    if o.sent then range 1 n true else range 0 n false

/-- The slices serve the walks of an operation (R368, R369). -/
def State.walksFree (s : State) (o : Op) : Bool :=
  let c := s.ctx o.ctx
  (s.opRanges o).all (fun r => (pieces r.2.2.1 r.2.2.2 (r.2.2.2 / 65536 + 2)).all (fun q =>
    s.slicesFree (walkLocs s o.ctx (fld c.ptroot 56 2) q.1 4 (fld c.ptroot 0 54))))

/-- The translations of an operation enter the TLBs, each range's up to the first refused (R345). -/
def State.noteWalks (s : State) (o : Op) : State :=
  (s.opRanges o).foldl (fun s r =>
    ((pieces r.2.2.1 r.2.2.2 (r.2.2.2 / 65536 + 2)).foldl (fun (q : State × Bool) p =>
      if q.2 then q
      else (q.1.noteWalk o.ctx p.1,
        match s.enginePage o r.2.1 p.1 (if r.1 then .store else .load) with | .error _ => true | .ok _ => false))
      (s, false)).1) s

/-- The accesses of the issuing thread before the operation are performed at its scope (R145), and its walks can be made. -/
def State.opReady (s : State) (o : Op) : Bool :=
  o.paused.isNone && o.final.isNone
  && s.accs.all (fun a => !(a.team == o.team && a.tid == o.tid && decide (a.id < o.after)) || a.performed o.scope)
  && s.walksFree o

/-- Bytes an engine makes of one unit. -/
def Op.unitBytes (o : Op) : Nat := if o.kind = 0 ∨ o.kind = 2 then expand (copyDexp (dword o.params 2)) else 1

def State.op? (s : State) (id : Nat) : Option Op := s.ops.find? (fun o => o.serial == id)
def State.mapOp (s : State) (id : Nat) (f : Op → Op) : State :=
  { s with ops := s.ops.map (fun o => if o.serial = id then f o else o) }

/-- Status of Table 9-9 for a condition that stops an engine of this device. -/
def stopStatus (code : Nat) : Nat := if code = 0x1C then 1 else if code = 0x1D then 2 else if code = 0x30 then 3 else 4

/-- aux of an engine's report (R349). -/
def stopAux (code va : Nat) : DWord := if code = 0x1C ∨ code = 0x1D then 0 else BitVec.ofNat 64 va

/-- The report of an engine condition (R354). -/
def State.engineReport (s : State) (o : Op) (code : Nat) (aux : DWord) (nores : Bool) : Report :=
  let t := s.team? o.team
  let l := s.launch? o.launch
  { ctx := o.ctx, launch := o.launch, code := code, count := 1, eng := true, nores := nores, die := o.die,
    rseq := (l.map Launch.rseq).getD 0, cohort := (t.map Team.cohort).getD 0, number := (t.map Team.number).getD 0,
    tid := o.tid, core := o.core, slot := (l.map Launch.slot).getD 0, pc := o.pc, aux := aux, who := [], ops := [o.serial] }

/-- An operation ends with a value and, where it stopped, a report; an operation whose report cannot be entered waits
until it is (R353). -/
def State.finishOp (s : State) (o : Op) (value : DWord) (wts : Nat) (rep : Option (Nat × DWord)) : State :=
  match rep with
  | none => s.completeOp o value wts
  | some (code, aux) =>
    let q := s.report (s.engineReport o code aux true)
    if q.2 then q.1.completeOp o value wts
    else q.1.mapOp o.serial (fun o => { o with final := some (value, wts) })

/-- The work of units performed: what is written before a stop, and freely some of what lies behind it (R232). The
answer: the state, bytes written in order, the largest write time, the condition that stopped it. -/
def State.performUnits (s : State) (o : Op) (us : List Unit?) : State × Nat × Nat × Option (Nat × Nat) :=
  let stop := firstStop us
  let n := match stop with | some x => x.1 | none => us.length
  let s := s.noteWalks o
  let locs := us.flatMap (fun u => match u with | .ok (_, l) => l | .error _ => [])
  let writesOf (u : Unit?) : List (EPlace × Byte) := match u with | .ok (w, _) => w | .error _ => []
  let first := (us.take n).flatMap writesOf
  let rest := match stop with
    | none => []
    | some _ => (((us.drop n).flatMap writesOf).zipIdx.filter (fun w =>
        Config.freeChoice (s.freeCtr + w.2) % 2 == 0)).map Prod.fst
  let s := s.engineReads o locs
  let s := match stop with | none => s | some _ => { s with freeCtr := s.freeCtr + us.length * 4 }
  let q := s.engineWrites o (first ++ rest)
  (q.1, n * o.unitBytes, max o.wts q.2, stop.map (fun x => (x.2.1, x.2.2)))

/-! ### COPY and GATHER (R229 to R232) -/

/-- First address of a copy's source or destination: virtual, or a scratchpad offset. -/
def Op.copyStart (o : Op) (k : Nat) : Nat :=
  let w := dword o.params 2
  if (if k = 0 then copyFromMem w else copyToMem w) then dBase (o.desc k) + fld (dword o.params k) 0 54
  else (dword o.params k).toNat

/-- Source bytes of a copy from byte k, with what becomes of each. -/
def State.copySource (s : State) (o : Op) (k n : Nat) : List (Except (Nat × Nat) (List Byte × List ReadAt)) :=
  let w := dword o.params 2
  let e := expand (copyDexp w)
  if !copyFromMem w then
    (upto n).map (fun j => .ok ([((s.team? o.team).map (fun t => t.readByte (o.copyStart 0 + k + j))).getD 0], []))
  else if o.remote 0 then
    (upto n).map (fun j => .ok ((((o.result.getD []).drop ((k + j) * e)).take e), []))
  else s.sourceRange o (o.desc 0) (o.copyStart 0 + k) n (copyDexp w)

/-- Places of a copy's destination from byte j. -/
def State.copyDest (s : State) (o : Op) (j n : Nat) : List (Except (Nat × Nat) EPlace) :=
  if !copyToMem (dword o.params 2) then (upto n).map (fun k => .ok (none, o.copyStart 1 + j + k))
  else if o.remote 1 then []
  else s.destRange o (o.desc 1) (o.copyStart 1 + j) n

/-- A copy's units, one a source byte: bytes taken before are as they were, bytes landed before are not written again. -/
def State.copyUnits (s : State) (o : Op) : List Unit? :=
  let w := dword o.params 2
  let n := copyLen w
  let e := expand (copyDexp w)
  let src := (s.copySource o 0 n).zipIdx.map (fun q => match sfind o.taken q.2 with | some bs => .ok (bs, []) | none => q.1)
  let dst := (s.copyDest o 0 (n * e)).zipIdx.map (fun q => if o.landed.contains q.2 then .ok (none, 0) else q.1)
  (joinUnits e src dst).zipIdx.map (fun u => match u.1 with
    | .error c => .error c
    | .ok (ws, locs) =>
      .ok ((ws.zipIdx.filter (fun x => !o.landed.contains (u.2 * e + x.2))).map Prod.fst, locs))

/-- Index of element k in a team's scratchpad, and whether it is bad (R231). DESIGN CHOICE (log 25): so is one whose virtual
address would reach 2^54. -/
def Op.gatherAt (o : Op) (t : Team) (k : Nat) : Nat × Bool :=
  let d := o.desc 0
  let z := gatherSize (dword o.params 2)
  let off := fld (dword o.params 0) 0 54 + (t.readWord ((dword o.params 1).toNat + 4 * k)).toNat * z
  (off, decide (dLimit d < off + z) || decide (2 ^ 54 ≤ dBase d + off) || (dBase d + off) % z != 0)

/-- A gather's units, one a source byte, its elements in order: an element's index is read after the writes of those before
it. With them: the number of bytes taken from another device, the team as it then stands, the lowest bad element. -/
structure GatherWalk where
  units : List Unit?
  used : Nat
  team : Team
  bad : Option Nat
deriving Repr

def State.gatherStep (s : State) (o : Op) (g : GatherWalk) (k : Nat) : GatherWalk :=
  let w := dword o.params 2
  let z := gatherSize w
  let e := expand (copyDexp w)
  let q := o.gatherAt g.team k
  let dst : List (Except (Nat × Nat) EPlace) := (upto (z * e)).map (fun j => .ok (none, (dword o.params 3).toNat + k * z * e + j))
  let src : List (Except (Nat × Nat) (List Byte × List ReadAt)) :=
    if q.2 then List.replicate z (.ok (List.replicate e 0, []))
    else if o.remote 0 then
      (upto z).map (fun j => .ok ((((o.result.getD []).drop (g.used + j * e)).take e), []))
    else s.sourceRange o (o.desc 0) (dBase (o.desc 0) + q.1) z (copyDexp w)
  let us := joinUnits e src dst
  { units := g.units ++ us, used := if q.2 then g.used else g.used + z * e,
    team := us.foldl (fun t u => match u with
      | .ok (ws, _) => ws.foldl (fun t x => t.putByte x.1.2 x.2) t
      | .error _ => t) g.team,
    bad := if q.2 then g.bad.or (some k) else g.bad }

def State.gatherWalk (s : State) (o : Op) : Option GatherWalk :=
  (s.team? o.team).map (fun t => (upto (gatherN (dword o.params 2))).foldl (s.gatherStep o) ⟨[], 0, t, none⟩)

def State.gatherUnits (s : State) (o : Op) : List Unit? := ((s.gatherWalk o).map GatherWalk.units).getD []

/-- The lowest bad element of a gather. -/
def State.gatherBad (s : State) (o : Op) : Option Nat := (s.gatherWalk o).bind GatherWalk.bad

/-- The translation condition an engine meets next, if that is what it meets. -/
def pauseOf (us : List Unit?) : Option (Nat × Nat) :=
  match firstStop us with
  | some (_, c, va) => if isTranslation c then some (c, va) else none
  | none => none

/-- Locations that units read or write. -/
def unitLocs (us : List Unit?) : List Nat :=
  us.flatMap (fun u => match u with
    | .ok (ws, locs) => (ws.filter (fun w => w.1.1.isSome)).map (fun w => w.1.2) ++ locs.map Prod.snd
    | .error _ => [])

/-- The units meet an exact sum, which retires before they are performed (R143). -/
def State.meetsSum (s : State) (us : List Unit?) : Bool := !(s.sumsAt (unitLocs us)).isEmpty

def State.opMay (s : State) (o : Op) (us : List Unit?) : Bool :=
  s.opReady o && !(o.remote 0 && o.result.isNone) && (pauseOf us).isNone && s.engineMay o us

/-- The source and destination ranges of a copy may share locations (R230). -/
def Op.overlaps (o : Op) (us : List Unit?) : Bool :=
  let w := dword o.params 2
  let a := (dword o.params 0).toNat
  let b := (dword o.params 1).toNat
  if copyFromMem w ∧ copyToMem w then
    let secs (f : List (EPlace × Byte) × List ReadAt → List Nat) : List Nat :=
      distinct (us.flatMap (fun u => match u with | .ok x => (f x).map secOf | .error _ => []))
    (secs (fun x => x.2.map Prod.snd)).any (fun k => (secs (fun x => x.1.map (fun q => q.1.2))).contains k)
  else !copyFromMem w && !copyToMem w && decide (a < b + copyLen w) && decide (b < a + copyLen w)

/-- What source byte k of a copy gives in a state. -/
def State.sourceAgain (s : State) (o : Op) (k : Nat) : List Byte :=
  match s.copySource o k 1 with
  | .ok (bs, _) :: _ => bs
  | _ => []

/-- The units of a copy whose ranges overlap: each aligned unit of 8 bytes of the destination freely takes the source as it
stood or as the same copy has already written it, in either direction (R230). -/
def State.copyWalk (s : State) (o : Op) (us : List Unit?) (down : Bool) : List Unit? :=
  let w := dword o.params 2
  let e := expand (copyDexp w)
  let start := o.copyStart 1
  let ks := upto us.length
  ((if down then ks.reverse else ks).foldl (fun (acc : State × List Unit?) k =>
    let x : Unit? := match us.getD k (.ok ([], [])) with
      | .error c => .error c
      | .ok (ws, locs) =>
        let again := acc.1.sourceAgain o k
        let left := (upto e).filter (fun j => !o.landed.contains (k * e + j))
        .ok ((ws.zip left).map (fun q =>
          if Config.freeChoice (s.freeCtr + 1 + (start % 8 + k * e + q.2) / 8) % 2 = 0 then q.1
          else (q.1.1, again.getD q.2 q.1.2)), locs)
    ((match x with | .ok (ws, _) => (acc.1.engineWrites o ws).1 | .error _ => acc.1),
      if down then x :: acc.2 else acc.2 ++ [x])) (s, [])).2

/-- A copy's work: the state with the free choices of an overlapping one counted, and its units. -/
def State.copyWork (s : State) (o : Op) : State × List Unit? :=
  let us := s.copyUnits o
  if o.overlaps us then
    ({ s with freeCtr := s.freeCtr + 4 * us.length + 2 }, s.copyWalk o us (Config.freeChoice s.freeCtr % 2 == 1))
  else (s, us)

/-- Indexes 0 to n − 1 that lie in aligned unit u of 8 bytes of a range that begins at an address. -/
def unitBytes (start n u : Nat) : List Nat :=
  ((upto 8).map (fun j => 8 * u + j - start % 8)).filter (fun k => decide (8 * u ≤ k + start % 8) && decide (k < n))
    |>.foldl (fun l x => insertNat x l) []

/-- Bytes of a copy's source or destination are translated (R345). -/
def State.noteCopy (s : State) (o : Op) (k : Nat) (bytes : List Nat) : State :=
  if (if k = 0 then copyFromMem (dword o.params 2) else copyToMem (dword o.params 2)) then
    (distinct (bytes.map (fun j => (o.copyStart k + j) / 65536 * 65536))).foldl (fun s va => s.noteWalk o.ctx va) s
  else s

/-- An aligned unit of a copy's source read, as one, before the copy completes (R147). -/
def State.copyTake (s : State) (o : Op) (u : Nat) : State :=
  let ks := (unitBytes (o.copyStart 0) (copyLen (dword o.params 2)) u).filter (fun k => (sfind o.taken k).isNone)
  let src := ks.map (fun k => (k, (s.copySource o k 1).headD (.error (0, 0))))
  let got := src.filterMap (fun x => match x.2 with | .ok r => some (x.1, r) | .error _ => none)
  let locs := got.flatMap (fun x => x.2.2)
  if got.length ≠ src.length ∨ !(locs.all (s.mayTake o)) ∨ !State.dirRoom o.die (takeLines locs) s then s
  else if !(s.sumsAt (locs.map Prod.snd)).isEmpty then s.retireAt (locs.map Prod.snd)
  else ((s.noteCopy o 0 ks).engineReads o locs).mapOp o.serial (fun o =>
    { o with taken := got.foldl (fun m x => sinsert m x.1 x.2.1) o.taken })

/-- An aligned unit of a copy's destination written, as one, before the copy completes: its source bytes are taken (R147). -/
def State.copyLand (s : State) (o : Op) (u : Nat) : State :=
  let w := dword o.params 2
  let e := expand (copyDexp w)
  let js := (unitBytes (o.copyStart 1) (copyLen w * e) u).filter (fun j => !o.landed.contains j)
  let ws := js.filterMap (fun j =>
    match sfind o.taken (j / e), s.copyDest o j 1 with
    | some bs, .ok p :: _ => some (p, bs.getD (j % e) 0)
    | _, _ => none)
  let locs := (ws.filter (fun x => x.1.1.isSome)).map (fun x => x.1.2)
  if ws.length ≠ js.length ∨ !(ws.all (fun x => s.mayPut o x.1)) ∨ !State.dirRoom o.die (putLines ws) s then s
  else if !(s.sumsAt locs).isEmpty then s.retireAt locs
  else
    let q := (s.noteCopy o 1 js).engineWrites o ws
    q.1.mapOp o.serial (fun o => { o with landed := o.landed ++ js, wts := max o.wts q.2 })

/-- A copy on this device that can go on. -/
def State.copyRuns (s : State) (o : Op) : Bool :=
  o.kind == 0 && !o.sent && !o.remote 0 && !o.remote 1 && s.opReady o

/-- One unit of a copy under way, freely chosen: read, or written once read (R147, R293). -/
def State.copyUnit (s : State) (o : Op) : State :=
  let w := dword o.params 2
  let n := copyLen w / 8 + 2
  let m := copyLen w * expand (copyDexp w) / 8 + 2
  let k := Config.freeChoice s.freeCtr % (n + m)
  let s : State := { s with freeCtr := s.freeCtr + 1 }
  if !s.copyRuns o then s else if k < n then s.copyTake o k else s.copyLand o (k - n)

/-- COPY_COMPLETE. A copy to another device sends its bytes and completes when that device has acknowledged them. -/
def execCopyComplete (op : Nat) (s : State) : Result :=
  .next (match s.op? op with
    | some o =>
      if o.kind = 0 ∧ !o.sent then
        let us := s.copyUnits o
        if s.opMay o us ∧ s.meetsSum us then s.retireAt (unitLocs us)
        else if s.opMay o us then
          let x := s.copyWork o
          let q := x.1.performUnits o x.2
          match q.2.2.2 with
          | some (code, va) =>
            q.1.finishOp o (completion (stopStatus code) q.2.1 0) q.2.2.1 (some (code, stopAux code va))
          | none =>
            if o.remote 1 ∧ copyToMem (dword o.params 2) then q.1.mapOp op (fun o => { o with sent := true })
            else q.1.finishOp o (completion 0 q.2.1 0) q.2.2.1 none
        else s
      else s
    | none => s)

/-- GATHER_COMPLETE. -/
def execGatherComplete (op : Nat) (s : State) : Result :=
  .next (match s.op? op with
    | some o =>
      if o.kind = 2 then
        let us := s.gatherUnits o
        if s.opMay o us ∧ s.meetsSum us then s.retireAt (unitLocs us)
        else if s.opMay o us then
          let q := s.performUnits o us
          match q.2.2.2 with
          | some (code, va) =>
            q.1.finishOp o (completion (stopStatus code) q.2.1 0) q.2.2.1 (some (code, stopAux code va))
          | none =>
            match s.gatherBad o with
            | some k => q.1.finishOp o (completion 6 q.2.1 k) q.2.2.1 none
            | none => q.1.finishOp o (completion 0 q.2.1 0) q.2.2.1 none
        else s
      else s
    | none => s)

/-! ### WLOAD (R259, R260) -/

/-- A number from a remote panel: four bytes an element, its value as the format of the slot reads it. -/
def remoteElement (fmt : Nat) (bs : List Byte) : Num :=
  if fmt ≤ 1 then unpack (elementFmt fmt) (ofBytes bs % 65536)
  else if fmt = 4 then .fin false (ofBytes bs % 2) 0
  else unpack f32 (ofBytes bs)

/-- The element (r, c) of the source panel with the places read (R259). -/
def State.wloadElement (s : State) (o : Op) (r c : Nat) : Except (Nat × Nat) (Num × List ReadAt) :=
  let w := dword o.params 2
  let fmt := wFmt w
  let d := o.desc 0
  let off := fld (dword o.params 0) 0 54
  let e := wElement o.params r c
  if o.remote 0 then .ok (remoteElement fmt (((o.result.getD []).drop (4 * (r * wCols w + c))).take 4), ([] : List ReadAt))
  else
    let place : Nat := if fmt ≤ 1 then off + 2 * e else if fmt = 2 then off + e else if fmt = 3 then off + e / 2
      else off + e / 8
    let va := dBase d + place
    match s.enginePage o d va .load with
    | .error x => .error x
    | .ok (die, p) =>
      if fmt ≤ 1 then
        if p.fmt ≠ 0 ∧ !dFmto d then .error (0x1C, va)
        else
          let loc := pageLoc d die p (va % p.size)
          match s.memError loc 2 with
          | some x => .error (x, va)
          | none =>
            .ok (unpack (elementFmt fmt) (ofBytes (s.engineBytes o (pageRoute p) loc 2)), [(pageRoute p, loc), (pageRoute p, loc + 1)])
      else if fmt = 4 then
        if dFmto d ∨ p.fmt ≠ 3 then .error (0x1C, va)
        else
          match s.sourceByte o d va 0 die p with
          | .error x => .error x
          | .ok (bs, locs) => .ok (.fin false ((bs.getD 0 0).toNat / 2 ^ (e % 8) % 2) 0, locs)
      else if dFmto d then .error (0x1C, va)
      else
        match s.dxSource o d va (fmt - 1) die p [if fmt = 2 then va % p.size else 2 * (va % p.size) + e % 2] with
        | .error x => .error x
        | .ok (xs, locs) => .ok ((xs.head?.map (fun x => dxDecode p.fmt x.1 x.2)).getD .nan, locs)

/-- The B-blocks of a panel in stream order (R260): 256 values and the bytes taken, or the condition met. -/
def State.wloadBlocks (s : State) (o : Op) : List (Except (Nat × Nat) ((List Num × Nat) × List ReadAt)) :=
  let w := dword o.params 2
  let rb := ceilDiv (wRows w) 16
  (upto (rb * ceilDiv (wCols w) 16)).map (fun q =>
    let els := (upto 256).map (fun x =>
      let r := q % rb * 16 + x / 16
      let c := q / rb * 16 + x % 16
      if r < wRows w ∧ c < wCols w then s.wloadElement o r c else .ok (.fin false 0 0, []))
    match els.findSome? (fun e => match e with | .error x => some x | .ok _ => none) with
    | some x => .error x
    | none =>
      let ns := els.map (fun e => match e with
        | .ok (n, _) => if n.isZero then .fin false 0 0 else n
        | .error _ => .fin false 0 0)
      let locs := els.flatMap (fun e => match e with | .ok (_, l) => l | .error _ => [])
      .ok ((ns, if wFmt w = 4 then 32 else 32 + 2 * (ns.filter (fun n => !n.isZero)).length), locs))

/-- Blocks placed slot by slot (R260): the slots, and whether blocks were left over. -/
def placeBlocks (span : Nat) : List (List Num × Nat) → List (List (List Num × Nat)) → List (List (List Num × Nat)) × Bool
  | [], done => (done, false)
  | b :: r, done =>
    match done.getLast? with
    | none => if span = 0 then (done, true) else placeBlocks span r [[b]]
    | some cur =>
      if cur.length < 16 ∧ cur.foldl (fun n x => n + x.2) 0 + b.2 ≤ 4096 then
        placeBlocks span r (done.dropLast ++ [cur ++ [b]])
      else if done.length < span then placeBlocks span r (done ++ [[b]])
      else (done, true)

/-- A completion value of Table 10-9. -/
def wloadValue (slots : List (List (List Num × Nat))) (status : Nat) : DWord :=
  let blocks := slots.flatten
  BitVec.ofNat 64 (blocks.length * 2 ^ 48 + slots.length * 2 ^ 40 + status * 2 ^ 32
    + blocks.foldl (fun n b => n + b.2) 0)

/-- WLOAD's units for the conditions an engine meets: one a block. -/
def State.wloadUnits (s : State) (o : Op) : List Unit? :=
  (s.wloadBlocks o).map (fun b => match b with
    | .error x => .error x
    | .ok (_, locs) => .ok ([], locs))

/-- WLOAD_COMPLETE: the blocks before the first condition, or all, are placed. DESIGN CHOICE (log 25): a condition met in a
block left over when the run is full still stops the WLOAD, with its status. -/
def execWloadComplete (op : Nat) (s : State) : Result :=
  .next (match s.op? op with
    | some o =>
      if o.kind = 1 then
        let us := s.wloadUnits o
        if s.opMay o us ∧ s.meetsSum us then s.retireAt (unitLocs us)
        else if s.opMay o us then
          let w := dword o.params 2
          let stop := firstStop us
          let n := match stop with | some x => x.1 | none => us.length
          let blocks := ((s.wloadBlocks o).take n).filterMap (fun b => match b with | .ok (x, _) => some x | .error _ => none)
          let q := placeBlocks (wSpan w) blocks []
          let s' := (s.noteWalks o).engineReads o (us.flatMap (fun u => match u with | .ok (_, l) => l | .error _ => []))
          let s' := s'.mapTeam o.team (fun t =>
            t.mapSlots (wSlot w) (wSpan w) (fun k x => { x with blocks := q.1.getD k [] }))
          match stop with
          | some (_, code, va) => s'.finishOp o (wloadValue q.1 (stopStatus code)) 0 (some (code, stopAux code va))
          | none => s'.finishOp o (wloadValue q.1 (if q.2 then 8 else 0)) 0 none
        else s
      else s
    | none => s)

/-! ### Collectives (R376 to R379) -/

/-- COLL's control and rank words (Table 16-8). -/
def cCount (w : DWord) : Nat := fld w 0 32
def cOp (w : DWord) : Nat := fld w 32 3
def cType (w : DWord) : Nat := fld w 35 3
def cRound (w : DWord) : Nat := fld w 38 2
def cSize (w : DWord) : Nat := if cType w = 1 ∨ cType w = 2 then 2 else 4

def collControlBad (w r : DWord) : Bool :=
  fld w 40 24 != 0 || (cRound w != 0 && !(decide (cType w ≤ 2) && cOp w == 0)) || decide (4 < cType w)
  || decide (2 < cOp w) || cCount w == 0 || decide (2 ^ 20 < cCount w) || fld r 40 24 != 0 || fld r 16 16 != 0

/-- The group entry a rank word names, when it is valid (Table 16-9): tag, ranks, root. -/
def State.groupOf (s : State) (ctx : Nat) (r : DWord) : Option (Nat × Nat × Nat) :=
  let at_ := s.groupPlace ctx r
  if fld (s.ctx ctx).grpN 0 9 ≤ fld r 32 8 then none
  else
    let e := s.dpaWord at_.1 at_.2
    let e1 := s.dpaWord at_.1 (at_.2 + 8)
    if !bit e 63 ∨ fld e 48 15 ≠ 0 ∨ fld e 11 5 ≠ 0 ∨ e1 ≠ 0 ∨ fld e 32 16 < fld r 0 16
        ∨ (!bit s.domain0 63 ∧ fld e 0 11 ≠ fld s.domain0 0 11) then none
    else some (fld e 16 16, fld e 32 16 + 1, fld e 0 11)

def collCheck (t : Team) (s : State) (ps : List DWord) : Except Cond (Option (Nat × Nat × Nat × Nat)) :=
  let w := dword ps 2
  let r := dword ps 3
  let at_ := s.groupPlace t.ctx r
  if collControlBad w r then .error ⟨0x22, 0⟩
  else if fld r 32 8 < fld (s.ctx t.ctx).grpN 0 9 ∧ (s.dpaError at_.1 at_.2 16).isSome then
    .error ⟨(s.dpaError at_.1 at_.2 16).getD 0, 0⟩
  else
    match s.groupOf t.ctx r with
    | none => .error ⟨0x22, 0⟩
    | some (tag, ranks, root) =>
      match s.checkRange t (dword ps 0) (cCount w * cSize w) (cSize w) .load with
      | .error e => .error e
      | .ok _ =>
        match s.checkRange t (dword ps 1) (cCount w * cSize w) (cSize w) .store with
        | .error e => .error e
        | .ok _ => .ok (some (tag, sget 0 (s.ctx t.ctx).collGen (fld r 32 8 * 65536 + fld r 0 16), ranks, root))

/-- COLL (R376): counts this context's COLLs of the group and rank. -/
def execColl (_h : Hdr) (o : FA) (s : State) : Result :=
  .next (s.asyncIssue o 3 4 (fun _ => [0, 1]) collCheck (fun _ _ _ => false) (fun iss _ op s =>
    let r := dword op.params 3
    let key := fld r 32 8 * 65536 + fld r 0 16
    (s.mapCtx op.ctx (fun c => { c with collGen := sset 0 c.collGen key (sget 0 c.collGen key + 1) })).markWritten iss.team))

/-- The source of a collective, unit by unit. -/
def State.collSource (s : State) (o : Op) : List (Except (Nat × Nat) (List Byte × List ReadAt)) :=
  let w := dword o.params 2
  let n := cCount w * cSize w
  if o.remote 0 then (upto n).map (fun k => .ok (((o.result.getD []).drop k).take 1, []))
  else s.sourceRange o (o.desc 0) (dBase (o.desc 0) + fld (dword o.params 0) 0 54) n 0

def State.collSourceUnits (s : State) (o : Op) : List Unit? :=
  (s.collSource o).map (fun u => match u with
    | .error x => .error x
    | .ok (_, l) => .ok ([], l))

/-- The destination of a collective with the result's bytes. -/
def State.collDestUnits (s : State) (o : Op) (data : List Byte) : List Unit? :=
  if o.remote 1 then []
  else joinUnits 1 (data.map (fun b => .ok ([b], [])))
    (s.destRange o (o.desc 1) (dBase (o.desc 1) + fld (dword o.params 1) 0 54) data.length)

/-- One element of a reduction over ranks: two patterns combined (R107, R241, R378). -/
def collCombine (op typ round a b : Nat) : Nat :=
  let f := if typ = 0 then f32 else if typ = 1 then f16 else bf16
  if typ ≤ 2 then
    if op = 0 then faddBits f (modeOf (BitVec.ofNat 2 round)) a b else if op = 1 then fminBits f a b else fmaxBits f a b
  else if op = 0 then (a + b) % 2 ^ 32
  else
    let sgn := typ == 3
    let less := decide (readInt sgn 32 a < readInt sgn 32 b)
    if op = 1 then (if less then a else b) else (if less then b else a)

/-- The result of a set: each element by the tree of R105 over the ranks. -/
def collReduce (ps : List Contribution) (c : Contribution) : List Byte :=
  let z := if c.typ = 1 ∨ c.typ = 2 then 2 else 4
  (upto c.count).flatMap (fun k =>
    let xs := (upto c.ranks).map (fun i =>
      (ps.find? (fun p => p.rank == i)).map (fun p => ofBytes ((p.data.drop (k * z)).take z)))
    toBytes ((treeReduce (collCombine c.op c.typ c.round) 17 xs).getD 0) z)

/-- A set with every rank present ends: each rank of this device gets the answer, the ranks of others theirs. DESIGN CHOICE (log
25): one whose parts differ in NRANKS stays as it is. -/
def State.settleSet (s : State) (tag gen : Nat) : State :=
  match s.collSets.find? (fun x => x.tag == tag && x.gen == gen) with
  | none => s
  | some x =>
    match x.parts with
    | [] => s
    | c :: _ =>
      if (upto c.ranks).all (fun i => x.parts.any (fun p => p.rank == i)) && x.parts.all (fun p => p.ranks == c.ranks) then
        let agree := x.parts.all (fun p => p.op == c.op && p.typ == c.typ && p.round == c.round && p.count == c.count)
        let data := if agree then collReduce x.parts c else []
        { s with
          collSets := s.collSets.filter (fun y => !(y.tag == tag && y.gen == gen)),
          collAnswers := s.collAnswers ++ x.parts.filterMap (fun p =>
            p.sender.map (fun id => (id, if agree then 0 else 9, data))) }
      else s

/-- A contribution enters its set; none is taken while the unit's 256 sets are open (R378). -/
def State.contribute (s : State) (c : Contribution) : Option State :=
  let here (x : CollSet) : Bool := x.tag == c.tag && x.gen == c.gen
  if s.collSets.any here then
    let s' : State := { s with collSets := s.collSets.map (fun x => if here x then { x with parts := x.parts ++ [c] } else x) }
    some (s'.settleSet c.tag c.gen)
  else if s.collSets.length < 256 then
    let s' : State := { s with collSets := s.collSets ++ [⟨c.tag, c.gen, [c]⟩] }
    some (s'.settleSet c.tag c.gen)
  else none

/-- COLL_CONTRIBUTION: from another device as given; from an operation of this one, its source read and sent to the
root, which may be this device. -/
def execCollContribution (c : Contribution) (s : State) : Result :=
  .next (match c.sender with
    | none => (s.contribute c).getD s
    | some id =>
      match s.op? id with
      | some o =>
        match o.coll with
        | some (tag, gen, ranks, root) =>
          let us := s.collSourceUnits o
          if o.kind = 3 ∧ !o.sent ∧ s.opMay o us ∧ s.meetsSum us then s.retireAt (unitLocs us)
          else if o.kind = 3 ∧ !o.sent ∧ s.opMay o us then
            match firstStop us with
            | some (_, code, va) => s.finishOp o (completion (stopStatus code) 0 0) 0 (some (code, stopAux code va))
            | none =>
              let w := dword o.params 2
              let data := (s.collSource o).flatMap (fun u => match u with | .ok (b, _) => b | .error _ => [])
              let locs := us.flatMap (fun u => match u with | .ok (_, l) => l | .error _ => [])
              let mine : Contribution := ⟨tag, gen, fld (dword o.params 3) 0 16, ranks, cOp w, cType w, cRound w, cCount w,
                data, some id⟩
              let s' := ((s.noteWalks o).engineReads o locs).mapOp id (fun o => { o with sent := true, result := none })
              if root = fld s.domain0 0 11 then (s'.contribute mine).getD s else s'
          else s
        | none => s
      | none => s)

/-- What has come back for a collective: a status, and the result. -/
def State.collAnswer (s : State) (o : Op) (reply : CollReply) : Option (Nat × List Byte) :=
  match o.result with
  | some d => some (0, d)
  | none =>
    match s.collAnswers.find? (fun a => a.1 == o.serial) with
    | some a => some (a.2.1, a.2.2)
    | none =>
      match reply with
      | .fromHere => none
      | .result d =>
        let w := dword o.params 2
        if d.length = cCount w * cSize w then some (0, d) else none
      | .disagree => some (9, [])

/-- COLL_RESULT: the destination is written and the token completes; a result whose destination is on another device
waits for its acknowledgement. -/
def execCollResult (op : Nat) (reply : CollReply) (s : State) : Result :=
  .next (match s.op? op with
    | some o =>
      if o.kind = 3 ∧ o.sent ∧ o.paused = none ∧ o.final = none then
        match s.collAnswer o reply with
        | none => s
        | some (status, data) =>
          let s' : State := { s with collAnswers := s.collAnswers.filter (fun a => decide (a.1 ≠ op)) }
          if status ≠ 0 then s'.finishOp o (completion status 0 0) 0 none
          else
            let us := s'.collDestUnits o data
            if o.remote 1 ∨ (pauseOf us).isSome ∨ !s'.walksFree o ∨ !s'.engineMay o us then
              s'.mapOp op (fun o => { o with result := some data })
            else if s'.meetsSum us then s.retireAt (unitLocs us)
            else
              let q := s'.performUnits o us
              match q.2.2.2 with
              | some (code, va) =>
                q.1.finishOp o (completion (stopStatus code) q.2.1 0) q.2.2.1 (some (code, stopAux code va))
              | none => q.1.finishOp o (completion 0 q.2.1 0) q.2.2.1 none
      else s
    | none => s)

/-! ### A translation condition (R354) -/

/-- The units an operation is at. -/
def State.opUnits (s : State) (o : Op) : List Unit? :=
  match o.kind with
  | 0 => s.copyUnits o
  | 1 => s.wloadUnits o
  | 2 => s.gatherUnits o
  | _ => if o.sent then (match o.result with | some d => s.collDestUnits o d | none => []) else s.collSourceUnits o

/-- An operation that meets a translation condition next. -/
def State.opPause (s : State) (o : Op) : Option (Nat × Nat) :=
  if s.opReady o ∧ !(o.remote 0 && o.result.isNone) ∧ !(o.kind == 0 && o.sent) then pauseOf (s.opUnits o) else none

/-- An engine operation that an abort or the end of its launch ends on a translation condition: what lies before the
condition is performed, status 5, with a report where one is due (R350 to R355). -/
def State.abortOp (s : State) (o : Op) (rep : Option (Nat × DWord)) : State :=
  let us := s.opUnits o
  match o.kind with
  | 1 =>
    let w := dword o.params 2
    let n := match firstStop us with | some x => x.1 | none => us.length
    let blocks := ((s.wloadBlocks o).take n).filterMap (fun b => match b with | .ok (x, _) => some x | .error _ => none)
    let q := placeBlocks (wSpan w) blocks []
    let s' := s.mapTeam o.team (fun t =>
      t.mapSlots (wSlot w) (wSpan w) (fun k x => { x with blocks := q.1.getD k [] }))
    s'.finishOp o (wloadValue q.1 5) 0 rep
  | _ =>
    if s.engineMay o us ∧ !(o.kind == 3 && !o.sent) then
      let q := s.performUnits o us
      q.1.finishOp o (completion 5 q.2.1 0) q.2.2.1 rep
    else s.finishOp o (completion 5 0 0) o.wts rep

/-- The launch of an operation has been cancelled or has faulted. -/
def State.stopped (s : State) (o : Op) : Bool :=
  match (s.launch? o.launch).map Launch.phase with
  | some (.ending _ _) => true
  | _ => false

/-- ENGINE_FAULT_PAUSE: the operation pauses and a class F record is reported; one whose launch has ended early completes with
status 5, which is reported (R350 to R352, R354). -/
def execEngineFaultPause (op : Nat) (s : State) : Result :=
  .next (match s.op? op with
    | some o =>
      match s.opPause o with
      | some (code, va) =>
        let s := s.noteWalks o
        if s.stopped o then s.abortOp o (some (code, BitVec.ofNat 64 va))
        else
          let s := s.mapOp op (fun o => { o with paused := some (code, va) })
          (s.report (s.engineReport o code (BitVec.ofNat 64 va) false)).1
      | none => s
    | none => s)

end Sys2Proof.Machine
end

