-- ==== Sys2Proof/Machine/Perform.lean ====
section
/-! DEFINITION. Accesses performed: stores, loads, atomics, reductions and claims at their slices, the directory's events,
line data, evictions, the host's snoops and caches, time rebases (05 R118 to R122, 06 R129 to R143, R148, R149,
16 R364 to R369). -/

namespace Sys2Proof.Machine

/-! ### Accesses in flight -/

def State.acc? (s : State) (id : Nat) : Option Acc := s.accs.find? (fun a => a.id == id)
def State.mapAcc (s : State) (id : Nat) (f : Acc → Acc) : State :=
  { s with accs := s.accs.map (fun a => if a.id = id then f a else a) }
def State.dropAcc (s : State) (id : Nat) : State := { s with accs := s.accs.filter (fun a => decide (a.id ≠ id)) }

/-- The access writes; the access returns data; it is performed at the home slice (R140). -/
def Acc.stores (a : Acc) : Bool :=
  match a.kind with
  | .load _ => false
  | .ldf => false
  | .claim => false
  | _ => true
def Acc.loads (a : Acc) : Bool :=
  match a.kind with
  | .load _ => true
  | .ldf => true
  | .atomic _ _ _ _ => true
  | _ => false
def Acc.atHome (a : Acc) : Bool :=
  match a.kind with
  | .atomic _ _ _ _ => true
  | .reduce _ _ _ => true
  | .unord _ => true
  | _ => false
def Acc.isClaim (a : Acc) : Bool := match a.kind with | .claim => true | _ => false

/-- Locations of an access, on this device. -/
def Acc.locs (a : Acc) : List Nat :=
  match a.route, a.kind with
  | .remote _ _, _ => []
  | _, .store => a.wrote.map Prod.fst
  | _, .load (.dx _ hs) => (upto a.size).map (fun k => a.loc + k) ++ hs.flatMap (fun h => [h, h + 1])
  | _, _ => (upto a.size).map (fun k => a.loc + k)

def overlap (a b : Acc) : Bool := a.locs.any (fun l => b.locs.contains l)

/-- Two accesses touch one line of 64 bytes; on another device, one of its virtual addresses. -/
def sameSector (a b : Acc) : Bool :=
  match a.route, b.route with
  | .remote d x, .remote e y => d == e && secOf x == secOf y
  | _, _ => a.locs.any (fun l => b.locs.any (fun k => secOf k == secOf l))

/-- The orders the device keeps (R123, R125, R129, R133, R134): within a thread, accesses to one 64-byte line, a load before
a later store, an acquire before everything, everything before a release; from one core, writes of one 64-byte line in
the order they issued. An access at the home slice follows its thread's earlier ones to the location in coherence order. -/
def State.inOrder (s : State) (a : Acc) : Bool :=
  s.accs.all (fun b =>
    if a.id ≤ b.id ∨ (b.entry = a.entry ∧ !a.atHome) then true
    else if b.team = a.team ∧ b.tid = a.tid then
      (b.stage != .waiting || b.parked || !(sameSector a b || b.acquire || (b.loads && a.stores)))
        && (!(overlap a b && a.atHome) || b.performed 6)
        && (!a.release || b.performed a.scope)
    else !(b.die == a.die && b.core == a.core && a.stores && b.stores && sameSector a b) || b.stage != .waiting)

/-- The requests of an access's entry that wait with it and are performed together: one copy of the line serves every load (R124),
the stores to one aligned unit of 8 bytes are merged (R125, R129). -/
def State.mates (s : State) (a : Acc) : List Acc :=
  s.accs.filter (fun b => b.entry == a.entry && b.stage == .waiting && !b.parked && (a.kind != .store || b.loc / 8 == a.loc / 8))

/-- The home die of a location is running. -/
def State.homeUp (s : State) (loc : Nat) : Bool := (s.die (homeOf loc)).state == 1

def State.hostOf (s : State) (loc : Nat) : HostLine := (s.dirOf (lineOf loc)).host

/-- Loaded data on its way to the registers (R160). -/
def State.land (s : State) (a : Acc) (ws : List Word) : State :=
  (s.mapThread a.team a.tid (fun x =>
    { x with block := if x.block = .ldf a.id then .none else x.block,
             pend := x.pend.map (fun p =>
               if p.serial = a.id then { p with regs := (p.regs.map Prod.fst).zip ws, ready := true } else p) })).dropAcc a.id

/-- A thread leaves its future load, which writes nothing, and the join at which it may have arrived. -/
def State.leaveLdf (s : State) (team tid acc : Nat) : State :=
  let s : State := (s.dropAcc acc).mapThread team tid (fun x =>
    { x with block := .none, pend := x.pend.filter (fun p => decide (p.serial ≠ acc)) })
  match s.team? team with
  | some t => s.mapSheaf team (tid / t.width) (fun f =>
      { f with joins := f.joins.map (fun j => { j with a := j.a.filter (fun q => decide (q ≠ tid)) }) })
  | none => s

/-- A condition that a future load meets when it executes again, alone, or another device returns to it (R148, R375): the thread,
which is in its lane, takes it then. One of class F leaves it blocked in its load, which the resume command makes execute again
alone: the other words of its group are not repeated. The replay PC is the load's own (R57; DEDUCED, log 20). -/
def State.lateRaise (s : State) (a : Acc) (code : Nat) (aux : DWord) (remote : Bool) : State :=
  match s.team? a.team, s.thread? a.team a.tid with
  | some t, some x =>
    let gone : Bool := match x.wait with
      | .ended => true
      | .parked _ => true
      | _ => false
    if gone then s.leaveLdf a.team a.tid a.id
    else if isFaultCode code && !remote then
      let p : Park := ⟨code, aux, a.pc, a.pc, .fault, BitVec.ofNat 64 (fld (s.ctx t.ctx).trap1 0 32), false⟩
      let s := (s.mapAcc a.id (fun b => { b with parked := true, inTable := false })).mapThread a.team a.tid (fun x =>
        { x with block := .ldfFault a.id p })
      (s.report (s.threadReport t code aux a.pc [a.tid] false)).1
    else
      let s := s.leaveLdf a.team a.tid a.id
      match s.team? a.team with
      | some t => s.takeGroup t code a.pc (fun _ => a.pc) [(a.tid, aux)] false remote
      | none => s
  | _, _ => s.dropAcc a.id

def State.locError (s : State) (locs : List Nat) : Option Nat := locs.findSome? (fun l => s.memError l 1)

def State.raisePt (s : State) (team tid wts : Nat) : State :=
  s.mapThread team tid (fun x => { x with pt := max x.pt wts })
def State.raiseLct (s : State) (team tid wts : Nat) : State :=
  s.mapThread team tid (fun x => { x with lct := max x.lct wts })

/-! ### Stores (R132, R137, R139) -/

/-- A die's L2 holds written bytes of the line that are not package-performed (R119, R137). -/
def State.unpackaged (s : State) (d line : Nat) : Bool :=
  lineHome line != d && (s.dirOf line).of d != .m && (s.dirOf line).of d != .e
  && (upto 4).any (fun k => (s.sector d (line * 4 + k)).any (fun x => x.dirty))

def State.unpackagedByte (s : State) (d loc : Nat) : Bool :=
  homeOf loc != d && (s.dirOf (lineOf loc)).of d != .m && (s.dirOf (lineOf loc)).of d != .e
  && (s.sector d (secOf loc)).any (fun x => x.mask.getD (loc % 64) 0 != 0)

/-- The stores of a die to a line become package-performed: system-performed too when no host cache holds the line. -/
def State.packageLine (s : State) (d line : Nat) : State :=
  let hi := (s.dirOf line).host == .hi
  let f (a : Acc) : Acc :=
    if a.stage = .applied ∧ a.die = d ∧ !a.pkg ∧ lineOf a.loc = line then { a with pkg := true, sys := hi } else a
  { s with accs := (s.accs.map f).filter (fun a => !a.finished) }

def State.canStore (s : State) (a : Acc) : Bool :=
  a.kind == .store && a.stage == .waiting && s.inOrder a
  && (match a.route with
    | .host => true
    | .strm => s.homeUp a.loc
    | .coherent => (homeOf a.loc != a.die || s.homeUp a.loc) && s.hostOf a.loc != .hm
    | .remote _ _ => false)
  && ((s.sumsAt a.locs).isEmpty || s.homeUp a.loc)

/-- A store applied at its slice: die-performed, and package- and system-performed where the die owns the line and no host
caches it (R119, R132, R137, R139). A store of the home die takes ownership as it is applied (DEDUCED, log 11). DESIGN CHOICE (log
25): a store at a STRM home slice returns no write time, so LCT stays. -/
def State.applyStore (s : State) (a : Acc) : State :=
  match a.route with
  | .host => (s.putHost a.wrote).dropAcc a.id
  | .remote _ _ => s
  | .strm =>
    let s := ((s.noteStrm a.loc).rekey (s.keyOf a.ctx a.route) a.loc).spoil a.locs
    (s.homeWrite a.wrote a.p).1.dropAcc a.id
  | .coherent =>
    let d := a.die
    let line := lineOf a.loc
    let s := (s.rekey (s.keyOf a.ctx a.route) a.loc).spoil a.locs
    let s := if homeOf a.loc = d then s.readyOwn d a.loc else s
    let own := homeOf a.loc = d ∨ (s.dirOf line).of d = .m ∨ (s.dirOf line).of d = .e
    let s := if (s.dirOf line).of d = .e then s.setDirDie line d .m else s
    let q := s.storeAt d a.wrote a.p
    let s := (distinct (a.locs.map secOf)).foldl (fun s sec => s.storeL1 d a.core sec a.wrote q.2) q.1
    let s := (s.raiseLct a.team a.tid q.2).mapAcc a.id (fun a =>
      { a with stage := .applied, pkg := decide own, sys := decide own && s.hostOf a.loc == .hi })
    { s with accs := s.accs.filter (fun a => !a.finished) }

/-- Every store of the entry can be applied. -/
def State.canStores (s : State) (a : Acc) : Bool := s.canStore a && (s.mates a).all s.canStore

/-- The stores of an entry applied together, in (issue, TID) order (R125): those that meet an exact sum find it retired
first (R143). -/
def State.applyStores (s : State) (a : Acc) : State :=
  let ms := s.mates a
  let locs := ms.flatMap Acc.locs
  if !(s.sumsAt locs).isEmpty then s.retireAt locs else ms.foldl (fun s b => s.applyStore b) s

/-- STORE_APPLY. -/
def execStoreApply (acc : Nat) (s : State) : Result :=
  .next (match s.acc? acc with
    | some a => if s.canStores a then (s.applyStores a).shutEntry a else s
    | none => s)

/-! ### Loads (R131, R137, R139, R148) -/

/-- A future load waits for the resume command of a condition it met (R355). -/
def State.ldfFaulted (s : State) (a : Acc) : Bool :=
  match (s.thread? a.team a.tid).map Thread.block with
  | some (.ldfFault k _) => k == a.id
  | _ => false

/-- The team of an access runs. -/
def State.teamOn (s : State) (a : Acc) : Bool :=
  match s.team? a.team with
  | some t => t.res == .resident || (match t.res with | .draining _ => true | _ => false)
  | none => false

/-- The thread of a future load that executes stands in a lane of a team that runs, or whose save waits for the load to return or
park (R148, R333). -/
def State.inLane (s : State) (a : Acc) : Bool :=
  ((s.thread? a.team a.tid).bind Thread.place).isSome && !s.ldfFaulted a
  && (s.teamOn a || ((s.team? a.team).map Team.res) == some .saving)

/-- The displacement of an access from its pointer. -/
def Acc.disp (a : Acc) : Int := ((a.buffer % 2 ^ 54 : Nat) : Int) - (fld a.ptr 0 54 : Nat)

/-- A load can be served by the slices it reads. -/
def State.canLoad (s : State) (a : Acc) : Bool :=
  (match a.kind with
    | .load _ => true
    | .ldf => !a.parked && !s.bufferHeld a.ctx (fld a.ptr 54 10) && s.pathFree a.ctx a.ptr a.disp && s.inLane a
    | _ => false)
  && a.stage == .waiting && s.inOrder a
  && (match a.route with
    | .host => true
    | .strm => a.locs.all s.homeUp
    | .coherent => a.locs.all (fun l => s.mayRead a.die l 1 && s.hostOf l != .hm
        && !(a.acquire && decide (6 ≤ a.scope) && s.unpackagedByte a.die l))
    | .remote _ _ => false)
  && (s.sumsAt a.locs).all (fun e => s.homeUp e.loc)

/-- Every load of the entry can be served; a future load that cannot is left behind. -/
def State.canLoads (s : State) (a : Acc) : Bool :=
  s.canLoad a && (s.mates a).all (fun b => b.kind == .ldf || s.canLoad b)

/-- The largest PT of the threads of an entry's loads, and whether one of them reads no L1 copy (R131, R148). -/
def State.entryPt (s : State) (ms : List Acc) : Nat :=
  ms.foldl (fun m b => max m (((s.thread? b.team b.tid).map Thread.pt).getD b.p)) 0
def Acc.fresh (a : Acc) : Bool := a.kind == .ldf || (a.acquire && decide (4 ≤ a.scope))

/-- One 64-byte sector read by the loads of an entry: a copy of the core's L1 while its lease covers PT, which may also have
been evicted, or the L2 sector renewed and its copy placed in the L1 (R118, R131). DESIGN CHOICE (log 25): a sector whose unwritten
bytes the L2 does not hold, which serves loads of its written bytes (R119), leaves no copy in the L1. -/
def State.readSector (s : State) (a : Acc) (ms : List Acc) (sec : Nat) : State × List Byte :=
  let pt := s.entryPt ms
  let fresh := ms.any Acc.fresh
  let raise (s : State) (wts : Nat) : State := ms.foldl (fun s b => s.raisePt b.team b.tid wts) s
  let copy : Option Copy :=
    if fresh then none
    else match sfind (s.die a.die).l1 (a.core * 2 ^ 80 + sec) with
      | some c => if pt ≤ c.rts then some c else none
      | none => none
  let renewed (s : State) : State × List Byte :=
    let s := if homeOf (sec * 64) = a.die then s.fillHome a.die sec else s
    let q := s.renew a.die sec pt a.lease
    let s := if q.2.full then q.1.mapDie a.die (fun D =>
        { D with l1 := sinsert D.l1 (a.core * 2 ^ 80 + sec) ⟨q.2.data, q.2.wts, q.2.rts⟩ }) else q.1
    (raise s q.2.wts, q.2.data)
  match copy with
  | some c =>
    let s' : State := { s with freeCtr := s.freeCtr + 1 }
    if Config.freeChoice s.freeCtr % 2 = 0 then (raise s' c.wts, c.data) else renewed s'
  | none => renewed s

/-- Every sector that the loads of an entry need, in ascending order: one copy for all of them (R124). -/
def State.readSectors (s : State) (a : Acc) (ms : List Acc) : State × List (Nat × List Byte) :=
  let secs := ((ms.flatMap Acc.locs).map secOf).foldl (fun l x => insertNat x l) []
  secs.foldl (fun q sec =>
    match a.route with
    | .coherent =>
      let r := q.1.readSector a ms sec
      (r.1, q.2 ++ [(sec, r.2)])
    | .host => (q.1, q.2 ++ [(sec, bytesAt q.1.mem (sec * 64) 64)])
    | _ => ((q.1.noteStrm (sec * 64)).homeTouch sec, q.2 ++ [(sec, q.1.truthBytes (sec * 64) 64)])) (s, [])

/-- Bytes at a location among sectors read, under the context's key (R388). -/
def State.fromSectors (s : State) (key : Nat) (xs : List (Nat × List Byte)) (loc n : Nat) : List Byte :=
  (upto n).map (fun k =>
    match xs.find? (fun x => x.1 == secOf (loc + k)) with
    | some x => (s.viewLine key x.1 x.2).getD ((loc + k) % 64) 0
    | none => 0)

/-- FP16 elements packed two to a register (R66, Table 5-4). -/
def packHalves (hs : List Nat) : List Word :=
  (upto (ceilDiv hs.length 2)).map (fun k => BitVec.ofNat 32 (hs.getD (2 * k) 0 + hs.getD (2 * k + 1) 0 * 65536))

/-- Registers from the bytes a load read and the headers of its elements (R115, R213). -/
def loadWords (shape : Shape) (bs : List Byte) (hdrs : List Nat) : List Word :=
  match shape with
  | .dx fmt _ =>
    packHalves ((upto hdrs.length).map (fun k =>
      let b := bs.getD (if fmt = 1 then k else k / 2) 0
      dxHalf fmt (hdrs.getD k 0) (elementCode fmt b k)))
  | sh => plainWords sh bs

/-- A line parked in the wait table of the slice that read it (R148, R149). DESIGN CHOICE (log 25): host memory has no slice of the
package, so a future load there executes again every 128 cycles, as one on another device does. -/
def State.tableTakes (s : State) (a : Acc) : Bool :=
  let slice (b : Acc) : Nat := if b.route = .strm then homeOf b.loc else b.die
  let here := s.accs.filter (fun b => b.inTable && slice b == slice a)
  a.route != .host && (here.any (fun b => secOf b.loc == secOf a.loc)
    || decide ((distinct (here.map (fun b => secOf b.loc))).length < Config.waitEntries))

/-- A future load executes again whole: its address is checked and translated as the tables then stand (R148, R346). -/
def State.refind (s : State) (a : Acc) : Except Cond Acc :=
  match a.kind with
  | .ldf =>
    match s.target a.ctx (((s.launch? a.launch).map Launch.slot).getD 0) a.ptr a.disp 8 8 .load with
    | .ok x => .ok { a with loc := x.loc, route := x.route, aux := BitVec.ofNat 64 x.va }
    | .error e => .error e
  | _ => .ok a

/-- A load's value fixed, from the sectors read, and on its way to its registers; a future load whose word is not full
parks. -/
def State.takeLoad (s : State) (read : List (Nat × List Byte)) (a : Acc) : State :=
  let key := s.keyOf a.ctx a.route
  let raw := s.fromSectors key read a.loc a.size
  let bs := s.maskCombine a.loc raw
  let s : State := if bs = raw then s else { s with freeCtr := s.freeCtr + 1 }
  match a.kind with
  | .load sh =>
    s.land a (loadWords sh bs ((match sh with | .dx _ hs => hs | _ => []).map (fun h =>
      ofBytes (s.fromSectors key read h 2))))
  | _ =>
    if 2 ^ 63 ≤ ofBytes bs then s.land a (plainWords .words bs)
    else s.mapAcc a.id (fun b => { b with parked := true, inTable := s.tableTakes a, since := s.cycle, shut := true })

/-- Loads of one entry performed together (R124): those that meet an exact sum find it retired first (R143). -/
def State.performLoads (s : State) (a : Acc) (ms : List Acc) : State :=
  let locs := ms.flatMap Acc.locs
  if !(s.sumsAt locs).isEmpty then s.retireAt locs
  else
    let q := s.readSectors a ms
    ms.foldl (fun s b => s.takeLoad q.2 b) q.1

/-- A load that waits, as it executes now: a future load at another place than it was takes its new place, one whose checks
fail or whose line is marked takes the condition. -/
def State.settleLoad (s : State) (a : Acc) : State × List Acc :=
  match s.refind a with
  | .error e => ((s.noteRefused a.ctx a.ptr a.disp e.code).lateRaise a e.code e.aux false, [])
  | .ok b =>
    let s := if a.kind = .ldf then s.noteUse a.ctx a.ptr a.disp else s
    if b.loc = a.loc ∧ b.route = a.route then
      match a.kind, s.locError a.locs with
      | .ldf, some c => (s.lateRaise a c b.aux false, [])
      | _, _ => (s, [b])
    else (s.mapAcc a.id (fun _ => b), [])

/-- The loads of an entry executed. -/
def State.applyLoads (s : State) (a : Acc) : State :=
  let ms := (s.mates a).filter (fun b => b.kind != .ldf || s.canLoad b)
  let q := ms.foldl (fun (q : State × List Acc) b =>
    let r := q.1.settleLoad b
    (r.1, q.2 ++ r.2)) (s, [])
  if q.2.isEmpty then q.1 else q.1.performLoads a q.2

/-- LOAD_RENEW. -/
def execLoadRenew (acc : Nat) (s : State) : Result :=
  .next (match s.acc? acc with
    | some a => if s.canLoads a then (s.applyLoads a).shutEntry a else s
    | none => s)

/-- A future load parked without a wait-table entry executes again after 128 cycles (R149), but where its team is being saved
(R333). -/
def State.canRetry (s : State) (a : Acc) : Bool :=
  a.kind == .ldf && a.parked && !a.inTable && decide (a.since + 128 ≤ s.cycle) && s.teamOn a && !s.ldfFaulted a

/-- LDF_RETRY. -/
def execLdfRetry (acc : Nat) (s : State) : Result :=
  .next (match s.acc? acc with
    | some a => if s.canRetry a then s.mapAcc acc (fun b => { b with parked := false }) else s
    | none => s)

/-! ### Atomics, reductions and claims (R140 to R143, R222) -/

/-- The new value of an atomic; none when nothing is written (R222). Types as in `atomWidth`. -/
def atomicNew (op typ old a b : Nat) : Option Nat :=
  let n := atomWidth typ
  let sgn := typ == 0 || typ == 2
  if typ = 4 then
    some (if op = 0 then faddBits f32 .rn old a else if op = 1 then fminBits f32 old a else fmaxBits f32 old a)
  else
    match op with
    | 0 => some ((old + a) % 2 ^ n)
    | 1 => some (if readInt sgn n a < readInt sgn n old then a else old)
    | 2 => some (if readInt sgn n old < readInt sgn n a then a else old)
    | 3 => some (old &&& a)
    | 4 => some (old ||| a)
    | 5 => some (old ^^^ a)
    | 6 => some a
    | _ => if old = a then some b else none

/-- An access performed at the home slice can be applied: other dies' ownership recalled, no host copy (R140, R365,
R368); no byte it touches is one of a store of its thread's die that is not package-performed, which threads there may have
read (R129, R137). -/
def State.canHome (s : State) (a : Acc) : Bool :=
  a.stage == .waiting && s.inOrder a
  && (match a.route with
    | .host => true
    | .remote _ _ => false
    | .strm => s.homeUp a.loc
    | .coherent => s.homeUp a.loc && s.hostOf a.loc == .hi
        && (match (s.dirOf (lineOf a.loc)).owner with | some y => y == homeOf a.loc | none => true)
        && a.locs.all (fun l => !s.unpackagedByte a.die l))

/-- A read-modify-write at the home slice: the state, the old bytes, the write time or, when nothing is written, the
sector's. It writes under R132: the copy of its thread's core takes the value, other cores' copies stay (R141). -/
def State.modifyHome (s : State) (a : Acc) (f : Nat → Option Nat) : State × List Byte × Nat :=
  match a.route with
  | .host =>
    let old := bytesAt s.mem a.loc a.size
    match f (ofBytes old) with
    | some v => (s.putHost (wholeWrites a.loc (toBytes v a.size)), old, 0)
    | none => (s, old, 0)
  | _ =>
    let d := homeOf a.loc
    let key := s.keyOf a.ctx a.route
    let raw := s.keyedBytes key d a.loc a.size
    let old := s.maskCombine a.loc raw
    let s : State := if old = raw then s else { s with freeCtr := s.freeCtr + 1 }
    let s := if a.route = .strm then s.noteStrm a.loc else s
    match f (ofBytes old) with
    | some v =>
      let q := (((s.homeTouch (secOf a.loc)).rekey key a.loc).spoil a.locs).homeWrite (wholeWrites a.loc (toBytes v a.size)) a.p
      (if a.die = d then q.1.storeL1 d a.core (secOf a.loc) (wholeWrites a.loc (toBytes v a.size)) q.2 else q.1, old, q.2)
    | none =>
      let s := s.readyRead d a.loc
      (s, old, ((s.sector d (secOf a.loc)).map Sector.wts).getD 0)

/-- The low n bits of an operand. -/
def lowBits (typ : Nat) (x : DWord) : Nat := x.toNat % 2 ^ atomWidth typ

/-! ### Accesses in flight as a line is marked (R348, R370, R386) -/

/-- Bytes as an access would find them, under the writes of accesses before it. -/
def State.flushBytes (s : State) (under : List (Nat × Byte)) (a : Acc) (loc n : Nat) : List Byte :=
  let d := match a.route with | .coherent => a.die | _ => homeOf loc
  (upto n).map (fun k =>
    match under.find? (fun e => e.1 == loc + k) with
    | some e => e.2
    | none => (s.keyedBytes (s.keyOf a.ctx a.route) d (loc + k) 1).getD 0 0)

/-- An access that has passed its checks, performed just before its line is marked: what it writes is lost with the line,
what it reads is the line's value till then. -/
def State.flushAcc (q : State × List (Nat × Byte)) (a : Acc) : State × List (Nat × Byte) :=
  let bytes := q.1.flushBytes q.2 a
  let put (loc : Nat) (bs : List Byte) : List (Nat × Byte) := (upto bs.length).map (fun k => (loc + k, bs.getD k 0)) ++ q.2
  let old := bytes a.loc a.size
  let made (f : Nat → Option Nat) : List (Nat × Byte) :=
    match f (ofBytes old) with | some v => put a.loc (toBytes v a.size) | none => q.2
  match a.kind with
  | .load sh =>
    (q.1.land a (loadWords sh old ((match sh with | .dx _ hs => hs | _ => []).map (fun h => ofBytes (bytes h 2)))), q.2)
  | .ldf => if 2 ^ 63 ≤ ofBytes old then (q.1.land a (plainWords .words old), q.2) else q
  | .store =>
    (q.1.dropAcc a.id, a.wrote.map (fun w => (w.1, mergeByte ((bytes w.1 1).getD 0 0) w.2.1 w.2.2)) ++ q.2)
  | .atomic op typ x y =>
    (q.1.land a (plainWords .words old),
      made (fun v => atomicNew op typ v (lowBits typ x) (lowBits typ y)))
  | .reduce op typ x => (q.1.dropAcc a.id, made (fun v => atomicNew op typ v (lowBits typ x) 0))
  | .unord w => (q.1.dropAcc a.id, made (fun v => atomicNew 0 4 v w.toNat 0))
  | .claim => q
  | .block _ _ => q

/-- The accesses in flight to sectors that are about to be marked take their place before the marking, so that every
condition of a thread stays precise (R348; DEDUCED, log 20). -/
def State.flush (s : State) (marked : Nat → Bool) : State :=
  ((s.accs.filter (fun a => a.stage == .waiting && !a.parked && a.locs.any (fun l => marked (secOf l)))).foldl
    State.flushAcc (s, [])).1

/-- A memory line poisoned (R386). -/
def State.poisonLine (s : State) (loc : Nat) : State :=
  let s := s.flush (fun x => x == secOf loc)
  { s with poison := insertNat (secOf loc) s.poison }.countPoison loc

/-! ### Accesses at the home slice -/

/-- ATOMIC_APPLY: PT and LCT take the write time; a failed CAS takes the sector's into PT (R141, R222). -/
def execAtomicApply (acc : Nat) (s : State) : Result :=
  .next (match s.acc? acc with
    | some a =>
      match a.kind with
      | .atomic op typ x y =>
        if s.canHome a then
          if !(s.sumsAt a.locs).isEmpty then s.retireAt a.locs
          else
            let q := s.modifyHome a (fun old => atomicNew op typ old (lowBits typ x) (lowBits typ y))
            let wrote := (atomicNew op typ (ofBytes q.2.1) (lowBits typ x) (lowBits typ y)).isSome
            let s := q.1.raisePt a.team a.tid q.2.2
            ((if wrote then s.raiseLct a.team a.tid q.2.2 else s).land a (plainWords .words q.2.1)).shutEntry a
        else s
      | _ => s
    | none => s)

/-- A .UNORD add accepted: it joins its location's exact sum, in host memory too (Table 6-4), and takes a write time as a
store does. Its thread's core keeps no copy that would hide it (DEDUCED, log 11). -/
def State.acceptUnord (s : State) (a : Acc) (w : Word) : State × Nat :=
  if hostBase ≤ a.loc then (s.addSum a.launch a.ctx a.loc w, 0)
  else
    let d := homeOf a.loc
    let s := if a.route = .strm then s.noteStrm a.loc else s
    let s := (s.rekey (s.keyOf a.ctx a.route) a.loc).spoil a.locs
    let s := ((s.readyOwn d a.loc).fillHome d (secOf a.loc)).addSum a.launch a.ctx a.loc w
    (s.mapDie d (fun D => { D with l1 := if a.die = d then serase D.l1 (a.core * 2 ^ 80 + secOf a.loc) else D.l1 })).storeSector d
      (secOf a.loc) [] a.p

/-- REDUCTION_ACCEPT: applied at acceptance in arrival order (R140 to R143). -/
def execReductionAccept (acc : Nat) (s : State) : Result :=
  .next (match s.acc? acc with
    | some a =>
      match a.kind with
      | .reduce op typ x =>
        if s.canHome a then
          if !(s.sumsAt a.locs).isEmpty then s.retireAt a.locs
          else
            let q := s.modifyHome a (fun old => atomicNew op typ old (lowBits typ x) 0)
            ((q.1.raiseLct a.team a.tid q.2.2).dropAcc acc).shutEntry a
        else s
      | .unord w =>
        if s.canHome a then
          let q := s.acceptUnord a w
          ((q.1.raiseLct a.team a.tid q.2).dropAcc acc).shutEntry a
        else s
      | _ => s
    | none => s)

/-- The answer of a request reaches its thread. -/
def State.answerThread (s : State) (a : Acc) (w : Answer) : State :=
  (s.dropAcc a.id).mapThread a.team a.tid (fun x =>
    if x.asked = some a.id then { x with asked := none, answer := some w } else x)

def State.canClaim (s : State) (a : Acc) : Bool := a.isClaim && s.homeUp a.loc

/-- EXACT_SUM_CLAIM (R143). -/
def execExactSumClaim (acc : Nat) (s : State) : Result :=
  .next (match s.acc? acc with
    | some a =>
      if s.canClaim a then
        if (s.sumAt a.loc).isSome then s.answerThread a ⟨a.pc, 0, [], false, a.loc⟩
        else if s.sumRoom a.loc then
          (s.mapSums a.loc (fun l => l ++ [⟨a.loc, false, 0, none, a.launch, a.ctx⟩])).answerThread a ⟨a.pc, 0, [], false, a.loc⟩
        else s.answerThread a ⟨a.pc, 0x24, [], false, a.loc⟩
      else s
    | none => s)

/-! ### The directory (R137, R364 to R367) -/

/-- The home slice of a line can apply a request: the die runs, no line data is on its way, the host holds it not
modified. -/
def State.dirReady (s : State) (line : Nat) : Bool :=
  decide (line * 256 < hostBase) && (s.die (lineHome line)).state == 1 && s.fills.all (fun f => f.line != line)
  && (s.dirOf line).host != .hm && s.hasRoom line

/-- A load of the die waits for data of the line. -/
def State.wantsLine (s : State) (d line : Nat) : Bool :=
  s.accs.any (fun a => a.die == d && a.stage == .waiting && a.route == .coherent && !a.parked
    && (match a.kind with | .load _ => true | .ldf => true | _ => false)
    && a.locs.any (fun l => lineOf l == line && !s.mayRead d l 1))

def State.canReadMiss (s : State) (d line : Nat) : Bool :=
  lineHome line != d && s.dirReady line && (s.dirOf line).of d == .i && s.wantsLine d line

/-- DIR_READ_MISS. -/
def execDirReadMiss (die line : Nat) (s : State) : Result :=
  .next (if s.canReadMiss die line then s.applyReadMiss die line else s)

def State.canOwn (s : State) (d line : Nat) : Bool :=
  lineHome line != d && s.dirReady line && s.unpackaged d line

/-- DIR_WRITE_OWNERSHIP. -/
def execDirWriteOwnership (die line : Nat) (s : State) : Result :=
  .next (if s.canOwn die line then s.applyOwn die line else s)

/-- An access needs the home slice to recall the die that owns the line. -/
def State.canRecall (s : State) (line : Nat) : Bool :=
  decide (line * 256 < hostBase) && (s.die (lineHome line)).state == 1
  && (match (s.dirOf line).owner with | some y => y != lineHome line | none => false)
  && s.accs.any (fun a => a.stage == .waiting && a.route == .coherent && a.locs.any (fun l => lineOf l == line)
      && (a.atHome || a.die == lineHome line))

/-- DIR_HOME_ACCESS. -/
def execDirHomeAccess (line : Nat) (s : State) : Result := .next (if s.canRecall line then s.homeRecall line else s)

/-- The die's L2 holds nothing of a line that the directory records for it. -/
def State.canNotice (s : State) (d line : Nat) : Bool :=
  lineHome line != d && (s.die (lineHome line)).state == 1 && (s.dirOf line).of d != .i
  && (upto 4).all (fun k => (s.sector d (line * 4 + k)).isNone) && s.fills.all (fun f => !(f.die == d && f.line == line))

/-- DIR_EVICTION: the notice reaches the directory; written bytes went back when the line left (R365). -/
def execDirEviction (die line : Nat) (s : State) : Result :=
  .next (if s.canNotice die line then s.setDirDie line die .i else s)

/-- Line data on its way to a die. -/
def State.fillFor (s : State) (d line : Nat) : Option Fill := s.fills.find? (fun f => f.die == d && f.line == line)

/-- LINE_DATA_RECEIVE. A die left in E with stores that wait owns the line: it merges them and is M (R364). -/
def execLineDataReceive (die line : Nat) (s : State) : Result :=
  .next (match s.fillFor die line with
    | some f =>
      let s := (s.receive f).dropFills die line
      let dirty := (upto 4).any (fun k => (s.sector die (line * 4 + k)).any (fun x => x.dirty))
      if (s.dirOf line).of die = .e ∧ dirty then s.setDirDie line die .m else s
    | none => s)

/-- Stores of a die to a line wait for a grant that has come: the L2 owns the line, or their bytes have gone back to
memory under that ownership. -/
def State.canGrant (s : State) (d line : Nat) : Bool :=
  s.accs.any (fun a => a.stage == .applied && a.die == d && !a.pkg && lineOf a.loc == line)
  && !s.unpackaged d line && (s.fillFor d line).isNone

/-- WRITE_OWNERSHIP_GRANT (R137). -/
def execWriteOwnershipGrant (die line : Nat) (s : State) : Result :=
  .next (if s.canGrant die line then s.packageLine die line else s)

def State.canEvict (s : State) (d line : Nat) : Bool :=
  (upto 4).any (fun k => (s.sector d (line * 4 + k)).isSome) && !s.unpackaged d line
  && (s.fillFor d line).isNone

/-- L2_EVICTION (R119, R120): parked future loads on the line execute again. -/
def execL2Eviction (die line : Nat) (s : State) : Result :=
  .next (if s.canEvict die line then (s.evictLine die line).wakeLine die line else s)

/-! ### The host (R368) -/

/-- Bytes the host gives back for a line go to the home slice, under no key (R388). -/
def State.hostReturns (s : State) (line : Nat) (data : Option (List Byte)) : State :=
  match data with
  | some bs =>
    if bs.length = 256 then
      let ws := (wholeWrites (line * 256) bs).filter (fun w => (s.memError w.1 1).isNone)
      let s := (s.rekeyAll 0 (ws.map Prod.fst)).spoil (ws.map Prod.fst)
      (s.homeWrite ws 0).1
    else s
  | none => s

def State.canSnoop (s : State) (line : Nat) : Bool :=
  decide (line * 256 < hostBase) && (s.dirOf line).host != .hi && (s.die (lineHome line)).state == 1

/-- BACK_INVALIDATE_RESPONSE: a host in HM returns its data. -/
def execBackInvalidateResponse (line : Nat) (data : Option (List Byte)) (s : State) : Result :=
  .next (if s.canSnoop line then
      (if (s.dirOf line).host = .hm then s.hostReturns line data else s).hostGone line
    else s)

/-- The line of a die physical address, when the device serves the host there. -/
def State.hostLine (s : State) (die dpa : Nat) : Option Nat :=
  if s.fwState = 2 ∧ (s.die die).present ∧ dpa < Config.capacity die then some (lineOf (dpaLoc die dpa)) else none

def lineLocs (line : Nat) : List Nat := (upto 256).map (fun k => line * 256 + k)

/-- HOST_CACHE_REQUEST. A marked line reaches the host as poison, with no state; a line of a STRM page takes none, and the host may
keep what it has read (R122, R368). -/
def execHostCacheRequest (die dpa : Nat) (own : Bool) (s : State) : Result :=
  .next (match s.hostLine die dpa with
    | some line =>
      if s.dirReady line then
        if (s.locError (lineLocs line)).isSome then s
        else if s.strmLine line then { s.retireAt (lineLocs line) with strm := insertNat line s.strm }
        else
          let s : State := { s.retireAt (lineLocs line) with strm := s.strm.filter (fun l => decide (l ≠ line)) }
          if own then ((s.makeRoom line).homeOwn line).setHost line .hm
          else
            let s := s.makeRoom line
            (match (s.dirOf line).owner with | some y => s.downgrade y line | none => s).setHost line .hs
      else s
    | none => s)

/-- HOST_CACHE_EVICTION. -/
def execHostCacheEviction (die dpa : Nat) (data : Option (List Byte)) (s : State) : Result :=
  .next (match s.hostLine die dpa with
    | some line =>
      if s.canSnoop line then
        (if (s.dirOf line).host = .hm then s.hostReturns line data else s).hostGone line
      else if s.strm.contains line then
        s.hostReturns line data |> fun s' => { s' with strm := s'.strm.filter (fun l => decide (l ≠ line)) }
      else s
    | none => s)

/-- An uncached host write to memory (R368): each line as a store at its home slice; a marked line is not written. -/
def State.hostPut (s : State) (die dpa : Nat) (bs : List Byte) : State :=
  let ws := (upto bs.length).map (fun k => (dpaLoc die (dpa + k), bs.getD k 0, (0xFF : Byte)))
  let ws := ws.filter (fun w => (s.memError w.1 1).isNone)
  let s := s.retireAt (ws.map Prod.fst)
  let s := (s.rekeyAll 0 (ws.map Prod.fst)).spoil (ws.map Prod.fst)
  (s.homeWrite ws 0).1

/-- The home slices that a host access to memory needs can take it. -/
def State.hostMay (s : State) (die dpa n : Nat) : Bool :=
  s.fwState == 2 && (s.die die).present && (s.die die).state == 1 && decide (dpa + n ≤ Config.capacity die)

/-- HOST_READ: an E or M die is downgraded; sums retire. What the host reads is the host's. -/
def execHostRead (at_ : HostPlace) (count : Nat) (s : State) : Result :=
  .next (match at_ with
    | .memory die dpa =>
      if s.hostMay die dpa count then
        let locs := (upto count).map (fun k => dpaLoc die (dpa + k))
        let s := s.retireAt locs
        ((distinct (locs.map lineOf)).foldl (fun s line =>
          match (s.dirOf line).owner with | some y => s.downgrade y line | none => s) s).touchAll locs
      else s
    | .window _ => s)

/-! ### Time rebase (R136) -/

/-- No store of the die is in flight. -/
def State.storesQuiet (s : State) (d : Nat) : Bool := s.accs.all (fun a => !(a.die == d && a.stores && a.stage == .waiting))

def State.canRebase (s : State) (d : Nat) : Bool := decide (2 ^ 47 ≤ (s.die d).hwm) && s.storesQuiet d

/-- A home sheaf's write times after a rebase. -/
def Sheaf.rebased (f : Sheaf) : Sheaf :=
  { f with tokenW := [], out := f.out.map (fun o => { o with wts := 0 }), topW := [0, 0, 0, 0] }

/-- TIME_REBASE: every L1 copy removed, every time of the die 0, those that an operation brings to its completion among them. -/
def execTimeRebase (die : Nat) (s : State) : Result :=
  .next (if s.canRebase die then
      let s := s.mapDie die (fun D =>
        { D with hwm := 0, l1 := [], l2 := D.l2.map (fun r => (r.1, { r.2 with wts := 0, rts := 0 })) })
      { s with
        teams := s.teams.map (fun t => if t.die = die then
            { t with threads := t.threads.map (fun x => { x with pt := 0, lct := 0 }),
                     sheaves := t.sheaves.map Sheaf.rebased }
          else t),
        accs := s.accs.map (fun a => if a.die = die then { a with p := 0 } else a),
        ops := s.ops.map (fun o => if o.die = die then { o with p := 0, wts := 0, final := o.final.map (fun v => (v.1, 0)) } else o) }
    else s)

end Sys2Proof.Machine
end

