-- ==== Sys2Proof/Machine/Domain.lean ====
section
/-! DEFINITION. The Duette domain: requests of other devices at this one, their answers to this device's requests, lost
routes, link bring-up (16 R373 to R375, 17 R389). The forms of the messages are the model's (log 1). -/

namespace Sys2Proof.Machine

/-! ### Requests of other devices (R374) -/

/-- Conditions another device can return. -/
def remoteCodes : List Nat := [0x10, 0x11, 0x12, 0x13, 0x14, 0x18, 0x19, 0x1A, 0x1C, 0x1D, 0x24, 0x30, 0x31]

def remoteAccess : RemoteKind → AKind
  | .load => .load
  | .future => .load
  | .store _ => .store
  | .block _ _ => .store
  | .atomic _ _ _ _ => .atom
  | .reduce _ _ _ => .red
  | .unord _ => .red

/-- A request of a form that exists: an aligned size, data and operation to fit it. -/
def remoteForm (r : RemoteRequest) : Bool :=
  (match r.kind with
    | .load => r.size == 1 || r.size == 2 || r.size == 4 || r.size == 8 || r.size == 16
    | .store bs => (r.size == 1 || r.size == 2 || r.size == 4 || r.size == 8 || r.size == 16) && bs.length == r.size
    | .atomic op typ _ _ => decide (typ ≤ 4) && decide (op < 8) && r.size == atomWidth typ / 8
    | .reduce op typ _ => decide (typ ≤ 4) && decide (op < 8) && r.size == atomWidth typ / 8
    | .unord _ => r.size == 4
    | .future => r.size == 8
    | .block gap values => r.size == 2 && decide (gap < 4) && values.length == 32)
  && decide (r.va < 2 ^ 54)

/-- Where row e of the export table stands: die and address. -/
def State.exptabPlace (s : State) (e : Nat) : Nat × Nat := (fld s.expBase 56 2, fld s.expBase 0 54 + 16 * e)

/-- A row of the table at EXPBASE (Table 16-7): its two words. -/
def State.exptabRow (s : State) (e : Nat) : DWord × DWord :=
  let p := s.exptabPlace e
  (s.dpaWord p.1 p.2, s.dpaWord p.1 (p.2 + 8))

/-- Rights an entry grants, as those of Table 5-2. -/
def exptabCovers (w : DWord) : AKind → Bool
  | .load => bit w 48
  | .store => bit w 49
  | .atom => bit w 50 && bit w 48 && bit w 49
  | .red => bit w 50 && bit w 49
  | .fetch => false

/-- The first two checks of R374: the row that admits the request, or the condition returned. A row on a marked line is not
read (R370, R386; DEDUCED, log 20). -/
def State.exportOf (s : State) (r : RemoteRequest) : Except Nat DWord :=
  let e := r.va / 2 ^ 42
  let p := s.exptabPlace e
  let w := s.exptabRow e
  if !bit s.domain0 63 || decide (fld s.expN 0 13 ≤ e) then .error 0x11
  else
    match s.dpaError p.1 p.2 16 with
    | some c => .error c
    | none =>
      if !bit w.1 63 || !(bit w.1 62 || fld w.1 32 11 == r.device)
          || w.2 != 0 || fld w.1 51 11 != 0 || fld w.1 43 5 != 0 || fld w.1 22 10 != 0 || fld w.1 10 6 != 0 then .error 0x11
      else if !exptabCovers w.1 (remoteAccess r.kind) then .error 0x12
      else .ok w.1

/-- Pointer of the exported buffer, with the remote offset as a displacement. -/
def exportPtr (w : DWord) : DWord := BitVec.ofNat 64 (fld w 0 10 * 2 ^ 54)
def exportOff (r : RemoteRequest) : Int := ((r.va % 2 ^ 42 : Nat) : Int)

/-- A request past its checks: the context, where it goes, how a load reads its page, what a store writes. -/
structure Served where
  ctx : Nat
  place : Target
  shape : Shape
  writes : List (Nat × Byte × Byte)
deriving DecidableEq, Repr

/-- The access a request makes as one of the exporting context: the checks of R211 to R218 and R220 for its kind. -/
def State.servedAs (s : State) (r : RemoteRequest) (ctx : Nat) (ptr : DWord) : Except Nat Served :=
  match r.kind with
  | .block gap values =>
    match s.stbWrites ctx 0 ptr (exportOff r) gap (values.map (fun v => unpack f32 v.toNat)) with
    | .error c => .error c.code
    | .ok (x, ws) => .ok ⟨ctx, x, .zero, ws⟩
  | _ =>
    match s.target ctx 0 ptr (exportOff r) r.size r.size (remoteAccess r.kind) with
    | .error c => .error c.code
    | .ok x =>
      match (match r.kind with
        | .load => loadShape x r.size .zero 0 ptr
        | .future => if x.format.isSome then .error ⟨0x1C, 0⟩ else .ok (.zero, 2)
        | _ => if x.format.isSome then .error ⟨0x1D, 0⟩ else .ok (.zero, 0)) with
      | .error c => .error c.code
      | .ok (sh, _) =>
        match s.errorAt x.loc r.size (shapeLocs sh) with
        | some c => .error c
        | none => .ok ⟨ctx, x, sh, match r.kind with | .store bs => wholeWrites x.loc bs | _ => []⟩

/-- The checks of R374 in their order, or the condition returned. DEDUCED (log 20): a context that is not valid has no
valid buffer. -/
def State.exptabCheck (s : State) (r : RemoteRequest) : Except Nat Served :=
  match s.exportOf r with
  | .error c => .error c
  | .ok w =>
    let ctx := fld w 16 6
    let buf := fld w 0 10
    let d := s.descOf ctx buf
    if !(s.ctx ctx).valid then .error 0x10
    else
      match s.descError ctx buf with
      | some c => .error c
      | none =>
        if descInvalid (s.ctx ctx) d then .error 0x10
        else if dOkind d ≠ 0 then .error 0x11
        else s.servedAs r ctx (exportPtr w)

/-- An access of another device as one made here for the context, by no core of this device. -/
def remoteAcc (s : State) (r : RemoteRequest) (v : Served) : Acc :=
  { id := 0, entry := 0, team := 0, tid := 0, ctx := v.ctx, launch := 0, die := homeOf v.place.loc, core := 2 ^ 16, pc := 0, rp := 0,
    kind := match r.kind with
      | .load => .load v.shape
      | .future => .load .words
      | .store _ => .store
      | .block _ _ => .store
      | .atomic op typ a b => .atomic op typ a b
      | .reduce op typ a => .reduce op typ a
      | .unord a => .unord a,
    route := v.place.route, loc := v.place.loc, size := r.size, scope := 8, acquire := false, release := false, p := 0,
    lease := (s.ctx v.ctx).lease, wrote := v.writes, dest := [], aux := 0, buffer := 0, ptr := 0, stage := .waiting, pkg := false,
    sys := false, parked := false, inTable := false, since := s.cycle, shut := false }

/-- The home slice takes the request's access to a location: its die runs, no host cache stands in the way, and an entry of
the directory can be made (R367 to R369). -/
def State.remoteMay (s : State) (a : Acc) (loc : Nat) : Bool :=
  a.route == .host
  || (s.homeUp loc && s.hasRoom (lineOf loc) && (a.route == .strm || s.hostOf loc == .hi || (!a.stores && s.hostOf loc == .hs)))

/-- A request can be taken now: the slices serve the row, the descriptor and the walk, its buffer is not held by a
migration, its home slices take it (R368, R369, R372). A request that will be refused is taken at once. -/
def State.remoteReady (s : State) (r : RemoteRequest) : Bool :=
  let p := s.exptabPlace (r.va / 2 ^ 42)
  !remoteForm r || (s.slicesFree (dpaLocs p.1 p.2 16) && (match s.exportOf r with
    | .error _ => true
    | .ok w =>
      s.pathFree (fld w 16 6) (exportPtr w) (exportOff r) && (match s.exptabCheck r with
        | .error _ => true
        | .ok v => !s.bufferHeld v.ctx (fld w 0 10)
            && (let a := remoteAcc s r v; a.locs.all (s.remoteMay a)))))

/-- Bytes a load of another device returns: as they stand, or the two bytes of each decoded element (R115, R214). -/
def State.servedBytes (s : State) (a : Acc) : List Byte :=
  let read (loc n : Nat) : List Byte := s.keyedBytes (s.keyOf a.ctx a.route) (homeOf loc) loc n
  let bs := s.maskCombine a.loc (read a.loc a.size)
  match a.kind with
  | .load (.dx fmt hs) =>
    ((loadWords (.dx fmt hs) bs (hs.map (fun h => ofBytes (read h 2)))).flatMap (fun w => toBytes w.toNat 4)).take (2 * hs.length)
  | _ => bs

/-- A request checked and performed at the home slices, with its answer: what it loads, the old value of an atomic, an
acknowledgement, a condition (R138, R140, R374). -/
def State.serve (s : State) (r : RemoteRequest) : State × RemoteReply :=
  match s.exportOf r, s.exptabCheck r with
  | .ok w, .ok v =>
    let a := remoteAcc s r v
    let p := s.exptabPlace (r.va / 2 ^ 42)
    let s := (s.noteUse v.ctx (exportPtr w) (exportOff r)).touchAll (dpaLocs p.1 p.2 16)
    let s : State := match r.kind with | .unord _ => s | _ => s.retireAt a.locs
    let s := if a.route = .strm then s.noteStrm a.loc else s
    let at_ (s : State) : State := a.locs.foldl (fun s l => s.readyRead (homeOf l) l) s
    match r.kind with
    | .load => (at_ s, .value ((at_ s).servedBytes a))
    | .future => (at_ s, .value ((at_ s).servedBytes a))
    | .store _ => (((s.rekeyAll (s.keyOf v.ctx a.route) a.locs).spoil a.locs |>.homeWrite a.wrote 0).1, .done)
    | .block _ _ => (((s.rekeyAll (s.keyOf v.ctx a.route) a.locs).spoil a.locs |>.homeWrite a.wrote 0).1, .done)
    | .atomic op typ p q =>
      let m := s.modifyHome a (fun old => atomicNew op typ old (lowBits typ p) (lowBits typ q))
      (m.1, .value m.2.1)
    | .reduce op typ p => ((s.modifyHome a (fun old => atomicNew op typ old (lowBits typ p) 0)).1, .done)
    | .unord x =>
      if hostBase ≤ a.loc ∨ (s.sumAt a.loc).isSome ∨ s.sumRoom a.loc then ((s.acceptUnord a x).1, .done)
      else (s, .condition 0x24)
  | .error c, _ => (s, .condition c)
  | .ok w, .error c =>
    (if (s.ctx (fld w 16 6)).valid then s.noteRefused (fld w 16 6) (exportPtr w) (exportOff r) c else s, .condition c)

/-- REMOTE_ACCESS_REQUEST: its answer goes to the other device (R374). -/
def execRemoteAccessRequest (r : RemoteRequest) (s : State) : Result :=
  .next (if !remoteForm r ∨ !s.remoteReady r then s else (s.serve r).1)

/-! ### Answers to this device's requests (R375) -/

/-- An access of a thread that another device is to perform. -/
def Acc.asksRemote (a : Acc) : Bool :=
  !a.parked && a.stage == .waiting && (match a.route with | .remote _ _ => true | _ => false)

def Acc.device (a : Acc) : Nat := match a.route with | .remote d _ => d | _ => 0

/-- The request goes out: the thread's earlier accesses stand where R134 asks. -/
def State.asks (s : State) (a : Acc) : Bool := a.asksRemote && s.inOrder a && (a.kind != .ldf || s.inLane a)

/-- Lengths of the data of a load of some size: its bytes, or the decoded elements of a DX page (Table 5-4). -/
def loadLengths (size : Nat) : List Nat :=
  [size] ++ (if size = 1 then [2, 4] else if size = 2 then [4, 8] else if size = 4 then [8] else [])

/-- An answer that fits the access. -/
def Acc.fits (a : Acc) : RemoteReply → Bool
  | .value bs => a.loads && (match a.kind with
      | .load _ => (loadLengths a.size).contains bs.length
      | _ => bs.length == a.size)
  | .done => !a.loads
  | .condition c => remoteCodes.contains c

/-- The access was made by a thread that waits for it before going past the word; otherwise it is a future load executed
again. -/
def State.isAsked (s : State) (a : Acc) : Bool := ((s.thread? a.team a.tid).map (fun x => x.asked == some a.id)).getD false

/-- The answer to an access of a thread: `local` for a condition raised on this device. -/
def State.threadReply (s : State) (a : Acc) (reply : RemoteReply) (remote : Bool) : State :=
  if s.isAsked a then
    match reply with
    | .value bs => s.answerThread a ⟨a.pc, 0, bs, false, 0⟩
    | .done => s.answerThread a ⟨a.pc, 0, [], false, 0⟩
    | .condition c => s.answerThread a ⟨a.pc, c, [], remote, 0⟩
  else
    match reply with
    | .value bs =>
      if 2 ^ 63 ≤ ofBytes bs then s.land a (plainWords .words bs)
      else s.mapAcc a.id (fun b => { b with parked := true, inTable := false, since := s.cycle, shut := true })
    | .done => s
    | .condition c => s.lateRaise a c (if remote then a.ptr else a.aux) remote

/-- The parameter of an operation whose range another device holds and that waits for that device: its source, or its
destination once written data was sent. -/
def State.opRemote (s : State) (o : Op) : Option Nat :=
  if o.final.isSome ∨ o.paused.isSome then none
  else if o.sent then
    if o.remote 1 ∧ (o.kind = 0 ∨ (o.kind = 3 ∧ o.result.isSome)) then some 1 else none
  else if o.remote 0 ∧ o.result.isNone ∧ s.opReady o then some 0
  else none

/-- Bytes a remote source delivers: each element of a copy as it is expanded, a gather's good elements in order, four
bytes an element of a panel (log 1). -/
def State.remoteBytes (s : State) (o : Op) : Nat :=
  let w := dword o.params 2
  match o.kind with
  | 0 => copyLen w * expand (copyDexp w)
  | 1 => 4 * wRows w * wCols w
  | 2 => ((s.gatherWalk o).map GatherWalk.used).getD 0
  | _ => cCount w * cSize w

/-- Status of Table 9-9 for a condition of another device. -/
def remoteStatus (code : Nat) : Nat :=
  if code = 0x1C then 1 else if code = 0x1D then 2 else if code = 0x30 then 3 else if code = 0x31 then 4
  else if isTranslation code then 5 else 11

/-- An operation stopped by a condition of another device: no record for a translation condition. -/
def State.stopRemote (s : State) (o : Op) (code : Nat) (aux : DWord) : State :=
  let st := remoteStatus code
  let v := if o.kind = 1 then wloadValue [] st else completion st 0 0
  let s : State := if o.kind = 1 then
      s.mapTeam o.team (fun t =>
        t.mapSlots (wSlot (dword o.params 2)) (wSpan (dword o.params 2)) (fun _ x => { x with blocks := [] }))
    else s
  s.finishOp o v 0 (if isTranslation code then none else some (code, aux))

/-- The answer to an operation. -/
def State.opReply (s : State) (o : Op) (k : Nat) (reply : RemoteReply) (aux : DWord) : State :=
  match reply with
  | .value bs =>
    if k = 0 ∧ bs.length = s.remoteBytes { o with result := some bs } then s.mapOp o.serial (fun o => { o with result := some bs }) else s
  | .done =>
    if k = 1 then
      s.finishOp o (completion 0 (if o.kind = 0 then s.remoteBytes o else (o.result.getD []).length) 0) 0 none
    else s
  | .condition c => if remoteCodes.contains c then s.stopRemote o c aux else s

/-! ### Requests to this device itself (R374) -/

/-- A device number is this device's own, which its export table serves. -/
def State.ownDevice (s : State) (device : Nat) : Bool := bit s.domain0 63 && device == fld s.domain0 0 11

/-- The request that an access makes. -/
def Acc.request (a : Acc) : RemoteRequest :=
  let va := match a.route with | .remote _ va => va | _ => 0
  ⟨a.device, va, a.size, match a.kind with
    | .ldf => .future
    | .store => .store (a.wrote.map (fun w => w.2.1))
    | .atomic op typ p q => .atomic op typ p q
    | .reduce op typ p => .reduce op typ p
    | .unord w => .unord w
    | .block gap values => .block gap values
    | _ => .load⟩

/-- The home slices take what an access of a thread asks of this device itself, and the accesses of its thread to the same bytes
before it are performed there (R129, R374). -/
def State.ownMay (s : State) (a : Acc) : Bool :=
  s.remoteReady a.request && (match s.exptabCheck a.request with
    | .error _ => true
    | .ok v =>
      let c := remoteAcc s a.request v
      c.locs.all (fun l => !s.unpackagedByte a.die l)
      && s.accs.all (fun b => !(b.team == a.team && b.tid == a.tid && decide (b.id < a.id)) || !overlap c b || b.performed 6))

/-- The largest write time that a die's L2 holds for some locations. -/
def State.sliceTime (s : State) (d : Nat) (locs : List Nat) : Nat :=
  locs.foldl (fun m l => max m (((s.sector d (secOf l)).map Sector.wts).getD 0)) 0

/-- What an access of a thread asks of this device itself, served. Its PT takes the write times that its die's L2 holds for the
bytes, so that no L1 copy older than them serves it later (R129, R130). -/
def State.ownServe (s : State) (a : Acc) : State × RemoteReply :=
  let q := s.serve a.request
  match s.exptabCheck a.request with
  | .ok v =>
    let locs := (remoteAcc s a.request v).locs
    (q.1.raisePt a.team a.tid (max (s.sliceTime a.die locs) (q.1.sliceTime a.die locs)), q.2)
  | .error _ => q

/-- One request of an engine of this device to it: its bytes, the condition met, or 0 when it cannot be taken yet. -/
def State.ownAsk (s : State) (r : RemoteRequest) : State × Except Nat (List Byte) :=
  if !s.remoteReady r then (s, .error 0)
  else
    let a := s.serve r
    match a.2 with
    | .value ds => (a.1, .ok ds)
    | .condition c => (a.1, .error c)
    | .done => (a.1, .ok [])

/-- Bytes of an exported buffer that an engine of this device reads, one request each; where a format is expected, only
elements of it (R228, R229). -/
def State.ownRead (s : State) (device va n dx : Nat) : State × Except Nat (List Byte) :=
  (upto n).foldl (fun q k =>
    match q.2 with
    | .error c => (q.1, .error c)
    | .ok bs =>
      let a := q.1.ownAsk ⟨device, va + k, 1, .load⟩
      (a.1, match a.2 with
        | .ok ds => if ds.length = expand dx then .ok (bs ++ ds) else .error 0x1C
        | .error c => .error c)) (s, .ok [])

/-- The format of the page that an element of a panel must lie on (R259): none is a page read as plain. -/
def panelFormat (fmt : Nat) : Option Nat := if fmt ≤ 1 then none else if fmt = 4 then some 3 else some (fmt - 1)

/-- The value of a panel's element as the slot's format reads it, in four bytes, a DX element exact (R97, R259; log 1). -/
def State.ownElement (s : State) (o : Op) (base r c : Nat) : State × Except Nat (List Byte) :=
  let fmt := wFmt (dword o.params 2)
  let e := wElement o.params r c
  let at_ := base + (if fmt ≤ 1 then 2 * e else if fmt = 2 then e else if fmt = 3 then e / 2 else e / 8)
  let req : RemoteRequest := ⟨dOid (o.desc 0), at_, if fmt ≤ 1 then 2 else 1, .load⟩
  let q := s.ownAsk req
  match q.2, s.exptabCheck req with
  | .ok bs, .ok v =>
    if v.place.format.map Page.fmt ≠ panelFormat fmt then (q.1, .error 0x1C)
    else if fmt ≤ 1 then (q.1, .ok (bs ++ [0, 0]))
    else if fmt = 4 then (q.1, .ok (toBytes ((bs.getD 0 0).toNat / 2 ^ (e % 8) % 2) 4))
    else
      match v.place.page with
      | none => (q.1, .error 0x1C)
      | some p =>
        let off := v.place.va % p.size
        match q.1.dxSource { o with ctx := v.ctx, die := v.place.die } v.place.desc v.place.va (fmt - 1) v.place.die p
            [if fmt = 2 then off else 2 * off + e % 2] with
        | .error x => (q.1, .error x.1)
        | .ok (xs, _) => (q.1, .ok (toBytes (pack f32 .rn ((xs.head?.map (fun x => dxDecode p.fmt x.1 x.2)).getD .nan)) 4))
  | .error c, _ => (q.1, .error c)
  | _, .error c => (q.1, .error c)

/-- What an operation reads from a buffer of this device's own export table. -/
def State.ownSource (s : State) (o : Op) : State × Except Nat (List Byte) :=
  let w := dword o.params 2
  let dev := dOid (o.desc 0)
  let start := dBase (o.desc 0) + fld (dword o.params 0) 0 54
  let more (q : State × Except Nat (List Byte)) (f : State → State × Except Nat (List Byte)) : State × Except Nat (List Byte) :=
    match q.2 with
    | .error c => (q.1, .error c)
    | .ok bs => let a := f q.1; (a.1, a.2.map (fun ds => bs ++ ds))
  match o.kind with
  | 0 => s.ownRead dev start (copyLen w) (copyDexp w)
  | 1 => (upto (wRows w * wCols w)).foldl (fun q k =>
      more q (fun s => s.ownElement o start (k / wCols w) (k % wCols w))) (s, .ok [])
  | 2 => (upto (gatherN w)).foldl (fun q k =>
      match q.2, q.1.team? o.team with
      | .ok bs, some t =>
        let g := (upto k).foldl (q.1.gatherStep { o with result := some bs }) ⟨[], 0, t, none⟩
        let x := o.gatherAt g.team k
        if x.2 then q else more q (fun s => s.ownRead dev (dBase (o.desc 0) + x.1) (gatherSize w) (copyDexp w))
      | _, _ => q) (s, .ok [])
  | _ => s.ownRead dev start (cCount w * cSize w) 0

/-- What an operation sends: a collective's result, or a copy's bytes as expanded. -/
def State.sentBytes (s : State) (o : Op) : List Byte :=
  if o.kind = 3 then o.result.getD []
  else (s.copySource o 0 (copyLen (dword o.params 2))).flatMap (fun x => match x with | .ok (bs, _) => bs | .error _ => [])

/-- Bytes stored to a buffer of this device's own export table, one request each, till one is refused. -/
def State.ownWrite (s : State) (device va : Nat) (bs : List Byte) : State × Except Nat (List Byte) :=
  (upto bs.length).foldl (fun q k =>
    match q.2 with
    | .error _ => q
    | .ok _ => q.1.ownAsk ⟨device, va + k, 1, .store [bs.getD k 0]⟩) (s, .ok [])

/-- The answer of this device to an operation of its own; none while a slice or a held buffer makes some request of it wait
(R368, R369, R372). -/
def State.ownReply (s : State) (o : Op) (k : Nat) : Option (State × RemoteReply) :=
  let q := if k = 0 then s.ownSource o
    else s.ownWrite (dOid (o.desc 1)) (dBase (o.desc 1) + fld (dword o.params 1) 0 54) (s.sentBytes o)
  match q.2 with
  | .ok bs => some (q.1, if k = 0 then .value bs else .done)
  | .error c => if c = 0 then none else some (q.1, .condition c)

/-- The requests of an entry that go out together with one (R124, R125). -/
def State.ownMates (s : State) (a : Acc) : List Acc := if a.atHome then [a] else (s.mates a).filter s.asks

/-- This device answers an access that names its own number. -/
def State.canOwnServe (s : State) (a : Acc) : Bool := s.ownDevice a.device && (s.ownMates a).all s.ownMay

/-- The requests of an entry served in (issue, TID) order, each thread answered. -/
def State.ownAnswer (s : State) (a : Acc) : State :=
  ((s.ownMates a).foldl (fun s b => (s.ownServe b).1.threadReply b (s.ownServe b).2 true) s).shutEntry a

/-- REMOTE_RESPONSE: to an access of a thread or to an operation, by its number. This device answers the requests that name
its own number. -/
def execRemoteResponse (acc : Nat) (reply : RemoteReply) (s : State) : Result :=
  .next (match s.acc? acc with
    | some a =>
      if !s.asks a then s
      else if s.ownDevice a.device then (if s.canOwnServe a then s.ownAnswer a else s)
      else if a.fits reply then (s.threadReply a reply true).shutEntry a else s
    | none =>
      match s.op? acc with
      | some o =>
        match s.opRemote o with
        | some k =>
          match (if s.ownDevice (dOid (o.desc k)) then s.ownReply o k else some (s, reply)) with
          | some q => q.1.opReply o k q.2 (dword o.params k)
          | none => s
        | none => s
      | none => s)

/-! ### Lost routes and links -/

/-- The cycle at which a request of 2^20 cycles without a route ends, when no working route leads to the device. -/
def State.routeDeadline (s : State) (device since : Nat) : Option Nat :=
  (s.lostDevices.find? (fun d => d.1 == device)).map (fun d => max d.2 since + 2 ^ 20)

def State.timedOut (s : State) (device since : Nat) : Bool :=
  match s.routeDeadline device since with | some c => decide (c ≤ s.cycle) | none => false

/-- DUETTE_ROUTE_TIMEOUT: DATA_LOST, raised here (R375). -/
def execDuetteRouteTimeout (acc : Nat) (s : State) : Result :=
  .next (match s.acc? acc with
    | some a => if s.asks a ∧ s.timedOut a.device a.since then s.threadReply a (.condition 0x30) false else s
    | none =>
      match s.op? acc with
      | some o =>
        match s.opRemote o with
        | some k =>
          let d := o.desc k
          if s.timedOut (dOid d) o.since then
            s.opReply o k (.condition 0x30) (BitVec.ofNat 64 (dBase d + fld (dword o.params k) 0 54))
          else s
        | none => s
      | none => s)

/-- DUETTE_LINK_LOSS: no working route leads to the device. -/
def execDuetteLinkLoss (device : Nat) (s : State) : Result :=
  .next (if s.lostDevices.any (fun d => d.1 == device) then s
    else { s with lostDevices := s.lostDevices ++ [(device, s.cycle)] })

/-- LINK_BRING_UP: a Duette port, or from number 24 the host link, runs with link encryption or without (R389); a Duette
link that comes up gives every device a working route again (log 1). -/
def execLinkBringUp (port : Nat) (encrypted : Bool) (s : State) : Result :=
  .next (if 24 ≤ port then { s with hostIde := encrypted }
    else
      { s with
        lostDevices := [],
        ports := if encrypted then insertNat port s.ports else s.ports.filter (fun p => decide (p ≠ port)) })

end Sys2Proof.Machine
end

