-- ==== Sys2Proof/Machine/BlockStore.lean ====
section
/-! DEFINITION. The completion of STB: every block of an execution is checked before any is written, whichever device holds it
(09 R216 to R218, 16 R372, R374, R375). -/

namespace Sys2Proof.Machine

/-- A group of an STB execution that has an active lane: what the lane that gives its address reads, the group's number, where its
block goes and what it writes here, or the condition met (R216, R217). -/
structure StbGroup where
  r : Reads
  g : Nat
  at_ : Except Cond (Target × List (Nat × Byte × Byte))

/-- The groups of a home sheaf's execution. -/
def State.stbGroups (s : State) (o : FM) (t : Team) (h : Nat) : List StbGroup :=
  let act := (s.lanes o.g).filter (fun r => r.sheaf == h)
  (if t.width = 64 then [0, 1] else [0]).filterMap (fun g =>
    (act.find? (fun r => t.width ≠ 64 || r.tid % t.width / 32 == g)).map (fun r =>
      ⟨r, g, s.stbWrites t.ctx (s.slotOf t) (r.s o.p.toNat) (mDisp o 1 r) (o.d.toNat % 4) (stbValues o t h g)⟩))

/-- The request of a group whose block another device is to write, with the values as R216 gives them. -/
def State.stbAccess (s : State) (o : FM) (iss : Issue) (t : Team) (h : Nat) (x : Target) (q : StbGroup) : Acc :=
  { s.accOf iss t q.r.tid (.block (o.d.toNat % 4) ((stbValues o t h q.g).map (fun v => BitVec.ofNat 32 (pack f32 .rn v)))) x 2 with
    id := s.serial }

/-- The condition a group meets: its own checks, or those of the device that holds its place. -/
def State.stbBad (s : State) (o : FM) (iss : Issue) (t : Team) (h : Nat) (q : StbGroup) : Option (Reads × Cond × Bool) :=
  match q.at_ with
  | .error c => some (q.r, c, false)
  | .ok (x, _) =>
    let a := s.stbAccess o iss t h x q
    let ptr := q.r.s o.p.toNat
    if !a.asksRemote then none
    else if s.ownDevice a.device then
      match s.exptabCheck a.request with
      | .error c => some (q.r, ⟨c, ptr⟩, true)
      | .ok _ => none
    else
      match s.answerFor iss q.r.tid with
      | some w => if w.code = 0 then none else some (q.r, ⟨w.code, if w.remote then ptr else BitVec.ofNat 64 x.va⟩, w.remote)
      | none => none

/-- A group's access can be made now: the slices serve its tables, no migration holds its buffer (R368, R369, R372), and this device
takes what it asks of itself (R374). -/
def State.stbMay (s : State) (o : FM) (iss : Issue) (t : Team) (h : Nat) (q : StbGroup) : Bool :=
  let ptr := q.r.s o.p.toNat
  s.pathFree t.ctx ptr (mDisp o 1 q.r) && !s.bufferHeld t.ctx (fld ptr 54 10)
  && (match q.at_ with
    | .error _ => true
    | .ok (x, _) =>
      let a := s.stbAccess o iss t h x q
      !(a.asksRemote && s.ownDevice a.device) || s.ownMay a)

/-- A group's block written: by stores of the thread that gave its address, at once at this device's home slices through its export
table, or by another device, which is asked first. -/
def State.stbPut (s : State) (o : FM) (iss : Issue) (t : Team) (h : Nat) (q : StbGroup) : State :=
  match q.at_ with
  | .error _ => s
  | .ok (x, ws) =>
    let a := s.stbAccess o iss t h x q
    if !a.asksRemote then
      ((s.noteUse t.ctx (q.r.s o.p.toNat) (mDisp o 1 q.r)).addStores (s.accOf iss t q.r.tid .store x 2) ws).markWritten iss.team
    else if s.ownDevice a.device then (s.ownServe a).1.markWritten iss.team
    else if (s.answerFor iss q.r.tid).isSome then s.markWritten iss.team
    else s.hold { a with id := 0 }

/-- STB executes for a home sheaf at its completion: every group's block is checked before any is written; the first
group that fails traps in the thread that gave its address (R216 to R218). -/
def State.stbComplete (s : State) (o : FM) : State :=
  match s.issue with
  | none => s
  | some iss =>
    match s.viewTeam iss with
    | none => s
    | some t =>
      (iss.sheaves t).foldl (fun s' h =>
        let plan := s.stbGroups o t h
        if plan.any (fun q => !s.stbMay o iss t h q) then s'.stall
        else
          match plan.findSome? (s.stbBad o iss t h) with
          | some (r, c, true) => s'.raiseAnswer r.tid ⟨0, c.code, [], true, 0⟩ 0 c.aux
          | some (r, c, false) => s'.refuse t r.tid (r.s o.p.toNat) (mDisp o 1 r) c
          | none => plan.foldl (fun s' q => s'.stbPut o iss t h q) s') s

/-- STB: its threads arrive at rendezvous; blocks are stored at completion (R216). -/
def execStb (_h : Hdr) (o : FM) (s : State) : Result :=
  .next (match s.issue with
    | some iss => if iss.completing then s.stbComplete o else s.arrive
    | none => s)

end Sys2Proof.Machine
end

