-- ==== Sys2Proof/Machine/Control.lean ====
section
/-! DEFINITION. Control transfers, loop levels, joins, regroup points, REORDER and the ends of threads
(02 R37 to R60, 08 R200 to R208). -/

namespace Sys2Proof.Machine

/-- A transfer in each guard-true thread (R201): its target is checked (R159); a link takes the fall-through word. The
other threads stay at the fall-through word, where the issue put them (R37). -/
def State.transfer (s : State) (g : BitVec 3) (link : Option (BitVec 6)) (target : Issue → Reads → BitVec 64) : State :=
  s.eachLane g (fun iss t r s' =>
    let p := target iss r
    if !s.fetchFree t p then s'.stall
    else
    match s.badTarget t r.tid p with
    | some c => s'.raise r.tid c.code c.aux
    | none =>
      let s' := match link with
        | some d => s'.mapRegs iss.team r.tid (fun q => q.set d.toNat (lowWord iss.fall))
        | none => s'
      s'.setPc iss.team r.tid p)

/-- A register's target (R201). -/
def regTarget (a : BitVec 6) (_iss : Issue) (r : Reads) : BitVec 64 := (r.v a).setWidth 64

/-- A regroup event of this cycle in the slot of the issuing sub-sheaf, for those of its threads that go on at a next PC: not
those that trapped, nor those that now wait at a join (R47, R52). -/
def State.regroupEvent (s : State) : State :=
  match s.issue with
  | none => s
  | some iss =>
    s.mapTeam iss.team (fun t =>
      let xs := (iss.threads t).filter (fun x => !iss.suppressed.contains x
        && (match (t.thread? x).map Thread.wait with | some (.join _) => false | _ => true))
      { t with regroups := t.regroups ++ [⟨iss.slot, xs, (iss.threads t).headD 0⟩] })

/-- BRA (R201). -/
def execBra (_h : Hdr) (o : FB) (s : State) : Result :=
  .next (s.transfer o.g none (fun iss _ => iss.pc + wordDisp o.disp))

/-- BRA.RG: a branch, then a regroup event (R52, R201). -/
def execBraRg (_h : Hdr) (o : FB) (s : State) : Result :=
  .next (s.transfer o.g none (fun iss _ => iss.pc + wordDisp o.disp)).regroupEvent

/-- CALL links in v63 (R201). -/
def execCall (_h : Hdr) (o : FB) (s : State) : Result :=
  .next (s.transfer o.g (some 63) (fun iss _ => iss.pc + wordDisp o.disp))

/-- CALLI links in D (R201). -/
def execCalli (_h : Hdr) (o : FV3) (s : State) : Result := .next (s.transfer o.g (some o.d) (regTarget o.a))

/-- JMPI (R201). -/
def execJmpi (_h : Hdr) (o : FV3) (s : State) : Result := .next (s.transfer o.g none (regTarget o.a))

/-- JMPI.RG: a jump, then a regroup event (R52, R201). -/
def execJmpiRg (_h : Hdr) (o : FV3) (s : State) : Result :=
  .next (s.transfer o.g none (regTarget o.a)).regroupEvent

/-- RET (R201). -/
def execRet (_h : Hdr) (o : FV3) (s : State) : Result := .next (s.transfer o.g none (regTarget o.a))

/-- LOOP raises the loop level; at depth D it traps (R69, R202). -/
def execLoop (_h : Hdr) (o : FN) (s : State) : Result :=
  .next (s.eachLane o.g (fun iss t r s' =>
    if t.depth ≤ r.regs.level then s'.raise r.tid 0x06 0
    else s'.mapRegs iss.team r.tid (fun q => { q with level := r.regs.level + 1 })))

/-- ENDLOOP lowers the loop level; at level 0 it traps (R69, R202). -/
def execEndloop (_h : Hdr) (o : FN) (s : State) : Result :=
  .next (s.eachLane o.g (fun iss _ r s' =>
    if r.regs.level = 0 then s'.raise r.tid 0x06 0
    else s'.mapRegs iss.team r.tid (fun q => { q with level := r.regs.level - 1 })))

/-- JSET adds each guard-true thread to the expected set of its home sheaf's record (R42). -/
def execJset (_h : Hdr) (o : FJ) (s : State) : Result :=
  .next (s.eachLane o.g (fun iss _ r s' =>
    s'.mapSheaf iss.team r.sheaf (fun f =>
      { f with joins := modifyAt f.joins o.ja.toNat (fun j => { j with e := insertNat r.tid j.e }) })))

/-- An arrival: an expected thread enters A and waits; another passes (R43). Completion is at the cycle's end (R47). -/
def Team.arriveJoin (t : Team) (h k tid : Nat) (rg : Bool) : Team :=
  match t.sheaves[h]? with
  | none => t
  | some f =>
    if ((f.joins.getD k ⟨[], [], none⟩).e).contains tid then
      (t.mapSheaf h (fun f => { f with joins := modifyAt f.joins k (fun j =>
        { j with a := insertNat tid j.a,
                 last := match j.last with
                   | some (m, b) => if m < tid then some (tid, rg) else some (m, b)
                   | none => some (tid, rg) }) })).mapThread tid (fun x => { x with wait := .join k })
    else t

def State.joinAt (s : State) (g : BitVec 3) (k : BitVec 4) (rg : Bool) : State :=
  s.eachLane g (fun iss _ r s' => s'.mapTeam iss.team (fun t => t.arriveJoin r.sheaf k.toNat r.tid rg))

/-- JOIN (R43, R44, R203). -/
def execJoin (_h : Hdr) (o : FJ) (s : State) : Result := .next (s.joinAt o.g o.ja false)

/-- JOIN.RG: its completion may pool small groups; the threads that pass take part in a regroup event (R44, R49). -/
def execJoinRg (_h : Hdr) (o : FJ) (s : State) : Result := .next (s.joinAt o.g o.ja true).regroupEvent

/-- Removal from the records of a range of slots and a branch, in one step (R45, R204). -/
def State.leaveTo (s : State) (o : FJ) : State :=
  s.eachLane o.g (fun iss t r s' =>
    let p := iss.pc + wordDisp o.disp
    if !s.fetchFree t p then s'.stall
    else
    match s.badTarget t r.tid p with
    | some c => s'.raise r.tid c.code c.aux
    | none =>
      (s'.mapSheaf iss.team r.sheaf (fun f =>
        { f with joins := (upto f.joins.length).map (fun k =>
            let j := f.joins.getD k ⟨[], [], none⟩
            if o.ja.toNat ≤ k ∧ k ≤ o.jb.toNat then j.remove r.tid else j) })).setPc iss.team r.tid p)

/-- LEAVE (R45, R204). -/
def execLeave (_h : Hdr) (o : FJ) (s : State) : Result := .next (s.leaveTo o)

/-- LEAVE.RG: LEAVE, then a regroup event (R52, R204). -/
def execLeaveRg (_h : Hdr) (o : FJ) (s : State) : Result := .next (s.leaveTo o).regroupEvent

/-- REGROUP: a regroup event at the fall-through word and nothing else (R205). -/
def execRegroup (_h : Hdr) (_o : FN) (s : State) : Result := .next s.regroupEvent

/-- REORDER: the thread waits at reorder with key A[15:0] (R58, R206). -/
def execReorder (_h : Hdr) (o : FV3) (s : State) : Result :=
  .next (s.eachLane o.g (fun iss _ r s' =>
    s'.mapThread iss.team r.tid (fun x => { x with wait := .reorder ((r.v o.a).toNat % 65536) })))

/-- Words a thread may be blocked in while the rest of its group takes effect. -/
def mayBlock : Instr → Bool
  | .qpush _ o => !o.nb
  | .qpop _ o => !o.nb
  | .ldf _ _ => true
  | .bar _ _ => true
  | _ => false

/-- A thread ends now, or when the word its group blocks in has taken effect (R207). -/
def State.leaveThread (s : State) (iss : Issue) (tid : Nat) (passed : Bool) : State :=
  if iss.words.any (fun w => mayBlock w.i) then
    s.mapThread iss.team tid (fun x => { x with wait := .leaving passed })
  else s.endThread iss.team tid passed

/-- EXIT ends each guard-true thread (R22, R207). -/
def execExit (_h : Hdr) (o : FN) (s : State) : Result :=
  .next (s.eachLane o.g (fun iss _ r s' => s'.leaveThread iss r.tid false))

/-- A word of the successor table, which is read with no key (R388). -/
def State.succWord (s : State) (t : Team) (ptr : DWord) (off : Nat) : Except Cond DWord :=
  match s.target t.ctx (s.slotOf t) ptr (off : Int) 8 8 .load with
  | .error e => .error e
  | .ok x =>
    match s.memError x.loc 8 with
    | some c => .error ⟨c, BitVec.ofNat 64 x.va⟩
    | none => .ok (BitVec.ofNat 64 (ofBytes (s.keyedBytes 0 (homeOf x.loc) x.loc 8)))

/-- The keep mask of the first row of the successor table with the entry's offset (R208). A condition met reading the table is
raised in the thread (DEDUCED, log 20). -/
def succRow (s : State) (t : Team) (ptr : DWord) (entry : Nat) : Nat → Nat → Except Cond (Option DWord)
  | 0, _ => .ok none
  | n + 1, k =>
    match s.succWord t ptr (16 * k) with
    | .error e => .error e
    | .ok v =>
      if v.toNat = entry then
        match s.succWord t ptr (16 * k + 8) with
        | .error e => .error e
        | .ok m => .ok (some m)
      else succRow s t ptr entry n (k + 1)

/-- The slices serve the reads of the successor table (R368, R369). -/
def State.succFree (s : State) (t : Team) (ptr : DWord) (n : Nat) : Bool :=
  (upto n).all (fun k => s.pathFree t.ctx ptr ((16 * k : Nat) : Int)
    && (match s.target t.ctx (s.slotOf t) ptr ((16 * k : Nat) : Int) 8 8 .load with
      | .error _ => true
      | .ok x => s.placeFree x.route x.loc))

/-- The rows read are uses of the table's translations (R345). -/
def noteSucc (t : Team) (ptr : DWord) (entry : Nat) : Nat → Nat → State → State
  | 0, _, s => s
  | n + 1, k, s =>
    let s' := s.noteUse t.ctx ptr ((16 * k : Nat) : Int)
    let s' := match s.target t.ctx (s.slotOf t) ptr ((16 * k : Nat) : Int) 8 8 .load with
      | .ok x => s'.placeTouch x.route x.loc
      | .error _ => s'
    match s.succWord t ptr (16 * k) with
    | .error _ => s'
    | .ok v => if v.toNat = entry then s' else noteSucc t ptr entry n (k + 1) s'

/-- Registers of a thread restarted at a successor entry (R60). -/
def Regs.restart (q : Regs) (keep : DWord) : Regs :=
  ⟨q.v.filter (fun r => decide (r.1 < 64) && keep.getLsbD r.1), 0, List.replicate 4 Flags.zero⟩

/-- EXIT.NEXT: restart at a successor entry, pooled there (R60, R208); without a displacement it is EXIT. -/
def execExitNext (_h : Hdr) (o : FB) (s : State) : Result :=
  .next (s.eachLane o.g (fun iss t r s' =>
    if o.disp = 0 then s'.leaveThread iss r.tid false
    else
      let p := iss.pc + wordDisp o.disp
      let ext := ((s.launch? t.launch).map Launch.ext).getD []
      let n := fld (dword ext 7) 0 16
      if !s.fetchFree t p ∨ !s.succFree t (dword ext 6) n then s'.stall
      else
      match s.badTarget t r.tid p with
      | some c => s'.raise r.tid c.code c.aux
      | none =>
        let s' := noteSucc t (dword ext 6) p.toNat n 0 s'
        match succRow s t (dword ext 6) p.toNat n 0 with
        | .error c => s'.raise r.tid c.code c.aux
        | .ok none => s'.raise r.tid 0x05 0
        | .ok (some keep) =>
          s'.mapTeam iss.team (fun t =>
            let t := t.mapSheaf r.sheaf (fun f => { f with joins := f.joins.map (fun j => j.remove r.tid) })
            let t := t.mapThread r.tid (fun x => { x with regs := x.regs.restart keep, earliest := s.cycle + 17 })
            t.poolThread r.tid p (s.cycle + 1))))

end Sys2Proof.Machine
end

