-- ==== Sys2Proof/Machine/Launch.lean ====
section
/-! DEFINITION. Contexts, the launch window, the parse, event bits, the journal and the ends of launches
(13 R296 to R314, 01 R15 to R18, 03 R78 to R80, 11 R266, R267). -/

namespace Sys2Proof.Machine

def ctx48 : Nat := 2 ^ 48

/-! ### The journal (R312, R313) -/

/-- An entry written: word 1 before word 0, then JHEAD raised. -/
def State.journal (s : State) (ctx slot rseq cause state : Nat) : State :=
  let c := s.ctx ctx
  let j := c.jhead
  let d := fld c.jrnl 56 2
  let a := fld c.jrnl 0 54 + 16 * (j % 2 ^ fld c.jrnl 59 5)
  let s := s.dpaWrite d (a + 8) (toBytes (ctx * 2 ^ 32 + cause * 2 ^ 8 + state) 8)
  let s := s.dpaWrite d a (toBytes (j % ctx48 * 2 ^ 16 + rseq * 2 ^ 8 + slot) 8)
  s.mapCtx ctx (fun c => { c with jhead := (j + 1) % ctx48 })

/-- The next entry of a context's journal can be performed at system scope (R309, R312, R368, R369). -/
def State.journalFree (s : State) (ctx : Nat) : Bool :=
  let c := s.ctx ctx
  s.dpaFree (fld c.jrnl 56 2) (fld c.jrnl 0 54 + 16 * (c.jhead % 2 ^ fld c.jrnl 59 5)) 16

def Ctx.freeEntries (c : Ctx) : Nat := 2 ^ fld c.jrnl 59 5 - (c.jhead - c.jtail)

/-- JTAIL_WRITE (R313). -/
def execJtailWrite (ctx : Nat) (value : DWord) (s : State) : Result :=
  .next (if s.fwState = 2 ∧ value.toNat ≤ (s.ctx ctx).jhead ∧ (s.ctx ctx).jtail ≤ value.toNat then
      s.mapCtx ctx (fun c => { c with jtail := value.toNat })
    else s)

/-! ### Waiting for placement (R267, R308, R315) -/

/-- Bins of a launch's nodes on a die. DESIGN CHOICE (log 25): a stage set, which no firing empties, has no bin of its own, so the
8,192 nodes count kinds 1, 3 and 4. -/
def State.launchBins (s : State) (l : Launch) (d : Nat) : Nat :=
  (l.nodes.filter (fun n => (nodeKind n == 1 || nodeKind n == 3 || nodeKind n == 4)
    && (s.ctx l.ctx).vdie (nVd n) == some d)).length

/-- A launch that holds its bins: it waits for cores or has started. -/
def State.entered (s : State) (l : Launch) : Bool :=
  l.phase == .running || (l.phase == .waiting && s.units.any (fun u => u.launch == l.id))

def State.binsFit (s : State) (l : Launch) : Bool :=
  (upto 4).all (fun d =>
    decide (s.launchBins l d + ((s.launches.filter s.entered).foldl (fun n m => n + s.launchBins m d) 0)
      ≤ Config.fabricBins) || s.launchBins l d == 0)

/-- A unit enters waiting. -/
def State.addUnit (s : State) (kind : UnitKind) (launch : Nat) (die : Option Nat) : State :=
  { s with serial := s.serial + 1, units := s.units ++ [⟨s.serial, kind, launch, s.cycle, die⟩] }

/-- Eligible launches whose bins fit pass to placement, in ascending journal number. -/
def State.enterPlacement (s : State) : State :=
  (sortBy (fun l => [l.jseq]) (s.launches.filter (fun l => l.phase == .waiting && l.eligible))).foldl (fun s l =>
    if !s.entered l ∧ s.binsFit l then s.addUnit (.cohorts 0 l.cohorts) l.id none else s) s

/-- A 256-bit mask of four words of a record. -/
def mask256 (ws : List DWord) : BitVec 256 :=
  BitVec.ofNat 256 ((dword ws 0).toNat + (dword ws 1).toNat * 2 ^ 64 + (dword ws 2).toNat * 2 ^ 128
    + (dword ws 3).toNat * 2 ^ 192)

def Launch.waitMask (l : Launch) : BitVec 256 := mask256 (l.words.take 4)
def Launch.setMask (l : Launch) : BitVec 256 := mask256 ((l.words.drop 4).take 4)

/-- Launches whose wait bits are all set become eligible, once and for all (R308). -/
def State.testEligible (s : State) (ctx : Nat) : State :=
  let ev := (s.ctx ctx).event
  State.enterPlacement { s with launches := s.launches.map (fun l =>
    if l.ctx = ctx ∧ l.phase = .waiting ∧ l.waitMask &&& ev = l.waitMask then { l with eligible := true } else l) }

/-- One update of a context's event vector (R307). -/
def State.updateEvents (s : State) (ctx : Nat) (f : BitVec 256 → BitVec 256) : State :=
  (s.mapCtx ctx (fun c => { c with event := f c.event })).testEligible ctx

/-- A word's bits at their place in the event vector. -/
def eventBits (word : Nat) (value : DWord) : BitVec 256 := BitVec.ofNat 256 (value.toNat * 2 ^ (64 * (word % 4)))

/-- EVSET (R307). -/
def execEvset (ctx word : Nat) (value : DWord) (s : State) : Result :=
  .next (if s.fwState = 2 then s.updateEvents ctx (fun e => e ||| eventBits word value) else s)

/-- EVCLR (R307). -/
def execEvclr (ctx word : Nat) (value : DWord) (s : State) : Result :=
  .next (if s.fwState = 2 then s.updateEvents ctx (fun e => e &&& ~~~(eventBits word value)) else s)

/-! ### Ends of launches (R309 to R311, R298) -/

/-- The combine region's bytes once its launch has ended, but those of marked lines (R280, R386). -/
def State.scrambleCombine (s : State) (l : Launch) : State :=
  let ws := (s.combinePieces l).flatMap (fun p => match s.combineByte l p.1 with
    | some x => (upto p.2).map (fun j => (x + j, s.combineFree (x + j), (0xFF : Byte)))
    | none => [])
  (({ s with freeCtr := s.freeCtr + 1 }).homeWrite (ws.filter (fun w => (s.memError w.1 1).isNone)) 0).1

/-- Nothing of a launch is left but its entry. -/
def State.dropLaunch (s : State) (id : Nat) : State :=
  let ls := s.launches.filter (fun l => decide (l.id ≠ id))
  { s with launches := ls, teams := s.teams.filter (fun t => decide (t.launch ≠ id)),
           stored := if ls.isEmpty then [] else s.stored }

/-- No thread, operation or access of a launch is left. -/
def State.launchQuiet (s : State) (id : Nat) : Bool :=
  s.ops.all (fun o => o.launch != id) && s.accs.all (fun a => a.launch != id)
  && s.teams.all (fun t => t.launch != id || (t.res == .ended && t.mops.isEmpty))

/-- A cancelled or faulted launch of which nothing is left. -/
def State.canEnd (s : State) (l : Launch) : Bool :=
  match l.phase with
  | .ending _ _ => s.launchQuiet l.id && s.journalFree l.ctx
  | _ => false

/-- A destroyed context whose launches have all ended: V reads 0 and its keys are destroyed; a SET mask not yet applied finds
no event vector in use, a migration under way no buffer table (R298, R388). -/
def State.finishDestroy (s : State) (ctx : Nat) : State :=
  if (s.ctx ctx).dying ∧ s.launches.all (fun l => l.ctx != ctx || !l.live) then
    let s := (s.launches.filter (fun l => l.ctx == ctx)).foldl (fun s l => s.dropLaunch l.id) s
    s.mapCtx ctx (fun c => { c with ctl := c.ctl &&& ~~~(1#64 <<< 63), dying := false, key := 0, mbusy := false, mwait := [] })
  else s

/-- CANCEL_COMPLETE: the terminal entry, cancelled or faulted (R310, R311). -/
def execCancelComplete (launch : Nat) (s : State) : Result :=
  .next (match s.launch? launch with
    | some l =>
      match l.phase with
      | .ending cancelled cause =>
        if s.canEnd l then
          let s := (s.retireSumsOf l.id).scrambleCombine l
          let s := s.journal l.ctx l.slot l.rseq cause (if cancelled then 4 else 3)
          ((s.dropLaunch l.id).finishDestroy l.ctx).enterPlacement
        else s
      | _ => s
    | none => s)

/-- A running launch that has retired: its cohorts, records, windows, combine slots and accesses are done (R14, R268). -/
def State.canRetire (s : State) (l : Launch) : Bool :=
  l.phase == .running && l.cohortsDone == l.cohorts && l.windows.isEmpty && l.combine.isEmpty
  && s.records.all (fun r => r.launch != l.id) && s.units.all (fun u => u.launch != l.id)
  && s.teams.all (fun t => t.launch != l.id) && s.launchQuiet l.id && s.journalFree l.ctx

/-- Its sums retire and its entry is written (R143, R309). -/
def State.retireLaunch (s : State) (l : Launch) : State :=
  let s := (s.retireSumsOf l.id).scrambleCombine l
  (s.journal l.ctx l.slot l.rseq 0 2).mapLaunch l.id (fun l => { l with phase := .retiring })

def State.retireLaunches (s : State) : State :=
  (s.launches.filter s.canRetire).foldl (fun s l => if s.journalFree l.ctx then s.retireLaunch l else s) s

/-- APPLY_SET_MASK, in one update (R309). -/
def execApplySetMask (launch : Nat) (s : State) : Result :=
  .next (match s.launch? launch with
    | some l =>
      if l.phase = .retiring then
        let s := (s.dropLaunch launch).updateEvents l.ctx (fun e => e ||| l.setMask)
        (s.finishDestroy l.ctx).enterPlacement
      else s
    | none => s)

/-- A live launch cancelled with a cause (R311). -/
def State.cancelLaunch (s : State) (id cause : Nat) : State :=
  match s.launch? id with
  | some l =>
    if l.phase = .waiting ∨ l.phase = .running then
      (s.stopLaunch id).mapLaunch id (fun l => { l with phase := .ending true cause })
    else s
  | none => s

/-- The live launch of a slot. -/
def State.slotLaunch (s : State) (ctx slot : Nat) : Option Launch :=
  s.launches.find? (fun l => l.ctx == ctx && l.slot == slot && l.live)

/-- SLOT_CANCEL (R311). -/
def execSlotCancel (ctx slot : Nat) (s : State) : Result :=
  .next (if s.fwState = 2 then
      match s.slotLaunch ctx slot with
      | some l => s.cancelLaunch l.id 1
      | none => s
    else s)

/-- CONTEXT_DESTROY: every live launch is cancelled; the window takes no more triggers (R298). -/
def execContextDestroy (ctx : Nat) (s : State) : Result :=
  .next (if s.fwState = 2 ∧ (s.ctx ctx).valid then
      let s := (s.launches.filter (fun l => l.ctx == ctx)).foldl (fun s l => s.cancelLaunch l.id 2) s
      (s.mapCtx ctx (fun c => { c with dying := true, held := [] })).finishDestroy ctx
    else s)

/-! ### Creation (R296, R297, R362, R389) -/

/-- A region of n bytes at a die physical address lies in the memory of a present die. -/
def State.inMemory (s : State) (die dpa n : Nat) : Bool :=
  (s.die die).present && decide (dpa + n ≤ Config.capacity die)

/-- The checks of R297 on the registers of a context, with the value of CTL written. -/
def State.createBad (s : State) (c : Ctx) (v : DWord) : Bool :=
  let jsz := fld c.jrnl 59 5
  fld v 51 10 != 0 || fld v 0 16 != 0
  || fld c.btab 58 6 != 0 || fld c.btab 54 2 != 0 || fld c.btab 0 15 != 0
  || fld c.ptroot 58 6 != 0 || fld c.ptroot 54 2 != 0 || fld c.ptroot 0 9 != 0
  || fld c.jrnl 58 1 != 0 || fld c.jrnl 54 2 != 0 || decide (jsz < 10) || decide (20 < jsz)
  || fld c.jrnl 0 54 % (16 * 2 ^ jsz) != 0
  || !s.inMemory (fld c.btab 56 2) (fld c.btab 0 54) 32768 || !s.inMemory (fld c.ptroot 56 2) (fld c.ptroot 0 54) 512
  || !s.inMemory (fld c.jrnl 56 2) (fld c.jrnl 0 54) (16 * 2 ^ jsz)
  || (upto 4).any (fun k => let e := fld v (16 + 4 * k) 4
      decide (8 ≤ e) && (decide (12 ≤ e) || !(s.die (e % 8)).present))
  || (bit v 62 && !(s.hostIde && (!bit s.domain0 63 || (upto 24).all s.ports.contains)))

/-- CTL as stored: reserved bits and ERR read 0. -/
def ctlStored (v : DWord) : DWord := v &&& 0xC007FFFFFFFF0000

/-- A creation accepted: the buffer table and the launch window cleared (R302), the context's registers at their start, fresh
keys where it is confidential (R388). -/
def State.createContext (s : State) (ctx : Nat) (v : DWord) : State :=
  let c := s.ctx ctx
  let v := ctlStored v
  let v := if fld v 32 16 = 0 then v ||| (64#64 <<< 32) else v
  let s := s.dpaWrite (fld c.btab 56 2) (fld c.btab 0 54) (List.replicate 32768 0)
  let s : State := { s with stale := s.stale.filter (fun e => decide (e.ctx ≠ ctx)), serial := s.serial + 1 }
  s.mapCtx ctx (fun c =>
    { c with ctl := v, event := 0, jhead := 0, jtail := 0, seqs := [], held := [], window := [], collGen := [],
             measure := List.replicate 48 0, key := if bit v 62 then s.serial else 0, dying := false })

/-- CONTEXT_CREATE: a write of CTL with V = 1. Of a valid context it changes PRIO alone; a rejected one is stored with V at 0
and ERR set (R297). -/
def execContextCreate (ctx : Nat) (value : DWord) (s : State) : Result :=
  .next (if s.fwState ≠ 2 ∨ 64 ≤ ctx then s
    else
      let c := s.ctx ctx
      let v := value ||| (1#64 <<< 63)
      if c.valid then
        s.mapCtx ctx (fun c => { c with ctl := (c.ctl &&& ~~~(7#64 <<< 48)) ||| (v &&& (7#64 <<< 48)) })
      else if s.createBad c v then
        s.mapCtx ctx (fun c => { c with ctl := (ctlStored v &&& ~~~(1#64 <<< 63)) ||| (1#64 <<< 61) })
      else s.createContext ctx v)

/-! ### The launch window (R299 to R301) -/

/-- The line monitor sees a write of a slot's byte 127 (R299). -/
def State.trigger (s : State) (ctx slot : Nat) (value : Byte) : State :=
  let c := s.ctx ctx
  let seq := value.toNat % 128
  if value.toNat < 128 ∨ !c.valid ∨ c.dying ∨ sget 0 c.seqs slot = seq then s
  else
    State.mapCtx { s with serial := s.serial + 1 } ctx (fun c =>
      { c with held := c.held.filter (fun t => decide (t.slot ≠ slot)) ++ [⟨slot, s.serial⟩] })

/-- A byte of the launch-window region written (R300). -/
def State.windowByte (s : State) (off : Nat) (b : Byte) : State :=
  let ctx := off / 8192
  let s := s.mapCtx ctx (fun c => { c with window := sset 0 c.window (off % 8192) b })
  if off % 128 = 127 then s.trigger ctx (off % 8192 / 128) b else s

/-- LAUNCH_TRIGGER. -/
def execLaunchTrigger (ctx slot : Nat) (value : Byte) (s : State) : Result :=
  .next (if s.fwState = 2 ∧ ctx < 64 ∧ slot < 64 then s.windowByte (8192 * ctx + 128 * slot + 127) value else s)

/-! ### The parse (R301 to R306) -/

/-- Granules of a register run (R79). -/
def regRun (tbits depth : Nat) : Nat := pow2Above (ceilDiv (2 ^ tbits * (64 + 48 * depth) * 4) 16384) 8

/-- Fields of a partition word (Table 3-5). -/
def pDepth (p : Nat) : Nat := p / 2 ^ 14 % 4
def pAcc (p : Nat) : Nat := p / 2 ^ 10 % 16
def pScr (p : Nat) : Nat := p % 256
def partBad (p : Nat) : Bool :=
  p / 2 ^ 16 != 0 || p / 2 ^ 8 % 4 != 0 || decide (8 < pAcc p) || decide (128 < pScr p)

/-- Granules of a team (R80). -/
def granulesOf (tbits p : Nat) : Nat := regRun tbits (pDepth p) + pScr p + pAcc p

/-- log2 W of a width code (R11). -/
def widthBits (code : Nat) : Nat := 3 + code

def Launch.widthCode (l : Launch) : Nat := fld (dword l.words 11) 42 2
def Launch.part (l : Launch) : Nat := fld (dword l.words 12) 0 32
def Launch.teamBits (l : Launch) : Nat := l.b l.tb

/-- The limits of Table 1-2. -/
def Launch.shapeBad (l : Launch) : Bool :=
  (upto 6).any (fun k => decide (32 < fld (dword l.words 11) (6 * k) 6))
  || l.tb == 0 || decide (6 < l.tb) || decide (l.cb < l.tb) || decide (6 < l.cb)
  || decide (l.teamBits < widthBits l.widthCode) || decide (11 < l.teamBits)
  || decide (4 < l.b l.cb - l.b l.tb) || decide (32 < l.b 6 - l.b l.cb)

def recordReserved (ws : List DWord) : Bool :=
  fld (dword ws 15) 8 48 != 0 || fld (dword ws 15) 3 3 != 0 || dword ws 14 != 0 || fld (dword ws 11) 44 20 != 0

def extReserved (e : List DWord) : Bool :=
  fld (dword e 7) 16 48 != 0 || fld (dword e 5) 54 10 != 0 || fld (dword e 3) 54 10 != 0 || fld (dword e 1) 13 51 != 0

/-- Bytes the parse reads through a buffer, with no key (R303, R388). -/
def State.parseRead (s : State) (ctx slot : Nat) (ptr : DWord) (n align : Nat) : Except Cond (List Byte) :=
  match s.checked ctx slot (fld ptr 0 54) n align .load ptr with
  | .error e => .error e
  | .ok va =>
    (pieces va n (n / 65536 + 2)).foldl (fun acc q =>
      match acc with
      | .error e => .error e
      | .ok bs =>
        match s.target ctx slot ptr ((q.1 - va : Nat) : Int) 1 1 .load with
        | .error e => .error e
        | .ok x =>
          match x.page with
          | none => .error ⟨0x11, ptr⟩
          | some p =>
            (upto q.2).foldl (fun acc k =>
              match acc with
              | .error e => .error e
              | .ok bs =>
                let loc := pageLoc x.desc x.die p ((q.1 + k) % p.size)
                match s.memError loc 1 with
                | some c => .error ⟨c, 0⟩
                | none => .ok (bs ++ s.keyedBytes 0 (homeOf loc) loc 1)) (.ok bs)) (.ok [])

/-- The parts of a range that the parse reads through a pointer, each in one page: offset from the first byte, length. -/
def State.parseParts (s : State) (ctx : Nat) (ptr : DWord) (n : Nat) : List (Nat × Nat) :=
  let va := dBase (s.descOf ctx (fld ptr 54 10)) + fld ptr 0 54
  (pieces va n (n / 65536 + 2)).map (fun q => (q.1 - va, q.2))

/-- A byte of every memory line that some bytes of a page lie in. -/
def partLocs (x : Target) (n : Nat) : List Nat :=
  match x.page with
  | some p => ((upto (ceilDiv n 64)).map (fun k => 64 * k) ++ [n - 1]).map (fun k => pageLoc x.desc x.die p ((x.va + k) % p.size))
  | none => []

/-- The slices serve what the parse reads through a pointer: the tables' entries and the bytes (R301, R368, R369). -/
def State.parseFree (s : State) (ctx slot : Nat) (ptr : DWord) (n : Nat) : Bool :=
  s.pathFree ctx ptr 0
  && (s.parseParts ctx ptr n).all (fun q =>
    s.pathFree ctx ptr ((q.1 : Nat) : Int)
    && (match s.target ctx slot ptr ((q.1 : Nat) : Int) 1 1 .load with
      | .error _ => true
      | .ok x => (partLocs x q.2).all (s.placeFree x.route)))

/-- A use of a buffer by the parse (R345, R381). -/
def State.parseUse (s : State) (ctx slot : Nat) (ptr : DWord) (n : Nat) : State :=
  (s.parseParts ctx ptr n).foldl (fun s q =>
    let s := s.noteUse ctx ptr ((q.1 : Nat) : Int)
    match s.target ctx slot ptr ((q.1 : Nat) : Int) 1 1 .load with
    | .error _ => s
    | .ok x => (partLocs x q.2).foldl (fun s l => s.placeTouch x.route l) s) s

def wordsOf (bs : List Byte) : List DWord :=
  (upto (bs.length / 8)).map (fun k => BitVec.ofNat 64 (ofBytes ((bs.drop (8 * k)).take 8)))

/-- A region of the extension block that is present and fails R111. -/
def State.regionBad (s : State) (ctx slot : Nat) (ptr : DWord) (n : Nat) (kind : AKind) : Bool :=
  n != 0 && (match s.checked ctx slot (fld ptr 0 54) n 1 kind ptr with
    | .ok _ => false
    | .error _ => true)

/-- A descriptor of kinds 1 to 4 against Tables 11-1 and 11-2 and R267. -/
def State.nodeBad (s : State) (ctx : Nat) (nodes : List (List DWord)) (d : List DWord) : Bool :=
  let kind := nodeKind d
  let part := nPart d
  let team := kind == 1 || kind == 3 || kind == 4
  let ports := (upto 4).filterMap (nPort d)
  let kindOf (n : Nat) : Nat := match nodes[n]? with | some x => nodeKind x | none => 0
  kind != 0 && (
    decide (4 < kind) || dword d 6 != 0 || dword d 7 != 0 || fld (dword d 5) 52 12 != 0 || fld (dword d 4) 52 12 != 0
    || fld (dword d 3) 43 5 != 0 || fld (dword d 3) 12 4 != 0 || fld (dword d 2) 52 12 != 0
    || fld (dword d 1) 8 24 != 0 || fld (dword d 1) 2 2 != 0 || fld (dword d 0) 47 17 != 0 || fld (dword d 0) 32 7 != 0
    || (if team then
          nEntry d % 4 != 0 || decide (nTbits d < widthBits (fld (dword d 1) 0 2)) || decide (11 < nTbits d) || partBad part
          || nCoal d == 0 || decide (2 ^ nTbits d < nCoal d) || nTimer d == 0
          || (match (s.ctx ctx).vdie (nVd d) with
            | some k => !(s.die k).present || decide (Config.poolGranules k < granulesOf (nTbits d) part)
            | none => true)
        else nEntry d != 0 || dword d 1 != 0 || nCoal d != 0 || nTimer d != 0)
    || (if kind == 3 then nC0 d == 0 || decide (1024 < nP0 d) else nC0 d != 0 || nP0 d != 0 || nEff d)
    || (kind == 3 && dword d 2 != 0)
    || (kind == 4 && (nPort d 0).isNone)
    || (!(kind == 1 || kind == 2) && nOrd d) || (kind != 2 && nAuto d)
    || (if kind == 2 then
          (nStage d 0).isNone
          || (upto 7).any (fun k => (nStage d k).isNone && (nStage d (k + 1)).isSome)
          || (nStages d).any (fun n => kindOf n != 3)
          || (match (s.ctx ctx).vdie (nVd d) with | some k => !(s.die k).present | none => true)
        else dword d 4 != 0 || dword d 5 != 0)
    || ports.any (fun n => kindOf n != 1 && kindOf n != 2))

/-- Each stage node is named by exactly one stage set (R267). DESIGN CHOICE (log 25): a set that names it in two fields is refused
too. -/
def stagesBad (nodes : List (List DWord)) : Bool :=
  let named := nodes.flatMap (fun d => if nodeKind d = 2 then nStages d else [])
  (upto nodes.length).any (fun n => nodeKind (nodes.getD n []) == 3 && (named.filter (fun m => m == n)).length != 1)

/-- The launch that a slot's bytes describe, and the cause that refuses it (Table 13-4). -/
def State.parseSlot (s : State) (ctx slot : Nat) (bytes : List Byte) : Launch × Nat :=
  let c := s.ctx ctx
  let ws := wordsOf bytes
  let w15 := dword ws 15
  let extv := bit w15 7
  let ext0 := if extv then s.parseRead ctx slot (dword ws 10) 64 64 else .ok []
  let ext := match ext0 with | .ok bs => wordsOf bs | .error _ => []
  let rows := fld (dword ext 1) 0 13
  let table := if extv ∧ rows ≠ 0 then s.parseRead ctx slot (dword ext 0) (64 * rows) 1 else .ok []
  let nodes := match table with
    | .ok bs => (upto (bs.length / 64)).map (fun k => wordsOf ((bs.drop (64 * k)).take 64))
    | .error _ => []
  let l : Launch :=
    { id := s.serial, ctx := ctx, slot := slot, rseq := fld w15 56 7, jseq := c.jhead,
      prio := min (fld w15 0 3) c.prioCap, sup := bit c.trap0 62 && fld c.trap0 0 6 == slot, words := ws, ext := ext,
      nodes := nodes, eligible := false, phase := .waiting, started := false, cohortsDone := 0, teamsDone := [],
      code0 := [], codeTags := [], born := 0,
      lottery := (upto nodes.length).foldl (fun m n =>
        if nodeKind (nodes.getD n []) = 2 then sset 0 m n (lotterySeed (fld (dword ws 13) 0 32) n) else m) [],
      stats := [], windows := [], combine := [], fullSlots := [], spoiled := [], spillUsed := 0, outcomes := [] }
  let part := l.part
  let entry := dword ws 8
  let failed : Except Cond (List Byte) → Bool := fun r => match r with | .ok _ => false | .error _ => true
  let cause :=
    if l.shapeBad then 1
    else if partBad part ∨ 128 < granulesOf l.teamBits part then 2
    else if recordReserved ws ∨ extReserved ext then 3
    else if fld entry 0 54 % 4 ≠ 0 ∨ s.regionBad ctx slot entry 4 .fetch ∨ failed ext0 then 4
    else if nodes.any (s.nodeBad ctx nodes) ∨ stagesBad nodes ∨ 4096 < rows then 5
    else if (s.slotLaunch ctx slot).isSome then 6
    else if failed table ∨ s.regionBad ctx slot (dword ext 2) (fld (dword ext 3) 0 54) .store
        ∨ s.regionBad ctx slot (dword ext 4) (fld (dword ext 5) 0 54) .store
        ∨ s.regionBad ctx slot (dword ext 6) (16 * fld (dword ext 7) 0 16) .load
        ∨ fld (dword ext 3) 0 54 % 64 ≠ 0 ∨ fld (dword ext 5) 0 54 % 2048 ≠ 0 then 7
    else 0
  (l, cause)

/-- The context's oldest held trigger, when the journal has room for a parse (R301, R313). -/
def Ctx.nextParse (c : Ctx) : Option Nat :=
  match c.held with
  | [] => none
  | t :: _ => if c.valid ∧ !c.dying ∧ Config.journalRoom ≤ c.freeEntries then some t.slot else none

/-- The slot's 128 bytes. -/
def Ctx.slotBytes (c : Ctx) (slot : Nat) : List Byte := (upto 128).map (fun k => sget 0 c.window (128 * slot + k))

/-- Pointers through which the parse of some bytes reads, with the number of bytes: the extension block and, once it can be
read, the node table (R303). -/
def State.parsePtrs (s : State) (ctx slot : Nat) (bytes : List Byte) : List (DWord × Nat) :=
  let ws := wordsOf bytes
  if !bit (dword ws 15) 7 then []
  else (dword ws 10, 64) :: (match s.parseRead ctx slot (dword ws 10) 64 64 with
    | .error _ => []
    | .ok bs => [(dword (wordsOf bs) 0, 64 * fld (dword (wordsOf bs) 1) 0 13)])

/-- Buffers whose descriptors the parse checks: those of ENTRY, EXT and the regions that the extension block names (R303, R304). -/
def State.parseBuffers (s : State) (ctx slot : Nat) (bytes : List Byte) : List Nat :=
  let ws := wordsOf bytes
  let ext := if bit (dword ws 15) 7 then
      match s.parseRead ctx slot (dword ws 10) 64 64 with
      | .ok bs => [0, 2, 4, 6].map (dword (wordsOf bs))
      | .error _ => []
    else []
  (([dword ws 8] ++ (if bit (dword ws 15) 7 then [dword ws 10] else []) ++ ext).map (fun p => fld p 54 10))

/-- The parse of a slot can run: it is next, its reads are served, and its journal entry can be written. -/
def State.parseReady (s : State) (ctx slot : Nat) : Bool :=
  (s.ctx ctx).nextParse == some slot && s.journalFree ctx
  && (s.parseBuffers ctx slot ((s.ctx ctx).slotBytes slot)).all (s.descFree ctx)
  && (s.parsePtrs ctx slot ((s.ctx ctx).slotBytes slot)).all (fun p => s.parseFree ctx slot p.1 p.2)

/-- LAUNCH_PARSE (R301, R304, R314). Bytes that hold V = 0 by then are no record. -/
def execLaunchParse (ctx slot : Nat) (s : State) : Result :=
  .next (if s.parseReady ctx slot then
      let c := s.ctx ctx
      let bytes := c.slotBytes slot
      let b127 := (bytes.getD 127 0).toNat
      let s := (s.parseBuffers ctx slot bytes).foldl (fun s b => s.noteDesc ctx b) s
      let s := (s.parsePtrs ctx slot bytes).foldl (fun s p => s.parseUse ctx slot p.1 p.2) s
      let s := s.mapCtx ctx (fun c => { c with held := c.held.drop 1 })
      if b127 < 128 ∨ sget 0 c.seqs slot = b127 % 128 then s
      else
        let q := s.parseSlot ctx slot bytes
        let l := q.1
        if q.2 ≠ 0 then s.journal ctx slot l.rseq q.2 5
        else
          let s := s.journal ctx slot l.rseq 0 0
          let s : State := { s with serial := s.serial + 1, launches := s.launches ++ [l] }
          (s.mapCtx ctx (fun c =>
            { c with seqs := sset 0 c.seqs slot l.rseq, measure := sha384 (c.measure ++ bytes) })).testEligible ctx
    else s)

/-- A launch's first cohort starts: the started entry, and the code as it stands (R154, R309). -/
def State.startLaunch (s : State) (id : Nat) (flat : List Host.Cell) : State :=
  match s.launch? id with
  | some l =>
    if l.started then s
    else
      (s.journal l.ctx l.slot l.rseq 0 1).mapLaunch id (fun l =>
        { l with started := true, phase := .running, code0 := flat, codeTags := s.ktag, born := s.serial })
  | none => s

end Sys2Proof.Machine
end

