-- ==== Sys2Proof/Machine/System.lean ====
section
/-! DEFINITION. TRAP, TRET, the system registers, invalidates, resume commands and the backlog (15 R344 to R359). -/

namespace Sys2Proof.Machine

/-- TRAP raises condition 0xC0 + n with aux vA (R359). -/
def execTrap (_h : Hdr) (o : FVI) (s : State) : Result :=
  .next (s.eachLane o.g (fun _ _ r s' => s'.raise r.tid (0xC0 + o.imm.toNat) ((r.v o.a).setWidth 64)))

/-- A privileged word in a team that is not a supervisor's (R171, R357). Its group raises this at decode already. -/
def State.denied (s : State) : State :=
  match s.issue with
  | some iss => iss.tids.foldl (fun s x => s.raise x 0x03 0) s
  | none => s

def State.issueSup (s : State) : Bool := ((s.issue.bind s.viewTeam).map Team.sup).getD false

/-- TRET: v60 to v63 from the frame, then an indirect jump to its word 4 (R357). A frame beyond the scratchpad is a
scratchpad access out of range (R81; DEDUCED, log 20). -/
def execTret (_h : Hdr) (o : FN) (s : State) : Result :=
  .next (if s.issueSup then
      s.eachLane o.g (fun iss t r s' =>
        let f := t.frame r.tid
        if f < 0 then s'.raise r.tid 0x20 0
        else
          let w (k : Nat) : Word := t.readWord (f.toNat + 4 * k)
          let p : BitVec 64 := (w 4).setWidth 64
          if !s.fetchFree t p then s'.stall
          else
          match s.badTarget t r.tid p with
          | some c => s'.raise r.tid c.code c.aux
          | none =>
            (s'.mapRegs iss.team r.tid (fun q =>
              (((q.set 60 (w 0)).set 61 (w 1)).set 62 (w 2)).set 63 (w 3))).setPc iss.team r.tid p)
    else s.denied)

/-! ### Invalidates (R345, R346) -/

/-- Locations of the entries on the path to a page: by the tables as they stand and as the caches hold them. -/
def pathLocs (s : State) (ctx tdie va : Nat) : Nat → Nat → List Nat
  | n, table =>
    let ea := table + 8 * (va / 2 ^ levelShift n % levelEntries n)
    let cur := s.dpaBytes tdie ea 8
    let held := match s.stale.find? (fun c => c.ctx == ctx && c.loc == ea && !c.desc) with
      | some c => c.bytes
      | none => cur
    match n with
    | 0 => [ea]
    | m + 1 =>
      ea :: (distinct [cur, held]).flatMap (fun bs =>
        let e : DWord := BitVec.ofNat 64 (ofBytes bs)
        if bit e 62 then [] else pathLocs s ctx tdie va m (fld e 0 54 / 256 * 256))

/-- Removal of every cached entry that an invalidate covers (Table 15-7). -/
def State.dropCached (s : State) (ctx kind arg : Nat) : State :=
  let c := s.ctx ctx
  let path := if kind = 1 then pathLocs s ctx (fld c.ptroot 56 2) arg 4 (fld c.ptroot 0 54) else []
  { s with stale := s.stale.filter (fun e => !(e.ctx == ctx && (match kind with
      | 0 => !e.desc
      | 1 => !e.desc && path.contains e.loc
      | 2 => e.desc && e.loc == arg % 1024
      | _ => e.desc))) }

/-- An invalidate begins: entries removed; it waits for the accesses in flight and, of kind 2 or 3, for the engine
operations that checked a covered descriptor. -/
def State.startInval (s : State) (ctx kind arg : Nat) (sheaf : Option (Nat × Nat)) : State :=
  let s := s.dropCached ctx kind arg
  let accs := (s.accs.filter (fun a => a.ctx == ctx && !a.parked && !a.performed 6)).map Acc.id
  let ops := (s.ops.filter (fun o => o.ctx == ctx && decide (2 ≤ kind)
    && (kind == 3 || o.descs.any (fun d => fld (dword o.params d.1) 54 10 == arg % 1024)))).map Op.serial
  { s with serial := s.serial + 1, invals := s.invals ++ [⟨s.serial, ctx, kind, arg, sheaf.isNone, sheaf, accs ++ ops⟩] }

/-- Everything an invalidate waits for is performed. -/
def State.invalReady (s : State) (v : Inval) : Bool :=
  v.waitsFor.all (fun id => (match s.acc? id with | some a => a.performed 6 || a.parked | none => true)
    && (s.op? id).isNone)

/-- INVALIDATE_COMPLETE: entries cached since then are removed too; the host's count rises, or the threads go on. -/
def execInvalidateComplete (serial : Nat) (s : State) : Result :=
  .next (match s.invals.find? (fun v => v.serial == serial) with
    | some v =>
      if s.invalReady v then
        let s := s.dropCached v.ctx v.kind v.arg
        let s : State := { s with invals := s.invals.filter (fun w => decide (w.serial ≠ serial)) }
        if v.host then s.mapCtx v.ctx (fun c => { c with invdone := (c.invdone + 1) % 2 ^ 32 })
        else
          { s with teams := s.teams.map (fun t => if t.ctx = v.ctx then
              { t with threads := t.threads.map (fun x =>
                  if x.wait = .inval serial then { x with wait := .none } else x) }
            else t) }
      else s
    | none => s)

/-- INVALIDATE_TRANSLATIONS (kind 0). -/
def execInvalidateTranslations (ctx : Nat) (s : State) : Result := .next (s.startInval ctx 0 0 none)
/-- INVALIDATE_PAGE (kind 1). -/
def execInvalidatePage (ctx va : Nat) (s : State) : Result := .next (s.startInval ctx 1 va none)
/-- INVALIDATE_DESCRIPTOR (kind 2). -/
def execInvalidateDescriptor (ctx index : Nat) (s : State) : Result := .next (s.startInval ctx 2 index none)
/-- INVALIDATE_ALL_DESCRIPTORS (kind 3). -/
def execInvalidateAllDescriptors (ctx : Nat) (s : State) : Result := .next (s.startInval ctx 3 0 none)

/-- INVAL: each thread of the executing home sheaf waits until it completes and is not ready meanwhile (R357); one that waits
for something else already goes on only after both. -/
def execInval (_h : Hdr) (o : FY) (s : State) : Result :=
  .next (if s.issueSup then
      s.eachSheaf (fun iss t r s' =>
        let n := s'.serial
        (s'.startInval t.ctx o.num.toNat (fld (r.s o.s.toNat) 0 54) (some (t.id, r.sheaf))).mapTeam iss.team (fun t =>
          { t with threads := t.threads.map (fun x =>
              if x.tid / t.width = r.sheaf ∧ x.wait = .none then { x with wait := .inval n } else x) }))
    else s.denied)

/-! ### Resuming (R351, R355) -/

/-- The fault that a thread is parked on. -/
def Thread.faultPark (x : Thread) : Option Park :=
  match x.block, x.wait with
  | .ldfFault _ p, _ => some p
  | _, .parked p => if p.kind = .fault then some p else none
  | _, _ => none

/-- Threads of a record that are still parked on its fault. -/
def Team.faulted (t : Team) (tids : List Nat) : List (Nat × Park) :=
  tids.filterMap (fun x => ((t.thread? x).bind Thread.faultPark).map (fun p => (x, p)))

/-- A thread whose fault is aborted leaves the future load that met it. -/
def State.leaveFault (s : State) (team tid : Nat) : State :=
  match (s.thread? team tid).map Thread.block with
  | some (.ldfFault a _) => s.leaveLdf team tid a
  | _ => s

/-- A parked thread goes on (R57, R355): it is pooled at its replay PC; one whose future load met the fault is pooled at the PC where
it goes on once that load, which executes again, has returned (R148), unless it waits for something else. -/
def State.replayThread (s : State) (team tid stamp : Nat) (p : Park) : State :=
  match s.thread? team tid with
  | some x =>
    match x.block with
    | .ldfFault a _ =>
      let s := (s.mapAcc a (fun b => { b with parked := false })).mapThread team tid (fun x => { x with block := .ldf a })
      if x.wait = .none then s.mapTeam team (fun t => t.poolThread tid x.pc stamp) else s
    | _ => s.mapTeam team (fun t => t.poolThread tid p.rp stamp)
  | none => s

/-- A team whose threads are in the save pool or on the way there. -/
def Team.away (t : Team) : Bool :=
  match t.res with
  | .saved _ => true
  | .saving => true
  | _ => false

/-- The condition of a record taken as a trap in threads of a team: those of one word and one translated page together
(R352, R355). -/
def State.takeAborts (s : State) (team : Nat) (xs : List (Nat × Park)) : State :=
  (distinct (xs.map (fun x => (x.2.code, x.2.pc, fld x.2.aux 16 48)))).foldl (fun s k =>
    let ys := xs.filter (fun x => x.2.code == k.1 && x.2.pc == k.2.1 && fld x.2.aux 16 48 == k.2.2)
    match s.team? team with
    | none => s
    | some t =>
      let rp (x : Nat) : BitVec 64 := ((ys.find? (fun y => y.1 == x)).map (fun y => y.2.rp)).getD 0
      s.takeGroup t k.1 k.2.1 rp (ys.map (fun x => (x.1, x.2.aux))) true false) s

/-- At its restore, threads of a team take the conditions that aborts have given them meanwhile (R351). -/
def State.restoreAborts (s : State) (team : Nat) : State :=
  match s.team? team with
  | none => s
  | some t =>
    s.takeAborts team (t.threads.filterMap (fun x => match x.wait with
      | .parked p => if p.kind = .abortAtRestore then some (x.tid, p) else none
      | _ => none))

/-- A resume command (R355): parked threads are pooled and execute again, or take the condition as a trap; paused
operations go on, or end. For a thread of a saved team it takes effect at its restore (R351). -/
def State.resume (s : State) (ctx fseq : Nat) (abort : Bool) : State :=
  match (s.ctx ctx).awaits.find? (fun w => w.fseq == fseq) with
  | none => s
  | some w =>
    let s := s.mapCtx ctx (fun c => { c with awaits := c.awaits.filter (fun v => decide (v.fseq ≠ fseq)) })
    let s := w.who.foldl (fun s g =>
      match s.team? g.1 with
      | none => s
      | some t =>
        let xs := t.faulted g.2
        if abort ∧ t.away then
          xs.foldl (fun s x => (s.leaveFault g.1 x.1).park g.1 x.1 { x.2 with kind := .abortAtRestore, aborted := true }) s
        else if abort then (xs.foldl (fun s x => s.leaveFault g.1 x.1) s).takeAborts g.1 xs
        else
          let stamp := (match t.res with | .saved c => c | _ => s.cycle) + 1
          xs.foldl (fun s x => s.replayThread g.1 x.1 stamp x.2) s) s
    w.ops.foldl (fun s id =>
      match s.op? id with
      | some o => if o.paused.isNone then s else if abort then s.abortOp o none else s.mapOp id (fun o => { o with paused := none })
      | none => s) s

/-- RESUME_REPLAY. -/
def execResumeReplay (ctx fseq : Nat) (s : State) : Result := .next (s.resume ctx fseq false)
/-- RESUME_ABORT. -/
def execResumeAbort (ctx fseq : Nat) (s : State) : Result := .next (s.resume ctx fseq true)

/-! ### The queue and the backlog (R353) -/

/-- FQTAIL written: not above FQHEAD, not below its value; as counts modulo 2^32. -/
def State.tailWrite (s : State) (ctx : Nat) (v : DWord) : State :=
  let c := s.ctx ctx
  if v.toNat < 2 ^ 32 ∧ (v.toNat + 2 ^ 32 - c.fqtail) % 2 ^ 32 ≤ (c.fqhead + 2 ^ 32 - c.fqtail) % 2 ^ 32 then
    s.mapCtx ctx (fun c => { c with fqtail := v.toNat })
  else s

/-- FQTAIL_WRITE. -/
def execFqtailWrite (ctx : Nat) (value : DWord) (s : State) : Result := .next (s.tailWrite ctx value)

/-- The first backlog entry of a die whose queue has room. -/
def State.drainable (s : State) (d : Nat) : Option Report := (s.die d).backlog.find? (fun r => !(s.ctx r.ctx).fqFull)

/-- A held report of a die that can enter its backlog. -/
def State.heldEnters (s : State) (d : Nat) : Option Report :=
  ((s.ctxs.flatMap Ctx.heldReports).filter (fun r => r.die == d)).find? (fun r => (s.enterBacklog r).isSome)

def State.canDrain (s : State) (d : Nat) : Bool := (s.drainable d).isSome || (s.heldEnters d).isSome

/-- The raiser of a report that has left it goes on: its trap is taken, its launch faults, its operation completes. -/
def State.releaseRaiser (s : State) (r : Report) : State :=
  let s := r.who.foldl (fun s g => g.2.foldl (fun s x =>
    match (s.thread? g.1 x).map Thread.wait with
    | some (.parked p) =>
      match p.kind with
      | .held true => s.faultLaunch r.launch r.code
      | .held false =>
        (s.mapThread g.1 x (fun y => { y with wait := .parked { p with kind := .trap } })).tryHandler g.1 x
      | _ => s
    | _ => s) s) s
  r.ops.foldl (fun s id =>
    match s.op? id with
    | some o => (match o.final with | some v => s.completeOp o v.1 v.2 | none => s)
    | none => s) s

/-- BACKLOG_DRAIN: the oldest entry whose queue has room is written; else a held report enters the backlog. -/
def execBacklogDrain (die : Nat) (s : State) : Result :=
  .next (match s.drainable die with
    | some r =>
      (s.mapDie die (fun D => { D with backlog := D.backlog.erase r })).writeRecord r
    | none =>
      match s.heldEnters die with
      | some r =>
        match s.enterBacklog r with
        | some s' => (s'.mapCtx r.ctx (fun c => { c with heldReports := c.heldReports.erase r })).releaseRaiser r
        | none => s
      | none => s)

/-! ### System registers (Table 15-5, R357, R358) -/

/-- A word of the trap block as read. -/
def State.trapRead (s : State) (ctx word : Nat) : DWord :=
  let c := s.ctx ctx
  match word with
  | 0 => c.trap0
  | 1 => c.trap1
  | 2 => c.fq
  | 3 => BitVec.ofNat 64 c.fqhead
  | 4 => BitVec.ofNat 64 c.fqtail
  | 5 => BitVec.ofNat 64 ((if c.ovf then 2 ^ 63 else 0)
      + min 127 ((s.dies.flatMap (fun D => D.backlog.filter (fun r => r.ctx == ctx))).length))
  | 8 => BitVec.ofNat 64 c.invdone
  | _ => 0

/-- A word of the trap block written (Table 15-5). -/
def State.trapWrite (s : State) (ctx word : Nat) (v : DWord) : State :=
  match word with
  | 0 => if fld v 6 56 ≠ 0 then s else s.mapCtx ctx (fun c => { c with trap0 := v })
  | 1 => if fld v 0 2 ≠ 0 then s else s.mapCtx ctx (fun c => { c with trap1 := v })
  | 2 => if fld v 58 6 ≠ 0 ∨ fld v 54 2 ≠ 0 ∨ fld v 0 13 ≠ 0 then s else s.mapCtx ctx (fun c => { c with fq := v })
  | 4 => s.tailWrite ctx v
  | 5 => if bit v 63 then s.mapCtx ctx (fun c => { c with ovf := !c.heldReports.isEmpty }) else s
  | 6 => if fld v 32 31 ≠ 0 then s else s.resume ctx (fld v 0 32) (bit v 63)
  | 7 => if fld v 54 8 ≠ 0 then s else s.startInval ctx (fld v 62 2) (fld v 0 54) none
  | _ => s

/-- System register num as SYSRD reads it: write-only registers read 0. -/
def State.sysRead (s : State) (ctx num : Nat) : DWord :=
  if num ≤ 8 then s.trapRead ctx num
  else if 0x10 ≤ num ∧ num ≤ 0x13 then ((s.ctx ctx).event.extractLsb' (64 * (num - 0x10)) 64)
  else 0

/-- SYSRD (R357). -/
def execSysrd (_h : Hdr) (o : FY) (s : State) : Result :=
  .next (if s.issueSup then
      s.eachSheaf (fun iss t r s' => s'.setUniform iss.team r.sheaf o.s.toNat (s.sysRead t.ctx o.num.toNat))
    else s.denied)

/-- A line whole written with zeros at its home slice, as a store, and its marks cleared (R370, R386). -/
def State.zeroLine (s : State) (key line : Nat) : State :=
  let locs := lineLocs line
  let s : State := { s with lost := s.lost.filter (fun l => decide (l ≠ line)) }
  let s := (s.retireAt locs).spoil locs
  let s := (upto 4).foldl (fun s k => s.rekey key (line * 256 + 64 * k)) s
  (s.homeWrite (wholeWrites (line * 256) (List.replicate 256 0)) 0).1

/-- SYSWR of LCLR (R358). An owner kind of 3, whose line is another device's, fails as a buffer that is not the context's
(DEDUCED, log 20). -/
def State.lclr (s : State) (t : Team) (r : Reads) (ptr : DWord) : State :=
  if !s.pathFree t.ctx ptr 0 then s.stall
  else
  match s.target t.ctx (s.slotOf t) ptr 0 1 1 .store with
  | .error e => s.refuse t r.tid ptr 0 e
  | .ok x =>
    let s := s.noteUse t.ctx ptr 0
    match x.route with
    | .remote _ _ => s.raise r.tid 0x11 ptr
    | .host => s.putHost (wholeWrites (x.loc / 256 * 256) (List.replicate 256 0))
    | _ =>
      if !s.placeFree x.route x.loc then s.stall
      else if (lineLocs (lineOf x.loc)).any (fun l => s.poison.contains (secOf l)) then
        s.raise r.tid 0x31 (BitVec.ofNat 64 x.va)
      else (if x.route = .strm then s.noteStrm x.loc else s).zeroLine (s.keyOf t.ctx .coherent) (lineOf x.loc)

/-- SYSWR: the effect of a host write of the register (R357). -/
def execSyswr (_h : Hdr) (o : FY) (s : State) : Result :=
  .next (if s.issueSup then
      s.eachSheaf (fun _ t r s' =>
        let v := r.s o.s.toNat
        let num := o.num.toNat
        if num ≤ 8 then s'.trapWrite t.ctx num v
        else if 0x14 ≤ num ∧ num ≤ 0x17 then s'.updateEvents t.ctx (fun e => e ||| eventBits (num - 0x14) v)
        else if num = 0x18 then s'.lclr t r v
        else s')
    else s.denied)

end Sys2Proof.Machine
end

