-- ==== Sys2Proof/Machine/Dies.lean ====
section
/-! DEFINITION. Die resets, lost marks and buffer migration (16 R369 to R372). -/

namespace Sys2Proof.Machine

/-! ### Lost marks (R370) -/

/-- A line's mark set; each mark adds one to its home die's count. -/
def State.markLost (s : State) (line : Nat) : State :=
  if s.lost.contains line then s
  else { s with lost := insertNat line s.lost }.mapDie (lineHome line) (fun D => { D with lostcnt := sat32 (D.lostcnt + 1) })

/-- A line lost while the device runs: what is under way to it takes its place first (R348; DEDUCED, log 20). -/
def State.loseLine (s : State) (line : Nat) : State := (s.flush (fun sec => sec / 4 == line)).markLost line

/-- LOSTCLR: the line is written with zeros and its mark cleared. A line with a poisoned memory line is not written
(R386); one that the host holds modified comes back first (R368). -/
def execLostclr (die : Nat) (value : DWord) (s : State) : Result :=
  .next (
    let line := lineOf (dpaLoc die (fld value 0 54))
    if fld value 54 10 ≠ 0 ∨ !s.inMemory die (fld value 0 54) 1 ∨ !s.slicesFree [line * 256] then s
    else if (lineLocs line).any (fun l => s.poison.contains (secOf l)) then s
    else s.zeroLine 0 line)

/-! ### Resets (R369, R370) -/

/-- Lines that some rows of an L2 hold. -/
def linesOf (l2 : Sparse Sector) : List Nat := distinct (l2.map (fun r => r.1 / 4))

/-- A team holds nothing of its die: it was discarded and its operations have completed (R332). -/
def State.offDie (s : State) (t : Team) : Bool :=
  t.res == .discarded && t.mops.isEmpty && s.ops.all (fun o => o.team != t.id)

/-- An orderly reset is accepted: nothing of any context is on the die. -/
def State.mayReset (s : State) (d : Nat) : Bool :=
  let D := s.die d
  D.present && D.state == 1 && D.spused == 0 && s.teams.all (fun t => t.die != d || s.offDie t)
  && s.launches.all (fun l => !l.live || (upto l.nodes.length).all (fun n =>
      nodeKind (l.node n) == 0 || s.nodeDie l.id n != some d))

/-- The die's own dirty sectors go back, lines of other dies are given up, and every owner of one of its lines is
recalled: no byte is lost. -/
def State.writeBackDie (s : State) (d : Nat) : State :=
  let s := s.retireAt ((s.die d).sums.map ExactSum.loc)
  let s := (linesOf (s.die d).l2).foldl (fun s line =>
    if lineHome line = d then s.evictLine d line else s.recall d line) s
  let s := (s.die d).dir.foldl (fun s r => s.homeRecall r.1) s
  { s with fills := s.fills.filter (fun f => f.die != d) }

/-- DIE_RESET_ORDERLY: a write of KIND 1. -/
def execDieResetOrderly (die : Nat) (s : State) : Result :=
  .next (if s.mayReset die then
      (s.writeBackDie die).mapDie die (fun D => { D with state := 2, since := s.cycle, l1 := [] })
    else s)

/-- Launches with a team resident or saved on a die, or a fabric team of a node bound to it. -/
def State.launchesOn (s : State) (d : Nat) : List Nat :=
  distinct ((s.teams.filter (fun t => t.die == d && (!s.offDie t || t.node.isSome))).map Team.launch
    ++ (s.units.filter (fun u => u.die == some d && (match u.kind with | .fabric _ _ => true | _ => false))).map WaitUnit.launch)

/-- A store of a killed team that had not been package-performed (R370): applied whole, every die's copy recalled or
invalidated, where its line is not lost with the die. On the die's own lines either outcome may be: lost with the line, which
another die's copy then is not. -/
def State.settleStore (s : State) (d : Nat) (a : Acc) : State :=
  let s := s.dropAcc a.id
  if a.kind = .store ∧ a.route = .coherent ∧ !a.pkg then
    let keep := a.wrote.filter (fun w => homeOf w.1 != d && (s.dirOf (lineOf w.1)).of d != .m)
    let own := a.wrote.filter (fun w => homeOf w.1 == d)
    let s := (s.homeWrite keep 0).1
    if own.isEmpty then s
    else
      let n := s.freeCtr
      let s : State := { s with freeCtr := n + 1 }
      if Config.freeChoice n % 2 = 0 then
        (distinct (own.map (fun w => lineOf w.1))).foldl State.dropHome (s.homeWrite own 0).1
      else (distinct (own.map (fun w => lineOf w.1))).foldl State.loseLine s
  else s

/-- Lines that a restart after an abrupt reset marks: those for which the die's L2 holds a dirty sector, or a home slice of
it an exact sum (log 23). -/
def State.restartLost (s : State) (d : Nat) : List Nat :=
  let D := s.die d
  distinct ((D.l2.filter (fun r => homeOf (r.1 * 64) == d && r.2.dirty)).map (fun r => r.1 / 4)
    ++ (D.sums.filter ExactSum.held).map (fun e => lineOf e.loc))

/-- An abrupt reset begins: launches with work on the die fault; its engines stop; other dies' slices treat it as I and
mark what it held in M. Its own directory and dirty tags stay until it restarts. -/
def State.abruptReset (s : State) (d : Nat) : State :=
  let s := (s.launchesOn d).foldl (fun s id => s.faultLaunch id 0x30) s
  let s : State := { s with
    ops := s.ops.filter (fun o => o.die != d),
    teams := s.teams.map (fun t => if t.die = d then { t with mops := [] } else t),
    fills := s.fills.filter (fun f => f.die != d),
    accs := s.accs.map (fun a => if a.kind = .ldf ∧ a.parked ∧ a.inTable ∧ a.route = .strm ∧ homeOf a.loc = d then
      { a with parked := false, inTable := false } else a) }
  let s := (s.accs.filter (fun a => a.die == d && a.kind == .store && a.route == .coherent)).foldl
    (fun s a => s.settleStore d a) s
  let s := s.flush (fun sec => (s.restartLost d).contains (sec / 4))
  let s := (upto 4).foldl (fun s h =>
    if h = d then s
    else
      (s.die h).dir.foldl (fun s r =>
        match r.2.of d with
        | .i => s
        | .m => (s.loseLine r.1).setDirDie r.1 d .i
        | _ => s.setDirDie r.1 d .i) s) s
  s.mapDie d (fun D =>
    { D with state := 3, since := s.cycle, l1 := [], l2 := D.l2.filter (fun r => homeOf (r.1 * 64) == d),
             reserves := [], drainFit := [] })

/-- DIE_RESET_ABRUPT: a write of KIND 2. -/
def execDieResetAbrupt (die : Nat) (s : State) : Result :=
  .next (if (s.die die).present ∧ (s.die die).state = 1 then s.abruptReset die else s)

/-- FATAL_DIE_ERROR: the device starts an abrupt reset on its own. -/
def execFatalDieError (die : Nat) (s : State) : Result :=
  .next (if (s.die die).present ∧ (s.die die).state = 1 then s.abruptReset die else s)

/-- A die between the start of its reset and its return: STATE 2 or 3, then 4. -/
def State.resetting (s : State) (d : Nat) : Bool := decide (2 ≤ (s.die d).state)

/-- DIE_RESET_COMPLETE: the die restarts, STATE 4, and marks the lines that its retention array names; then it runs, STATE 1. -/
def execDieResetComplete (die : Nat) (s : State) : Result :=
  .next (if !s.resetting die then s
    else if (s.die die).state ≠ 4 then
      ((s.restartLost die).foldl State.markLost s).mapDie die (fun D => { D with state := 4, l1 := [], l2 := [], sums := [] })
    else
      let s : State := { s with records := s.records.map (fun r =>
        if s.nodeDie r.launch r.node = some die then { r with stamp := 0 } else r) }
      s.mapDie die (fun D =>
        { D with state := 1, since := s.cycle, fired := (0, 0), stageOut := (0, 0), byAge := [] }))

/-! ### Migration (R371, R372) -/

/-- The descriptor a migration would write. -/
def State.newDesc (s : State) (ctx : Nat) : List DWord :=
  let c := s.ctx ctx
  let d := s.descOf ctx (fld c.mbuf 0 10)
  let w0 := (dword d 0 &&& ~~~(BitVec.ofNat 64 (2 ^ 54 - 1))) ||| (c.mbase &&& BitVec.ofNat 64 (2 ^ 54 - 1))
  [w0, dword d 1, dword d 2, c.mplace]

/-- Accesses and operations past the port on a buffer. Future loads wait at it with the later ones. -/
def State.pastPort (s : State) (ctx buf : Nat) : List Nat :=
  ((s.accs.filter (fun a => a.ctx == ctx && a.buffer / 2 ^ 54 == buf && a.kind != .ldf && !a.performed 6)).map Acc.id)
  ++ (s.ops.filter (fun o => o.ctx == ctx && o.descs.any (fun d => fld (dword o.params d.1) 54 10 == buf))).map Op.serial

/-- A migration ends: the held accesses are released. -/
def State.endMigration (s : State) (ctx status : Nat) : State :=
  let buf := fld (s.ctx ctx).mbuf 0 10
  let s := s.mapCtx ctx (fun c =>
    { c with mbusy := false, mstatus := status, mwait := [], mdone := if status = 0 then (c.mdone + 1) % 2 ^ 32 else c.mdone })
  { s with accs := s.accs.map (fun a => if a.ctx = ctx ∧ a.kind = .ldf ∧ a.inTable ∧ a.buffer / 2 ^ 54 = buf then
      { a with parked := false, inTable := false } else a) }

/-- MIGRATION_START: a write of the word that holds GO and BUF; a placement that fails the check stops it at once. -/
def execMigrationStart (ctx : Nat) (value : DWord) (s : State) : Result :=
  .next (
    let c := s.ctx ctx
    if s.fwState ≠ 2 ∨ c.mbusy then s
    else
      let s := s.mapCtx ctx (fun c => { c with mbuf := value &&& 0x3FF })
      if !bit value 63 ∨ !c.valid then s
      else if descInvalid c (s.newDesc ctx) then s.mapCtx ctx (fun c => { c with mstatus := 1 })
      else
        let w := s.pastPort ctx (fld value 0 10)
        s.mapCtx ctx (fun c => { c with mbusy := true, mwait := w }))

/-- Location and page of an offset of a buffer, translated as a read. -/
def State.bufferPage (s : State) (ctx : Nat) (d : List DWord) (off : Nat) : Option (Page × Nat) :=
  let die := ((s.ctx ctx).vdie (dVd d)).getD 0
  match s.translate ctx die (dBase d + off) .load with
  | .ok p => some (p, pageLoc d die p ((dBase d + off) % p.size))
  | .error _ => none

/-- Everything that the copy of a buffer reads and writes, walks and the descriptor among it, can be served: the slices run, and
a line that the host holds modified has come back first (R368, R369). -/
def State.migrationFree (s : State) (ctx : Nat) : Bool :=
  let c := s.ctx ctx
  let buf := fld c.mbuf 0 10
  let place (d : List DWord) (off : Nat) : Bool :=
    s.slicesFree (walkLocs s ctx (fld c.ptroot 56 2) (dBase d + off) 4 (fld c.ptroot 0 54))
    && (match s.bufferPage ctx d off with
      | some q => s.placeFree (pageRoute q.1) q.2
      | none => true)
  s.descFree ctx buf
  && (upto (ceilDiv (dLimit (s.descOf ctx buf)) 256)).all (fun k =>
    place (s.descOf ctx buf) (256 * k) && place (s.newDesc ctx) (256 * k))

/-- Everything a migration waits for is performed at package scope, and the home slices it needs serve it. -/
def State.canMigrate (s : State) (ctx : Nat) : Bool :=
  let c := s.ctx ctx
  c.mbusy && c.valid && c.mwait.all (fun id =>
    (match s.acc? id with | some a => a.performed 6 | none => true) && (s.op? id).isNone)
  && s.migrationFree ctx

/-- One piece of up to 256 bytes copied raw, as the context's key reads them; or the status that stops the copy, a mark
of the source copied to the destination first. DESIGN CHOICE (log 25): the raw copy does not stop on pages of one GEOM that R100
refuses, for which Table 16-6 has no status. -/
def State.copyPiece (s : State) (ctx : Nat) (old new : List DWord) (off n : Nat) : State × Nat :=
  let s := (s.noteWalk ctx (dBase old + off)).noteWalk ctx (dBase new + off)
  match s.bufferPage ctx old off, s.bufferPage ctx new off with
  | some (p, x), some (q, y) =>
    if p.fmt ≠ q.fmt ∨ p.geom ≠ q.geom ∨ p.strm ≠ q.strm then (s, 2)
    else
      let xs := (upto n).map (fun k => x + k)
      match xs.findSome? (fun l => s.memError l 1) with
      | some 0x30 => (s.loseLine (lineOf y), 3)
      | some _ =>
        ((upto 4).foldl (fun s k => if s.poison.contains (secOf x + k) then s.poisonLine (y + 64 * k) else s) s, 4)
      | none =>
        match (upto n).findSome? (fun k => s.memError (y + k) 1) with
        | some 0x30 => (s, 3)
        | some _ => (s, 4)
        | none =>
          let src := s.keyOf ctx (pageRoute p)
          let dst := s.keyOf ctx (pageRoute q)
          let bs := xs.map (fun l => (s.viewLine src (secOf l) (s.truthBytes (secOf l * 64) 64)).getD (l % 64) 0)
          let secs := distinct ((upto n).map (fun k => secOf (y + k)))
          let s := s.retireAt ((upto n).map (fun k => y + k))
          let s := (distinct (xs.map secOf)).foldl (fun s k => s.placeTouch (pageRoute p) (k * 64)) s
          let s := if q.strm then s.noteStrm y else s
          let s := (secs.foldl (fun s k => s.rekey dst (k * 64)) s).spoil ((upto n).map (fun k => y + k))
          ((s.homeWrite (wholeWrites y bs) 0).1, 0)
  | _, _ => (s, 5)

/-- The copy of LIMIT bytes, piece by piece, to its first stop. -/
def State.copyBuffer (s : State) (ctx : Nat) (old new : List DWord) (limit : Nat) : Nat → Nat → State × Nat
  | 0, _ => (s, 0)
  | n + 1, off =>
    if limit ≤ off then (s, 0)
    else
      let q := s.copyPiece ctx old new off (min 256 (limit - off))
      if q.2 ≠ 0 then q else q.1.copyBuffer ctx old new limit n (off + 256)

/-- MIGRATION_COMPLETE: steps 3 to 6 of R372. -/
def execMigrationComplete (ctx : Nat) (s : State) : Result :=
  .next (if s.canMigrate ctx then
      let c := s.ctx ctx
      let buf := fld c.mbuf 0 10
      let old := s.descOf ctx buf
      let new := s.newDesc ctx
      let limit := dLimit old
      let locs := s.dies.flatMap (fun D => D.sums.map ExactSum.loc)
      let inRange := locs.filter (fun l => (upto (ceilDiv limit 256)).any (fun k =>
        match s.bufferPage ctx old (256 * k) with
        | some q => decide (q.2 ≤ l) && decide (l < q.2 + 256)
        | none => false))
      let q := (s.retireAt inRange).copyBuffer ctx old new limit (limit / 256 + 1) 0
      if q.2 ≠ 0 then q.1.endMigration ctx q.2
      else
        let row := fld c.btab 0 54 + 32 * buf
        let w0 := (s.dpaWord (fld c.btab 56 2) row).toNat
        let s := q.1.dpaWrite (fld c.btab 56 2) row (toBytes (w0 / 2 ^ 54 * 2 ^ 54 + fld c.mbase 0 54) 8)
        let s := s.dpaWrite (fld c.btab 56 2) (row + 24) (toBytes c.mplace.toNat 8)
        (s.dropCached ctx 2 buf).endMigration ctx 0
    else s)

end Sys2Proof.Machine
end

