-- ==== Sys2Proof/Machine/Devices.lean ====
section
/-! DEFINITION. Hot rows, errors of memory and of the on-chip arrays, attestation, firmware and power
(17 R380 to R393). -/

namespace Sys2Proof.Machine

/-! ### Hot rows (R382, R383) -/

def Die.noteHot (D : Die) : Die := { D with alert := true, msix := D.sends D.alert, rfmcnt := sat32 (D.rfmcnt + 1) }

/-- A bank of a channel whose count has reached the threshold: its key and the row that reached it (R382). -/
def Die.hotBank (D : Die) : Option (Nat × Nat) :=
  (D.acts.find? (fun r => decide (D.hotth ≤ r.2.1))).map (fun r => (r.1, r.2.2))

/-- The bank of a channel that is over the threshold, for a row when one is named. -/
def Die.hotIn (D : Die) (channel : Nat) (row : Option Nat) : Option Nat :=
  (D.acts.find? (fun r => decide (D.hotth ≤ r.2.1) && r.1 / 2 ^ 16 == channel
    && (match row with | some x => r.2.2 == x | none => true))).map Prod.fst

/-- The 16 memory lines of a row enter the channel's slice. -/
def State.captureRow (s : State) (die channel row : Nat) : State :=
  (upto 16).foldl (fun s k =>
    let sec := secOf (locOf die channel (row * 1024 + 64 * k))
    if (sfind (s.die die).slice sec).isSome then s else s.sliceTakes sec false) s

/-- HOT_ROW_THRESHOLD of an HBM4E bank: refresh-management, the row captured to the end of the next window unless the channel's
slice pins 64 rows, and the bank's count restarted (R382). -/
def execHotRowThreshold (die channel row : Nat) (s : State) : Result :=
  .next (match (s.die die).hotIn channel (some row) with
    | some bank =>
      if Config.isM die then s
      else
        let s := s.mapDie die (fun D => { D.noteHot with acts := serase D.acts bank })
        let mine := (s.die die).captured.filter (fun r => r.1 == channel)
        if mine.any (fun r => r.2.1 == row) then s
        else if mine.length < Config.pinnedRows then
          (s.mapDie die (fun D =>
            { D with captured := D.captured ++ [(channel, row, 2)], capcnt := sat32 (D.capcnt + 1) })).captureRow die channel row
        else s.mapDie die (fun D => { D with capfull := true, msix := D.sends D.capfull })
    | none => s)

/-- GDDR7_HOT_ROW_THRESHOLD: refresh-management, the bank's count restarted; nothing is captured (R383). -/
def execGddr7HotRowThreshold (die channel : Nat) (s : State) : Result :=
  .next (match (s.die die).hotIn channel none with
    | some bank => if Config.isM die then s.mapDie die (fun D => { D.noteHot with acts := serase D.acts bank }) else s
    | none => s)

/-- The captured rows that a window's end releases. -/
def Die.released (D : Die) : List (Nat × Nat) := (D.captured.filter (fun r => decide (r.2.2 ≤ 1))).map (fun r => (r.1, r.2.1))

/-- REFRESH_WINDOW_END: every count returns to 0; rows captured in the window before are released, their dirty lines written
back. -/
def execRefreshWindowEnd (die : Nat) (s : State) : Result :=
  .next (
    let s := s.mapDie die (fun D => { D with acts := [] })
    let rows := (s.die die).released
    let back := (s.die die).slice.filter (fun r => r.2 && rows.any (fun x => x.1 == channelOf (r.1 * 64) && x.2 == rowOf (r.1 * 64)))
    let s := back.foldl (fun s r => s.activate die (r.1 * 64)) s
    s.mapDie die (fun D =>
      { D with slice := back.foldl (fun m r => sinsert m r.1 false) D.slice,
               captured := (D.captured.map (fun r => (r.1, r.2.1, r.2.2 - 1))).filter (fun r => decide (0 < r.2.2)) }))

/-! ### Errors (R384 to R387) -/

/-- A memory line was repaired before the request was served (R385). -/
def State.corrected (s : State) (loc : Nat) : State :=
  s.mapDie (homeOf loc) (fun D => { D with cwdcnt := sat32 (D.cwdcnt + 1), lastcwd := placeWord loc, cwd := true, msix := D.sends D.cwd })

/-- Some L2 of the package holds the memory line clean. -/
def State.cleanCopy (s : State) (sec : Nat) : Bool :=
  (upto 4).any (fun d => match s.sector d sec with
    | some x => x.full && !x.dirty
    | none => false)

/-- The eight memory lines of a line's parity group: one chaddr of eight channels (R384). -/
def parityGroup (sec : Nat) : List Nat :=
  let ch := sec / 2 ^ 48 % 256
  (upto 8).map (fun k => sec / 2 ^ 56 * 2 ^ 56 + (ch / 8 * 8 + k) * 2 ^ 48 + sec % 2 ^ 48)

/-- XOR of memory lines. -/
def State.xorLines (s : State) (secs : List Nat) : List Byte :=
  (upto 64).map (fun j => secs.foldl (fun b x => b ^^^ byteAt s.mem (x * 64 + j)) 0)

/-- The parity line of a group (R384), which the controller keeps with every write to memory: what it holds is always this. -/
def State.parityLine (s : State) (sec : Nat) : List Byte := s.xorLines (parityGroup sec)

/-- A line rebuilt from the seven others of its group and the parity line. -/
def State.rebuiltLine (s : State) (sec : Nat) : List Byte :=
  List.zipWith (· ^^^ ·) (s.xorLines ((parityGroup sec).filter (fun x => x != sec))) (s.parityLine sec)

/-- A memory line written with new check bits. -/
def State.putLine (s : State) (sec : Nat) (v : List Byte) : State := { s with mem := putBytes s.mem (sec * 64) v }

/-- A read met an uncorrectable error in a memory line (R385): a clean copy, in the memory-side cache or an L2, or the parity
group gives its value; `group` says that another of its lines or the parity line fails as well. A slice line noted as
dirty has freely been written back before, and else serves the read. -/
def State.repair (s : State) (sec : Nat) (group : Bool) : State :=
  let d := homeOf (sec * 64)
  let v := bytesAt s.mem (sec * 64) 64
  if s.poison.contains sec then s
  else
    match sfind (s.die d).slice sec with
    | some false => (s.putLine sec v).corrected (sec * 64)
    | some true =>
      let s' : State := { s with freeCtr := s.freeCtr + 1 }
      if Config.freeChoice s.freeCtr % 2 = 0 then s' else (s'.putLine sec v).corrected (sec * 64)
    | none =>
      if s.cleanCopy sec then (s.putLine sec v).corrected (sec * 64)
      else if !Config.isM d && !group && (parityGroup sec).all (fun x => !s.poison.contains x) then
        (s.putLine sec (s.rebuiltLine sec)).corrected (sec * 64)
      else s.poisonLine (sec * 64)

/-- The team's storage lies in an SRAM pool. -/
def Team.holdsPool (t : Team) : Bool :=
  match t.res with
  | .resident => true
  | .draining _ => true
  | .saving => true
  | _ => false

/-- SOFT_ERROR (R387; of a memory line R385). Lines are memory lines of 64 bytes. -/
def execSoftError (e : SoftError) (s : State) : Result :=
  .next (match e with
    | .singleBit => s
    | .cleanCopy die line =>
      match s.sector die line with
      | some x =>
        if x.dirty then s
        else s.mapDie die (fun D =>
          { D with l2 := serase D.l2 line, l1 := D.l1.filter (fun r => decide (r.1 % 2 ^ 80 ≠ line)) })
      | none => s.mapDie die (fun D => { D with l1 := D.l1.filter (fun r => decide (r.1 % 2 ^ 80 ≠ line)) })
    | .dirtyLine die line =>
      match s.sector die line with
      | some x =>
        if x.dirty then
          (s.mapDie die (fun D =>
            { D with l2 := serase D.l2 line, l1 := D.l1.filter (fun r => decide (r.1 % 2 ^ 80 ≠ line)) })).poisonLine (line * 64)
        else s
      | none => s
    | .sliceLine die line =>
      match sfind (s.die die).slice line with
      | some dirty =>
        let s := s.mapDie die (fun D => { D with slice := serase D.slice line })
        if dirty then s.poisonLine (line * 64) else s
      | none => s
    | .teamStorage team =>
      match s.team? team with
      | some t => if t.holdsPool then s.faultLaunch t.launch 0x31 else s
      | none => s
    | .storedRecord record =>
      match s.record? record with
      | some r => if r.stored then s.faultLaunch r.launch 0x31 else s
      | none => s
    | .memoryLine die line group => if homeOf (line * 64) = die ∧ (s.die die).present then s.repair line group else s)

/-- PCLR (R386): zeros to the memory line as a store, its mark cleared; it waits for a host that holds the line modified
(R368). -/
def execPclr (die : Nat) (value : DWord) (s : State) : Result :=
  .next (
    let ch := fld value 56 8
    let a := fld value 0 48
    let loc := locOf die ch (a / 64 * 64)
    if fld value 48 8 ≠ 0 ∨ !(s.die die).present ∨ Config.channels die ≤ ch ∨ Config.capacity die / Config.channels die ≤ a
        ∨ (s.die die).state ≠ 1 ∨ (s.dirOf (lineOf loc)).host = .hm then s
    else
      let locs := (upto 64).map (fun k => loc + k)
      let s : State := { s with poison := s.poison.filter (fun x => decide (x ≠ secOf loc)) }
      let s := ((s.retireAt locs).spoil locs).rekey 0 loc
      (s.homeWrite (wholeWrites loc (List.replicate 64 0)) 0).1)

/-! ### Attestation (R390) -/

/-- ATTESTATION_REQUEST: a write of the word that holds ATTGO and ATTCTX. -/
def execAttestationRequest (value : DWord) (s : State) : Result :=
  .next (if bit value 63 ∧ s.attStat ≠ 1 then { s with attStat := 1, attCtx := fld value 0 6 } else s)

/-- What a report states, in the order of R390 (log 14). -/
def State.reportBody (s : State) : List Byte :=
  let c := s.ctx s.attCtx
  s.attNonce ++ sha384 s.fwImage.bytes ++ toBytes s.fwSvn 2
  ++ toBytes ((upto 4).foldl (fun n d => if (s.die d).present then n + 2 ^ d else n) 0) 1
  ++ toBytes s.domain0.toNat 8 ++ toBytes s.attCtx 1 ++ toBytes (if c.conf then 1 else 0) 1 ++ c.measure

/-- ATTESTATION_COMPLETE: two signatures, or a refusal when the context is not valid or no one-time key is left. -/
def execAttestationComplete (s : State) : Result :=
  .next (if s.attStat = 1 then
      if (s.ctx s.attCtx).valid ∧ 0 < s.lmsLeft then
        let b := s.reportBody
        { s with attStat := 2, attReport := b ++ Config.signEcdsa b ++ Config.signLms s.lmsLeft b, lmsLeft := s.lmsLeft - 1 }
      else { s with attStat := 3 }
    else s)

/-! ### Firmware and power (R391 to R393) -/

/-- FWERR of an image; 0 when it is verified. -/
def verifyImage (i : Image) : Nat :=
  if !i.wellFormed then 4 else if !i.ecdsa then 1 else if !i.lms then 2 else if i.svn < Config.minSvn then 3 else 0

/-- Steps 3 to 5 of Table 17-3 once an image is verified: every memory line is written with zeros. -/
def State.startFirmware (s : State) (i : Image) : State :=
  { s with
    fwState := 2, fwErr := 0, fwSvn := i.svn, fwImage := i, verifying := none,
    mem := s.mem.filter (fun c => decide (hostBase ≤ c.1)), lost := [], poison := [], ktag := [] }

/-- Verification begins (step 2 of Table 17-3, R391). -/
def State.verify (s : State) (i : Image) : State := { s with fwState := 1, verifying := some i }

/-- Verification ends: the image started, or the recovery state with its reason. -/
def State.boot (s : State) (i : Image) : State :=
  if verifyImage i = 0 then s.startFirmware i
  else { s with fwState := 3, fwErr := verifyImage i, verifying := none }

/-- What the boot ROM finds of the bytes of an image. -/
def imageOf (bs : List Byte) : Image :=
  let f := Config.imageFacts bs
  ⟨f.1, f.2.1, f.2.2.1, f.2.2.2, bs⟩

/-- Power off: every register at its reset value; host memory, the one-time keys used and the module's image stay, unless the
host has replaced that through the running firmware (R391). -/
def State.powerOff (s : State) : State :=
  let image := match s.fwState, Config.replacedImage s.freeCtr with
    | 2, some bs => imageOf bs
    | _, _ => s.moduleImage
  { State.reset with
    serial := s.serial, freeCtr := s.freeCtr + 1, inputs := s.inputs, moduleImage := image, lmsLeft := s.lmsLeft,
    mem := s.mem.filter (fun c => decide (hostBase ≤ c.1)) }

/-- POWER_ON: the steps of Table 17-3: the boot ROM verifies the module's image, FWSTATE 1; the next such step ends the
verification, a recovery image's too. Power that comes back to a running part starts over. -/
def execPowerOn (s : State) : Result :=
  .next (match s.fwState, s.verifying with
    | 0, _ => State.verify { s with lmsLeft := Config.lmsKeys } s.moduleImage
    | 1, some i => s.boot i
    | _, _ => s.powerOff.verify s.powerOff.moduleImage)

/-- A write of RCVLEN in the recovery state verifies an image. One longer than the window is malformed (DEDUCED, log 15). -/
def State.recover (s : State) (value : DWord) (image : Image) : State :=
  if s.fwState = 3 then s.verify { image with wellFormed := image.wellFormed && decide (fld value 0 27 ≤ 2 ^ 26) } else s

/-- RECOVERY_IMAGE_LOAD: RCVLEN written with an image in the window (log 15). -/
def execRecoveryImageLoad (value : DWord) (image : Image) (s : State) : Result := .next (s.recover value image)

/-- RCVLEN written by itself: the image is what the window holds (R391). -/
def State.recoverWindow (s : State) (value : DWord) : State :=
  s.recover value (imageOf ((upto (min (fld value 0 27) (2 ^ 26))).map (fun k => sget 0 s.rcvWindow k)))

/-- CLOCK_THROTTLE: steps of 100 MHz down to 500, and up again to 1,100 (R1, R393). -/
def execClockThrottle (limitsHold : Bool) (s : State) : Result :=
  .next { s with clock := if limitsHold then min 1100 (s.clock + 100) else max 500 (s.clock - 100) }

end Sys2Proof.Machine
end

