-- ==== Sys2Proof/Machine/FabricEvents.lean ====
section
/-! DEFINITION. The fabric's own events: arrivals, eligibility by age, firings, returns from the spill region, held records
placed (11 R269 to R272). -/

namespace Sys2Proof.Machine

/-! ### Arrival (R269) -/

/-- Records of one sender to one node, and of one issue, arrive in the order sent (R269). DESIGN CHOICE (log 25): records that an
ordered node releases to one node arrive in release order through whichever of its ports. -/
def inSendOrder (r q : Record) : Bool :=
  !(decide (q.id < r.id) && q.node == r.node && q.launch == r.launch && (q.place == .moving || q.place == .heldBack)
    && ((q.sender == r.sender && ordSender r.sender) || (q.issue == r.issue && ordSender q.sender && ordSender r.sender)))

def State.canArrive (s : State) (r : Record) : Bool :=
  r.place == .moving
  && (match s.nodeDie r.launch r.node with
    | some d => (s.die d).state == 1 && !s.hasFired d
    | none => false)
  && !s.sentLate r && s.records.all (inSendOrder r)

/-- RECORD_ARRIVAL. -/
def execRecordArrival (record : Nat) (s : State) : Result :=
  .next (match s.record? record with
    | some r => if s.canArrive r then s.arriveRecord record else s
    | none => s)

/-! ### Bins (R270, R271) -/

/-- The records in a node's bin, in arrival order: a stage's bin holds its set's records. -/
def State.binOf (s : State) (l : Launch) (n : Nat) : List Record :=
  match nodeKind (l.node n) with
  | 3 => match l.setOf n with
    | some (m, k) => s.stageBin l.id m k
    | none => []
  | 2 => []
  | 0 => []
  | _ => s.records.filter (fun r => r.launch == l.id && r.node == n && r.place == .binned)

/-- The bin's oldest record has reached TIMER. -/
def State.binAged (s : State) (l : Launch) (n d : Nat) : Bool :=
  match s.binOf l n with
  | r :: _ => decide (r.stamp + nTimer (l.node n) ≤ s.dispatch d)
  | [] => false

def State.canAge (s : State) (l : Launch) (n : Nat) : Bool :=
  match s.nodeDie l.id n with
  | some d => (s.die d).state == 1 && s.binAged l n d && !((s.die d).byAge.any (fun b => b.2.1 == l.id && b.2.2 == n))
  | none => false

/-- BIN_AGE_ELIGIBLE: the bin takes its place in the order of firing. DESIGN CHOICE (log 25): of two bins of one launch that
become eligible by age in one dispatcher cycle, the one of the lower node number comes first (R271). -/
def execBinAgeEligible (launch node : Nat) (s : State) : Result :=
  .next (match s.launch? launch, s.nodeDie launch node with
    | some l, some d =>
      if s.canAge l node then
        s.mapDie d (fun D =>
          { D with byAge := insertBy (fun b => [b.1, b.2.1, b.2.2]) (s.dispatch d, launch, node) D.byAge })
      else s
    | _, _ => s)

/-- Free entries of an ordered plain node's window; for another node, no limit of its own. -/
def Launch.firingRoom (l : Launch) (n : Nat) : Nat :=
  if nodeKind (l.node n) = 1 ∧ nOrd (l.node n) then
    Config.windowEntries - (l.windows.filter (fun w => w.node == n)).length
  else 2 ^ 64

/-- The bin that a die's fabric fires next, and whether by age (R271). -/
def State.nextBin (s : State) (d : Nat) : Option (Launch × Nat × Bool) :=
  let aged := (s.die d).byAge.findSome? (fun b =>
    match s.launch? b.2.1 with
    | some l => if s.binAged l b.2.2 d ∧ 0 < l.firingRoom b.2.2 then some (l, b.2.2, true) else none
    | none => none)
  match aged with
  | some x => some x
  | none =>
    (leastBy (fun (x : Launch × Nat × Bool) => [x.2.1, x.1.id])
      (s.launches.flatMap (fun l => (upto l.nodes.length).filterMap (fun n =>
        if s.nodeDie l.id n = some d ∧ 0 < nCoal (l.node n) ∧ nCoal (l.node n) ≤ (s.binOf l n).length ∧ 0 < l.firingRoom n
            ∧ !s.binAged l n d then some (l, n, false) else none))))

/-- Firings a fabric makes in one dispatcher cycle. -/
def firingsMax (d : Nat) : Nat := if Config.isM d then 1 else 2

/-- A firing is owed in the second core cycle of the dispatcher cycle, when the cycle's arrivals have been applied. -/
def State.canFire (s : State) (d : Nat) : Bool :=
  let D := s.die d
  D.state == 1 && decide ((s.cycle - D.since) % 2 = 1)
  && (decide (D.fired.1 ≠ s.dispatch d) || decide (D.fired.2 < firingsMax d)) && (s.nextBin d).isSome

/-- Records taken by a firing, in arrival order (R270). -/
def State.firingTakes (s : State) (l : Launch) (n d : Nat) (byAge : Bool) : List Record :=
  let recs := s.binOf l n
  let t := 2 ^ nTbits (l.node n)
  let k :=
    if byAge then ceilDiv (recs.filter (fun r => decide (r.stamp + nTimer (l.node n) ≤ s.dispatch d))).length t * t
    else t
  recs.take (min k (l.firingRoom n))

/-- Records cut into teams of up to t. -/
def shares (t : Nat) (recs : List Nat) : List (List Nat) :=
  (upto (ceilDiv recs.length t)).map (fun i => (recs.drop (i * t)).take t)

/-- BIN_FIRING: the records are bound, a team's share at a time, to units that wait for a core (R270, R322). -/
def execBinFiring (die : Nat) (s : State) : Result :=
  .next (if s.canFire die then
      match s.nextBin die with
      | none => s
      | some (l, n, byAge) =>
        let recs := (s.firingTakes l n die byAge).map Record.id
        let now := s.dispatch die
        let s := s.mapDie die (fun D =>
          { D with fired := (now, if D.fired.1 = now then D.fired.2 + 1 else 1),
                   byAge := D.byAge.filter (fun b => !(b.2.1 == l.id && b.2.2 == n)) })
        let s : State := { s with records := s.records.map (fun r => if recs.contains r.id then { r with place := .fired } else r) }
        let s := if nodeKind (l.node n) = 1 ∧ nOrd (l.node n) then
            s.mapLaunch l.id (fun l => { l with windows := l.windows ++ recs.map (fun r => (⟨n, r, false, []⟩ : WinEntry)) })
          else s
        (shares (2 ^ nTbits (l.node n)) recs).foldl (fun s share =>
          { s with serial := s.serial + 1,
                   units := s.units ++ [⟨s.serial, .fabric n share, l.id, s.cycle, some die⟩] }) s
    else s)

/-! ### Spilled and held records (R272) -/

def State.canUnspill (s : State) (r : Record) : Bool :=
  r.spilled && (match s.recordDie r with
    | some d => decide ((s.die d).used + r.units ≤ Config.storeUnits)
    | none => false)

/-- RECORD_UNSPILL. -/
def execRecordUnspill (record : Nat) (s : State) : Result :=
  .next (match s.record? record with
    | some r =>
      if s.canUnspill r then
        match s.recordDie r with
        | some d =>
          ((s.freeUnits r).mapDie d (fun D => { D with used := D.used + r.units })).mapRecord record (fun r =>
            { r with spilled := false, stored := true })
        | none => s
      else s
    | none => s)

/-- The window entry that waits for a held record, if it has not been released. -/
def State.heldFor (s : State) (r : Record) : Option Nat :=
  (s.launch? r.launch).bind (fun l =>
    (l.windows.find? (fun w => w.emitted.any (fun e => e.1 == r.id))).map WinEntry.input)

/-- The first record a generator holds, when room has appeared. -/
def State.canPlaceHeld (s : State) (r : Record) : Bool :=
  r.place == .heldBack && s.records.all (fun q => !(q.place == .heldBack && q.sender == r.sender && decide (q.id < r.id)
      && q.launch == r.launch))
  && s.roomFor r.launch r.node r.units != .none

/-- HELD_RECORD_PLACE. -/
def execHeldRecordPlace (record : Nat) (s : State) : Result :=
  .next (match s.record? record with
    | some r =>
      if s.canPlaceHeld r then
        let room := s.roomFor r.launch r.node r.units
        let place : RecAt := match s.heldFor r with | some i => .window i | none => .moving
        (s.claimUnits r.launch r.node r.units room).mapRecord record (fun r =>
          { r with place := place, stored := room == .store, spilled := room == .spill })
      else s
    | none => s)

end Sys2Proof.Machine
end

