-- ==== Sys2Proof/Machine/FloatPipe.lean ====
section
/-! DEFINITION. The float pipe: arithmetic, compares, conversions and DX elements in registers (10 R238 to R247). -/

namespace Sys2Proof.Machine

/-- A binary32 operation on whole registers. -/
def onF32 (op : Nat → Nat → Nat) (a b : Word) : Word := BitVec.ofNat 32 (op a.toNat b.toNat)

/-- A VD float instruction (R240): D op B at the type and rounding of the word. -/
def setVDFloat (op : FFmt → Mode → Nat → Nat → Nat) (o : FVD) (r : Reads) (q : Regs) : Regs :=
  q.set o.d.toNat (floatOp2 (fun f => op f (modeOf o.m)) o.t (r.v o.d) (r.b o.b))

/-- A unary float instruction (R243). -/
def setUnary (op : FFmt → Mode → Nat → Nat) (o : FVD) (r : Reads) (q : Regs) : Regs :=
  q.set o.d.toNat (floatOp1 (fun f => op f (modeOf o.m)) o.t (r.b o.b))

/-- A variable-latency unary result (R160, R238). -/
def unaryPend (op : FFmt → Mode → Nat → Nat) (o : FVD) (r : Reads) : List (Nat × Word) :=
  [(phys r.regs.level o.d.toNat, floatOp1 (fun f => op f (modeOf o.m)) o.t (r.b o.b))]

/-- The value a conversion reads: an integer type read exactly, or a float (R245). -/
def cvtSource (o : FVD) (r : Reads) : Num :=
  if o.t.toNat < 8 then
    numOfInt (readInt (intSigned o.t) (intWidth o.t) (if intWidth o.t = 64 then (r.b64 o.b).toNat else (r.b o.b).toNat))
  else unpack (fmtOf o.t) ((r.b o.b).toNat % 2 ^ (fmtOf o.t).width)

/-- A conversion to a float layout, upper bits 0 (R89, R245). -/
def setCvtFloat (f : FFmt) (o : FVD) (r : Reads) (q : Regs) : Regs :=
  q.set o.d.toNat (BitVec.ofNat 32 (pack f (modeOf o.m) (cvtSource o r)))

/-- A conversion to an integer, rounded and clamped (R93, R245). -/
def setCvtInt (sgn : Bool) (n : Nat) (o : FVD) (r : Reads) (q : Regs) : Regs :=
  q.setInt o.d n (floatToInt (fmtOf o.t) (modeOf o.m) (intMin sgn n) (intMax sgn n)
    ((r.b o.b).toNat % 2 ^ (fmtOf o.t).width))

/-- D := A + B under RN (R239). -/
def execFaddF32 (_h : Hdr) (o : FV3) (s : State) : Result :=
  .next (s.lanewise o.g (setV3 o (fun _ a b => onF32 (faddBits f32 .rn) a b)))

/-- D := A − B under RN (R239). -/
def execFsubF32 (_h : Hdr) (o : FV3) (s : State) : Result :=
  .next (s.lanewise o.g (setV3 o (fun _ a b => onF32 (fsubBits f32 .rn) a b)))

/-- D := A × B under RN (R239). -/
def execFmulF32 (_h : Hdr) (o : FV3) (s : State) : Result :=
  .next (s.lanewise o.g (setV3 o (fun _ a b => onF32 (fmulBits f32 .rn) a b)))

/-- D := A × B + D, rounded once (R239). -/
def execFmacF32 (_h : Hdr) (o : FV3) (s : State) : Result :=
  .next (s.lanewise o.g (setV3 o (fun r a b => BitVec.ofNat 32 (fmacBits f32 .rn a.toNat b.toNat (r.v o.d).toNat))))

/-- D := fmin(A, B) (R239, R241). -/
def execFminF32 (_h : Hdr) (o : FV3) (s : State) : Result :=
  .next (s.lanewise o.g (setV3 o (fun _ a b => onF32 (fminBits f32) a b)))

/-- D := fmax(A, B) (R239, R241). -/
def execFmaxF32 (_h : Hdr) (o : FV3) (s : State) : Result :=
  .next (s.lanewise o.g (setV3 o (fun _ a b => onF32 (fmaxBits f32) a b)))

/-- A + B in each element (R238, R239). -/
def execFaddF16x2 (_h : Hdr) (o : FV3) (s : State) : Result :=
  .next (s.lanewise o.g (setV3 o (fun _ a b => packed2 (faddBits f16 .rn) a b)))

/-- A × B in each element (R238, R239). -/
def execFmulF16x2 (_h : Hdr) (o : FV3) (s : State) : Result :=
  .next (s.lanewise o.g (setV3 o (fun _ a b => packed2 (fmulBits f16 .rn) a b)))

/-- A × B + D in each element, rounded once (R238, R239). -/
def execFmacF16x2 (_h : Hdr) (o : FV3) (s : State) : Result :=
  .next (s.lanewise o.g (setV3 o (fun r a b => packed3 (fmacBits f16 .rn) a b (r.v o.d))))

/-- A + B in each element (R238, R239). -/
def execFaddBf16x2 (_h : Hdr) (o : FV3) (s : State) : Result :=
  .next (s.lanewise o.g (setV3 o (fun _ a b => packed2 (faddBits bf16 .rn) a b)))

/-- A × B in each element (R238, R239). -/
def execFmulBf16x2 (_h : Hdr) (o : FV3) (s : State) : Result :=
  .next (s.lanewise o.g (setV3 o (fun _ a b => packed2 (fmulBits bf16 .rn) a b)))

/-- A × B + D in each element, rounded once (R238, R239). -/
def execFmacBf16x2 (_h : Hdr) (o : FV3) (s : State) : Result :=
  .next (s.lanewise o.g (setV3 o (fun r a b => packed3 (fmacBits bf16 .rn) a b (r.v o.d))))

/-- D := round(D + B) (R240). -/
def execFadd (_h : Hdr) (o : FVD) (s : State) : Result :=
  .next (s.lanewise o.g (setVDFloat faddBits o))

/-- D := round(D − B) (R240). -/
def execFsub (_h : Hdr) (o : FVD) (s : State) : Result :=
  .next (s.lanewise o.g (setVDFloat fsubBits o))

/-- D := round(D × B) (R240). -/
def execFmul (_h : Hdr) (o : FVD) (s : State) : Result :=
  .next (s.lanewise o.g (setVDFloat fmulBits o))

/-- D := round(D / B), variable-latency (R160, R240). -/
def execFdiv (_h : Hdr) (o : FVD) (s : State) : Result :=
  .next (s.variable o.g (fun r =>
    [(phys r.regs.level o.d.toNat, floatOp2 (fun f => fdivBits f (modeOf o.m)) o.t (r.v o.d) (r.b o.b))]))

/-- D := fmin(D, B), exact (R240, R241). -/
def execFmin (_h : Hdr) (o : FVD) (s : State) : Result :=
  .next (s.lanewise o.g (setVDFloat (fun f _ => fminBits f) o))

/-- D := fmax(D, B), exact (R240, R241). -/
def execFmax (_h : Hdr) (o : FVD) (s : State) : Result :=
  .next (s.lanewise o.g (setVDFloat (fun f _ => fmaxBits f) o))

/-- FCMP writes the four flags of cN (R242). -/
def execFcmp (_h : Hdr) (o : FVC) (s : State) : Result :=
  .next (s.lanewise o.g (fun r q => q.setFlags o.cn (fcmpFlags o r)))

/-- √B, rounded once (R243). -/
def execFsqrt (_h : Hdr) (o : FVD) (s : State) : Result :=
  .next (s.variable o.g (unaryPend (fsqrtBits) o))

/-- 1/B, rounded once (R243). -/
def execFrcp (_h : Hdr) (o : FVD) (s : State) : Result :=
  .next (s.variable o.g (unaryPend (frcpBits) o))

/-- 1/√B under RN (R243). -/
def execFrsq (_h : Hdr) (o : FVD) (s : State) : Result :=
  .next (s.variable o.g (unaryPend (fun f _ => frsqBits f) o))

/-- 2^B under RN (R243); precision: log 7. -/
def execFexp2 (_h : Hdr) (o : FVD) (s : State) : Result :=
  .next (s.variable o.g (unaryPend (fun f _ => fexp2Bits f) o))

/-- log2 B under RN (R243); precision: log 7. -/
def execFlog2 (_h : Hdr) (o : FVD) (s : State) : Result :=
  .next (s.variable o.g (unaryPend (fun f _ => flog2Bits f) o))

/-- sin B, radians, under RN (R243); precision: log 7. -/
def execFsin (_h : Hdr) (o : FVD) (s : State) : Result :=
  .next (s.variable o.g (unaryPend (fun f _ => trig f false) o))

/-- cos B, radians, under RN (R243); precision: log 7. -/
def execFcos (_h : Hdr) (o : FVD) (s : State) : Result :=
  .next (s.variable o.g (unaryPend (fun f _ => trig f true) o))

/-- tanh B under RN (R243); precision: log 7. -/
def execFtanh (_h : Hdr) (o : FVD) (s : State) : Result :=
  .next (s.variable o.g (unaryPend (fun f _ => ftanhBits f) o))

/-- Conversion to binary32 (R245). -/
def execCvtF32 (_h : Hdr) (o : FVD) (s : State) : Result :=
  .next (s.lanewise o.g (setCvtFloat f32 o))

/-- Conversion to binary16 (R245). -/
def execCvtF16 (_h : Hdr) (o : FVD) (s : State) : Result :=
  .next (s.lanewise o.g (setCvtFloat f16 o))

/-- Conversion to BF16 (R245). -/
def execCvtBf16 (_h : Hdr) (o : FVD) (s : State) : Result :=
  .next (s.lanewise o.g (setCvtFloat bf16 o))

/-- Conversion to .I32, clamped (R93, R245). -/
def execCvtI32 (_h : Hdr) (o : FVD) (s : State) : Result :=
  .next (s.lanewise o.g (setCvtInt true 32 o))

/-- Conversion to .W32, clamped (R93, R245). -/
def execCvtW32 (_h : Hdr) (o : FVD) (s : State) : Result :=
  .next (s.lanewise o.g (setCvtInt false 32 o))

/-- Conversion to .I64, clamped (R93, R245). -/
def execCvtI64 (_h : Hdr) (o : FVD) (s : State) : Result :=
  .next (s.lanewise o.g (setCvtInt true 64 o))

/-- Conversion to .W64, clamped (R93, R245). -/
def execCvtW64 (_h : Hdr) (o : FVD) (s : State) : Result :=
  .next (s.lanewise o.g (setCvtInt false 64 o))

/-- A DX header or element code from the value A (R246). -/
def execDxenc (_h : Hdr) (o : FV3) (s : State) : Result :=
  .next (s.lanewise o.g (setV3 o (fun _ a b => dxenc a b)))

/-- The value of a DX element code (R247). -/
def execDxdec (_h : Hdr) (o : FV3) (s : State) : Result :=
  .next (s.lanewise o.g (setV3 o (fun _ a b => dxdec a b)))

/-- B rounded to an integral value of the type (R244). -/
def execFrnd (_h : Hdr) (o : FVD) (s : State) : Result :=
  .next (s.lanewise o.g (setUnary frndBits o))

end Sys2Proof.Machine
end

