-- ==== Sys2Proof/Machine/Integer.lean ====
section
/-! DEFINITION. The integer pipe (08 R182 to R189) and NOP (R170). -/

namespace Sys2Proof.Machine

/-- NOP has no effect (R170). -/
def execNop (_h : Hdr) (s : State) : Result := .next s

/-- D := (A + B) mod 2^32 (R182). -/
def execIadd (_h : Hdr) (o : FV3) (s : State) : Result :=
  .next (s.lanewise o.g (setV3 o (fun _ a b => a + b)))

/-- D := (A − B) mod 2^32 (R182). -/
def execIsub (_h : Hdr) (o : FV3) (s : State) : Result :=
  .next (s.lanewise o.g (setV3 o (fun _ a b => a - b)))

/-- D := (A × B) mod 2^32 (R182). -/
def execImul (_h : Hdr) (o : FV3) (s : State) : Result :=
  .next (s.lanewise o.g (setV3 o (fun _ a b => a * b)))

/-- Bits [63:32] of the exact signed product (R182). -/
def execImulhI32 (_h : Hdr) (o : FV3) (s : State) : Result :=
  .next (s.lanewise o.g (setV3 o (fun _ a b => BitVec.ofInt 32 (a.toInt * b.toInt / 2 ^ 32))))

/-- Bits [63:32] of the exact unsigned product (R182). -/
def execImulhW32 (_h : Hdr) (o : FV3) (s : State) : Result :=
  .next (s.lanewise o.g (setV3 o (fun _ a b => BitVec.ofNat 32 (a.toNat * b.toNat / 2 ^ 32))))

/-- IDIV.I32's quotient: truncated toward zero, −1 for a zero divisor, wrapping for the one overflow (R183). -/
def divI32 (a b : Word) : Word := if b = 0 then -1 else BitVec.ofInt 32 (a.toInt.tdiv b.toInt)

/-- IDIV.W32's quotient; all ones for a zero divisor (R183). -/
def divW32 (a b : Word) : Word := if b = 0 then -1 else BitVec.ofNat 32 (a.toNat / b.toNat)

/-- Signed division; the result is variable-latency (R160, R183). -/
def execIdivI32 (_h : Hdr) (o : FV3) (s : State) : Result :=
  .next (s.variable o.g (fun r => [(phys r.regs.level o.d.toNat, divI32 (r.v o.a) (r.b o.b))]))

/-- Unsigned division; the result is variable-latency (R160, R183). -/
def execIdivW32 (_h : Hdr) (o : FV3) (s : State) : Result :=
  .next (s.variable o.g (fun r => [(phys r.regs.level o.d.toNat, divW32 (r.v o.a) (r.b o.b))]))

/-- The smaller of A and B, signed (R182). -/
def execIminI32 (_h : Hdr) (o : FV3) (s : State) : Result :=
  .next (s.lanewise o.g (setV3 o (fun _ a b => if b.toInt < a.toInt then b else a)))

/-- The smaller of A and B, unsigned (R182). -/
def execIminW32 (_h : Hdr) (o : FV3) (s : State) : Result :=
  .next (s.lanewise o.g (setV3 o (fun _ a b => if b.toNat < a.toNat then b else a)))

/-- The larger of A and B, signed (R182). -/
def execImaxI32 (_h : Hdr) (o : FV3) (s : State) : Result :=
  .next (s.lanewise o.g (setV3 o (fun _ a b => if a.toInt < b.toInt then b else a)))

/-- The larger of A and B, unsigned (R182). -/
def execImaxW32 (_h : Hdr) (o : FV3) (s : State) : Result :=
  .next (s.lanewise o.g (setV3 o (fun _ a b => if a.toNat < b.toNat then b else a)))

/-- D := (A × B + D) mod 2^32 (R182). -/
def execImac (_h : Hdr) (o : FV3) (s : State) : Result :=
  .next (s.lanewise o.g (setV3 o (fun r a b => a * b + r.v o.d)))

/-- Bitwise AND (R182). -/
def execAnd (_h : Hdr) (o : FV3) (s : State) : Result :=
  .next (s.lanewise o.g (setV3 o (fun _ a b => a &&& b)))

/-- Bitwise OR (R182). -/
def execOr (_h : Hdr) (o : FV3) (s : State) : Result :=
  .next (s.lanewise o.g (setV3 o (fun _ a b => a ||| b)))

/-- Bitwise XOR (R182). -/
def execXor (_h : Hdr) (o : FV3) (s : State) : Result :=
  .next (s.lanewise o.g (setV3 o (fun _ a b => a ^^^ b)))

/-- Left shift by B as .W32 (R183). -/
def execShl (_h : Hdr) (o : FV3) (s : State) : Result :=
  .next (s.lanewise o.g (setV3 o (fun _ a b => BitVec.ofInt 32 (shlExact a.toNat b.toNat))))

/-- Unsigned right shift (R183). -/
def execShrW32 (_h : Hdr) (o : FV3) (s : State) : Result :=
  .next (s.lanewise o.g (setV3 o (fun _ a b => BitVec.ofInt 32 (shrExact a.toNat b.toNat))))

/-- Signed right shift (R183). -/
def execShrI32 (_h : Hdr) (o : FV3) (s : State) : Result :=
  .next (s.lanewise o.g (setV3 o (fun _ a b => BitVec.ofInt 32 (shrExact a.toInt b.toNat))))

/-- Number of 1 bits of a word. -/
def countOnes (x : Word) : Nat := (upto 32).foldl (fun n k => if x.getLsbD k then n + 1 else n) 0

/-- Number of leading 0 bits; 32 for 0. -/
def leadingZeros (x : Word) : Nat := if x = 0 then 32 else 31 - Nat.log2 x.toNat

/-- Number of 1 bits in A AND B (R182). -/
def execPopc (_h : Hdr) (o : FV3) (s : State) : Result :=
  .next (s.lanewise o.g (setV3 o (fun _ a b => BitVec.ofNat 32 (countOnes (a &&& b)))))

/-- Number of leading 0 bits of A (R182). -/
def execClz (_h : Hdr) (o : FV3) (s : State) : Result :=
  .next (s.lanewise o.g (setV3 o (fun _ a _ => BitVec.ofNat 32 (leadingZeros a))))

/-- Typed addition with optional saturation (R187). -/
def execIaddVd (_h : Hdr) (o : FVD) (s : State) : Result :=
  .next (s.lanewise o.g (vdInteger (fun x y => x + y) false o))

/-- Typed subtraction with optional saturation (R187). -/
def execIsubVd (_h : Hdr) (o : FVD) (s : State) : Result :=
  .next (s.lanewise o.g (vdInteger (fun x y => x - y) false o))

/-- Typed multiplication with optional saturation (R187). -/
def execImulVd (_h : Hdr) (o : FVD) (s : State) : Result :=
  .next (s.lanewise o.g (vdInteger (fun x y => x * y) false o))

/-- Typed minimum (R187). -/
def execIminVd (_h : Hdr) (o : FVD) (s : State) : Result :=
  .next (s.lanewise o.g (vdInteger (fun x y => min x y) false o))

/-- Typed maximum (R187). -/
def execImaxVd (_h : Hdr) (o : FVD) (s : State) : Result :=
  .next (s.lanewise o.g (vdInteger (fun x y => max x y) false o))

/-- Typed left shift with optional saturation (R187). -/
def execShlVd (_h : Hdr) (o : FVD) (s : State) : Result :=
  .next (s.lanewise o.g (vdInteger (fun x y => shlExact x y.toNat) true o))

/-- Typed right shift (R187). -/
def execShrVd (_h : Hdr) (o : FVD) (s : State) : Result :=
  .next (s.lanewise o.g (vdInteger (fun x y => shrExact x y.toNat) true o))

/-- The value ICVT gives (Table 8-3): narrow types wrap or clamp B as .I32; .I32 clamps B as .W32; 64-bit types extend. -/
def icvtValue (t : BitVec 4) (sat : Bool) (b : Word) : Int :=
  match t.toNat with
  | 0 => narrow sat true 8 (if sat then b.toInt else b.toNat)
  | 1 => narrow sat true 16 (if sat then b.toInt else b.toNat)
  | 2 => if sat then min b.toNat (2 ^ 31 - 1) else b.toNat
  | 3 => b.toInt
  | 4 => narrow sat false 8 (if sat then b.toInt else b.toNat)
  | 5 => narrow sat false 16 (if sat then b.toInt else b.toNat)
  | 6 => if sat then max b.toInt 0 else b.toNat
  | _ => b.toNat

/-- Integer width and signedness conversion (R188). -/
def execIcvt (_h : Hdr) (o : FVD) (s : State) : Result :=
  .next (s.lanewise o.g (fun r q => q.setInt o.d (intWidth o.t) (icvtValue o.t (o.m.getLsbD 1) (r.b o.b))))

/-- The register a VI integer instruction writes (R184). -/
def setVI (o : FVI) (f : Word → Word → Word) (r : Reads) (q : Regs) : Regs := q.set o.d.toNat (f (r.v o.a) (viImm o))

/-- D := (A + imm) mod 2^32 (R184). -/
def execIaddi (_h : Hdr) (o : FVI) (s : State) : Result :=
  .next (s.lanewise o.g (setVI o (fun a i => a + i)))

/-- D := A AND imm (R184). -/
def execAndi (_h : Hdr) (o : FVI) (s : State) : Result :=
  .next (s.lanewise o.g (setVI o (fun a i => a &&& i)))

/-- D := A OR imm (R184). -/
def execOri (_h : Hdr) (o : FVI) (s : State) : Result :=
  .next (s.lanewise o.g (setVI o (fun a i => a ||| i)))

/-- D := A XOR imm (R184). -/
def execXori (_h : Hdr) (o : FVI) (s : State) : Result :=
  .next (s.lanewise o.g (setVI o (fun a i => a ^^^ i)))

/-- Left shift by the immediate (R184). -/
def execShli (_h : Hdr) (o : FVI) (s : State) : Result :=
  .next (s.lanewise o.g (setVI o (fun a i => BitVec.ofInt 32 (shlExact a.toNat i.toNat))))

/-- Unsigned right shift by the immediate (R184). -/
def execShriW32 (_h : Hdr) (o : FVI) (s : State) : Result :=
  .next (s.lanewise o.g (setVI o (fun a i => BitVec.ofInt 32 (shrExact a.toNat i.toNat))))

/-- Signed right shift by the immediate (R184). -/
def execShriI32 (_h : Hdr) (o : FVI) (s : State) : Result :=
  .next (s.lanewise o.g (setVI o (fun a i => BitVec.ofInt 32 (shrExact a.toInt i.toNat))))

/-- D := B (R185). -/
def execMov (_h : Hdr) (o : FV3) (s : State) : Result :=
  .next (s.lanewise o.g (setV3 o (fun _ _ b => b)))

/-- D := imm (R184, R185). -/
def execMovi (_h : Hdr) (o : FVI) (s : State) : Result :=
  .next (s.lanewise o.g (setVI o (fun _ i => i)))

/-- Field widths w0 to w5 of a launch's work identifier (R15); a fabric team's are w0 = t and 0 (R268). -/
def State.widths (s : State) (t : Team) : List Nat :=
  match t.node with
  | some _ => [t.tbits, 0, 0, 0, 0, 0]
  | none =>
    match s.launch? t.launch with
    | some l => (upto 6).map (fun k => fld (l.words.getD 11 0) (6 * k) 6)
    | none => [0, 0, 0, 0, 0, 0]

/-- Work-identifier field k (Table 1-3). -/
def widField (ws : List Nat) (wid k : Nat) : Nat := wid / 2 ^ ((ws.take k).foldl (· + ·) 0) % 2 ^ (ws.getD k 0)

/-- The value of a special register in a thread (Table 3-4, R19, R76). -/
def State.special (s : State) (t : Team) (x : Thread) (num : Nat) : DWord :=
  BitVec.ofNat 64 (match num with
    | 0 => x.tid
    | 1 => x.tid % 64
    | 2 => x.tid % t.width
    | 3 => x.tid / t.width
    | 4 => t.number
    | 5 => t.cohort
    | 12 => t.core
    | 13 => t.vdie
    | 14 => x.pt
    | 15 => s.cycle - (s.die t.die).since
    | n => widField (s.widths t) x.wid (n - 6))

/-- A special register as a word reads it: in the other words of a rendezvous' group, as it stood when the group issued
(R195). -/
def State.specialRead (s : State) (completing : Bool) (t : Team) (x : Thread) (num : Nat) : DWord :=
  match completing, x.wait with
  | true, .rendezvous a =>
    if num = 12 then BitVec.ofNat 64 a.core
    else if num = 14 then BitVec.ofNat 64 a.pt
    else if num = 15 then BitVec.ofNat 64 a.cyc
    else s.special t x num
  | _, _ => s.special t x num

/-- MOVS: bits [31:0] of a special register, or the pair with a = 1 (R185). -/
def execMovs (_h : Hdr) (o : FV3) (s : State) : Result :=
  .next (s.eachLane o.g (fun iss t r s' =>
    match t.thread? r.tid with
    | none => s'
    | some x =>
      let v := s.specialRead iss.completing t x o.b.toNat
      s'.mapRegs iss.team r.tid (fun q => if o.a = 1 then q.set64 o.d.toNat v else q.set o.d.toNat (lowWord v))))

/-- D := A + B as .I32, clamped (R186). -/
def execPadd (_h : Hdr) (o : FV3) (s : State) : Result :=
  .next (s.lanewise o.g (setV3 o (fun _ a b => BitVec.ofInt 32 (max (-(2 ^ 31)) (min (2 ^ 31 - 1) (a.toInt + b.toInt))))))

/-- ICMP writes the four flags of cN (R189). -/
def execIcmp (_h : Hdr) (o : FVC) (s : State) : Result :=
  .next (s.lanewise o.g (fun r q => q.setFlags o.cn (icmpFlags o r)))

end Sys2Proof.Machine
end

