-- ==== Sys2Proof/Machine/Ready.lean ====
section
/-! DEFINITION. What keeps a group from issuing: pending tokens, releases and acquires, held buffers, the limits of
asynchronous words (03 R73, 06 R133, R151, 11 R282, 15 R346, 16 R372); which sub-sheaves are ready and which issue in a
cycle (01 R28 to R33). -/

namespace Sys2Proof.Machine

/-! ### What a word reads and orders -/

/-- Majors whose b field names a register, by format (Tables 7-4 and 7-8): V3 and VC but MOVS and transfers; VD. -/
def readsB3 (m : Nat) : Bool :=
  (decide (m ≤ 0x0C) || (decide (0x10 ≤ m) && decide (m ≤ 0x17)) || m == 0x24 || m == 0x27 || m == 0x28
    || (decide (0x34 ≤ m) && decide (m ≤ 0x3B)) || (decide (0x40 ≤ m) && decide (m ≤ 0x4B)) || m == 0x52 || m == 0x62
    || m == 0x63 || m == 0xC8 || m == 0xC9) && m != 0
def readsBD (m : Nat) : Bool :=
  (decide (0x0D ≤ m) && decide (m ≤ 0x0F)) || (decide (0x18 ≤ m) && decide (m ≤ 0x1C)) || m == 0x33
  || (decide (0x3C ≤ m) && decide (m ≤ 0x3F)) || (decide (0x4C ≤ m) && decide (m ≤ 0x51))
  || (decide (0x53 ≤ m) && decide (m ≤ 0x61)) || m == 0x64

/-- Parameters an A-format word reads from consecutive uniform registers (R227, R252, R256, R261). -/
def paramsOf (m : Nat) : Nat :=
  if m = 0xC0 ∨ m = 0xC6 then 3 else if m = 0xC1 ∨ m = 0xD0 then 4 else if m = 0xC4 then 0 else 1

/-- Uniform registers a word reads. -/
def sReads (i : Instr) : List Nat :=
  match i.parts with
  | none => []
  | some p =>
    let m := p.major.toNat
    let f (lo n : Nat) : Nat := p.ops.toNat / 2 ^ lo % 2 ^ n
    let b (x : Nat) : List Nat := if 64 ≤ x then [x - 64] else []
    let src (x : Nat) : List Nat := if x = 127 then [] else [x]
    if readsB3 m then b (f 3 7)
    else if readsBD m then b (f 9 7)
    else if m = 0x32 ∨ m = 0xD1 then src (f 8 7)
    else if majorUR m then src (f 8 7) ++ src (f 1 7)
    else if majorM m then [f 10 6]
    else if 0x94 ≤ m ∧ m ≤ 0x9E then [f 12 4]
    else if (0xC0 ≤ m ∧ m ≤ 0xC7 ∧ m ≠ 0xC2) ∨ m = 0xD0 then (upto (paramsOf m)).map (fun k => f 8 7 + k)
    else if m = 0xE0 ∨ m = 0xE1 ∨ m = 0xE2 ∨ m = 0xE5 then [f 15 7]
    else if m = 0xF3 ∨ m = 0xF4 then [f 15 7]
    else []

/-- Vector registers an M- or MA-format word takes data from (Tables 9-1 to 9-5). -/
def dataRegs (m op : Nat) : Nat :=
  if m = 0x8A ∨ m = 0x91 then 2
  else if m = 0x8B then 4
  else if (0x87 ≤ m ∧ m ≤ 0x89) ∨ m = 0x90 then 1
  else if m = 0x96 ∨ m = 0x97 ∨ m = 0x9B ∨ m = 0x9C then (if op = 7 then 4 else 2)
  else if 0x94 ≤ m ∧ m ≤ 0x9E then (if op = 7 then 2 else 1)
  else 0

/-- Vector registers a word reads, by name, in a team of sheaves of w threads. STB takes 32 / min(w, 32) registers of
each lane from v(4n) on (R216). -/
def vReads (w : Nat) (i : Instr) : List Nat :=
  match i.parts with
  | none => []
  | some p =>
    let m := p.major.toNat
    let f (lo n : Nat) : Nat := p.ops.toNat / 2 ^ lo % 2 ^ n
    let run (x n : Nat) : List Nat := (upto n).map (fun k => x + k)
    let b (x n : Nat) : List Nat := if x < 64 then run x n else []
    if m = 0x28 then
      let n := if is64 (p.ops.extractLsb' 16 4) then 2 else 1
      run (f 10 6) n ++ b (f 3 7) n
    else if 0x39 ≤ m ∧ m ≤ 0x3B then []
    else if readsB3 m then
      (if m = 0x24 then [] else [f 10 6]) ++ (if m = 0x17 then [] else b (f 3 7) 1)
        ++ (if m = 0x0C ∨ m = 0x43 ∨ m = 0x48 ∨ m = 0x4B ∨ m = 0xC9 then [f 16 6] else [])
    else if readsBD m then
      let n := if is64 (p.ops.extractLsb' 5 4) then 2 else 1
      let one := m = 0x1C ∨ (0x53 ≤ m ∧ m ≤ 0x61) ∨ m = 0x64
      (if one then [] else run (f 16 6) n) ++ b (f 9 7) (if m = 0x1A ∨ m = 0x1B ∨ m = 0x1C then 1 else n)
    else if (0x1D ≤ m ∧ m ≤ 0x23) ∨ m = 0xF0 ∨ (0xA3 ≤ m ∧ m ≤ 0xA6) ∨ m = 0xAF then [f 10 6]
    else if majorM m then
      (if f 8 2 = 0 then [f 3 5] else [])
        ++ (if m = 0x8C then run (4 * f 18 4) (32 / min w 32) else run (f 16 6) (dataRegs m 0))
    else if 0x94 ≤ m ∧ m ≤ 0x9E then run (f 16 6) (dataRegs m (f 9 3))
    else if m = 0xCC ∨ m = 0xCD ∨ m = 0xCF then [f 12 6]
    else if m = 0xE0 ∨ m = 0xE1 ∨ m = 0xE2 ∨ m = 0xE6 then [f 9 6]
    else []

/-- Flag registers a word reads as an operand: the votes (R197). -/
def ccReads : Instr → List Nat
  | .xany _ o => [o.cn.toNat]
  | .xall _ o => [o.cn.toNat]
  | .xmask _ o => [o.cn.toNat]
  | _ => []

/-- Uniform registers a word writes, token registers among them (R157). -/
def sWrites (i : Instr) : List Nat := i.writes.filterMap (fun w => match w with | .s n => some n | _ => none)

def opMajor (i : Instr) : Nat := (i.parts.map (fun p => p.major.toNat)).getD 0

/-- The guard field of a word; the formats without one act in every thread. -/
def guardOf (i : Instr) : BitVec 3 :=
  match i.parts with
  | none => 0
  | some p =>
    let m := p.major.toNat
    if majorUR m || m == 0x29 || (decide (0xF2 ≤ m) && decide (m ≤ 0xF4)) then 0 else p.ops.extractLsb' 0 3

/-- The key under which a thread keeps when a result becomes available. -/
def lateKey (level : Nat) : WriteTarget → Option Nat
  | .v n => some (phys level n)
  | .cc n => some (2 ^ 20 + n)
  | _ => none

/-- A word whose fixed-latency result takes 4 cycles (R399): of the float pipe but for Table 7-3's, and LDS. -/
def lateResult (i : Instr) : Bool :=
  let m := opMajor i
  (decide (0x40 ≤ m) && decide (m ≤ 0x64) && m != 0x4F && !(decide (0x53 ≤ m) && decide (m ≤ 0x5A))) || m == 0x8E || m == 0x8F

/-- What a thread's list of late results becomes when a word has taken effect in it at a cycle. -/
def noteLate (level cycle : Nat) (late : List (Nat × Nat)) (i : Instr) : List (Nat × Nat) :=
  let ks := i.writes.filterMap (lateKey level)
  late.filter (fun e => !ks.contains e.1 && decide (cycle < e.2))
    ++ (if lateResult i then ks.map (fun k => (k, cycle + 4)) else [])

/-- A uniform-class word (R63): the formats UR and Y (R357), and GSET. -/
def isUniform (i : Instr) : Bool :=
  majorUR (opMajor i) || opMajor i == 0x29 || (decide (0xF2 ≤ opMajor i) && decide (opMajor i ≤ 0xF4))

/-- A cross-lane word, STB among them (R61, R216). -/
def isCross : Instr → Bool
  | .xselIdx _ _ => true
  | .xselUp _ _ => true
  | .xselDown _ _ => true
  | .xselXor _ _ => true
  | .topk _ _ => true
  | .xany _ _ => true
  | .xall _ _ => true
  | .xmask _ _ => true
  | .xredAdd _ _ => true
  | .xredMin _ _ => true
  | .xredMax _ _ => true
  | .xscanAdd _ _ => true
  | .xscanExAdd _ _ => true
  | .stb _ _ => true
  | _ => false

/-- An implicit marker (R162). -/
def implicitMarker : Instr → Bool
  | .call _ _ => true
  | .calli _ _ => true
  | .jmpi _ _ => true
  | .jmpiRg _ _ => true
  | .ret _ _ => true
  | .join _ _ => true
  | .joinRg _ _ => true
  | .reorder _ _ => true
  | .exitNext _ _ => true
  | .yield _ _ => true
  | _ => false

/-- The scope of a word's release: its own, or of Tables 6-5 and R282. A join's, reorder's or rendezvous' release is made when its
threads arrive, which is when they issue (DEDUCED, log 20); its completion waits for the accesses issued with it (R151). -/
def releaseScope (i : Instr) : Option Nat :=
  if isCross i then some 1
  else
    match i with
    | .fence _ o => some o.scope.toNat
    | .bar _ o => some o.scope.toNat
    | .join _ _ => some 1
    | .joinRg _ _ => some 1
    | .reorder _ _ => some 2
    | .qpush _ _ => some 2
    | .batonPass _ _ => some 2
    | .spawn _ _ => some 6
    | .emit _ _ => some 6
    | .enqx _ _ => some 6
    | .stagePass _ _ => some 6
    | .combine _ _ => some 6
    | .stgB8 _ o => if mOrdered o then some (mScope o) else none
    | .stgB16 _ o => if mOrdered o then some (mScope o) else none
    | .stgB32 _ o => if mOrdered o then some (mScope o) else none
    | .stgB64 _ o => if mOrdered o then some (mScope o) else none
    | .stgB128 _ o => if mOrdered o then some (mScope o) else none
    | .atomI32 _ o => if o.ord.getLsbD 1 then some o.scope.toNat else none
    | .atomW32 _ o => if o.ord.getLsbD 1 then some o.scope.toNat else none
    | .atomI64 _ o => if o.ord.getLsbD 1 then some o.scope.toNat else none
    | .atomW64 _ o => if o.ord.getLsbD 1 then some o.scope.toNat else none
    | .atomF32 _ o => if o.ord.getLsbD 1 then some o.scope.toNat else none
    | .redI32 _ o => if o.ord.getLsbD 1 then some o.scope.toNat else none
    | .redW32 _ o => if o.ord.getLsbD 1 then some o.scope.toNat else none
    | .redI64 _ o => if o.ord.getLsbD 1 then some o.scope.toNat else none
    | .redW64 _ o => if o.ord.getLsbD 1 then some o.scope.toNat else none
    | .redF32 _ o => if o.ord.getLsbD 1 then some o.scope.toNat else none
    | .redF32Unord _ o => if o.ord.getLsbD 1 then some o.scope.toNat else none
    | _ => none

/-- A word of the memory or asynchronous pipe, which an unperformed acquire holds back (R133). -/
def isAccess (i : Instr) : Bool :=
  match i.parts with
  | none => false
  | some p => pipeOf p.major.toNat == some .memory || pipeOf p.major.toNat == some .async

/-- A word that accesses coherent memory, whose issue a time rebase stalls (R136). -/
def coherentAccess (i : Instr) : Bool :=
  (decide (0x80 ≤ opMajor i) && decide (opMajor i ≤ 0x8D)) || (decide (0x94 ≤ opMajor i) && decide (opMajor i ≤ 0x9E))

/-- The uniform register that holds the pointer of a memory word's address. -/
def pointerReg (i : Instr) : Option Nat :=
  if coherentAccess i then (sReads i).head? else match i with
    | .syswr _ o => if o.num.toNat = 0x18 then some o.s.toNat else none
    | _ => none

/-- The form and size of an M-format access of global memory. -/
def globalForm : Instr → Option (FM × Nat)
  | .ldgW8 _ o => some (o, 1)
  | .ldgI8 _ o => some (o, 1)
  | .ldgW16 _ o => some (o, 2)
  | .ldgI16 _ o => some (o, 2)
  | .ldgB32 _ o => some (o, 4)
  | .ldgB64 _ o => some (o, 8)
  | .ldgB128 _ o => some (o, 16)
  | .stgB8 _ o => some (o, 1)
  | .stgB16 _ o => some (o, 2)
  | .stgB32 _ o => some (o, 4)
  | .stgB64 _ o => some (o, 8)
  | .stgB128 _ o => some (o, 16)
  | .ldf _ o => some (o, 8)
  | _ => none

/-- Pointer and displacement of a word's access in a thread. -/
def accessPtr (i : Instr) (r : Reads) : Option (DWord × Int) :=
  match globalForm i, pointerReg i with
  | some (o, n), _ => some (r.s o.p.toNat, mDisp o n r)
  | none, some p => some (r.s p, 0)
  | none, none => none

/-! ### Stalls -/

/-- A thread's acquire is not performed yet. -/
def State.acquiring (s : State) (team tid : Nat) : Bool :=
  s.accs.any (fun a => a.team == team && a.tid == tid && a.acquire && !a.parked && a.stage == .waiting)

/-- A register of a home sheaf is a pending token: now, or when the cycle's operands were read. -/
def State.tokenPending (s : State) (t : Team) (h r : Nat) : Bool :=
  let has (u : Team) : Bool := ((u.sheaves[h]?).map (fun f => f.tokens.any (fun p => p.1 == r))).getD false
  has t || ((s.team? t.id).map has).getD false

def sheavesOf (t : Team) (tids : List Nat) : List Nat := distinct (tids.map (fun x => x / t.width))

/-- Threads of an issue in which a word takes effect. -/
def guardTrue (t : Team) (tids : List Nat) (i : Instr) : List Nat :=
  tids.filter (fun x => (readsOf false t x).guard (guardOf i))

/-- The word reads a pending token in some thread in which it acts (R73, R146). -/
def State.readsToken (s : State) (t : Team) (tids : List Nat) (i : Instr) : Bool :=
  (sheavesOf t (guardTrue t tids i)).any (fun h => (sReads i).any (s.tokenPending t h))

/-- Limits of MMA.ISSUE and MMA.COMMIT, and the steps of R227 that wait: a pending token or a full counter, of the home
sheaves that execute the word. -/
def State.asyncFull (s : State) (t : Team) (act : List Nat) (i : Instr) : Bool :=
  let now := (s.team? t.id).getD t
  let full (cls : Nat) : Bool := (sheavesOf t act).any (fun h =>
    ((now.sheaves[h]?).map (fun f => decide (63 ≤ f.counter cls))).getD false)
  match i with
  | .copy _ _ => full 0
  | .wload _ _ => full 1
  | .gather _ _ => full 2
  | .coll _ _ => full 3
  | .mmaIssue _ _ => full 1 || (decide (64 ≤ now.mops.length) && !act.isEmpty)
  | .mmaCommit _ _ => decide (8 ≤ now.openBatches) && !act.isEmpty
  | _ => false

/-- A word needs a result that is not available yet: its guard's flags, or an operand in a thread in which it acts. -/
def State.readsLate (s : State) (t : Team) (tids : List Nat) (i : Instr) : Bool :=
  tids.any (fun k => match t.thread? k with
    | none => false
    | some x =>
      if x.late.all (fun e => decide (e.2 ≤ s.cycle)) then false
      else
        let r := readsOf false t k
        let waits (key : Nat) : Bool := x.late.any (fun e => e.1 == key && decide (s.cycle < e.2))
        let g := guardOf i
        (g != 0 && waits (2 ^ 20 + (r.uni.g.getD (g.toNat - 1) ⟨0, 15⟩).cn.toNat))
        || (r.guard g && ((vReads t.width i).any (fun n => waits (phys x.regs.level n)) || (ccReads i).any (fun n => waits (2 ^ 20 + n)))))

/-- A word's access to its location needs the home slice while that slice's die is reset: it waits, and counts as not issued,
so that a mark set at the restart is met precisely (R348, R369, R370; DEDUCED, log 20). A die that holds the line serves its
own loads, and its own stores in E or M. -/
def State.homeHeld (s : State) (t : Team) (i : Instr) (ptr : DWord) (disp : Int) : Bool :=
  let d := s.descOf t.ctx (fld ptr 54 10)
  let va := dBase d + ((fld ptr 0 54 : Int) + disp).toNat
  let die := ((s.ctx t.ctx).vdie (dVd d)).getD 0
  dOkind d != 3 && (s.die die).state != 1 && decide (va < 2 ^ 54)
  && (match s.translate t.ctx die va .load with
    | .error _ => false
    | .ok p =>
      let held := (s.dirOf (lineOf (pageLoc d die p (va % p.size)))).of t.die
      let plain := !p.strm && (p.fmt == 0 || dFmto d)
      !p.host && !(plain && ((decide (opMajor i ≤ 0x86) && held != .i) || opMajor i == 0x8D && held != .i
        || (decide (0x87 ≤ opMajor i) && decide (opMajor i ≤ 0x8B) && (held == .m || held == .e)))))

/-- The word cannot issue for these threads of a team (as the cycle found it), whatever R33's list says. -/
def State.stalls (s : State) (t : Team) (tids : List Nat) (i : Instr) : Bool :=
  let act := if isCross i then tids else guardTrue t tids i
  s.readsLate t tids i
  || (sheavesOf t (guardTrue t tids i)).any (fun h => (sWrites i).any (s.tokenPending t h))
  || (match releaseScope i with
    | some sc => act.any (fun x => s.unperformed t.id x sc)
    | none => false)
  || (isAccess i && act.any (s.acquiring t.id))
  || (coherentAccess i && decide (2 ^ 47 ≤ (s.die t.die).hwm))
  || (match pointerReg i with
    | some r => act.any (fun x => s.bufferHeld t.ctx (fld ((readsOf false t x).s r) 54 10))
    | none => false)
  || act.any (fun x => match accessPtr i (readsOf false t x) with
    | some q => !s.pathFree t.ctx q.1 q.2 || s.homeHeld t i q.1 q.2
    | none => false)
  || s.asyncFull t (guardTrue t tids i) i

/-! ### Candidates (R29, R33) -/

/-- A thread that is active in its sheaf: placed, live, waiting for nothing (R29). -/
def Thread.active (x : Thread) : Bool := x.wait == .none && x.block == .none && x.place.isSome

def Thread.slotIs (x : Thread) (k : Nat) : Bool := match x.place with | some p => p.1 == k | none => false

/-- A thread's own conditions for being ready: its marker, the earliest cycle of Tables and rules. -/
def Team.mayIssue (t : Team) (x : Thread) (cycle : Nat) : Bool :=
  decide (x.earliest ≤ cycle)
  && x.marker.all (fun y => ((t.thread? y).map (fun z => z.pend.isEmpty)).getD true)

/-- A team whose threads may issue. -/
def State.teamRuns (s : State) (t : Team) : Bool :=
  (match t.res with
    | .resident => true
    | .draining _ => true
    | _ => false)
  && (s.die t.die).state == 1

/-- A ready sub-sheaf: its slot, threads, PC, pipes, age; whether it can issue in the cycle. -/
structure Cand where
  team : Nat
  slot : Nat
  tids : List Nat
  pc : BitVec 64
  pipes : List Nat
  age : Nat
  issuable : Bool
deriving DecidableEq, Repr

def pipeNumber : Pipe → Nat
  | .integer => 0
  | .float => 1
  | .memory => 2
  | .control => 3
  | .async => 4

def groupPipes (ws : List Placed) : List Nat :=
  ws.foldl (fun l w => match pipeOf (opMajor w.i) with
    | some p => insertNat (pipeNumber p) l
    | none => l) []

/-- The buffer of a team's code is held (R372). -/
def State.codeHeld (s : State) (t : Team) : Bool := s.bufferHeld t.ctx (fld (s.codePtr t 0) 54 10)

/-- What keeps a ready sub-sheaf from issuing all the same: an answer a thread waits for (R143, R375), an INVAL of a home sheaf
(R346), a code buffer that is held (R372), a fetch that a slice does not serve, a word that stalls. DESIGN CHOICE (log 25): none
of these is in R33's list, so such a sub-sheaf is ready, its threads age, and the cycles in which it is passed over are issue
opportunities of theirs (R34). -/
def State.mayGo (s : State) (t : Team) (tids : List Nat) (pc : BitVec 64) (f : Fetched) : Bool :=
  s.invals.all (fun v => tids.all (fun x => v.sheaf != some (t.id, x / t.width)))
  && !s.codeHeld t && tids.all (fun k => ((t.thread? k).map (fun x => x.asked.isNone)).getD false) && s.fetchFree t pc
  && (f.bad.isSome || f.words.all (fun w => !s.stalls t tids w.i))

/-- The ready candidates of a slot (R29, R33). -/
def State.candidates (s : State) (t : Team) (k : Nat) : List Cand :=
  if !s.teamRuns t then []
  else
    let xs := t.threads.filter (fun x => x.active && x.slotIs k)
    (distinct (xs.map Thread.pc)).filterMap (fun pc =>
      let ys := xs.filter (fun x => x.pc == pc)
      let tids := ys.map Thread.tid
      if ys.all (fun x => t.mayIssue x s.cycle) then
        let f := s.fetchGroup t (tids.headD 0) pc
        if f.bad.isSome || f.words.all (fun w => !s.readsToken t tids w.i) then
          some ⟨t.id, k, tids, pc, groupPipes f.words, ys.foldl (fun n x => max n x.age) 0, s.mayGo t tids pc f⟩
        else none
      else none)

/-- A sheaf with a thread off its home lane that issued in the last cycle is paced (R33, R56). -/
def Team.slotPaced (t : Team) (k cycle : Nat) : Bool :=
  t.threads.any (fun x => match x.place with
    | some p => p.1 == k && x.live && p.2 != x.tid % t.width
    | none => false)
  && decide (0 < cycle) && t.lastIssue.getD k 0 + 1 == cycle

/-- A scheduler of the package as one number, and the lane group of a slot. -/
def Team.scheduler (t : Team) (k : Nat) : Nat := (t.die * 256 + t.core) * 4 + (t.slots.getD k (0, 0)).1
def Team.laneGroup (t : Team) (k : Nat) : Nat := (t.slots.getD k (0, 0)).2

/-- A candidate with its team. -/
structure TeamCand where
  t : Team
  c : Cand
deriving DecidableEq, Repr

/-- The order of R33: descending age, lowest TID, earlier-started team. -/
def TeamCand.order (x : TeamCand) : List Nat := [2 ^ 64 - x.c.age, x.c.tids.headD 0, x.t.startOrder]

/-- Threads of a candidate whose loop buffer is being refilled. -/
def TeamCand.refilling (x : TeamCand) : Bool :=
  x.c.tids.any (fun k => ((x.t.thread? k).map (fun y => y.refill.isSome)).getD false)

/-- The broadcast issues of a scheduler (R28). -/
def broadcasts (cs : List TeamCand) : List TeamCand :=
  match sortBy TeamCand.order cs with
  | [] => []
  | a :: r =>
    r.foldl (fun l b =>
      if b.t.width = a.t.width ∧ b.c.pipes = a.c.pipes
          ∧ !(l.any (fun d => d.t.laneGroup d.c.slot == b.t.laneGroup b.c.slot)) then l ++ [b] else l) [a]

/-- Lanes of the 64-lane slot that a candidate's threads use. -/
def TeamCand.lanes (x : TeamCand) : List Nat :=
  x.c.tids.filterMap (fun k => ((x.t.thread? k).bind Thread.place).map (fun p => x.t.laneGroup x.c.slot * x.t.width + p.2))

/-- The threads of a scheduler's ready candidates that issue alone in the cycle: at another PC than the one broadcast to
their sheaf, on a lane no broadcast uses, not paced (R30; log 19). -/
def loneThreads (cs bs : List TeamCand) (cycle : Nat) : List (Team × Nat × Thread) :=
  let used := bs.flatMap TeamCand.lanes
  cs.flatMap (fun x =>
    if bs.any (fun b => b.t.id == x.t.id && b.c.slot == x.c.slot && b.c.pc != x.c.pc) then
      x.c.tids.filterMap (fun k =>
        match x.t.thread? k with
        | none => none
        | some y =>
          match y.place with
          | none => none
          | some p =>
            let free := !used.contains (x.t.laneGroup x.c.slot * x.t.width + p.2)
            let rate := match y.lastLone with | some c => decide (c + 4 ≤ cycle) | none => true
            if free && rate && y.refill.isNone then some (x.t, x.c.slot, y) else none)
    else [])

/-- A thread's loop buffer holds the block of its packet (R31). -/
def Thread.hasBlock (x : Thread) : Bool := x.blocks.any (fun b => b.1 == x.pc.toNat / 48)

/-- A scheduler's choice in a cycle: issues, and the threads whose lone issue misses the loop buffer. -/
structure SchedPlan where
  issues : List Choice
  misses : List (Nat × Nat)
  ready : List (Nat × Nat)
deriving DecidableEq, Repr

/-- The choice of a scheduler among its ready candidates that are not paced and can issue (R28, R30, R33). DESIGN CHOICE (log
25): the rate of lone issues paces lone issues only, not the broadcast of a candidate one of whose threads made one. -/
def schedule (cs : List TeamCand) (cycle : Nat) : SchedPlan :=
  let open_ := cs.filter (fun x => !x.t.slotPaced x.c.slot cycle && x.c.issuable)
  let bs := broadcasts (open_.filter (fun x => !x.refilling))
  let ls := loneThreads open_ bs cycle
  { issues := bs.map (fun x => ⟨x.t.id, x.c.slot, x.c.tids, false⟩)
      ++ (ls.filter (fun l => l.2.2.hasBlock)).map (fun l => ⟨l.1.id, l.2.1, [l.2.2.tid], true⟩),
    misses := (ls.filter (fun l => !l.2.2.hasBlock)).map (fun l => (l.1.id, l.2.2.tid)),
    ready := cs.flatMap (fun x => x.c.tids.map (fun k => (x.t.id, k))) }

/-- A thread as the planning of a cycle leaves it: whether it is ready (R33), the refill of its loop buffer (R31). -/
def Thread.planned (x : Thread) (team cycle : Nat) (p : SchedPlan) : Thread :=
  let ready := p.ready.contains (team, x.tid)
  { x with
    ready := ready,
    age := if ready then x.age else 0,
    refill := if p.misses.contains (team, x.tid) then some (x.pc.toNat / 48, cycle + 24) else x.refill }

/-- A thread when a cycle's issues have been made: its age (R33), its last lone issue and the block it used (R31). `old` is its
team as the cycle found it. -/
def Thread.issuedBy (x : Thread) (old : Team) (cycle : Nat) (made : List Choice) (scheds : List Nat) : Thread :=
  let was := old.thread? x.tid
  let blk := ((was.map (fun y => y.pc.toNat)).getD 0) / 48
  match made.find? (fun c => c.team == old.id && c.tids.contains x.tid) with
  | some c =>
    let x : Thread := { x with age := 0 }
    if c.lone then { x with lastLone := some cycle, blocks := x.blocks.map (fun b => if b.1 = blk then (blk, cycle) else b) } else x
  | none =>
    let mine := ((was.bind Thread.place).map (fun p => scheds.contains (old.scheduler p.1))).getD false
    if x.ready && mine then { x with age := x.age + 1 } else x

/-- The cycle's issues noted as it ends: ages, lone issues, the broadcast of each slot (R31, R33). -/
def State.noteIssues (s : State) : State :=
  let scheds := distinct (s.made.filterMap (fun c => (s.view.find? (fun t => t.id == c.team)).map (fun t => t.scheduler c.slot)))
  { s with
    made := [],
    teams := s.teams.map (fun t => match s.view.find? (fun u => u.id == t.id) with
      | none => t
      | some old =>
        { t with
          lastIssue := (upto t.lastIssue.length).map (fun k =>
            if s.made.any (fun c => c.team == t.id && c.slot == k && !c.lone) then s.cycle else t.lastIssue.getD k 0),
          threads := t.threads.map (fun x => x.issuedBy old s.cycle s.made scheds) }) }

/-- Markers of threads whose pending writes have all landed are over (R161). -/
def Team.clearMarkers (t : Team) : Team :=
  { t with threads := t.threads.map (fun x =>
      if x.marker.all (fun y => ((t.thread? y).map (fun z => z.pend.isEmpty)).getD true) then { x with marker := [] } else x) }

/-- The start of a cycle: operands are read from the teams as they stand now; each scheduler makes its choice; issues
are in order of team, slot and lowest TID (R28, R30, R33, R158; log 4, log 19). -/
def State.planCycle (s : State) : State :=
  let s : State := { s with teams := s.teams.map Team.clearMarkers }
  let cs := s.teams.flatMap (fun t => (upto t.slots.length).flatMap (fun k =>
    (s.candidates t k).map (fun c => (⟨t, c⟩ : TeamCand))))
  let scheds := distinct (cs.map (fun x => x.t.scheduler x.c.slot))
  let plans := scheds.map (fun n => (n, schedule (cs.filter (fun x => x.t.scheduler x.c.slot == n)) s.cycle))
  let issues := sortBy (fun c => [c.team, c.slot, c.tids.headD 0]) (plans.flatMap (fun p => p.2.issues))
  { s with
    view := s.teams,
    plan := issues,
    teams := s.teams.map (fun t =>
      { t with
        threads := t.threads.map (fun x =>
          match x.place with
          | none => { x with ready := false, age := 0 }
          | some p =>
            match plans.find? (fun q => q.1 == t.scheduler p.1) with
            | some q => x.planned t.id s.cycle q.2
            | none => { x with ready := false, age := 0 }) }) }

/-- The group a thread would issue next reads a pending token (R53). -/
def State.awaitsToken (s : State) (t : Team) (x : Thread) : Bool :=
  x.active && (let f := s.fetchGroup t x.tid x.pc
    f.bad.isNone && f.words.any (fun w => s.readsToken t [x.tid] w.i))

end Sys2Proof.Machine
end

