-- ==== Sys2Proof/Machine/Regroup.lean ====
section
/-! DEFINITION. The regrouping unit: placement in lanes, regroup events, join completions, formation, reorder; barriers;
the ends of waits at a cycle's end; loop-buffer refills and variable-latency returns (01 R31, 02 R44, R47, R50 to R60,
07 R160 to R163, 09 R224). -/

namespace Sys2Proof.Machine

/-! ### Slots and lanes (R50, R52) -/

/-- Lanes of a slot that hold a thread. -/
def Team.usedLanes (t : Team) (k : Nat) : List Nat :=
  t.threads.filterMap (fun x => match x.place with
    | some p => if p.1 = k then some p.2 else none
    | none => none)

def Team.freeLanes (t : Team) (k : Nat) : List Nat :=
  let used := t.usedLanes k
  (upto t.width).filter (fun l => !used.contains l)

/-- A thread put in a lane: it is no longer pooled. -/
def Team.putIn (t : Team) (tid k lane : Nat) : Team :=
  t.mapThread tid (fun x => { x with place := some (k, lane), wait := if x.pooled then .none else x.wait })

/-- place(S, T) of R52: home lanes first, then the lowest free lane, in ascending TID. -/
def Team.placeSet (t : Team) (k : Nat) (tids : List Nat) : Team :=
  let t : Team := tids.foldl (fun t x =>
    if (t.freeLanes k).contains (x % t.width) then t.putIn x k (x % t.width) else t) t
  tids.foldl (fun t x =>
    match t.thread? x with
    | some th =>
      if th.place.isSome then t
      else match t.freeLanes k with | l :: _ => t.putIn x k l | [] => t
    | none => t) t

/-- Pooled threads at a PC, ascending TID. -/
def Team.poolAt (t : Team) (p : BitVec 64) : List Thread := t.threads.filter (fun x => x.pooled && x.pc == p)

/-- absorb(S, p) of R52. -/
def Team.absorb (t : Team) (k : Nat) (p : BitVec 64) : Team :=
  t.placeSet k (((t.poolAt p).map Thread.tid).take (t.freeLanes k).length)

/-- Distinct PCs of some threads, ascending. -/
def Team.pcsOf (t : Team) (tids : List Nat) : List (BitVec 64) :=
  sortBy (fun p => [p.toNat]) (distinct (tids.filterMap (fun x => (t.thread? x).map Thread.pc)))

/-- Some threads at a PC. -/
def Team.atPc (t : Team) (tids : List Nat) (p : BitVec 64) : List Nat :=
  tids.filter (fun x => ((t.thread? x).map (fun y => y.pc == p)).getD false)

/-- Groups below W/2 pooled at their PC while the pool takes them (R44, R52): the team, and the PCs of the groups kept. -/
def Team.dissolve (t : Team) (tids : List Nat) (cycle : Nat) : Team × List (BitVec 64) :=
  (t.pcsOf tids).foldl (fun q p =>
    let g := q.1.atPc tids p
    if t.width / 2 ≤ g.length ∨ !q.1.poolTakes p then (q.1, q.2 ++ [p])
    else (g.foldl (fun u x => u.mapThread x (fun y => { y with wait := .pooled (cycle + 1), place := none })) q.1, q.2))
    (t, [])

/-- A thread waits for nothing before its next issue. -/
def Thread.goesOn (x : Thread) : Bool := x.wait == .none && x.block == .none

/-- A regroup event (R52): X is the threads of the issuing sub-sheaf that went on at a next PC. One that has taken a condition
since (R57) or that waits stays as it is (DEDUCED, log 19). -/
def Team.regroup (t : Team) (e : RegroupEv) (cycle : Nat) : Team :=
  let q := t.dissolve (e.tids.filter (fun x => ((t.thread? x).map Thread.goesOn).getD false)) cycle
  q.2.foldl (fun u p => u.absorb e.slot p) q.1

/-! ### Join completions (R44) -/

def JoinRec.complete (j : JoinRec) : Bool := !j.e.isEmpty && j.a == j.e

/-- Threads of a team with accesses not performed at a scope. -/
def State.lateThreads (s : State) (t : Team) (scope : Nat) : List Nat :=
  (t.threads.filter (fun x => s.unperformed t.id x.tid scope)).map Thread.tid

/-- A record that completes in this cycle: as a release at sheaf scope it waits for the accesses of its threads, those of their
JOINs' groups among them (R151); `late` are the threads that have such accesses. -/
def JoinRec.settles (j : JoinRec) (late : List Nat) : Bool := j.complete && j.a.all (fun x => !late.contains x)

/-- Step 3 of R44: a member takes its home lane of slot h, exchanging with the thread that holds it. -/
def Team.exchange (t : Team) (h tid : Nat) : Team :=
  let home := (h, tid % t.width)
  match (t.thread? tid).map Thread.place with
  | some (some p) =>
    if p = home then t
    else
      let t : Team := { t with threads := t.threads.map (fun o => if o.place = some home then { o with place := some p } else o) }
      t.mapThread tid (fun x => { x with place := some home })
  | _ => t

/-- A record completes: its members go on at their next words. -/
def Team.joinDone (t : Team) (h k cycle : Nat) : Team :=
  match (t.sheaves[h]?).bind (fun f => f.joins[k]?) with
  | none => t
  | some j =>
    let t : Team := t.mapSheaf h (fun f => { f with joins := modifyAt f.joins k (fun _ => ⟨[], [], none⟩) })
    let t : Team := j.a.foldl (fun t x => t.mapThread x (fun y =>
      { y with wait := .none, earliest := max y.earliest (cycle + 2) })) t
    let rg := match j.last with | some l => l.2 | none => false
    let q := if rg then t.dissolve j.a cycle else (t, t.pcsOf j.a)
    let kept := j.a.filter (fun x => ((q.1.thread? x).map (fun y => !y.pooled)).getD false)
    let t := kept.foldl (fun t x => t.exchange h x) q.1
    if rg then q.2.foldl (fun u p => u.absorb h p) t else t

/-- A placement action of a cycle. -/
inductive Action where
  | join (h k last : Nat)
  | regroup (e : RegroupEv)
deriving DecidableEq, Repr

/-- The sequence of R47. -/
def Action.order : Action → List Nat
  | .join h _ last => [h, 0, last]
  | .regroup e => [e.slot, 1, e.key]

/-- The placement actions of the cycle in their sequence (R47). DESIGN CHOICE (log 25): of two records of a home sheaf that
one update completes, the lower join slot comes first. -/
def Team.actions (t : Team) (late : List Nat) : List Action :=
  let joins := (upto t.sheaves.length).flatMap (fun h =>
    match t.sheaves[h]? with
    | none => []
    | some f => (upto f.joins.length).filterMap (fun k =>
        match f.joins[k]? with
        | some j => if j.settles late then some (Action.join h k ((j.last.map Prod.fst).getD 0)) else none
        | none => none))
  sortBy Action.order (joins ++ t.regroups.map Action.regroup)

/-- The placement actions of a team's cycle, each on what the ones before left (R47). -/
def Team.placements (t : Team) (cycle : Nat) (late : List Nat) : Team :=
  let t : Team := (t.actions late).foldl (fun t a => match a with
    | .join h k _ => t.joinDone h k cycle
    | .regroup e => t.regroup e cycle) t
  { t with
    regroups := [],
    sheaves := t.sheaves.map (fun f => { f with joins := f.joins.map (fun j => if j.complete then j else { j with last := none }) }) }

/-! ### Reorder and barriers (R58, R224) -/

def reorderKey (x : Thread) : Option Nat := match x.wait with | .reorder k => some k | _ => none

/-- The reorder completes: runs of W in sorted order, one to a slot (R58). As a release at team scope it waits for the accesses of
its threads (R151). -/
def Team.reorder (t : Team) (cycle : Nat) (late : List Nat) : Team :=
  let xs := t.live
  if xs.isEmpty ∨ !(xs.all (fun x => (reorderKey x).isSome && !late.contains x.tid)) then t
  else
    let order := (sortBy (fun x => [(reorderKey x).getD 0, x.tid]) xs).map Thread.tid
    let n := order.length
    let t : Team := { t with threads := t.threads.map (fun x => if x.live then
        { x with wait := .none, place := none, earliest := max x.earliest (cycle + 8 + ceilDiv n 64) } else x) }
    (upto (ceilDiv n t.width)).foldl (fun t i =>
      t.placeSet i (((order.drop (i * t.width)).take t.width).foldl (fun l x => insertNat x l) [])) t

/-- The arrival cycle of a thread at a barrier. -/
def barAt (cohort : Bool) (x : Thread) : Option Nat :=
  match x.block with
  | .bar c cycle => if c = cohort then some cycle else none
  | _ => none

/-- Threads released from a barrier. -/
def releaseBar (first : Nat) (pt : Option Nat) (x : Thread) : Thread :=
  if x.live then
    { x with block := .none, earliest := max x.earliest first, pt := match pt with | some p => p | none => x.pt }
  else x

/-- A team barrier: every live thread waits at it (R224). -/
def Team.teamBarrier (t : Team) : Team :=
  let xs := t.live
  if xs.isEmpty ∨ !(xs.all (fun x => (barAt false x).isSome)) then t
  else
    let last := xs.foldl (fun m x => max m ((barAt false x).getD 0)) 0
    { t with threads := t.threads.map (releaseBar (last + 4) none) }

/-- A cohort barrier: every live thread of every team of the cohort. As a release and an acquire at cohort scope, each
thread's PT takes the largest PT and LCT of all, plus 1 (Tables 6-3 and 6-5; log 11). A team that is away holds it
(R25, R338). -/
def State.cohortBarrier (s : State) (t : Team) : State :=
  let us := s.teams.filter (sameCohort t)
  let xs := us.flatMap Team.live
  let away := us.any (fun u => match u.res with
    | .saved _ => true
    | .discarded => true
    | _ => false)
  if xs.isEmpty ∨ away ∨ !(xs.all (fun x => (barAt true x).isSome)) then s
  else
    let last := xs.foldl (fun m x => max m ((barAt true x).getD 0)) 0
    let p := xs.foldl (fun m x => max m (max x.pt x.lct)) 0
    { s with teams := s.teams.map (fun u => if sameCohort t u then
        { u with threads := u.threads.map (releaseBar (last + 48) (some (p + 1))) } else u) }

/-! ### Waits that end -/

/-- WAITC and WAITB waits whose condition holds end; threads whose blocked word has taken effect leave (R146, R207,
R256). DESIGN CHOICE (log 25): such a thread leaves after the cycle's placement actions, so that its removal from the
expected sets of its home sheaf counts among the updates of the next cycle (R46, R47). -/
def State.endWaits (s : State) : State :=
  s.teams.foldl (fun s t =>
    t.threads.foldl (fun s x =>
      match x.wait with
      | .waitc cls n =>
        let f := (t.sheaves[x.tid / t.width]?).getD Sheaf.reset
        if f.counter cls ≤ n then s.waitcDone t.id x.tid (x.tid / t.width) cls else s
      | .waitb n => if t.batchDone n then s.mapThread t.id x.tid (fun y => { y with wait := .none }) else s
      | .leaving passed => if x.block = .none then s.endThread t.id x.tid passed else s
      | _ => s) s) s

/-! ### Formation (R53, R54) -/

/-- A live thread outside the pool that is blocked in the sense of R53. -/
def State.blocked (s : State) (t : Team) (x : Thread) : Bool :=
  (match x.block with
    | .none => false
    | .ldf a => s.accs.any (fun b => b.id == a && b.parked)
    | _ => true)
  || (match x.wait with
    | .join _ => true
    | .rendezvous _ => true
    | .reorder _ => true
    | .parked _ => true
    | .waitc _ _ => true
    | .waitb _ => true
    | .baton _ => true
    | _ => false)
  || s.awaitsToken t x

def poolStamp (x : Thread) : Nat := match x.wait with | .pooled c => c | _ => 0

/-- The pool entry a team forms a sheaf from in this cycle: lowest condition, then oldest stamp (R53). DESIGN CHOICE
(log 25): of entries with equal oldest stamps, the one of the lower PC. -/
def State.formation (s : State) (t : Team) : Option (BitVec 64) :=
  let drain := t.threads.all (fun x => !x.live || x.pooled || s.blocked t x)
  let entries := t.poolPcs.filterMap (fun p =>
    let xs := t.poolAt p
    let stamp := xs.foldl (fun m x => min m (poolStamp x)) (poolStamp (xs.headD (Thread.reset 0 0 0 none 0 0)))
    if stamp + 64 ≤ s.cycle then some (0, stamp, p)
    else if t.width ≤ xs.length then some (1, stamp, p)
    else if drain then some (2, stamp, p)
    else none)
  (leastBy (fun (e : Nat × Nat × BitVec 64) => [e.1, e.2.1, e.2.2.toNat]) entries).map (fun e => e.2.2)

/-- F placed (R54). -/
def Team.form (t : Team) (p : BitVec 64) (cycle : Nat) : Team :=
  let f := ((t.poolAt p).map Thread.tid).take t.width
  let slots := upto t.slots.length
  let k := match slots.find? (fun k => (t.usedLanes k).isEmpty) with
    | some k => some k
    | none => leastBy (fun k => [t.width - (t.freeLanes k).length, k]) slots
  match k with
  | none => t
  | some k =>
    let xs := f.take (t.freeLanes k).length
    xs.foldl (fun t x => t.mapThread x (fun y => { y with earliest := max y.earliest (cycle + 2) })) (t.placeSet k xs)

/-- The team forms sheaves only while it runs. -/
def Team.forms (t : Team) : Bool :=
  match t.res with
  | .resident => true
  | .draining _ => true
  | _ => false

/-- SHEAF_FORMATION, after the cycle's placement actions (R53). -/
def execSheafFormation (team : Nat) (s : State) : Result :=
  .next (match s.team? team with
    | some t =>
      if t.forms then
        match s.formation t with
        | some p => s.mapTeam team (fun t => t.form p s.cycle)
        | none => s
      else s
    | none => s)

/-! ### Loop buffers and variable-latency results -/

/-- The refill of a thread's loop buffer is due: its block is there for the issue of the cycle that `refill` names, which is
planned as the cycle before ends (R31, Table 1-4). -/
def Thread.refillDue (x : Thread) (cycle : Nat) : Bool :=
  match x.refill with | some r => decide (r.2 ≤ cycle + 1) | none => false

/-- The block of a refill is read: four packets from a boundary of 48 bytes (R31). -/
def State.noteRefill (s : State) (team : Nat) (x : Thread) : State :=
  match s.team? team, x.refill with
  | some t, some r => s.noteCode t ((upto 6).map (fun k => BitVec.ofNat 64 (48 * r.1 + 8 * k)))
  | _, _ => s

/-- LOOP_BUFFER_REFILL: the block replaces the least recently used of four (R31). -/
def execLoopBufferRefill (team tid : Nat) (s : State) : Result :=
  .next (match s.thread? team tid with
    | some x =>
      if x.refillDue s.cycle then
        (s.noteRefill team x).mapThread team tid (fun x =>
          match x.refill with
          | some r =>
            let old := x.blocks.filter (fun b => decide (b.1 ≠ r.1))
            let old := if old.length < 4 then old
              else match leastBy (fun b => [b.2]) old with | some b => old.erase b | none => old
            { x with refill := none, blocks := old ++ [(r.1, r.2)] }
          | none => x)
      else s
    | none => s)

def Pend.due (p : Pend) (cycle : Nat) : Bool := p.ready && decide (p.notBefore ≤ cycle)

/-- VARIABLE_LATENCY_RETURN: a value that is ready lands; registers of one result land each at a time of its own, in an
order that is left open (R163). -/
def execVariableLatencyReturn (team tid serial : Nat) (s : State) : Result :=
  .next (match (s.thread? team tid).bind (fun x => x.pend.find? (fun p => p.serial == serial)) with
    | some p =>
      if p.due s.cycle then
        let n := p.regs.length
        let k := if 2 ≤ n then Config.freeChoice s.freeCtr % n else 0
        let s : State := if 2 ≤ n then { s with freeCtr := s.freeCtr + 1 } else s
        let rest := p.regs.eraseIdx k
        let s := s.mapThread team tid (fun x =>
          { x with
            regs := match p.regs[k]? with
              | some r => { x.regs with v := sset 0 x.regs.v r.1 r.2 }
              | none => x.regs,
            pend := if rest.isEmpty then x.pend.filter (fun q => decide (q.serial ≠ serial))
              else x.pend.map (fun q => if q.serial = serial then { q with regs := rest } else q) })
        s.tryHandler team tid
      else s
    | none => s)

end Sys2Proof.Machine
end

