-- ==== Sys2Proof/Machine/Placement.lean ====
section
/-! DEFINITION. Placement of cohorts, fabric teams, saved and discarded teams; the waiting order, priorities and aging,
pre-emption, drain-for-fit, saves, discards and the retirement of teams; YIELD (01 R20 to R27, 08 R209, 14 R315 to R339). -/

namespace Sys2Proof.Machine

/-! ### What a core holds (R23, R26, R27, R79, R83) -/

/-- No operation of a team is left (R22). -/
def State.teamQuiet (s : State) (t : Team) : Bool := s.ops.all (fun o => o.team != t.id) && t.mops.isEmpty

/-- A team occupies its core's resources. A discarded or ended one does while its operations complete (R332, R338). -/
def State.holdsCore (s : State) (t : Team) : Bool :=
  match t.res with
  | .resident => true
  | .draining _ => true
  | .saving => true
  | .saved _ => false
  | .discarded => !s.units.any (fun u => u.kind == .discarded t.id)
  | .ended => !s.teamQuiet t

/-- Teams on a core, without some that would have left. -/
def State.onCore (s : State) (d c : Nat) (gone : List Nat) : List Team :=
  s.teams.filter (fun t => t.die == d && t.core == c && !gone.contains t.id && s.holdsCore t)

def Team.heldGranules (t : Team) : List Nat := (upto t.run.2).map (fun k => t.run.1 + k) ++ t.granules

/-- Thread places of teams: their capacity counts, ended and vacant threads with it (log 22). -/
def threadPlaces (ts : List Team) : Nat := ts.foldl (fun n t => n + 2 ^ t.tbits) 0

/-- Shape of a team to be placed. -/
structure TeamShape where
  width : Nat
  tbits : Nat
  depth : Nat
  scr : Nat
  acc : Nat
deriving DecidableEq, Repr

/-- A place on a core: register run, other granules, scheduler and lane group of each sheaf slot. -/
structure CorePlace where
  core : Nat
  run : Nat × Nat
  granules : List Nat
  slots : List (Nat × Nat)
deriving DecidableEq, Repr

/-- The sheaves of a team: scheduler and lane group, width, threads. A slot without threads holds none, and pooled and ended
threads are in none (R26, R27, R50). -/
def Team.heldSheaves (t : Team) : List ((Nat × Nat) × Nat × Nat) :=
  (upto t.slots.length).filterMap (fun k =>
    let n := (t.usedLanes k).length
    if n = 0 then none else (t.slots[k]?).map (fun p => (p, t.width, n)))

/-- Threads that slots of a width may come to hold on a scheduler: pooled ones return to them (R50). -/
def slotThreads (slots : List (Nat × Nat)) (width live k : Nat) : Nat :=
  min live ((slots.filter (fun p => p.1 == k)).length * width)

/-- Home sheaves dealt to the schedulers in rotation from the one with the fewest threads, each to the lane group of its width
with the fewest sheaves; none when a scheduler could pass its limit, now or once pooled threads have come back to their
slots (R26, R27, R50; log 22). -/
def deal (sh : TeamShape) (live : Nat) (ts : List Team) : Option (List (Nat × Nat)) :=
  let held := ts.flatMap Team.heldSheaves
  let load (k : Nat) : Nat := held.foldl (fun n p => if p.1.1 = k then n + p.2.2 else n) 0
  let first := (leastBy (fun k => [load k]) (upto 4)).getD 0
  let mine := (upto (2 ^ sh.tbits / sh.width)).foldl (fun l h =>
    let k := (first + h) % 4
    let g := leastBy (fun g => [(held.filter (fun p => p.1 == (k, g) && p.2.1 == sh.width)).length
      + (l.filter (fun p => p == (k, g))).length]) (upto (64 / sh.width))
    l ++ [(k, g.getD 0)]) []
  if (upto 4).all (fun k => decide (ts.foldl (fun n t => n + slotThreads t.slots t.width t.live.length k) 0
      + slotThreads mine sh.width live k ≤ Config.schedulerThreads))
  then some mine else none

/-- Room for a team beside the teams of a core: the lowest aligned free run, the lowest free granules left (R317). -/
def placeBeside (sh : TeamShape) (live d c : Nat) (ts : List Team) : Option CorePlace :=
  let pool := Config.poolGranules d
  let reg := regRun sh.tbits sh.depth
  let used := ts.flatMap Team.heldGranules
  let free := (upto pool).filter (fun g => !used.contains g)
  let more := sh.scr + sh.acc
  match deal sh live ts with
  | none => none
  | some slots =>
    if Config.coreThreads < threadPlaces ts + 2 ^ sh.tbits ∨ 8 < ts.foldl (fun n t => n + t.acc) 0 + sh.acc then none
    else
      match (upto (pool / reg)).find? (fun k => (upto reg).all (fun j => free.contains (reg * k + j))) with
      | none => none
      | some k =>
        let rest := free.filter (fun g => decide (g < reg * k) || decide (reg * k + reg ≤ g))
        if rest.length < more then none else some ⟨c, (reg * k, reg), rest.take more, slots⟩

/-! ### Bids: the units of the waiting orders (R315, R316, R306) -/

/-- A unit as it stands in a waiting order: one cohort, or one team. -/
structure Bid where
  unit : WaitUnit
  l : Launch
  cohort : Nat
  number : Nat
  count : Nat
  die : Option Nat
  /-- virtual die of the affinity pointer or node -/
  vd : Option Nat
  eff : Nat
  overdue : Bool
  back : Option Team
  shape : TeamShape
deriving DecidableEq, Repr

def Launch.shape (l : Launch) : TeamShape :=
  ⟨8 * 2 ^ l.widthCode, l.teamBits, pDepth l.part, pScr l.part, pAcc l.part⟩

def nodeShape (d : List DWord) : TeamShape :=
  ⟨nWidth d, nTbits d, pDepth (nPart d), pScr (nPart d), pAcc (nPart d)⟩

def Team.shape (t : Team) : TeamShape := ⟨t.width, t.tbits, t.depth, t.scr, t.acc⟩

def TeamShape.granules (sh : TeamShape) : Nat := regRun sh.tbits sh.depth + sh.scr + sh.acc

/-- A present die of a class the shape fits (R80). -/
def State.classFits (s : State) (sh : TeamShape) (d : Nat) : Bool :=
  (s.die d).present && decide (sh.granules ≤ Config.poolGranules d)

/-- The die and virtual die of a cohort's affinity pointer (R306, R316); none when it has none. -/
def State.affinity (s : State) (l : Launch) (cohort : Nat) : Option (Nat × Nat) :=
  if !bit (dword l.words 15) 6 then none
  else
    let base := dword l.words 9
    let off := fld base 0 54 + cohort * l.cohortTeams * fld (dword l.words 12) 32 32
    let d := s.descOf l.ctx (fld base 54 10)
    if 2 ^ 54 ≤ off ∨ (s.descError l.ctx (fld base 54 10)).isSome ∨ descInvalid (s.ctx l.ctx) d ∨ !ownerAdmits d l.slot ∨ dOkind d = 3 then none
    else
      match (s.ctx l.ctx).vdie (dVd d) with
      | some k => if s.classFits l.shape k then some (k, dVd d) else none
      | none => none

def Team.runs (t : Team) : Bool :=
  match t.res with
  | .resident => true
  | .draining _ => true
  | _ => false

/-- Effective priority (R325, R326). -/
def State.effOf (s : State) (t : Team) : Nat :=
  let own := ((s.launch? t.launch).map Launch.prio).getD t.eff
  let most (ts : List Team) : Option Nat := match ts with
    | [] => none
    | x :: r => some (r.foldl (fun m y => max m y.eff) x.eff)
  match t.res with
  | .saved c =>
    let here := s.teams.filter (fun u => u.die == t.die && u.runs)
    let cap := match most (here.filter (fun u => u.core == t.core)) with
      | some m => m
      | none => (most here).getD own
    max own (min cap (own + (s.cycle - c) / 2 ^ 17))
  | .discarded => own
  | _ => t.eff

/-- The bids of a unit. Cohorts without an affinity expression are alike, so the lowest stands for all. -/
def State.unitBids (s : State) (u : WaitUnit) : List Bid :=
  match s.launch? u.launch with
  | none => []
  | some l =>
    match u.kind with
    | .cohorts lo hi =>
      let n := if bit (dword l.words 15) 6 then hi - lo else 1
      (upto n).map (fun k =>
        let a := s.affinity l (lo + k)
        ⟨u, l, lo + k, 0, l.cohortTeams, a.map Prod.fst, a.map Prod.snd, l.prio, false, none, l.shape⟩)
    | .fabric n recs =>
      if recs.any (fun r => ((s.record? r).map Record.spilled).getD false) then []
      else [⟨u, l, 0, 0, 1, u.die, some (nVd (l.node n)), l.prio, false, none, nodeShape (l.node n)⟩]
    | .saved id =>
      match s.team? id with
      | some t => [⟨u, l, t.cohort, t.number, 1, some t.die, none, s.effOf t, t.overdue, some t, t.shape⟩]
      | none => []
    | .discarded id =>
      match s.team? id with
      | some t =>
        if t.bound.any (fun r => ((r.bind s.record?).map Record.spilled).getD false) then []
        else [⟨u, l, t.cohort, t.number, 1, some t.die, none, s.effOf t, false, some t, t.shape⟩]
      | none => []

/-- Threads of one team of a bid that live: all, those with records, or those that lived when it was saved. -/
def Bid.live (b : Bid) : Nat :=
  match b.unit.kind, b.back with
  | .cohorts _ _, _ => 2 ^ b.shape.tbits
  | .fabric _ recs, _ => recs.length
  | .saved _, some t => t.live.length
  | .discarded _, some t => if t.node.isSome then (t.bound.filter Option.isSome).length else 2 ^ b.shape.tbits
  | _, none => 0

/-- Fabric teams keep their firing order, behind what else entered waiting in their cycle (R322; DESIGN CHOICE for the others
of the cycle, log 25). -/
def WaitUnit.firing (u : WaitUnit) : Nat := match u.kind with | .fabric _ _ => u.id + 1 | _ => 0

/-- The keys of R315. -/
def Bid.order (b : Bid) : List Nat :=
  [8 - b.eff, if b.overdue then 0 else 1, if b.back.isSome then 0 else 1, b.unit.entered, b.unit.firing, b.l.jseq, b.cohort,
    b.number]

/-- Every bid in the waiting order (R315). -/
def State.bids (s : State) : List Bid := sortBy Bid.order (s.units.flatMap s.unitBids)

/-- A core held for a unit by a pre-emption. -/
def Reserve.holds (r : Reserve) (unit c : Nat) : Bool := r.unit == unit && r.cores.contains c

/-- A core closed to a bid: reserved for another unit, or in drain-for-fit for one, unless reserved for the bid's own
(R317, R320, R327). -/
def State.closed (s : State) (b : Bid) (d c : Nat) : Bool :=
  let D := s.die d
  !D.reserves.any (fun r => r.holds b.unit.id c)
  && (D.reserves.any (fun r => r.cores.contains c) || D.drainFit.any (fun p => p.1 == c && p.2 != b.unit.id))

/-- Room for one team of a bid on a core once some teams have left (R317). -/
def State.roomOn (s : State) (b : Bid) (d c : Nat) (gone : List Nat) : Option CorePlace :=
  let ts := s.onCore d c gone
  if (match b.back with | some t => ts.any (sameCohort t) | none => false) then none
  else placeBeside b.shape b.live d c ts

/-- A die admits the bid's teams at all (R80, R353, R361, R369). -/
def State.admits (s : State) (b : Bid) (d : Nat) : Bool :=
  s.classFits b.shape d && (s.die d).state == 1
  && (s.ctx b.l.ctx).heldReports.all (fun r => r.die != d)
  && (match b.die with | some k => k == d | none => true)

/-- Cores for the teams of a bid, taken in ascending TEAM: the one with the fewest threads each time (R317, R318). -/
def State.placeTeams (s : State) (b : Bid) (d : Nat) : Nat → List CorePlace → Option (List CorePlace)
  | 0, acc => some acc
  | n + 1, acc =>
    let ps := (upto (Config.cores d)).filterMap (fun c =>
      if acc.any (fun p => p.core == c) ∨ s.closed b d c then none else s.roomOn b d c [])
    match leastBy (fun p => [threadPlaces (s.onCore d p.core [])]) ps with
    | some p => s.placeTeams b d n (acc ++ [p])
    | none => none

def State.placeOnDie (s : State) (b : Bid) (d : Nat) : Option (List CorePlace) :=
  if s.admits b d then s.placeTeams b d b.count [] else none

/-- Thread places free on a die (R316). -/
def State.freePlaces (s : State) (d : Nat) : Nat :=
  Config.cores d * Config.coreThreads - (upto (Config.cores d)).foldl (fun n c => n + threadPlaces (s.onCore d c [])) 0

/-- Where a bid can be placed now: of several dies the one with the most free thread places (R316). -/
def State.placeOf (s : State) (b : Bid) : Option (Nat × List CorePlace) :=
  leastBy (fun p => [2 ^ 20 - s.freePlaces p.1, p.1])
    ((upto 4).filterMap (fun d => (s.placeOnDie b d).map (fun p => (d, p))))

/-- The start of a launch's first team can be journaled (R309, R312). -/
def State.mayStart (s : State) (l : Launch) : Bool := l.started || s.journalFree l.ctx

/-- The first unit of the waiting order that can be placed (R319). -/
def State.nextPlace (s : State) : Option (Bid × Nat × List CorePlace) :=
  s.bids.findSome? (fun b => if s.mayStart b.l then (s.placeOf b).map (fun p => (b, p.1, p.2)) else none)

/-! ### Units that leave the waiting order -/

/-- A unit with one cohort cut out of it: pieces to both sides, in order. -/
def WaitUnit.without (u : WaitUnit) (cohort fresh : Nat) : List WaitUnit :=
  match u.kind with
  | .cohorts lo hi =>
    (if lo < cohort then [{ u with kind := .cohorts lo cohort }] else [])
    ++ (if cohort + 1 < hi then
        [{ u with kind := .cohorts (cohort + 1) hi, id := if lo < cohort then fresh else u.id }] else [])
  | _ => []

/-- The unit of a placed bid is gone, and with it what was reserved for it (R320, R327). -/
def State.takeBid (s : State) (b : Bid) : State :=
  { s with
    serial := s.serial + 1,
    units := s.units.flatMap (fun u => if u.id = b.unit.id then u.without b.cohort s.serial else [u]),
    dies := s.dies.map (fun D =>
      { D with reserves := D.reserves.filter (fun r => r.unit != b.unit.id),
               drainFit := D.drainFit.filter (fun p => p.2 != b.unit.id) }) }

/-- A bid's cohort made a unit of its own, for which cores can be held: the state and the unit's number. -/
def State.isolate (s : State) (b : Bid) : State × Nat :=
  match b.unit.kind with
  | .cohorts lo hi =>
    if hi ≤ lo + 1 then (s, b.unit.id)
    else
      ({ s with
        serial := s.serial + 2,
        units := s.units.flatMap (fun u => if u.id = b.unit.id then
            { u with id := s.serial + 1, kind := .cohorts b.cohort (b.cohort + 1) } :: u.without b.cohort s.serial
          else [u]) }, s.serial + 1)
  | _ => (s, b.unit.id)

/-! ### Starts (R20 to R24, R77, R135, R268, R332, R336) -/

/-- Device memory as fetch finds it: each die's written bytes over memory, an owning die's over the home's (R154). -/
def State.flatMemory (s : State) : List Host.Cell :=
  let laid (d : Nat) (owner : Bool) (m : List Host.Cell) : List Host.Cell :=
    (s.die d).l2.foldl (fun m r =>
      let mine := if owner then homeOf (r.1 * 64) != d && (s.dirOf (r.1 / 4)).owner == some d else homeOf (r.1 * 64) == d
      if mine && r.2.dirty then
        (upto 64).foldl (fun m k =>
          if r.2.mask.getD k 0 = 0 then m else putByte m (r.1 * 64 + k) (mergeByte (byteAt m (r.1 * 64 + k)) (r.2.data.getD k 0) (r.2.mask.getD k 0))) m
      else m) m
  let m := (upto 4).foldl (fun m d => laid d false m) s.mem
  (upto 4).foldl (fun m d => laid d true m) m

/-- Lowest virtual die that binds a die, or 4 (Table 3-4). -/
def Ctx.vdieOf (c : Ctx) (d : Nat) : Nat := ((upto 4).find? (fun v => c.vdie v == some d)).getD 4

/-- A team at its start: every register and store as R21, R39, R77 and R81 say, PT at HWM + 1 (R135). Threads of a fabric
team without a record have ended (R268). -/
def State.freshTeam (s : State) (l : Launch) (id cohort number d : Nat) (sh : TeamShape) (p : CorePlace)
    (node : Option Nat) (bound : List (Option Nat)) (vdie : Nat) (wids : List Nat) : Team :=
  let pt := (s.die d).hwm + 1
  let pc : BitVec 64 := BitVec.ofNat 64 (match node with
    | some n => nEntry (l.node n)
    | none => fld (dword l.words 8) 0 54)
  let n := 2 ^ sh.tbits
  let vacant (k : Nat) : Bool := node.isSome && (bound.getD k none).isNone
  let threads := (upto n).map (fun k =>
    let x := Thread.reset k (wids.getD k 0) pc (some (k / sh.width, k % sh.width)) pt s.cycle
    if vacant k then { x with wait := .ended, place := none } else x)
  { id := id, launch := l.id, ctx := l.ctx, cohort := cohort, number := number, die := d, core := p.core,
    width := sh.width, tbits := sh.tbits, depth := sh.depth, scr := sh.scr, acc := sh.acc, run := p.run,
    granules := p.granules, slots := p.slots, lastIssue := p.slots.map (fun _ => 0), threads := threads,
    sheaves := (upto (n / sh.width)).map (fun _ => Sheaf.reset), scratch := [], tiles := [],
    wslots := List.replicate (sh.acc * Config.slotsPerGranule d) ⟨none, []⟩,
    queues := List.replicate 16 ⟨0, 0, 0, 0, 0⟩, baton := none, passing := [], batches := 0, mops := [], node := node, bound := bound,
    ended := [], vdie := vdie, res := .resident, tenure := none, overdue := false, eff := l.prio, progT := 0,
    progN := ((upto n).filter (fun k => !vacant k)).length, progE := 0, written := false, startCycle := s.cycle,
    startOrder := s.serial, since := s.cycle, saveUnits := 0, regroups := [], wlog := [], pushed := [], sup := l.sup }

/-- All teams of a cohort start in one cycle (R24, R318); the first cohort starts its launch (R154, R309). -/
def State.startCohort (s : State) (b : Bid) (d : Nat) (ps : List CorePlace) : State :=
  let s := s.startLaunch b.l.id s.flatMemory
  let s := s.takeBid b
  let vd := match b.vd with | some v => v | none => (s.ctx b.l.ctx).vdieOf d
  (upto ps.length).foldl (fun s k =>
    match ps[k]? with
    | none => s
    | some p =>
      let wid0 := b.cohort * 2 ^ b.l.b b.l.cb + k * 2 ^ b.l.teamBits
      let t := s.freshTeam b.l s.serial b.cohort k d b.shape p none [] vd ((upto (2 ^ b.shape.tbits)).map (fun j => wid0 + j))
      { s with serial := s.serial + 1, teams := s.teams ++ [t] }) s

/-- A fired team starts with the records of its share bound to its threads (R268). -/
def State.startFabric (s : State) (b : Bid) (d node : Nat) (recs : List Nat) (p : CorePlace) : State :=
  let s := s.takeBid b
  let n := 2 ^ b.shape.tbits
  let t := s.freshTeam b.l s.serial 0 0 d b.shape p (some node) ((upto n).map (fun k => recs[k]?))
    (b.vd.getD 4) (upto n)
  { s with serial := s.serial + 1, teams := s.teams ++ [t] }

/-- A saved team on a core again (R321, R336): pooled threads keep their age; a future load executes again; conditions that
aborts gave it meanwhile are taken (R351). -/
def State.restoreTeam (s : State) (b : Bid) (t : Team) (p : CorePlace) : State :=
  let eff := s.effOf t
  let saved := match t.res with | .saved c => c | _ => s.cycle
  let s := s.takeBid b
  let s := s.mapDie t.die (fun D => { D with spused := D.spused - t.saveUnits })
  let s : State := { s with accs := s.accs.map (fun a => if a.team = t.id then { a with core := p.core } else a) }
  (s.mapTeam t.id (fun t =>
    { t with
      core := p.core, run := p.run, granules := p.granules, slots := p.slots, res := .resident, saveUnits := 0,
      since := s.cycle, tenure := if t.overdue then some (s.cycle + 2 ^ 18) else none,
      eff := if t.overdue then eff else b.l.prio, overdue := false,
      threads := t.threads.map (fun x => match x.wait with
        | .pooled stamp => { x with wait := .pooled (s.cycle + stamp - saved) }
        | _ => x) })).restoreAborts t.id

/-- A discarded team starts anew with its work identifiers and bound records (R332). -/
def State.restartTeam (s : State) (b : Bid) (t : Team) (p : CorePlace) : State :=
  let s := s.takeBid b
  let u := s.freshTeam b.l t.id t.cohort t.number t.die t.shape p t.node t.bound t.vdie (t.threads.map Thread.wid)
  State.mapTeam { s with serial := s.serial + 1 } t.id (fun _ => u)

/-- A placed unit's teams begin. -/
def State.startBid (s : State) (b : Bid) (d : Nat) (ps : List CorePlace) : State :=
  match b.unit.kind, ps with
  | .cohorts _ _, _ => s.startCohort b d ps
  | .fabric n recs, p :: _ => s.startFabric b d n recs p
  | .saved _, p :: _ => match b.back with | some t => s.restoreTeam b t p | none => s
  | .discarded _, p :: _ => match b.back with | some t => s.restartTeam b t p | none => s
  | _, [] => s

/-- The kinds of placement events. -/
def UnitKind.tag : UnitKind → Nat
  | .cohorts _ _ => 0
  | .fabric _ _ => 1
  | .saved _ => 2
  | .discarded _ => 3

/-- The placement of a unit of a kind, when it is the next one to be placed. -/
def State.placeUnit (s : State) (unit tag : Nat) : State :=
  match s.nextPlace with
  | some (b, d, ps) => if b.unit.id = unit ∧ b.unit.kind.tag = tag then s.startBid b d ps else s
  | none => s

/-- COHORT_START (R318). -/
def execCohortStart (unit : Nat) (s : State) : Result := .next (s.placeUnit unit 0)
/-- FABRIC_TEAM_START (R268, R322). -/
def execFabricTeamStart (unit : Nat) (s : State) : Result := .next (s.placeUnit unit 1)
/-- TEAM_RESTORE (R336). -/
def execTeamRestore (unit : Nat) (s : State) : Result := .next (s.placeUnit unit 2)
/-- DISCARDED_TEAM_RESTART (R332). -/
def execDiscardedTeamRestart (unit : Nat) (s : State) : Result := .next (s.placeUnit unit 3)

/-! ### Saves (R333 to R335) -/

/-- Units of 16 KiB of a team's save (R334). -/
def Team.saveSize (t : Team) : Nat :=
  regRun t.tbits t.depth + t.scr + t.acc + 1 + t.acc * (if Config.isM t.die then 4 else 1)

/-- R335 permits the save: the pool is valid and has room beside `extra` units, and no COLL of the team is incomplete
(R379). -/
def State.maySave (s : State) (t : Team) (extra : Nat) : Bool :=
  let D := s.die t.die
  D.spv && decide (D.spused + extra + t.saveSize ≤ D.spunits) && s.ops.all (fun o => o.team != t.id || o.kind != 3)

/-- A save begins: the team issues no more, its units count as used. -/
def State.beginSave (s : State) (t : Team) : State :=
  (s.mapDie t.die (fun D => { D with spused := D.spused + t.saveSize })).mapTeam t.id (fun t =>
    { t with res := .saving, saveUnits := t.saveSize, tenure := none,
             eff := ((s.launch? t.launch).map Launch.prio).getD t.eff })

/-- A pending write that a save does not wait for: a parked future load's, a blocked pop's. -/
def State.keepsPend (s : State) (x : Thread) (p : Pend) : Bool :=
  (p.ldf && s.accs.any (fun a => a.id == p.serial && a.parked)) || (match x.block with | .pop _ serial _ => p.serial == serial | _ => false)

/-- Memory lines that the save of a team writes: its units lie freely in the pool (R333, R335; log 18). -/
def State.saveSecs (s : State) (t : Team) : List Nat :=
  let D := s.die t.die
  ((upto t.saveUnits).flatMap (fun k =>
    let base := fld D.spbase 0 54 + 16384 * (Config.freeChoice (s.freeCtr + k) % max 1 D.spunits)
    (upto 256).map (fun j => secOf (dpaLoc t.die (base + 64 * j))))).foldl (fun l x => insertNat x l) []

/-- The save's writes at the home slices: what the pool then holds is open, under the context's key (R334, R335, R386). -/
def State.writeSave (s : State) (t : Team) : State :=
  let key := s.keyOf t.ctx .coherent
  let n := s.freeCtr + t.saveUnits
  let secs := (s.saveSecs t).filter (fun x => (s.memError (x * 64) 64).isNone)
  let s := s.rekeyAll key (secs.map (· * 64))
  let ws := (upto secs.length).flatMap (fun k =>
    (upto 64).map (fun j => (secs.getD k 0 * 64 + j, Config.freeByte (n + 64 * k + j), (0xFF : Byte))))
  ({ s with freeCtr := n + 64 * secs.length }.homeWrite ws 0).1

/-- Everything of steps 2 to 4 of R333 has landed, and the slices take the writes of step 5. -/
def State.canSaveTeam (s : State) (t : Team) : Bool :=
  t.res == .saving && s.teamQuiet t
  && s.accs.all (fun a => a.team != t.id || (a.kind == .ldf && a.parked) || a.performed 5)
  && t.threads.all (fun x => x.asked.isNone && x.pend.all (s.keepsPend x))
  && s.slicesFree ((s.saveSecs t).map (· * 64))

/-- SAVE_COMPLETE: each thread's fence at die scope (Table 6-3), future loads leave the wait table, the pool is written, and
the team waits to be restored. -/
def execSaveComplete (team : Nat) (s : State) : Result :=
  .next (match s.team? team with
    | some t =>
      if s.canSaveTeam t then
        let s : State := { s with accs := s.accs.map (fun a =>
          if a.team = team ∧ a.kind = .ldf then { a with parked := s.ldfFaulted a, inTable := false } else a) }
        let s := (s.writeSave t).mapTeam team (fun t =>
          { t with
            res := .saved s.cycle, progT := t.progT + (s.cycle - t.since),
            threads := t.threads.map (fun x => { x with pt := max x.pt x.lct + 1, blocks := [], refill := none }) })
        s.addUnit (.saved team) t.launch (some t.die)
      else s
    | none => s)

/-! ### Discards (R332) -/

/-- Threads of a team leave every report that names them; the report itself stays (R8). -/
def dropWho (team : Nat) (who : List (Nat × List Nat)) : List (Nat × List Nat) := who.filter (fun g => g.1 != team)

/-- A bound record that had retired stands again, as the discarded team found it: in the spill region, from which it returns
before the team is started again, and in its place at the front of an ordered window (R272, R277, R283; log 22). -/
def State.reviveRecord (s : State) (r : Record) : State :=
  let s : State := { s with records := s.records ++ [{ r with place := .fired, stored := false, spilled := true }] }
  s.mapLaunch r.launch (fun l =>
    { l with
      spillUsed := l.spillUsed + r.units,
      windows :=
        if l.windows.any (fun w => w.input == r.id) then
          l.windows.map (fun w => if w.input = r.id then { w with retired := false } else w)
        else if nOrd (l.node r.node) then ⟨r.node, r.id, false, []⟩ :: l.windows else l.windows })

/-- Bound records of a team that retired, youngest first. -/
def Team.revived (t : Team) : List Record :=
  (t.bound.filterMap (fun b => b.bind (fun id => t.ended.find? (fun r => r.id == id)))).reverse

/-- A team is killed at once; what it would have done is thrown away. -/
def State.discardTeam (s : State) (t : Team) : State :=
  let s : State := { s with
    accs := s.accs.filter (fun a => a.team != t.id),
    dies := s.dies.map (fun D => { D with backlog := D.backlog.map (fun r => { r with who := dropWho t.id r.who }) }),
    ctxs := s.ctxs.map (fun c =>
      { c with awaits := c.awaits.map (fun w => { w with who := dropWho t.id w.who }),
               heldReports := c.heldReports.map (fun r => { r with who := dropWho t.id r.who }) }) }
  let s := t.revived.foldl State.reviveRecord s
  let s := s.mapLaunch t.launch (fun l => { l with outcomes := l.outcomes.filter (fun o => o.1 != t.id) })
  s.mapTeam t.id (fun t =>
    { t with
      res := .discarded, tenure := none, regroups := [], baton := none, passing := [], ended := [],
      threads := t.threads.map (fun x => Thread.reset x.tid x.wid x.pc none x.pt s.cycle),
      sheaves := t.sheaves.map (fun f => { f with joins := Sheaf.reset.joins }) })

/-- A discarded team whose operations have completed enters waiting. -/
def State.enterDiscarded (s : State) : State :=
  s.teams.foldl (fun s t =>
    if t.res = .discarded ∧ s.teamQuiet t ∧ !s.units.any (fun u => u.kind == .discarded t.id) then
      s.addUnit (.discarded t.id) t.launch (some t.die)
    else s) s

/-! ### Pre-emption (R327 to R331) -/

/-- What becomes of a victim (R329). -/
inductive Fate where
  | drain
  | discard
  | save
deriving DecidableEq, Repr

def Launch.budget (l : Launch) : Nat := fld (dword l.words 13) 32 32 * 1024

/-- The estimator (R329). -/
def State.fate (s : State) (t : Team) (l : Launch) : Fate :=
  let T := t.progT + (s.cycle - t.since)
  if 1 ≤ t.progE ∧ ceilDiv (T * (t.progN - t.progE)) t.progE ≤ l.budget then .drain
  else if !t.written then .discard
  else .save

/-- Rank for the choice of victims (R326). -/
def Bid.rank (b : Bid) : Nat := b.eff + (if b.overdue then 1 else 0)

/-- An eligible victim, its save apart (R328). -/
def Bid.beats (b : Bid) (t : Team) : Bool :=
  t.res == .resident && decide (t.eff < b.rank) && t.tenure.isNone
  && (match b.back with | some u => !sameCohort u t | none => true)

/-- Victims removed one after another until the team could be placed: the victims, and the pool units their saves take. -/
def State.victimsFrom (s : State) (b : Bid) (d c : Nat) : List Team → List Nat → Nat → Option (List Nat × Nat)
  | [], gone, extra => if (s.roomOn b d c gone).isSome then some (gone, extra) else none
  | t :: r, gone, extra =>
    if (s.roomOn b d c gone).isSome then some (gone, extra)
    else if s.fate t b.l = .save then
      if s.maySave t extra then s.victimsFrom b d c r (gone ++ [t.id]) (extra + t.saveSize)
      else s.victimsFrom b d c r gone extra
    else s.victimsFrom b d c r (gone ++ [t.id]) extra

/-- A unit is an overdue team (R326). -/
def State.unitOverdue (s : State) (unit : Nat) : Bool :=
  s.units.any (fun u => u.id == unit && (match u.kind with
    | .saved t => ((s.team? t).map Team.overdue).getD false
    | _ => false))

/-- A core whose teams a bid may pre-empt: held for it or for no unit; of an overdue bid, also one held for a unit that is not
overdue (R320, R326). -/
def State.targets (s : State) (b : Bid) (d c : Nat) : Bool :=
  !s.closed b d c
  || (b.overdue && (s.die d).reserves.all (fun r => !r.cores.contains c || !s.unitOverdue r.unit)
      && (s.die d).drainFit.all (fun p => p.1 != c || !s.unitOverdue p.2))

/-- The die can begin a pre-emption for a bid: none is under way, or only for units that are not overdue and the bid is
(R326, R327, R339). -/
def State.mayPreempt (s : State) (b : Bid) (d : Nat) : Bool :=
  (s.die d).reserves.all (fun r => b.overdue && !s.unitOverdue r.unit)

/-- Cores and victims for the teams of a bid on a die (R328). -/
def State.victimPlan (s : State) (b : Bid) (d : Nat) : Nat → List (Nat × List Nat) → Nat → Option (List (Nat × List Nat))
  | 0, acc, _ => some acc
  | n + 1, acc, extra =>
    let ps := (upto (Config.cores d)).filterMap (fun c =>
      if acc.any (fun p => p.1 == c) ∨ !s.targets b d c then none
      else
        let ts := sortBy (fun t => [t.eff, 2 ^ 70 - t.startOrder]) ((s.onCore d c []).filter b.beats)
        (s.victimsFrom b d c ts [] extra).map (fun v => (c, v.1, v.2)))
    match leastBy (fun (p : Nat × List Nat × Nat) => [p.2.1.length]) ps with
    | some p => s.victimPlan b d n (acc ++ [(p.1, p.2.1)]) p.2.2
    | none => none

/-- The unit a die pre-empts for, with its cores and victims: the first that cannot be placed, also one for which another die
holds cores (R327, R396). -/
def State.nextPreempt (s : State) (d : Nat) : Option (Bid × List (Nat × List Nat)) :=
  s.bids.findSome? (fun b =>
    if s.mayPreempt b d && s.admits b d && (s.placeOf b).isNone then
      (s.victimPlan b d b.count [] 0).map (fun p => (b, p))
    else none)

/-- Reservations beside a new one: one that loses a core to it ends, and its unit waits as before (R326; log 22). -/
def keptReserves (rs : List Reserve) (cores : List Nat) : List Reserve :=
  rs.filter (fun r => r.cores.all (fun c => !cores.contains c))

/-- PREEMPTION_START: the cores are reserved and each victim drained, discarded or saved. -/
def execPreemptionStart (die : Nat) (s : State) : Result :=
  .next (match s.nextPreempt die with
    | none => s
    | some (b, plan) =>
      let q := s.isolate b
      let victims := plan.flatMap Prod.snd
      let s := q.1.mapDie die (fun D => { D with
        reserves := keptReserves D.reserves (plan.map Prod.fst) ++ [⟨q.2, plan.map Prod.fst, victims⟩] })
      victims.foldl (fun s id =>
        match s.team? id with
        | none => s
        | some t =>
          match s.fate t b.l with
          | .drain => s.mapTeam id (fun t => { t with res := .draining (s.cycle + b.l.budget) })
          | .discard => s.discardTeam t
          | .save => s.beginSave t) s)

/-- A draining team past its budget with threads that have not ended (R331). -/
def State.canExpire (s : State) (t : Team) : Bool :=
  match t.res with
  | .draining e => decide (e ≤ s.cycle) && t.threads.any Thread.live
  | _ => false

/-- DRAIN_BUDGET_EXPIRY: chosen again; where the save is refused it drains on. -/
def execDrainBudgetExpiry (team : Nat) (s : State) : Result :=
  .next (match s.team? team with
    | some t =>
      if s.canExpire t then
        if !t.written then s.discardTeam t
        else if s.maySave t 0 then s.beginSave t
        else s.mapTeam team (fun t => { t with res := .draining (2 ^ 70) })
      else s
    | none => s)

/-! ### Drain-for-fit (R320) -/

/-- Cores of a die in drain-for-fit for a unit. -/
def Die.fitCores (D : Die) (unit : Nat) : Nat := (D.drainFit.filter (fun p => p.2 == unit)).length

def State.freeGranules (s : State) (d c : Nat) : Nat :=
  Config.poolGranules d - ((s.onCore d c []).flatMap Team.heldGranules).length

/-- The core with the most free granules that is not taken yet. -/
def State.fitCore (s : State) (d : Nat) : Option Nat :=
  let D := s.die d
  leastBy (fun c => [1024 - s.freeGranules d c, c]) ((upto (Config.cores d)).filter (fun c =>
    !D.drainFit.any (fun p => p.1 == c) && D.reserves.all (fun r => !r.cores.contains c)))

/-- The first bid of a unit that has waited 65,536 cycles with its die chosen, cannot be placed and lacks target cores. -/
def State.nextFit (s : State) (unit : Nat) : Option (Bid × Nat) :=
  (s.bids.filter (fun b => b.unit.id == unit)).findSome? (fun b =>
    match b.die with
    | some d =>
      if decide (b.unit.entered + 65536 ≤ s.cycle) && decide ((s.die d).fitCores unit < b.count) && (s.fitCore d).isSome
          && (s.placeOf b).isNone
      then some (b, d) else none
    | none => none)

/-- Target cores picked for a unit, team by team. -/
def State.pickCores (s : State) (d unit : Nat) : Nat → State
  | 0 => s
  | n + 1 =>
    match s.fitCore d with
    | some c => (s.mapDie d (fun D => { D with drainFit := D.drainFit ++ [(c, unit)] })).pickCores d unit n
    | none => s

/-- DRAIN_FOR_FIT. -/
def execDrainForFit (unit : Nat) (s : State) : Result :=
  .next (match s.nextFit unit with
    | some (b, d) =>
      let q := s.isolate b
      q.1.pickCores d q.2 (b.count - (q.1.die d).fitCores q.2)
    | none => s)

/-! ### Priorities (R325, R326) -/

def State.canAgePriority (s : State) (t : Team) : Bool :=
  match t.res with
  | .saved c => decide (c < s.cycle) && decide ((s.cycle - c) % 2 ^ 17 = 0) && t.eff != s.effOf t
  | _ => false

/-- PRIORITY_AGING. -/
def execPriorityAging (team : Nat) (s : State) : Result :=
  .next (match s.team? team with
    | some t => if s.canAgePriority t then s.mapTeam team (fun u => { u with eff := s.effOf t }) else s
    | none => s)

def State.canOverdue (s : State) (t : Team) : Bool :=
  match t.res with
  | .saved c => decide (c + 2 ^ 20 ≤ s.cycle) && !t.overdue
  | _ => false

/-- TEAM_OVERDUE. -/
def execTeamOverdue (team : Nat) (s : State) : Result :=
  .next (match s.team? team with
    | some t => if s.canOverdue t then s.mapTeam team (fun u => { u with overdue := true }) else s
    | none => s)

def State.canEndTenure (s : State) (t : Team) : Bool :=
  match t.tenure with
  | some e => decide (e ≤ s.cycle)
  | none => false

/-- TENURE_END. -/
def execTenureEnd (team : Nat) (s : State) : Result :=
  .next (match s.team? team with
    | some t =>
      if s.canEndTenure t then
        s.mapTeam team (fun u => { u with tenure := none, eff := ((s.launch? t.launch).map Launch.prio).getD u.eff })
      else s
    | none => s)

/-! ### Retirement (R22, R274) -/

/-- An outcome enters a stage's window (R274). -/
def StageStat.add (x : StageStat) (passed : Bool) (cost : Nat) : StageStat :=
  let passes := x.passes + (if passed then 1 else 0)
  if x.seen + 1 = 1024 then ⟨x.node, passes, max 1 (min 65535 ((x.cost + cost) / 1024)), 0, 0, 0⟩
  else { x with seen := x.seen + 1, passes := passes, cost := x.cost + cost }

/-- A stage team's outcomes enter together in ascending TID, each with the team's cost per record. -/
def Launch.addOutcomes (l : Launch) (t : Team) (node cycle : Nat) : Launch :=
  let mine := sortBy (fun o => [o.2.1]) (l.outcomes.filter (fun o => o.1 == t.id))
  let cost := (cycle - t.startCycle) / max 1 (t.bound.filter Option.isSome).length
  let x := mine.foldl (fun x o => x.add o.2.2 cost) (l.stat node)
  { l with outcomes := l.outcomes.filter (fun o => o.1 != t.id),
           stats := l.stats.filter (fun y => y.node != node) ++ [x] }

/-- Threads ended and operations done. -/
def State.teamDone (s : State) (t : Team) : Bool := t.runs && t.threads.all (fun x => !x.live) && s.teamQuiet t

def State.isStage (s : State) (t : Team) : Bool := match s.teamNode t with | some (_, d) => nodeKind d == 3 | none => false

/-- A team retires; stage teams at the end of a dispatcher cycle, in the order they started, none after a later one of the
cycle. -/
def State.canRetireTeam (s : State) (t : Team) : Bool :=
  let out := (s.die t.die).stageOut
  s.teamDone t && (!s.isStage t || (decide ((s.cycle - (s.die t.die).since) % 2 = 1)
    && (out.1 != s.dispatch t.die || decide (out.2 ≤ t.startOrder))
    && s.teams.all (fun u => !(s.isStage u && u.die == t.die && decide (u.startOrder < t.startOrder) && s.teamDone u))))

/-- TEAM_RETIRE: its resources are released; a cohort retires with its last team. -/
def execTeamRetire (team : Nat) (s : State) : Result :=
  .next (match s.team? team with
    | some t =>
      if s.canRetireTeam t then
        let s := if s.isStage t then s.mapDie t.die (fun D => { D with stageOut := (s.dispatch t.die, t.startOrder) }) else s
        let s : State := { s with teams := s.teams.filter (fun u => u.id != team) }
        s.mapLaunch t.launch (fun l =>
          match t.node with
          | some n => if nodeKind (l.node n) = 3 then l.addOutcomes t n s.cycle else l
          | none =>
            let n := sget 0 l.teamsDone t.cohort + 1
            if n = l.cohortTeams then
              { l with cohortsDone := l.cohortsDone + 1, teamsDone := sset 0 l.teamsDone t.cohort 0 }
            else { l with teamsDone := sset 0 l.teamsDone t.cohort n })
      else s
    | none => s)

/-! ### YIELD (R209) -/

/-- A team of equal or higher effective priority waits for room on the yielding team's core. -/
def State.wanted (s : State) (t : Team) : Bool :=
  s.bids.any (fun b => decide (s.effOf t ≤ b.eff) && s.admits b t.die && !s.closed b t.die t.core
    && (s.roomOn b t.die t.core []).isNone && (s.roomOn b t.die t.core [t.id]).isSome)

/-- YIELD. Its marker is the issue's. -/
def execYield (_h : Hdr) (o : FN) (s : State) : Result :=
  .next (match s.issue with
    | some iss =>
      match s.lanes o.g, s.team? iss.team with
      | _ :: _, some t => if t.res = .resident ∧ s.maySave t 0 ∧ s.wanted t then s.beginSave t else s
      | _, _ => s
    | none => s)

end Sys2Proof.Machine
end

