-- ==== Sys2Proof/Machine/Records.lean ====
section
/-! DEFINITION. The record instructions (11 R276, R284 to R290). -/

namespace Sys2Proof.Machine

/-- The thread is bound to a record of a pure stage (R276). -/
def State.inPure (s : State) (t : Team) (tid : Nat) : Bool :=
  match t.boundRec tid, s.teamNode t with
  | some _, some (_, d) => nodeKind d == 3 && !nEff d
  | _, _ => false

/-- The scratchpad range a record instruction reads, after its checks (R284). -/
def recordRange (t : Team) (r : Reads) (o : FX) : Except Nat (List Byte) :=
  let off := (r.v o.v).toNat
  let n := 4 * (o.len.toNat + 1)
  if !t.inScratch off n then .error 0x20
  else if off % 4 ≠ 0 then .error 0x14
  else .ok (t.scratchBytes off n)

/-- A send: `state` is the RECORD_STATE check, `param` and `header` the RECORD_PARAM checks without and with the bytes,
`node` where the record first needs room, `put` what is sent (R284, R272). -/
def State.sendRecord (s : State) (o : FX) (state param : Team → Launch → Reads → Bool) (header : List Byte → Bool)
    (node : Team → Launch → Reads → Nat) (put : Issue → Team → Launch → Reads → List Byte → State → State) : State :=
  s.eachLane o.g (fun iss t r s' =>
    match s.launch? t.launch with
    | none => s'
    | some l =>
      if state t l r then s'.raise r.tid 0x2A 0
      else if param t l r then s'.raise r.tid 0x2B 0
      else
        match recordRange t r o with
        | .error c => s'.raise r.tid c 0
        | .ok bs =>
          if header bs then s'.raise r.tid 0x2B 0
          else if s'.roomFor l.id (node t l r) (recordUnits bs.length) = .none then s'.raise r.tid 0x29 0
          else (put iss t l r bs s').markWritten iss.team)

/-- The node number of an s operand, and whether its upper bits are 0. -/
def nodeNumber (o : FX) (r : Reads) : Nat := fld (r.s o.s.toNat) 0 12
def nodeHigh (o : FX) (r : Reads) : Bool := fld (r.s o.s.toNat) 12 52 != 0

/-- SPAWN (R285). -/
def execSpawn (_h : Hdr) (o : FX) (s : State) : Result :=
  .next (s.sendRecord o (fun t _ r => s.inPure t r.tid)
    (fun _ l r => nodeHigh o r || decide (l.nodes.length ≤ nodeNumber o r)
      || !(nodeKind (l.node (nodeNumber o r)) == 1 || nodeKind (l.node (nodeNumber o r)) == 2))
    (fun _ => false) (fun _ _ r => nodeNumber o r)
    (fun iss _ l r bs s' => s'.makeRecord l.id (nodeNumber o r) bs none (senderThread iss.team r.tid) s.serial))

/-- The node or set whose ports a fabric team's thread emits to (R286). -/
def Launch.emitNode (l : Launch) (t : Team) : Nat :=
  let n := t.node.getD 0
  if nodeKind (l.node n) = 3 then ((l.setOf n).map Prod.fst).getD n else n

/-- EMIT (R286). Its record first needs room at the window's node when the node or set is ordered (R272). -/
def execEmit (_h : Hdr) (o : FX) (s : State) : Result :=
  .next (s.sendRecord o (fun t _ r => t.node.isNone || s.inPure t r.tid)
    (fun t l r => fld (r.s o.s.toNat) 2 62 != 0 || (nPort (l.node (l.emitNode t)) (fld (r.s o.s.toNat) 0 2)).isNone)
    (fun _ => false)
    (fun t l r =>
      let n := l.emitNode t
      if nOrd (l.node n) then n else (nPort (l.node n) (fld (r.s o.s.toNat) 0 2)).getD n)
    (fun iss t l r bs s' =>
      s'.emitTo l.id (l.emitNode t) (fld (r.s o.s.toNat) 0 2) bs ((t.boundRec r.tid).getD 0) (senderThread iss.team r.tid)
        s.serial))

/-- The token header (Table 11-3): reserved bits, K. -/
def headerBad (bs : List Byte) : Bool :=
  let w := ofBytes ((bs.drop 4).take 4)
  let k := w / 2 ^ 16 % 16
  w / 2 ^ 20 != 0 || k == 0 || decide (8 < k)

/-- ENQX (R287). -/
def execEnqx (_h : Hdr) (o : FX) (s : State) : Result :=
  .next (s.sendRecord o (fun t _ r => s.inPure t r.tid)
    (fun _ l r => nodeHigh o r || decide (l.nodes.length ≤ nodeNumber o r) || nodeKind (l.node (nodeNumber o r)) != 4
      || o.len == 0)
    headerBad (fun _ _ r => nodeNumber o r)
    (fun iss _ l r bs s' => s'.makeRecord l.id (nodeNumber o r) bs none (senderThread iss.team r.tid) s.serial))

/-- The end of a stage thread with its outcome; RECORD_STATE in a thread not bound to a stage record (R288). -/
def State.stageEnd (s : State) (g : BitVec 3) (passed : Bool) : State :=
  s.eachLane g (fun iss t r s' =>
    match t.boundRec r.tid, s.teamNode t with
    | some _, some (_, d) =>
      if nodeKind d = 3 then (s'.leaveThread iss r.tid passed).markWritten iss.team else s'.raise r.tid 0x2A 0
    | _, _ => s'.raise r.tid 0x2A 0)

/-- STAGE.PASS (R288). -/
def execStagePass (_h : Hdr) (o : FX) (s : State) : Result := .next (s.stageEnd o.g true)

/-- STAGE.DROP (R288). -/
def execStageDrop (_h : Hdr) (o : FX) (s : State) : Result := .next (s.stageEnd o.g false)

/-- A word of a bound record (R289). -/
def recordWord (rec : Record) (n : Nat) (d : List DWord) (i : Nat) : Word :=
  if i < rec.bytes.length / 4 then BitVec.ofNat 32 (ofBytes ((rec.bytes.drop (4 * i)).take 4))
  else if i = 64 then BitVec.ofNat 32 rec.bytes.length
  else if i = 65 then
    (if nodeKind d = 3 then BitVec.ofNat 32 (rec.done.toNat + rec.stage * 256)
     else if nodeKind d = 4 then BitVec.ofNat 32 n else 0)
  else 0

/-- RECLD: variable-latency loads of the bound record's words (R289). -/
def execRecld (_h : Hdr) (o : FX) (s : State) : Result :=
  .next (s.eachLane o.g (fun iss t r s' =>
    match (t.boundRec r.tid).bind s.record?, s.teamNode t with
    | some rec, some (n, d) =>
      let x := r.s o.s.toNat
      if fld x 8 56 ≠ 0 then s'.raise r.tid 0x2B 0
      else
        s'.addPend iss.team r.tid ((upto (o.len.toNat + 1)).map (fun j =>
          (phys r.regs.level (o.v.toNat + j), recordWord rec n d (fld x 0 8 + j)))) true s.cycle false
    | _, _ => s'.raise r.tid 0x2A 0))

/-- COMBINE adds the vector to the token's combine slot (R290). -/
def execCombine (_h : Hdr) (o : FX) (s : State) : Result :=
  .next (s.eachLane o.g (fun iss t r s' =>
    match (t.boundRec r.tid).bind s.record?, s.teamNode t, s'.launch? t.launch with
    | some rec, some (n, d), some l =>
      let id := ofBytes (rec.bytes.take 4)
      let w := ofBytes ((rec.bytes.drop 4).take 4)
      let slot : Option Combine := l.combine.find? (fun c => c.id == id)
      let differs : Bool := match slot with
        | some c => c.layer != w % 65536 || c.k != w / 65536 % 16 || c.parts.any (fun p => p.1 == n)
        | none => false
      let otherLength : Bool := match slot with
        | some c => c.parts.any (fun p => p.2.length != o.len.toNat + 1)
        | none => false
      if nodeKind d ≠ 4 ∨ differs then s'.raise r.tid 0x2A 0
      else if 62 ≤ o.len.toNat ∨ l.combSize < 2048 * (id + 1) ∨ otherLength then s'.raise r.tid 0x2B 0
      else
        match recordRange t r o with
        | .error c => s'.raise r.tid c 0
        | .ok bs =>
          (s'.combineInto l.id id (w % 65536) (w / 65536 % 16) n
            ((upto (o.len.toNat + 1)).map (fun j => BitVec.ofNat 32 (ofBytes ((bs.drop (4 * j)).take 4))))).markWritten iss.team
    | _, _, _ => s'.raise r.tid 0x2A 0))

end Sys2Proof.Machine
end

