-- ==== Sys2Proof/Machine/Registers.lean ====
section
/-! DEFINITION. The management region: writes of its registers and what a read of each returns; the host's writes to memory
and to the launch windows (13 R296 to R300, 14 R335, 15 R355, 16 R361, R371, R373, R377, 17 R386 to R392). -/

namespace Sys2Proof.Machine

/-- A word of the region: the block it lies in, its index, the offset in the block. -/
inductive RegBlock where
  | window
  | domain (off : Nat)
  | die (d off : Nat)
  | health (d off : Nat)
  | pool (d off : Nat)
  | trust (off : Nat)
  /-- the recovery window, write-only -/
  | recovery (off : Nat)
  | migration (ctx off : Nat)
  | group (ctx off : Nat)
  | trap (ctx off : Nat)
  | context (ctx off : Nat)
  | none
deriving DecidableEq, Repr

/-- The blocks of the region at their offsets. -/
def regBlock (a : Nat) : RegBlock :=
  if a % 8 ≠ 0 then .none
  else if a = 0 then .window
  else if 0x800 ≤ a ∧ a < 0x818 then .domain (a - 0x800)
  else if 0x1000 ≤ a ∧ a < 0x1100 then .die ((a - 0x1000) / 0x40) (a % 0x40)
  else if 0x1800 ≤ a ∧ a < 0x1900 then .health ((a - 0x1800) / 0x40) (a % 0x40)
  else if 0x2000 ≤ a ∧ a < 0x2080 then .pool ((a - 0x2000) / 0x20) (a % 0x20)
  else if 0x3000 ≤ a ∧ a < 0x4000 then .trust (a - 0x3000)
  else if 0x4000 ≤ a ∧ a < 0x5000 then .migration ((a - 0x4000) / 0x40) (a % 0x40)
  else if 0x6000 ≤ a ∧ a < 0x6800 then .group ((a - 0x6000) / 0x20) (a % 0x20)
  else if 0x80000 ≤ a ∧ a < 0x84000 then .trap ((a - 0x80000) / 0x100) (a % 0x100)
  else if 0x1000000 ≤ a ∧ a < 0x5000000 then .recovery (a - 0x1000000)
  else if 0x100000 ≤ a ∧ a < 0x110000 then .context ((a - 0x100000) / 0x400) (a % 0x400)
  else .none

/-- The state a meaning leaves. -/
def stateAfter (s : State) : Result → State
  | .next s' => s'
  | _ => s

/-- A word with all but some fields cleared. -/
def keep (v : DWord) (mask : Nat) : DWord := v &&& BitVec.ofNat 64 mask

/-- A die and an address in it: bits [57:56] and [53:0]. -/
def placeMask : Nat := 3 * 2 ^ 56 + (2 ^ 54 - 1)

/-- The domain block (R373): ignored while any context is valid. Reserved bits are not kept. -/
def State.writeDomain (s : State) (off : Nat) (v : DWord) : State :=
  if s.fwState ≠ 2 ∨ s.ctxs.any Ctx.valid then s
  else if off = 0 then { s with domain0 := keep v (2 ^ 63 + 0x7FF) }
  else if off = 8 then { s with expBase := keep v (placeMask - 0xFFFF) }
  else { s with expN := keep v 0x1FFF }

/-- The die status block (Table 16-2). -/
def State.writeDie (s : State) (d off : Nat) (v : DWord) : State :=
  if off = 8 ∧ fld v 0 62 = 0 then
    if fld v 62 2 = 1 then stateAfter s (execDieResetOrderly d s)
    else if fld v 62 2 = 2 then stateAfter s (execDieResetAbrupt d s)
    else s
  else if off = 0x10 then stateAfter s (execLostclr d v s)
  else s

/-- The memory-health block (Table 17-1). -/
def State.writeHealth (s : State) (d off : Nat) (v : DWord) : State :=
  if off = 0x20 then
    s.mapDie d (fun D =>
      { D with alert := D.alert && !bit v 63, cwd := D.cwd && !bit v 62, psn := D.psn && !bit v 61,
               capfull := D.capfull && !bit v 60 })
  else if off = 0x28 ∧ 256 ≤ fld v 0 12 ∧ fld v 0 12 ≤ 2048 then s.mapDie d (fun D => { D with hotth := fld v 0 12 })
  else if off = 0x30 then stateAfter s (execPclr d v s)
  else s

/-- The save pool's registers (R335). -/
def State.writePool (s : State) (d off : Nat) (v : DWord) : State :=
  if s.fwState ≠ 2 ∨ (s.die d).spused ≠ 0 then s
  else if off = 0 then
    if fld v 54 9 ≠ 0 ∨ (bit v 63 ∧ (fld v 0 16 ≠ 0 ∨ !s.inMemory d (fld v 0 54) 1)) then s
    else s.mapDie d (fun D => { D with spv := bit v 63, spbase := keep v (2 ^ 54 - 1) })
  else if off = 8 then if fld v 32 32 ≠ 0 then s else s.mapDie d (fun D => { D with spunits := fld v 0 32 })
  else s

/-- The trust block (Table 17-2). -/
def State.writeTrust (s : State) (off : Nat) (v : DWord) : State :=
  if off = 8 then s.recoverWindow v
  else if off = 0x10 then stateAfter s (execAttestationRequest v s)
  else if 0x20 ≤ off ∧ off < 0x50 then
    let bs := toBytes v.toNat 8
    { s with attNonce := (upto 48).map (fun k =>
        if off - 0x20 ≤ k ∧ k < off - 0x18 then bs.getD (k - (off - 0x20)) 0 else s.attNonce.getD k 0) }
  else s

/-- The migration block (Table 16-5). -/
def State.writeMigration (s : State) (ctx off : Nat) (v : DWord) : State :=
  if s.fwState ≠ 2 ∨ (s.ctx ctx).mbusy then s
  else if off = 0 then stateAfter s (execMigrationStart ctx v s)
  else if off = 8 then s.mapCtx ctx (fun c => { c with mbase := keep v (2 ^ 54 - 1) })
  else if off = 0x10 then s.mapCtx ctx (fun c => { c with mplace := v })
  else s

/-- The group table's block (Table 16-9). -/
def State.writeGroup (s : State) (ctx off : Nat) (v : DWord) : State :=
  if off = 0 then s.mapCtx ctx (fun c => { c with grpBase := keep v (placeMask - 0xFFF) })
  else if off = 8 then s.mapCtx ctx (fun c => { c with grpN := keep v 0x1FF })
  else s

/-- CTL written (R297, R298): V = 1 creates a context or changes PRIO, V = 0 destroys a valid one; otherwise the fields
are stored. -/
def State.writeCtl (s : State) (ctx : Nat) (v : DWord) : State :=
  if bit v 63 then stateAfter s (execContextCreate ctx v s)
  else
    let c := s.ctx ctx
    if c.valid then
      let s := s.mapCtx ctx (fun c => { c with ctl := (c.ctl &&& ~~~(7#64 <<< 48)) ||| (v &&& (7#64 <<< 48)) })
      stateAfter s (execContextDestroy ctx s)
    else s.mapCtx ctx (fun c => { c with ctl := (c.ctl &&& (1#64 <<< 61)) ||| ctlStored v })

/-- The context block (Table 13-1). BTAB, PTROOT and JRNL change only while V = 0. -/
def State.writeContext (s : State) (ctx off : Nat) (v : DWord) : State :=
  let c := s.ctx ctx
  if s.fwState ≠ 2 then s
  else if off = 0 then s.writeCtl ctx v
  else if off = 8 then if c.valid then s else s.mapCtx ctx (fun c => { c with btab := v })
  else if off = 0x10 then if c.valid then s else s.mapCtx ctx (fun c => { c with ptroot := v })
  else if off = 0x18 then if c.valid then s else s.mapCtx ctx (fun c => { c with jrnl := v })
  else if off = 0x28 then stateAfter s (execJtailWrite ctx (keep v (2 ^ 48 - 1)) s)
  else if 0x60 ≤ off ∧ off < 0x80 then stateAfter s (execEvset ctx ((off - 0x60) / 8) v s)
  else if 0x80 ≤ off ∧ off < 0xA0 then stateAfter s (execEvclr ctx ((off - 0x80) / 8) v s)
  else if off = 0xA0 ∧ bit v 7 then stateAfter s (execSlotCancel ctx (fld v 0 6) s)
  else s

/-- REGISTER_WRITE: a 64-bit write by the host at an offset of the management region (R296). Read-only words and reserved
offsets take nothing. -/
def execRegisterWrite (offset : Nat) (value : DWord) (s : State) : Result :=
  .next (match regBlock offset with
    | .window => s
    | .domain off => s.writeDomain off value
    | .die d off => s.writeDie d off value
    | .health d off => s.writeHealth d off value
    | .pool d off => s.writePool d off value
    | .trust off => s.writeTrust off value
    | .recovery off => { s with rcvWindow := (upto 8).foldl (fun m k => sset 0 m (off + k) ((toBytes value.toNat 8).getD k 0)) s.rcvWindow }
    | .migration ctx off => s.writeMigration ctx off value
    | .group ctx off => s.writeGroup ctx off value
    | .trap ctx off => s.trapWrite ctx (off / 8) value
    | .context ctx off => s.writeContext ctx off value
    | .none => s)

/-! ### Reads -/

def dw (n : Nat) : DWord := BitVec.ofNat 64 n
def flag (b : Bool) (k : Nat) : Nat := if b then 2 ^ k else 0

/-- SLOTSTAT (Tables 13-1 and 13-5). -/
def State.slotStat (s : State) (ctx slot : Nat) : DWord :=
  let c := s.ctx ctx
  let st :=
    if c.held.any (fun t => t.slot == slot) then 1
    else
      match s.slotLaunch ctx slot with
      | some l => (match l.phase with
        | .waiting => 2
        | .running => 3
        | .ending _ _ => 4
        | .retiring => 0)
      | none => 0
  dw (st * 256 + sget 0 c.seqs slot)

/-- What a host read of 8 bytes at an offset returns; reserved fields of registers that are stored as written read 0 (R9) (Tables 13-1, 13-7, 14-3, 15-5, 16-2, 16-5, 16-6, 16-9, 17-1, 17-2). -/
def State.registerRead (s : State) (offset : Nat) : DWord :=
  match regBlock offset with
  | .window => dw Config.lwBase
  | .domain off => if off = 0 then s.domain0 else if off = 8 then s.expBase else s.expN
  | .recovery _ => 0
  | .die d off => if off = 0 ∧ s.fwState = 2 then dw (flag (s.die d).present 63 + (s.die d).state * 2 ^ 60 + (s.die d).lostcnt) else 0
  | .health d off =>
    let D := s.die d
    if off = 0 then dw (D.cwdcnt * 2 ^ 32 + D.psncnt)
    else if off = 8 then dw (D.capcnt * 2 ^ 32 + D.rfmcnt)
    else if off = 0x10 then D.lastcwd
    else if off = 0x18 then D.lastpsn
    else if off = 0x20 then dw (flag D.alert 63 + flag D.cwd 62 + flag D.psn 61 + flag D.capfull 60)
    else if off = 0x28 then dw D.hotth
    else 0
  | .pool d off =>
    let D := s.die d
    if off = 0 then dw (flag D.spv 63) ||| D.spbase else if off = 8 then dw D.spunits else if off = 0x10 then dw D.spused else 0
  | .trust off =>
    if off = 0 then dw (Config.minSvn * 2 ^ 32 + s.fwSvn * 2 ^ 16 + s.fwErr * 16 + s.fwState)
    else if off = 0x18 then dw (s.lmsLeft * 2 ^ 32 + s.attStat)
    else if 0x20 ≤ off ∧ off < 0x50 then dw (ofBytes ((s.attNonce.drop (off - 0x20)).take 8))
    else if 0x400 ≤ off then dw (ofBytes ((s.attReport.drop (off - 0x400)).take 8))
    else 0
  | .migration ctx off =>
    let c := s.ctx ctx
    if off = 0 then keep c.mbuf 0x3FF
    else if off = 8 then c.mbase
    else if off = 0x10 then keep c.mplace 0xFFFF3F
    else if off = 0x18 then dw (flag c.mbusy 63 + c.mstatus * 2 ^ 32 + c.mdone)
    else 0
  | .group ctx off => if off = 0 then (s.ctx ctx).grpBase else if off = 8 then (s.ctx ctx).grpN else 0
  | .trap ctx off => s.trapRead ctx (off / 8)
  | .context ctx off =>
    let c := s.ctx ctx
    if off = 0 then c.ctl
    else if off = 8 then keep c.btab placeMask
    else if off = 0x10 then keep c.ptroot placeMask
    else if off = 0x18 then keep c.jrnl (placeMask + 31 * 2 ^ 59)
    else if off = 0x20 then dw c.jhead
    else if off = 0x28 then dw c.jtail
    else if 0x40 ≤ off ∧ off < 0x60 then c.event.extractLsb' (64 * ((off - 0x40) / 8)) 64
    else if 0x200 ≤ off then s.slotStat ctx ((off - 0x200) / 8)
    else 0
  | .none => 0

/-- What a host read of a byte of memory returns: none is CXL data poison (R370, R386, R389); of a live combine region, an
unspecified byte (R280). -/
def State.hostByte (s : State) : HostPlace → Option Byte
  | .memory die dpa =>
    let loc := dpaLoc die dpa
    match s.memError loc 1 with
    | some _ => none
    | none =>
      ((s.maskCombine loc [(s.viewLine 0 (secOf loc) (s.truthBytes (secOf loc * 64) 64)).getD (loc % 64) 0]).head?)
  | .window off => some (sget 0 (s.ctx (off / 8192)).window (off % 8192))

/-! ### The host's memory writes (R299, R300, R368) -/

/-- HOST_WRITE: bytes in ascending order, each as a store at its home slice or a write of the launch-window region. -/
def execHostWrite (at_ : HostPlace) (bytes : List Byte) (s : State) : Result :=
  .next (match at_ with
    | .memory die dpa => if s.hostMay die dpa bytes.length then s.hostPut die dpa bytes else s
    | .window off =>
      if s.fwState = 2 ∧ off + bytes.length ≤ 0x80000 then
        (upto bytes.length).foldl (fun s k => s.windowByte (off + k) (bytes.getD k 0)) s
      else s)

end Sys2Proof.Machine
end

