-- ==== Sys2Proof/Machine/Dispatch.lean ====
section
/-! DEFINITION. The meaning of each instruction and event: one arm a constructor, each a call of its own meaning. -/

namespace Sys2Proof.Machine

def exec (i : Instr) (s : State) : Host.Outcome State Fault Refusal :=
  match i with
  | .nop h => Sys2Proof.Machine.execNop h s
  | .iadd h o => Sys2Proof.Machine.execIadd h o s
  | .isub h o => Sys2Proof.Machine.execIsub h o s
  | .imul h o => Sys2Proof.Machine.execImul h o s
  | .imulhI32 h o => Sys2Proof.Machine.execImulhI32 h o s
  | .imulhW32 h o => Sys2Proof.Machine.execImulhW32 h o s
  | .idivI32 h o => Sys2Proof.Machine.execIdivI32 h o s
  | .idivW32 h o => Sys2Proof.Machine.execIdivW32 h o s
  | .iminI32 h o => Sys2Proof.Machine.execIminI32 h o s
  | .iminW32 h o => Sys2Proof.Machine.execIminW32 h o s
  | .imaxI32 h o => Sys2Proof.Machine.execImaxI32 h o s
  | .imaxW32 h o => Sys2Proof.Machine.execImaxW32 h o s
  | .imac h o => Sys2Proof.Machine.execImac h o s
  | .iaddVd h o => Sys2Proof.Machine.execIaddVd h o s
  | .isubVd h o => Sys2Proof.Machine.execIsubVd h o s
  | .imulVd h o => Sys2Proof.Machine.execImulVd h o s
  | .and h o => Sys2Proof.Machine.execAnd h o s
  | .or h o => Sys2Proof.Machine.execOr h o s
  | .xor h o => Sys2Proof.Machine.execXor h o s
  | .shl h o => Sys2Proof.Machine.execShl h o s
  | .shrW32 h o => Sys2Proof.Machine.execShrW32 h o s
  | .shrI32 h o => Sys2Proof.Machine.execShrI32 h o s
  | .popc h o => Sys2Proof.Machine.execPopc h o s
  | .clz h o => Sys2Proof.Machine.execClz h o s
  | .iminVd h o => Sys2Proof.Machine.execIminVd h o s
  | .imaxVd h o => Sys2Proof.Machine.execImaxVd h o s
  | .shlVd h o => Sys2Proof.Machine.execShlVd h o s
  | .shrVd h o => Sys2Proof.Machine.execShrVd h o s
  | .icvt h o => Sys2Proof.Machine.execIcvt h o s
  | .iaddi h o => Sys2Proof.Machine.execIaddi h o s
  | .andi h o => Sys2Proof.Machine.execAndi h o s
  | .ori h o => Sys2Proof.Machine.execOri h o s
  | .xori h o => Sys2Proof.Machine.execXori h o s
  | .shli h o => Sys2Proof.Machine.execShli h o s
  | .shriW32 h o => Sys2Proof.Machine.execShriW32 h o s
  | .shriI32 h o => Sys2Proof.Machine.execShriI32 h o s
  | .mov h o => Sys2Proof.Machine.execMov h o s
  | .movi h o => Sys2Proof.Machine.execMovi h o s
  | .movs h o => Sys2Proof.Machine.execMovs h o s
  | .padd h o => Sys2Proof.Machine.execPadd h o s
  | .icmp h o => Sys2Proof.Machine.execIcmp h o s
  | .gset h o => Sys2Proof.Machine.execGset h o s
  | .sadd h o => Sys2Proof.Machine.execSadd h o s
  | .ssub h o => Sys2Proof.Machine.execSsub h o s
  | .smul h o => Sys2Proof.Machine.execSmul h o s
  | .sand h o => Sys2Proof.Machine.execSand h o s
  | .sor h o => Sys2Proof.Machine.execSor h o s
  | .sxor h o => Sys2Proof.Machine.execSxor h o s
  | .sshl h o => Sys2Proof.Machine.execSshl h o s
  | .sshr h o => Sys2Proof.Machine.execSshr h o s
  | .smov h o => Sys2Proof.Machine.execSmov h o s
  | .xscanExAdd h o => Sys2Proof.Machine.execXscanExAdd h o s
  | .topk h o => Sys2Proof.Machine.execTopk h o s
  | .xselIdx h o => Sys2Proof.Machine.execXselIdx h o s
  | .xselUp h o => Sys2Proof.Machine.execXselUp h o s
  | .xselDown h o => Sys2Proof.Machine.execXselDown h o s
  | .xselXor h o => Sys2Proof.Machine.execXselXor h o s
  | .xany h o => Sys2Proof.Machine.execXany h o s
  | .xall h o => Sys2Proof.Machine.execXall h o s
  | .xmask h o => Sys2Proof.Machine.execXmask h o s
  | .xredAdd h o => Sys2Proof.Machine.execXredAdd h o s
  | .xredMin h o => Sys2Proof.Machine.execXredMin h o s
  | .xredMax h o => Sys2Proof.Machine.execXredMax h o s
  | .xscanAdd h o => Sys2Proof.Machine.execXscanAdd h o s
  | .faddF32 h o => Sys2Proof.Machine.execFaddF32 h o s
  | .fsubF32 h o => Sys2Proof.Machine.execFsubF32 h o s
  | .fmulF32 h o => Sys2Proof.Machine.execFmulF32 h o s
  | .fmacF32 h o => Sys2Proof.Machine.execFmacF32 h o s
  | .fminF32 h o => Sys2Proof.Machine.execFminF32 h o s
  | .fmaxF32 h o => Sys2Proof.Machine.execFmaxF32 h o s
  | .faddF16x2 h o => Sys2Proof.Machine.execFaddF16x2 h o s
  | .fmulF16x2 h o => Sys2Proof.Machine.execFmulF16x2 h o s
  | .fmacF16x2 h o => Sys2Proof.Machine.execFmacF16x2 h o s
  | .faddBf16x2 h o => Sys2Proof.Machine.execFaddBf16x2 h o s
  | .fmulBf16x2 h o => Sys2Proof.Machine.execFmulBf16x2 h o s
  | .fmacBf16x2 h o => Sys2Proof.Machine.execFmacBf16x2 h o s
  | .fadd h o => Sys2Proof.Machine.execFadd h o s
  | .fsub h o => Sys2Proof.Machine.execFsub h o s
  | .fmul h o => Sys2Proof.Machine.execFmul h o s
  | .fdiv h o => Sys2Proof.Machine.execFdiv h o s
  | .fmin h o => Sys2Proof.Machine.execFmin h o s
  | .fmax h o => Sys2Proof.Machine.execFmax h o s
  | .fcmp h o => Sys2Proof.Machine.execFcmp h o s
  | .fsqrt h o => Sys2Proof.Machine.execFsqrt h o s
  | .frcp h o => Sys2Proof.Machine.execFrcp h o s
  | .frsq h o => Sys2Proof.Machine.execFrsq h o s
  | .fexp2 h o => Sys2Proof.Machine.execFexp2 h o s
  | .flog2 h o => Sys2Proof.Machine.execFlog2 h o s
  | .fsin h o => Sys2Proof.Machine.execFsin h o s
  | .fcos h o => Sys2Proof.Machine.execFcos h o s
  | .ftanh h o => Sys2Proof.Machine.execFtanh h o s
  | .cvtF32 h o => Sys2Proof.Machine.execCvtF32 h o s
  | .cvtF16 h o => Sys2Proof.Machine.execCvtF16 h o s
  | .cvtBf16 h o => Sys2Proof.Machine.execCvtBf16 h o s
  | .cvtI32 h o => Sys2Proof.Machine.execCvtI32 h o s
  | .cvtW32 h o => Sys2Proof.Machine.execCvtW32 h o s
  | .cvtI64 h o => Sys2Proof.Machine.execCvtI64 h o s
  | .cvtW64 h o => Sys2Proof.Machine.execCvtW64 h o s
  | .dxenc h o => Sys2Proof.Machine.execDxenc h o s
  | .dxdec h o => Sys2Proof.Machine.execDxdec h o s
  | .frnd h o => Sys2Proof.Machine.execFrnd h o s
  | .ldgW8 h o => Sys2Proof.Machine.execLdgW8 h o s
  | .ldgI8 h o => Sys2Proof.Machine.execLdgI8 h o s
  | .ldgW16 h o => Sys2Proof.Machine.execLdgW16 h o s
  | .ldgI16 h o => Sys2Proof.Machine.execLdgI16 h o s
  | .ldgB32 h o => Sys2Proof.Machine.execLdgB32 h o s
  | .ldgB64 h o => Sys2Proof.Machine.execLdgB64 h o s
  | .ldgB128 h o => Sys2Proof.Machine.execLdgB128 h o s
  | .stgB8 h o => Sys2Proof.Machine.execStgB8 h o s
  | .stgB16 h o => Sys2Proof.Machine.execStgB16 h o s
  | .stgB32 h o => Sys2Proof.Machine.execStgB32 h o s
  | .stgB64 h o => Sys2Proof.Machine.execStgB64 h o s
  | .stgB128 h o => Sys2Proof.Machine.execStgB128 h o s
  | .stb h o => Sys2Proof.Machine.execStb h o s
  | .ldf h o => Sys2Proof.Machine.execLdf h o s
  | .ldsB32 h o => Sys2Proof.Machine.execLdsB32 h o s
  | .ldsB64 h o => Sys2Proof.Machine.execLdsB64 h o s
  | .stsB32 h o => Sys2Proof.Machine.execStsB32 h o s
  | .stsB64 h o => Sys2Proof.Machine.execStsB64 h o s
  | .fence h o => Sys2Proof.Machine.execFence h o s
  | .bar h o => Sys2Proof.Machine.execBar h o s
  | .atomI32 h o => Sys2Proof.Machine.execAtomI32 h o s
  | .atomW32 h o => Sys2Proof.Machine.execAtomW32 h o s
  | .atomI64 h o => Sys2Proof.Machine.execAtomI64 h o s
  | .atomW64 h o => Sys2Proof.Machine.execAtomW64 h o s
  | .atomF32 h o => Sys2Proof.Machine.execAtomF32 h o s
  | .redI32 h o => Sys2Proof.Machine.execRedI32 h o s
  | .redW32 h o => Sys2Proof.Machine.execRedW32 h o s
  | .redI64 h o => Sys2Proof.Machine.execRedI64 h o s
  | .redW64 h o => Sys2Proof.Machine.execRedW64 h o s
  | .redF32 h o => Sys2Proof.Machine.execRedF32 h o s
  | .redF32Unord h o => Sys2Proof.Machine.execRedF32Unord h o s
  | .bra h o => Sys2Proof.Machine.execBra h o s
  | .braRg h o => Sys2Proof.Machine.execBraRg h o s
  | .call h o => Sys2Proof.Machine.execCall h o s
  | .calli h o => Sys2Proof.Machine.execCalli h o s
  | .jmpi h o => Sys2Proof.Machine.execJmpi h o s
  | .jmpiRg h o => Sys2Proof.Machine.execJmpiRg h o s
  | .ret h o => Sys2Proof.Machine.execRet h o s
  | .loop h o => Sys2Proof.Machine.execLoop h o s
  | .endloop h o => Sys2Proof.Machine.execEndloop h o s
  | .jset h o => Sys2Proof.Machine.execJset h o s
  | .join h o => Sys2Proof.Machine.execJoin h o s
  | .joinRg h o => Sys2Proof.Machine.execJoinRg h o s
  | .leave h o => Sys2Proof.Machine.execLeave h o s
  | .leaveRg h o => Sys2Proof.Machine.execLeaveRg h o s
  | .regroup h o => Sys2Proof.Machine.execRegroup h o s
  | .reorder h o => Sys2Proof.Machine.execReorder h o s
  | .exit h o => Sys2Proof.Machine.execExit h o s
  | .exitNext h o => Sys2Proof.Machine.execExitNext h o s
  | .yield h o => Sys2Proof.Machine.execYield h o s
  | .copy h o => Sys2Proof.Machine.execCopy h o s
  | .gather h o => Sys2Proof.Machine.execGather h o s
  | .waitc h o => Sys2Proof.Machine.execWaitc h o s
  | .mmaIssue h o => Sys2Proof.Machine.execMmaIssue h o s
  | .mmaCommit h o => Sys2Proof.Machine.execMmaCommit h o s
  | .waitb h o => Sys2Proof.Machine.execWaitb h o s
  | .wload h o => Sys2Proof.Machine.execWload h o s
  | .accz h o => Sys2Proof.Machine.execAccz h o s
  | .ldacc h o => Sys2Proof.Machine.execLdacc h o s
  | .stacc h o => Sys2Proof.Machine.execStacc h o s
  | .batonTake h o => Sys2Proof.Machine.execBatonTake h o s
  | .batonPass h o => Sys2Proof.Machine.execBatonPass h o s
  | .qinit h o => Sys2Proof.Machine.execQinit h o s
  | .qpush h o => Sys2Proof.Machine.execQpush h o s
  | .qpop h o => Sys2Proof.Machine.execQpop h o s
  | .qcred h o => Sys2Proof.Machine.execQcred h o s
  | .coll h o => Sys2Proof.Machine.execColl h o s
  | .vdie h o => Sys2Proof.Machine.execVdie h o s
  | .vhop h o => Sys2Proof.Machine.execVhop h o s
  | .spawn h o => Sys2Proof.Machine.execSpawn h o s
  | .emit h o => Sys2Proof.Machine.execEmit h o s
  | .enqx h o => Sys2Proof.Machine.execEnqx h o s
  | .stagePass h o => Sys2Proof.Machine.execStagePass h o s
  | .stageDrop h o => Sys2Proof.Machine.execStageDrop h o s
  | .recld h o => Sys2Proof.Machine.execRecld h o s
  | .combine h o => Sys2Proof.Machine.execCombine h o s
  | .trap h o => Sys2Proof.Machine.execTrap h o s
  | .tret h o => Sys2Proof.Machine.execTret h o s
  | .sysrd h o => Sys2Proof.Machine.execSysrd h o s
  | .syswr h o => Sys2Proof.Machine.execSyswr h o s
  | .inval h o => Sys2Proof.Machine.execInval h o s
  | .sheafFormation team => Sys2Proof.Machine.execSheafFormation team s
  | .loopBufferRefill team tid => Sys2Proof.Machine.execLoopBufferRefill team tid s
  | .variableLatencyReturn team tid serial => Sys2Proof.Machine.execVariableLatencyReturn team tid serial s
  | .queueRetry team tid => Sys2Proof.Machine.execQueueRetry team tid s
  | .ldfRetry acc => Sys2Proof.Machine.execLdfRetry acc s
  | .backlogDrain die => Sys2Proof.Machine.execBacklogDrain die s
  | .storeApply acc => Sys2Proof.Machine.execStoreApply acc s
  | .loadRenew acc => Sys2Proof.Machine.execLoadRenew acc s
  | .writeOwnershipGrant die line => Sys2Proof.Machine.execWriteOwnershipGrant die line s
  | .dirReadMiss die line => Sys2Proof.Machine.execDirReadMiss die line s
  | .dirWriteOwnership die line => Sys2Proof.Machine.execDirWriteOwnership die line s
  | .dirHomeAccess line => Sys2Proof.Machine.execDirHomeAccess line s
  | .dirEviction die line => Sys2Proof.Machine.execDirEviction die line s
  | .lineDataReceive die line => Sys2Proof.Machine.execLineDataReceive die line s
  | .l2Eviction die line => Sys2Proof.Machine.execL2Eviction die line s
  | .backInvalidateResponse line data => Sys2Proof.Machine.execBackInvalidateResponse line data s
  | .hostWrite at_ bytes => Sys2Proof.Machine.execHostWrite at_ bytes s
  | .hostRead at_ count => Sys2Proof.Machine.execHostRead at_ count s
  | .atomicApply acc => Sys2Proof.Machine.execAtomicApply acc s
  | .reductionAccept acc => Sys2Proof.Machine.execReductionAccept acc s
  | .exactSumClaim acc => Sys2Proof.Machine.execExactSumClaim acc s
  | .timeRebase die => Sys2Proof.Machine.execTimeRebase die s
  | .copyComplete op => Sys2Proof.Machine.execCopyComplete op s
  | .gatherComplete op => Sys2Proof.Machine.execGatherComplete op s
  | .wloadComplete op => Sys2Proof.Machine.execWloadComplete op s
  | .engineFaultPause op => Sys2Proof.Machine.execEngineFaultPause op s
  | .mmaOperationStart team => Sys2Proof.Machine.execMmaOperationStart team s
  | .segmentRead team => Sys2Proof.Machine.execSegmentRead team s
  | .mmaOperationFinish team => Sys2Proof.Machine.execMmaOperationFinish team s
  | .collContribution c => Sys2Proof.Machine.execCollContribution c s
  | .collResult op reply => Sys2Proof.Machine.execCollResult op reply s
  | .remoteAccessRequest r => Sys2Proof.Machine.execRemoteAccessRequest r s
  | .remoteResponse acc reply => Sys2Proof.Machine.execRemoteResponse acc reply s
  | .duetteRouteTimeout acc => Sys2Proof.Machine.execDuetteRouteTimeout acc s
  | .recordArrival record => Sys2Proof.Machine.execRecordArrival record s
  | .binAgeEligible launch node => Sys2Proof.Machine.execBinAgeEligible launch node s
  | .binFiring die => Sys2Proof.Machine.execBinFiring die s
  | .recordUnspill record => Sys2Proof.Machine.execRecordUnspill record s
  | .heldRecordPlace record => Sys2Proof.Machine.execHeldRecordPlace record s
  | .cohortStart unit => Sys2Proof.Machine.execCohortStart unit s
  | .fabricTeamStart unit => Sys2Proof.Machine.execFabricTeamStart unit s
  | .teamRestore unit => Sys2Proof.Machine.execTeamRestore unit s
  | .discardedTeamRestart unit => Sys2Proof.Machine.execDiscardedTeamRestart unit s
  | .teamRetire team => Sys2Proof.Machine.execTeamRetire team s
  | .applySetMask launch => Sys2Proof.Machine.execApplySetMask launch s
  | .preemptionStart die => Sys2Proof.Machine.execPreemptionStart die s
  | .saveComplete team => Sys2Proof.Machine.execSaveComplete team s
  | .drainBudgetExpiry team => Sys2Proof.Machine.execDrainBudgetExpiry team s
  | .drainForFit unit => Sys2Proof.Machine.execDrainForFit unit s
  | .priorityAging team => Sys2Proof.Machine.execPriorityAging team s
  | .teamOverdue team => Sys2Proof.Machine.execTeamOverdue team s
  | .tenureEnd team => Sys2Proof.Machine.execTenureEnd team s
  | .launchTrigger ctx slot value => Sys2Proof.Machine.execLaunchTrigger ctx slot value s
  | .launchParse ctx slot => Sys2Proof.Machine.execLaunchParse ctx slot s
  | .contextCreate ctx value => Sys2Proof.Machine.execContextCreate ctx value s
  | .contextDestroy ctx => Sys2Proof.Machine.execContextDestroy ctx s
  | .evset ctx word value => Sys2Proof.Machine.execEvset ctx word value s
  | .evclr ctx word value => Sys2Proof.Machine.execEvclr ctx word value s
  | .slotCancel ctx slot => Sys2Proof.Machine.execSlotCancel ctx slot s
  | .cancelComplete launch => Sys2Proof.Machine.execCancelComplete launch s
  | .jtailWrite ctx value => Sys2Proof.Machine.execJtailWrite ctx value s
  | .fqtailWrite ctx value => Sys2Proof.Machine.execFqtailWrite ctx value s
  | .resumeReplay ctx fseq => Sys2Proof.Machine.execResumeReplay ctx fseq s
  | .resumeAbort ctx fseq => Sys2Proof.Machine.execResumeAbort ctx fseq s
  | .invalidateTranslations ctx => Sys2Proof.Machine.execInvalidateTranslations ctx s
  | .invalidatePage ctx va => Sys2Proof.Machine.execInvalidatePage ctx va s
  | .invalidateDescriptor ctx index => Sys2Proof.Machine.execInvalidateDescriptor ctx index s
  | .invalidateAllDescriptors ctx => Sys2Proof.Machine.execInvalidateAllDescriptors ctx s
  | .invalidateComplete serial => Sys2Proof.Machine.execInvalidateComplete serial s
  | .dieResetOrderly die => Sys2Proof.Machine.execDieResetOrderly die s
  | .dieResetAbrupt die => Sys2Proof.Machine.execDieResetAbrupt die s
  | .fatalDieError die => Sys2Proof.Machine.execFatalDieError die s
  | .dieResetComplete die => Sys2Proof.Machine.execDieResetComplete die s
  | .lostclr die value => Sys2Proof.Machine.execLostclr die value s
  | .migrationStart ctx value => Sys2Proof.Machine.execMigrationStart ctx value s
  | .migrationComplete ctx => Sys2Proof.Machine.execMigrationComplete ctx s
  | .hotRowThreshold die channel row => Sys2Proof.Machine.execHotRowThreshold die channel row s
  | .gddr7HotRowThreshold die channel => Sys2Proof.Machine.execGddr7HotRowThreshold die channel s
  | .refreshWindowEnd die => Sys2Proof.Machine.execRefreshWindowEnd die s
  | .softError e => Sys2Proof.Machine.execSoftError e s
  | .pclr die value => Sys2Proof.Machine.execPclr die value s
  | .attestationRequest value => Sys2Proof.Machine.execAttestationRequest value s
  | .attestationComplete => Sys2Proof.Machine.execAttestationComplete s
  | .recoveryImageLoad value image => Sys2Proof.Machine.execRecoveryImageLoad value image s
  | .powerOn => Sys2Proof.Machine.execPowerOn s
  | .clockThrottle limitsHold => Sys2Proof.Machine.execClockThrottle limitsHold s
  | .registerWrite offset value => Sys2Proof.Machine.execRegisterWrite offset value s
  | .hostCacheRequest die dpa own => Sys2Proof.Machine.execHostCacheRequest die dpa own s
  | .hostCacheEviction die dpa data => Sys2Proof.Machine.execHostCacheEviction die dpa data s
  | .duetteLinkLoss device => Sys2Proof.Machine.execDuetteLinkLoss device s
  | .linkBringUp port encrypted => Sys2Proof.Machine.execLinkBringUp port encrypted s

end Sys2Proof.Machine
end

