-- ==== Sys2Proof/Machine/Cycle.lean ====
section
/-! DEFINITION. What a step does: the issues of a cycle, word by word (07 R157, R158), rendezvous and the other completions at
the cycle's end (02 R47, R61, R62), the order of inputs, timed events and the events that the device may make in any order
(logs 1, 2, 4). -/

namespace Sys2Proof.Machine

/-! ### The issue of a group (R37, R40, R157, R158, R161) -/

def isControl (i : Instr) : Bool := pipeOf (opMajor i) == some .control

/-- Words in the order they take effect: a control word last, since the thread goes on where it says once every other word
has taken effect (R158). -/
def effectOrder (ws : List Placed) : List Placed := ws.filter (fun w => !isControl w.i) ++ ws.filter (fun w => isControl w.i)

/-- Words run for the issue under way. -/
def State.runWords (s : State) (ws : List Placed) : State :=
  (effectOrder ws).foldl (fun s w => stateAfter s (exec w.i (s.mapIssue (fun i => { i with pc := w.pc })))) s

/-- What a group's run leaves: the state with the effects in the threads it stopped none of, the conditions raised, the
requests threads wait for, the threads that stay before the group. A thread that traps makes no request (R158). -/
structure GroupRun where
  after : State
  trapped : List TrapRec
  held : List Acc
  waiting : List Nat
deriving DecidableEq, Repr

/-- A group run on a state: first to find the threads that trap or must stay, in which no word of the group takes effect, then
for the others; `none` when a word could not issue. While a thread must ask first, the group waits whole (R143, R375). -/
def State.runGroup (s : State) (iss : Issue) (ws : List Placed) : Option GroupRun :=
  let start : State := { s with issue := some iss }
  let first := start.runWords ws
  match first.issue with
  | none => some ⟨first, [], [], []⟩
  | some i =>
    let traps := sortBy (fun r => [r.pc.toNat]) i.trapped
    let stop := distinct (traps.map TrapRec.tid ++ i.waiting)
    let held := i.held.filter (fun a => !stop.contains a.tid)
    if i.stalled then none
    else if !held.isEmpty then some ⟨s, [], held, []⟩
    else if stop.isEmpty then some ⟨{ first with issue := none }, [], [], []⟩
    else
      let again : State := { s with issue := some { iss with suppressed := iss.suppressed ++ stop } }
      let second := again.runWords ws
      if (second.issue.map Issue.stalled).getD false then none
      else some ⟨{ second with issue := none }, traps, [], i.waiting⟩

/-- A thread asks before it goes past the group: its access enters, and it waits for the answer. -/
def State.ask (s : State) (team : Nat) (a : Acc) : State :=
  let n := s.serial
  let s := (s.addAcc a).mapThread team a.tid (fun x => { x with asked := some n })
  if a.stores then s.markWritten team else s

/-- Before a group issues its threads take the largest PT among them (R130), and the write times of completed tokens that it
reads (R146); they go to the word after the group (R37). `t` is the team as the cycle found it. -/
def State.beginIssue (s : State) (t : Team) (tids : List Nat) (fall : BitVec 64) (ws : List Placed) : State :=
  let most := tids.foldl (fun m x => max m (((t.thread? x).map Thread.pt).getD 0)) 0
  let tokenTime (x : Nat) : Nat :=
    let f := (t.sheaves[x / t.width]?).getD Sheaf.reset
    ws.foldl (fun m w =>
      if (readsOf false t x).guard (guardOf w.i) then (sReads w.i).foldl (fun m r => max m (sget 0 f.tokenW r)) m else m) 0
  s.mapTeam t.id (fun u => tids.foldl (fun u x => u.mapThread x (fun y =>
    { y with pc := fall, pt := max most (max y.pt (tokenTime x)) })) u)

def wBit (i : Instr) : Bool := (i.parts.map (fun p => p.h.w)).getD false

/-- A word is a marker for a thread: by its W bit or by what it is (R161, R162); YIELD where its guard is true (R209). -/
def Reads.marks (r : Reads) (i : Instr) : Bool :=
  wBit i || (implicitMarker i && (match i with | .yield _ _ => r.guard (guardOf i) | _ => true))

/-- When a thread's results become available after the words of a group have taken effect in it (R219, R238). -/
def Reads.lateAfter (r : Reads) (cycle : Nat) (ws : List Placed) (late : List (Nat × Nat)) : List (Nat × Nat) :=
  (ws.filter (fun w => r.guard (guardOf w.i))).foldl (fun l w => noteLate r.regs.level cycle l w.i) late

/-- A thread after its group: its marker over the threads of its sub-sheaf (R161, R162), late results, the answer used, and the
writes of a thread that ended (R207). -/
def Thread.afterGroup (x : Thread) (r : Reads) (cycle : Nat) (tids : List Nat) (ws : List Placed) : Thread :=
  { x with marker := if ws.any (fun w => r.marks w.i) && x.live then tids else x.marker,
           late := r.lateAfter cycle ws x.late,
           answer := none,
           pend := if x.live then x.pend else [] }

/-- After a group has issued: its threads, and the issues a uniform word takes for each home sheaf (R63). `t` is the team as the
cycle found it. -/
def State.afterIssue (s : State) (t : Team) (tids issued : List Nat) (ws : List Placed) : State :=
  let turns := if ws.any (fun w => isUniform w.i) then (sheavesOf t tids).length else 1
  s.mapTeam t.id (fun u => issued.foldl (fun u x => u.mapThread x (fun y =>
    { y.afterGroup (readsOf false t x) s.cycle tids ws with
      earliest := if 1 < turns then max y.earliest (s.cycle + turns) else y.earliest })) u)

/-- The threads of a choice that can still issue together: nothing has stopped them since the cycle was planned. -/
def State.choiceTids (s : State) (t : Team) (c : Choice) : List Nat :=
  let xs := c.tids.filter (fun k =>
    ((t.thread? k).map (fun x => x.active && x.asked.isNone && t.mayIssue x s.cycle)).getD false)
  match xs.head?.bind t.thread? with
  | some y => xs.filter (fun k => ((t.thread? k).map (fun x => x.pc == y.pc)).getD false)
  | none => []

/-- An issue about to be made: its team as the cycle found it, its threads, their PC, what they fetch there. -/
structure Opened where
  c : Choice
  t : Team
  tids : List Nat
  pc : BitVec 64
  f : Fetched
deriving DecidableEq, Repr

def State.opened (s : State) (c : Choice) : Option Opened :=
  match s.team? c.team, s.view.find? (fun t => t.id == c.team) with
  | some now, some t =>
    let tids := s.choiceTids now c
    match tids.head?.bind now.thread? with
    | some x => if s.teamRuns now && !s.codeHeld now then some ⟨c, t, tids, x.pc, s.fetchGroup now x.tid x.pc⟩ else none
    | none => none
  | _, _ => none

/-- The issue of an opened choice. -/
def Opened.issue (o : Opened) : Issue :=
  { team := o.c.team, slot := o.c.slot, tids := o.tids, pc := o.pc, replay := o.pc, fall := o.f.fall, words := o.f.words,
    lone := o.c.lone, completing := false, suppressed := [], trapped := [], held := [], waiting := [], stalled := false }

def State.begin (s : State) (o : Opened) : State := s.beginIssue o.t o.tids o.f.fall o.f.words

/-- The issue has been made, but in the threads that stay before the group (R33, R258). -/
def State.noteMade (s : State) (o : Opened) (stay : List Nat) : State :=
  { s with made := s.made ++ [{ o.c with tids := o.tids.filter (fun k => !stay.contains k) }] }

/-- The end of an issue: threads that stay before the group are where they were in `before`, those that trap take their
conditions. -/
def Opened.finish (o : Opened) (before : State) (r : GroupRun) : State :=
  let stop := distinct (r.trapped.map TrapRec.tid ++ r.waiting)
  let s := r.after.afterIssue o.t o.tids (o.tids.filter (fun k => !stop.contains k)) o.f.words
  let s := r.waiting.foldl (fun s k => match before.thread? o.c.team k with
    | some x => s.mapThread o.c.team k (fun y => { y with pc := x.pc, pt := x.pt })
    | none => s) s
  s.takeTraps o.c.team (fun _ => o.pc) r.trapped

/-- The fetch of an issue: of a broadcast from memory, of a lone issue from its thread's loop buffer, whose translations its refill
used (R31). -/
def State.noteIssueFetch (s : State) (o : Opened) : State := if o.c.lone then s else s.noteFetch o.t o.pc

/-- One issue (R28, R157, R158). Its fetch is a use of the code's translations, a refused one too (R345). Threads of a group
with a cross-lane word arrive at rendezvous; its words take effect when that completes (R61, R195). -/
def State.runIssue (s : State) (c : Choice) : State :=
  match s.opened c with
  | none => s
  | some o =>
    let s := s.noteIssueFetch o
    match o.f.bad with
    | some (e, pc) => (s.noteMade o []).takeTraps c.team (fun _ => o.pc) (o.tids.map (fun k => ⟨k, e.code, e.aux, pc, false⟩))
    | none =>
      if o.f.words.any (fun w => s.stalls o.t o.tids w.i) then s
      else
        let cross := o.f.words.filter (fun w => isCross w.i)
        if !cross.isEmpty then
          match (s.begin o).runGroup o.issue (cross.take 1) with
          | some r => r.after.noteMade o []
          | none => s
        else
          match (s.begin o).runGroup o.issue o.f.words with
          | none => s
          | some r => (if r.held.isEmpty then o.finish s r else r.held.foldl (fun s a => s.ask c.team a) s).noteMade o r.waiting

/-! ### The issues of a slot whose words act on queues (R236) -/

def isQueue : Instr → Bool
  | .qinit _ _ => true
  | .qpush _ _ => true
  | .qpop _ _ => true
  | .qcred _ _ => true
  | _ => false

/-- The words of an opened group that act on a queue, and the others. -/
def Opened.queueWords (o : Opened) : List Placed := o.f.words.filter (fun w => isQueue w.i)
def Opened.others (o : Opened) : List Placed := o.f.words.filter (fun w => !isQueue w.i)

/-- An issue with a queue word that can be made now, with the threads that its other words stop. -/
def State.queueIssue (s : State) (o : Opened) : Option (Opened × List Nat) :=
  if o.f.bad.isSome || o.queueWords.isEmpty || o.f.words.any (fun w => isCross w.i || s.stalls o.t o.tids w.i) then none
  else
    match (s.begin o).runGroup o.issue o.others with
    | some r => if r.held.isEmpty then some (o, r.trapped.map TrapRec.tid ++ r.waiting) else none
    | none => none

/-- One thread's queue word; the conditions raised are kept with its issue. -/
def State.runQueue (q : State × List TrapRec) (o : Opened) (tid : Nat) : State × List TrapRec :=
  match q.1.runGroup { o.issue with suppressed := o.tids.filter (fun k => k != tid) } o.queueWords with
  | some r => (r.after, q.2 ++ r.trapped)
  | none => q

/-- The issues of one slot, some of them with queue words: these make their queue operations one thread at a time in ascending
TID over all of them; then the other words issue by issue, in the slot's order (R191, R236). A thread that one of its group's words
stops has none of them take effect (R158). -/
def State.runQueueIssues (s : State) (cs : List Choice) (os : List (Opened × List Nat)) : State :=
  let s0 := os.foldl (fun s o => (s.noteIssueFetch o.1).begin o.1) s
  let order := sortBy (fun (x : Nat × Opened) => [x.1])
    (os.flatMap (fun o => (o.1.tids.filter (fun k => !o.2.contains k)).map (fun k => (k, o.1))))
  let q := order.foldl (fun q x => State.runQueue q x.2 x.1) (s0, [])
  cs.foldl (fun s' c =>
    match os.find? (fun o => o.1.c == c) with
    | none => s'.runIssue c
    | some o =>
      let mine := q.2.filter (fun r => o.1.tids.contains r.tid)
      match s'.runGroup { o.1.issue with suppressed := mine.map TrapRec.tid } o.1.others with
      | some r => (o.1.finish s { r with trapped := sortBy (fun t => [t.pc.toNat]) (r.trapped ++ mine) }).noteMade o.1 r.waiting
      | none => s') q.1

/-- The issues of a slot in a cycle. -/
def State.runSlot (s : State) (cs : List Choice) : State :=
  let qs := cs.filterMap (fun c => (s.opened c).bind s.queueIssue)
  if qs.length < 2 then cs.foldl State.runIssue s else s.runQueueIssues cs qs

/-! ### Rendezvous (R61, R62, R195) -/

def Thread.arrival (x : Thread) : Option Arrival := match x.wait with | .rendezvous a => some a | _ => none

/-- A member waits at a join that does not complete in this cycle (R61). -/
def Team.held (t : Team) (late : List Nat) (h k : Nat) : Bool :=
  !((((t.sheaves[h]?).bind (fun f => f.joins[k]?)).map (fun j => j.settles late)).getD false)

/-- Every member of a home sheaf is at rendezvous or released, and some member is there. -/
def Team.meets (t : Team) (late : List Nat) (h : Nat) : Bool :=
  let xs := t.members h
  xs.any (fun x => x.arrival.isSome)
  && xs.all (fun x => x.asked.isNone && (match x.wait with
    | .ended => true
    | .join k => t.held late h k
    | .reorder _ => true
    | .rendezvous _ => true
    | _ => false))

/-- One execution at a completion: threads and the words they run together. -/
structure MeetRun where
  tids : List Nat
  slot : Nat
  at_ : Arrival
  words : List Placed
deriving DecidableEq, Repr

/-- The threads that wait at a home sheaf's rendezvous, with their arrivals. -/
def Team.arrived (t : Team) (h : Nat) : List (Nat × Arrival) :=
  (t.members h).filterMap (fun x => x.arrival.map (fun a => (x.tid, a)))

/-- Two arrivals belong to one issue. -/
def Arrival.sameIssue (a b : Arrival) : Bool := a.replay == b.replay && a.cycle == b.cycle && a.slot == b.slot

/-- The executions of a completion: each cross-lane word once for all that arrived at it, in ascending PC; then the other
words of each group that issued. DESIGN CHOICE (log 25): the groups in the order that R191 gives to the issues of a cycle, by slot
and lowest TID of the issuing sub-sheaf; a regroup point among these words makes one regroup event for each home sheaf of the
sub-sheaf, as that home sheaf's rendezvous completes (R52, R195). -/
def Team.meetRuns (t : Team) (h : Nat) : List MeetRun :=
  let xs := t.arrived h
  let crosses := sortBy (fun w => [w.pc.toNat]) (distinct (xs.flatMap (fun p => p.2.words.filter (fun w => isCross w.i))))
  let groups := sortBy (fun (g : BitVec 64 × Nat × Nat × Nat) => [g.2.2.1, g.2.2.2, g.2.1])
    (distinct (xs.map (fun p => (p.2.replay, p.2.cycle, p.2.slot, p.2.lead))))
  let run (ys : List (Nat × Arrival)) (ws : List Placed) : Option MeetRun :=
    match ys with
    | [] => none
    | y :: _ => if ws.isEmpty then none else some ⟨ys.map Prod.fst, y.2.slot, y.2, ws⟩
  crosses.filterMap (fun w => run (xs.filter (fun p => p.2.words.contains w)) [w])
  ++ groups.filterMap (fun g =>
    let ys := xs.filter (fun p => p.2.replay == g.1 && p.2.cycle == g.2.1 && p.2.slot == g.2.2.1)
    run ys ((ys.head?.map (fun y => y.2.words.filter (fun w => !isCross w.i))).getD []))

/-- What the executions of a completion have brought: the state, the traps of the first that trapped, requests, whether some
thread of one cannot go on yet. -/
structure MeetResult where
  after : State
  traps : List TrapRec
  held : List Acc
  stays : Bool
deriving DecidableEq, Repr

/-- One execution of a completion, after those before it. -/
def MeetResult.run (team : Nat) (m : MeetResult) (r : MeetRun) : MeetResult :=
  let iss : Issue :=
    { team := team, slot := r.slot, tids := r.tids, pc := r.at_.replay, replay := r.at_.replay, fall := r.at_.fall,
      words := r.words, lone := false, completing := true, suppressed := [], trapped := [], held := [], waiting := [],
      stalled := false }
  match m.after.runGroup iss r.words with
  | none => { m with stays := true }
  | some q =>
    { after := q.after, traps := if m.traps.isEmpty then q.trapped else m.traps, held := m.held ++ q.held,
      stays := m.stays || !q.waiting.isEmpty }

/-- The teams as a completion's words find them: as they stand, their scratchpad as the cycle found it (R150). -/
def State.meetView (s : State) : List Team :=
  s.teams.map (fun t => match s.view.find? (fun u => u.id == t.id) with
    | some u => { t with scratch := u.scratch, tiles := u.tiles }
    | none => t)

/-- First cycle in which the members of a rendezvous may issue again (R62). -/
def Team.meetFirst (t : Team) (xs : List (Nat × Arrival)) : Nat :=
  let place (x : Nat) : Nat × Nat := ((t.thread? x).bind Thread.place).getD (0, t.width)
  let spread := xs.any (fun p => (place p.1).2 != p.1 % t.width) || decide (1 < (distinct (xs.map (fun p => (place p.1).1))).length)
  xs.foldl (fun m p => max m p.2.cycle) 0 + 2 + (if spread then 4 else 0)

/-- A completion of a home sheaf's rendezvous. When a word traps, none takes effect: the thread that trapped parks, the
others stay (R62, R218; log 20). -/
def State.meet (s : State) (team h : Nat) : State :=
  match s.team? team with
  | none => s
  | some t =>
    if !t.meets (s.lateThreads t 1) h then s
    else
      let xs := t.arrived h
      let freed : State := s.mapTeam team (fun u => xs.foldl (fun u p => u.mapThread p.1 (fun y =>
        { y with wait := .none, pc := p.2.fall, earliest := max y.earliest (t.meetFirst xs) })) u)
      let m := (t.meetRuns h).foldl (MeetResult.run team) ⟨{ freed with view := s.meetView }, [], [], false⟩
      if !m.traps.isEmpty then
        s.takeTraps team (fun x => ((xs.find? (fun p => p.1 == x)).map (fun p => p.2.replay)).getD 0) m.traps
      else if !m.held.isEmpty then m.held.foldl (fun s a => s.ask team a) s
      else if m.stays then s
      else
        let done := m.after.mapTeam team (fun u => xs.foldl (fun u p => u.mapThread p.1 (fun y =>
          y.afterGroup (readsOf true t p.1) s.cycle ((xs.filter (fun r => r.2.sameIssue p.2)).map Prod.fst) p.2.words)) u)
        { done with view := s.view }

/-! ### The end of a cycle -/

/-- A team's completions: rendezvous; then the placements of joins and regroup events, once and in the order of R47; its
barrier and reorder. -/
def State.settleTeam (s : State) (t : Team) : State :=
  if t.res = .ended then s
  else
    let s := (upto t.sheaves.length).foldl (fun s h => s.meet t.id h) s
    let s := s.passWaiting t
    s.mapTeam t.id (fun u => ((u.placements s.cycle (s.lateThreads u 1)).teamBarrier).reorder s.cycle (s.lateThreads u 2))

/-- Records of every context that have been waiting for their lines (R352). -/
def State.writeAllWaiting (s : State) : State :=
  (upto s.ctxs.length).foldl (fun s k => s.writeWaiting k (s.ctx k).fqwait) s

/-- Every completion that the cycle's issues and events have brought about. -/
def State.settle (s : State) : State :=
  let s := s.teams.foldl (fun s t => s.settleTeam t) s
  let s := s.teams.foldl (fun s t => s.cohortBarrier t) s
  ((((((s.endWaits).resumeFabric).admitInputs).retireLaunches).enterPlacement).enterDiscarded).writeAllWaiting

/-- In the second core cycle of a dispatcher cycle its firings are over when the cycle ends: what reaches a bin still belongs to
the next dispatcher cycle (R270). -/
def State.closeFirings (s : State) : State :=
  (upto 4).foldl (fun s d =>
    if (s.cycle - (s.die d).since) % 2 = 1 then
      s.mapDie d (fun D => { D with fired := (s.dispatch d, if D.fired.1 = s.dispatch d then max 1 D.fired.2 else 1) })
    else s) s

/-- The end of a cycle: completions, formation in each team (R53), then the next cycle's choice of issues (R28 to R33). -/
def State.endCycle (s : State) : State :=
  let s := s.closeFirings.settle
  let s := (s.teams.foldl (fun s t => stateAfter s (exec (.sheafFormation t.id) s)) s).noteIssues
  State.planCycle { s with
    cycle := s.cycle + 1,
    teams := s.teams.map (fun t => { t with wlog := [], pushed := [] }) }

/-! ### Queue operations that wait (R236) -/

/-- The waiting queue operation of longest wait not yet tried in this cycle. -/
def State.nextRetry (s : State) : Option (Nat × Nat) :=
  (leastBy (fun (r : Nat × Nat × Nat) => [r.1, r.2.1, r.2.2]) (s.teams.flatMap (fun t =>
    if s.teamRuns t then
      t.threads.filterMap (fun x =>
        let since := match x.block with
          | .push _ _ c => some c
          | .pop _ _ c => some c
          | _ => none
        match since with
        | some c => if c < s.cycle ∧ x.tried < s.cycle then some (c, t.id, x.tid) else none
        | none => none)
    else []))).map Prod.snd

/-! ### Inputs (log 1) -/

/-- A die that is present and will be running again. -/
def State.comesBack (s : State) (d : Nat) : Bool := (s.die d).present && (s.die d).state != 1

/-- The slice of a line that a register names serves a write of zeros to it, when the die has the line (R368 to R370, R386). -/
def State.clearReady (s : State) (d loc : Nat) : Bool :=
  !(s.die d).present || homeOf loc != d || s.slicesFree [loc]

/-- The slices serve a creation that is accepted: its buffer table is written (R297, R368, R369). -/
def State.createReady (s : State) (ctx : Nat) (v : DWord) : Bool :=
  let c := s.ctx ctx
  s.fwState != 2 || c.valid || s.createBad c (v ||| (1#64 <<< 63))
    || (upto 128).all (fun k => s.dpaFree (fld c.btab 56 2) (fld c.btab 0 54 + 256 * k) 1)

/-- The slices serve the descriptor that the start of a migration checks. -/
def State.migrateReady (s : State) (ctx : Nat) (v : DWord) : Bool := !bit v 63 || !(s.ctx ctx).valid || s.descFree ctx (fld v 0 10)

/-- The line LOSTCLR names, and the one PCLR names. -/
def lostclrLoc (d : Nat) (v : DWord) : Nat := dpaLoc d (fld v 0 54)
def pclrLoc (d : Nat) (v : DWord) : Nat := locOf d (fld v 56 8) (fld v 0 48)

/-- A register write can be applied now. -/
def State.writeReady (s : State) (offset : Nat) (v : DWord) : Bool :=
  match regBlock offset with
  | .die d 0x10 => s.clearReady d (lostclrLoc d v)
  | .health d 0x30 => s.clearReady d (pclrLoc d v)
  | .context ctx 0 => !bit v 63 || s.createReady ctx v
  | .migration ctx 0 => s.migrateReady ctx v
  | _ => true

/-- An answer of another device is to a request that has gone out, or to none at all. -/
def State.replyReady (s : State) (id : Nat) : Bool :=
  match s.acc? id, s.op? id with
  | some a, _ => s.asks a || !a.asksRemote
  | none, some o => (s.opRemote o).isSome || !(o.remote 0 && o.result.isNone && o.final.isNone)
  | none, none => true

/-- An event of the outside world can be applied now: the others wait at the device. -/
def State.inputReady (s : State) : Instr → Bool
  | .hostWrite (.memory d _) _ => !s.comesBack d
  | .hostRead (.memory d _) _ => !s.comesBack d
  | .hostCacheRequest d dpa _ => match s.hostLine d dpa with | some line => s.dirReady line | none => true
  | .hostCacheEviction d _ _ => !s.comesBack d
  | .backInvalidateResponse line _ => !s.comesBack (lineHome line)
  | .remoteAccessRequest r => !remoteForm r || s.remoteReady r
  | .remoteResponse id _ => s.replyReady id
  | .lostclr d v => s.clearReady d (lostclrLoc d v)
  | .pclr d v => s.clearReady d (pclrLoc d v)
  | .contextCreate ctx v => s.createReady ctx v
  | .migrationStart ctx v => s.migrateReady ctx v
  | .registerWrite offset v => s.writeReady offset v
  | .collContribution c => c.sender.isSome || (s.contribute c).isSome
  | _ => true

/-- A host store to device memory, and a host write that starts an invalidate. -/
def hostStore : Instr → Bool
  | .hostWrite (.memory _ _) _ => true
  | _ => false
def hostInval : Instr → Bool
  | .registerWrite offset _ => match regBlock offset with | .trap _ 0x38 => true | _ => false
  | .invalidateTranslations _ => true
  | .invalidatePage _ _ => true
  | .invalidateDescriptor _ _ => true
  | .invalidateAllDescriptors _ => true
  | _ => false

/-- The first input that can be applied, and the others. An invalidate waits for the host stores before it (R346). -/
def takeInput (ready : Instr → Bool) : List Instr → Option (Instr × List Instr)
  | [] => none
  | i :: r =>
    if ready i then some (i, r)
    else (takeInput (fun j => ready j && !(hostStore i && hostInval j)) r).map (fun q => (q.1, i :: q.2))

/-! ### Events that are due -/

/-- Cycle by which a reset ends (R369). -/
def resetLimit : Nat := 2 ^ 24

/-- The placement of the next unit of the waiting orders. -/
def State.placeEvent (s : State) : Option Instr :=
  s.nextPlace.map (fun p => match p.1.unit.kind with
    | .cohorts _ _ => .cohortStart p.1.unit.id
    | .fabric _ _ => .fabricTeamStart p.1.unit.id
    | .saved _ => .teamRestore p.1.unit.id
    | .discarded _ => .discardedTeamRestart p.1.unit.id)

/-- Requests to devices without a working route for 2^20 cycles (R375). -/
def State.lateRoute (s : State) : Option Instr :=
  match s.accs.find? (fun a => s.asks a && s.timedOut a.device a.since) with
  | some a => some (.duetteRouteTimeout a.id)
  | none => (s.ops.find? (fun o => match s.opRemote o with
      | some k => s.timedOut (dOid (o.desc k)) o.since
      | none => false)).map (fun o => .duetteRouteTimeout o.serial)

/-- Timed events of a team. -/
def State.teamDue (s : State) (t : Team) : Option Instr :=
  if s.canEndTenure t then some (.tenureEnd t.id)
  else if s.canOverdue t then some (.teamOverdue t.id)
  else if s.canAgePriority t then some (.priorityAging t.id)
  else if s.canExpire t then some (.drainBudgetExpiry t.id)
  else (t.threads.find? (fun x => x.refillDue s.cycle)).map (fun x => .loopBufferRefill t.id x.tid)

/-- A result that lands in this cycle (R235). -/
def State.exactDue (s : State) : Option Instr :=
  s.teams.findSome? (fun t => t.threads.findSome? (fun x =>
    (x.pend.find? (fun p => p.exact && p.due s.cycle)).map (fun p => .variableLatencyReturn t.id x.tid p.serial)))

/-- A bank over its die's threshold (R382, R383): the die, the channel, the row. -/
def State.hotDue (s : State) : Option (Nat × Nat × Nat) :=
  (upto 4).findSome? (fun d => (s.die d).hotBank.map (fun b => (d, b.1 / 2 ^ 16, b.2)))

/-- Its HOT_ROW_THRESHOLD or GDDR7_HOT_ROW_THRESHOLD. -/
def State.runHot (s : State) (b : Nat × Nat × Nat) : Result :=
  if Config.isM b.1 then execGddr7HotRowThreshold b.1 b.2.1 s else execHotRowThreshold b.1 b.2.1 b.2.2 s

/-- The first event whose time has come (R31, R136, R149, R235, R271, R319, R320, R325 to R327, R331, R369, R375, R392). -/
def State.dueEvent (s : State) : Option Instr :=
  if s.fwState ≤ 1 then some .powerOn
  else
    match s.exactDue with
    | some i => some i
    | none =>
    match (upto 4).find? (fun d => s.resetting d && decide ((s.die d).since + resetLimit ≤ s.cycle)) with
    | some d => some (.dieResetComplete d)
    | none =>
    match (upto 4).find? s.canRebase with
    | some d => some (.timeRebase d)
    | none =>
    match s.lateRoute with
    | some i => some i
    | none =>
    match s.accs.find? s.canRetry with
    | some a => some (.ldfRetry a.id)
    | none =>
    match s.teams.findSome? s.teamDue with
    | some i => some i
    | none =>
    match s.launches.findSome? (fun l => ((upto l.nodes.length).find? (s.canAge l)).map (fun n => Instr.binAgeEligible l.id n)) with
    | some i => some i
    | none =>
    match s.placeEvent with
    | some i => some i
    | none =>
    match (upto 4).find? (fun d => (s.nextPreempt d).isSome) with
    | some d => some (.preemptionStart d)
    | none => (s.units.find? (fun u => (s.nextFit u.id).isSome)).map (fun u => .drainForFit u.id)

/-! ### Events the device may make in any order -/

/-- Events of an access in flight. Outside a domain, and for this device's own number, the device itself answers a request (R373,
R374). -/
def State.accEvents (s : State) (a : Acc) : List Instr :=
  (if s.canStores a then [.storeApply a.id] else [])
  ++ (if s.canLoads a then [.loadRenew a.id] else [])
  ++ (if s.canClaim a then [.exactSumClaim a.id] else [])
  ++ (if s.canHome a then
      match a.kind with
      | .atomic _ _ _ _ => [.atomicApply a.id]
      | .reduce _ _ _ => [.reductionAccept a.id]
      | .unord _ => [.reductionAccept a.id]
      | _ => []
    else [])
  ++ (if s.asks a then
      if !bit s.domain0 63 then [.remoteResponse a.id (.condition 0x11)]
      else if s.canOwnServe a then [.remoteResponse a.id .done]
      else []
    else [])

/-- Lines that something of the memory system concerns. -/
def State.linesBusy (s : State) : List Nat :=
  distinct (s.accs.flatMap (fun a => a.locs.map lineOf) ++ s.dies.flatMap (fun D => linesOf D.l2 ++ D.dir.map Prod.fst)
    ++ s.fills.map Fill.line)

def State.lineEvents (s : State) (line : Nat) : List Instr :=
  (if s.canRecall line then [.dirHomeAccess line] else [])
  ++ (upto 4).flatMap (fun d =>
    (if s.canReadMiss d line then [.dirReadMiss d line] else [])
    ++ (if s.canOwn d line then [.dirWriteOwnership d line] else [])
    ++ (if s.canNotice d line then [.dirEviction d line] else [])
    ++ (if (s.fillFor d line).isSome then [.lineDataReceive d line] else [])
    ++ (if s.canGrant d line then [.writeOwnershipGrant d line] else [])
    ++ (if s.canEvict d line then [.l2Eviction d line] else []))

/-- Events of an engine operation: one that cannot occur yet leaves the state as it is. -/
def State.opEvents (s : State) (o : Op) : List Instr :=
  let ready := s.opReady o && !(o.remote 0 && o.result.isNone)
  (match o.kind with
    | 0 => if !o.sent && ready then [.copyComplete o.serial, .engineFaultPause o.serial] else []
    | 1 => if ready then [.wloadComplete o.serial, .engineFaultPause o.serial] else []
    | 2 => if ready then [.gatherComplete o.serial, .engineFaultPause o.serial] else []
    | _ =>
      (if ready && (s.opPause o).isSome then [.engineFaultPause o.serial] else []) ++
      if !o.sent then
        match o.coll with
        | some (tag, gen, ranks, root) =>
          let c : Contribution := ⟨tag, gen, 0, ranks, 0, 0, 0, 0, [], some o.serial⟩
          if s.opMay o (s.collSourceUnits o) && (root != fld s.domain0 0 11 || (s.contribute c).isSome)
          then [.collContribution c] else []
        | none => []
      else if o.paused.isSome || o.final.isSome then []
      else
        match o.result with
        | some d =>
          let us := s.collDestUnits o d
          if !o.remote 1 && (pauseOf us).isNone && s.engineMay o us then [.collResult o.serial .fromHere] else []
        | none => if s.collAnswers.any (fun a => a.1 == o.serial) then [.collResult o.serial .fromHere] else [])
  ++ (match s.opRemote o with
    | some k =>
      if !bit s.domain0 63 then [.remoteResponse o.serial (.condition 0x11)]
      else if s.ownDevice (dOid (o.desc k)) then [.remoteResponse o.serial .done]
      else []
    | none => [])

/-- Events of a team. -/
def State.teamEvents (s : State) (t : Team) : List Instr :=
  t.threads.flatMap (fun x => (x.pend.filter (fun p => p.due s.cycle && !p.exact)).map (fun p => Instr.variableLatencyReturn t.id x.tid p.serial))
  ++ (if s.mmaCanStart t then [.mmaOperationStart t.id] else [])
  ++ (if s.segmentReady t then [.segmentRead t.id] else [])
  ++ (if t.mmaCanFinish then [.mmaOperationFinish t.id] else [])
  ++ (if s.canSaveTeam t then [.saveComplete t.id] else [])
  ++ (if s.canRetireTeam t then [.teamRetire t.id] else [])

/-- Events of records. -/
def State.recordEvents (s : State) (r : Record) : List Instr :=
  (if s.canArrive r then [.recordArrival r.id] else [])
  ++ (if s.canUnspill r then [.recordUnspill r.id] else [])
  ++ (if s.canPlaceHeld r then [.heldRecordPlace r.id] else [])

/-- Events of launches and contexts. -/
def State.hostEvents (s : State) : List Instr :=
  s.launches.flatMap (fun l =>
    (if l.phase = .retiring then [Instr.applySetMask l.id] else []) ++ (if s.canEnd l then [.cancelComplete l.id] else []))
  ++ (upto s.ctxs.length).flatMap (fun k =>
    (match (s.ctx k).nextParse with
      | some slot => if s.parseReady k slot then [Instr.launchParse k slot] else []
      | none => [])
    ++ (if s.canMigrate k then [.migrationComplete k] else []))
  ++ (s.invals.filter s.invalReady).map (fun v => .invalidateComplete v.serial)

/-- Events of a die. -/
def State.dieEvents (s : State) (d : Nat) : List Instr :=
  (if s.canDrain d then [.backlogDrain d] else [])
  ++ (if s.resetting d then [.dieResetComplete d] else [])
  ++ (if s.canFire d then [.binFiring d] else [])

/-- Every event that may occur next. -/
def State.freeEvents (s : State) : List Instr :=
  s.teams.flatMap s.teamEvents ++ s.accs.flatMap s.accEvents ++ s.linesBusy.flatMap s.lineEvents
  ++ s.ops.flatMap s.opEvents ++ s.records.flatMap s.recordEvents ++ s.hostEvents ++ (upto 4).flatMap s.dieEvents
  ++ (if s.attStat = 1 then [.attestationComplete] else [])

/-- One of the events that may occur, a unit of a copy under way, or the end of the cycle, freely (R147, R399; log 2). A cycle in
which a fabric owes a firing does not end before it (R271). -/
def State.runFree (s : State) : Result :=
  let es := s.freeEvents
  let cs := s.ops.filter s.copyRuns
  let n := es.length + cs.length + (if (upto 4).any s.canFire then 0 else 1)
  let k := Config.freeChoice s.freeCtr % n
  let s' : State := if n ≤ 1 then s else { s with freeCtr := s.freeCtr + 1 }
  match es[k]? with
  | some e => exec e s'
  | none =>
    match cs[k - es.length]? with
    | some o => .next (s'.copyUnit o)
    | none => .next s'.endCycle

/-! ### The step -/

/-- What a state does next: a queue operation tried again, the issues of a slot, an input, an event whose time has come, one
of the events that may occur, the end of the cycle. -/
def State.next (s : State) : Result :=
  match s.nextRetry with
  | some r => exec (.queueRetry r.1 r.2) s
  | none =>
    match s.plan with
    | c :: rest =>
      let same (d : Choice) : Bool := d.team == c.team && d.slot == c.slot
      .next (State.runSlot { s with plan := rest.dropWhile same } (c :: rest.takeWhile same))
    | [] =>
      match takeInput s.inputReady s.inputs with
      | some q => exec q.1 { s with inputs := q.2 }
      | none =>
        match s.hotDue with
        | some b => s.runHot b
        | none =>
          match s.dueEvent with
          | some e => exec e s
          | none => s.runFree

end Sys2Proof.Machine
end

