-- ==== Sys2Proof/Machine/Loaded.lean ====
section
/-! DEFINITION. A machine with a program of one team loaded from outside (log 3): what `withFetchWord` places, and what tests
use. -/

namespace Sys2Proof.Machine

/-- The eight bytes of an instruction of up to two words, its bits above nbits 0 (R153). -/
def codeBytes (nbits w : Nat) : List Byte := toBytes (w % 2 ^ nbits) 8

/-- Bytes put in device memory at an address of die 0, by the default interleave (R398). -/
def placeBytes (m : List Host.Cell) (dpa : Nat) (bs : List Byte) : List Host.Cell :=
  (upto bs.length).foldl (fun m k => putByte m (dpaLoc 0 (dpa + k)) (bs.getD k 0)) m

/-- Page tables at 0x10000 that map the first 1 GiB to the same addresses of die 0, a buffer table at 0x8000 whose buffer 0
covers the first 1 MiB with every right, and code at 0. -/
def loadedMemory (m : List Host.Cell) (code : List Byte) : List Host.Cell :=
  let m := placeBytes m 0 code
  let m := placeBytes m 0x8000 (toBytes (2 ^ 63) 8 ++ toBytes 0x100000 8 ++ toBytes 0xF 8 ++ toBytes 0xC0000 8)
  let m := placeBytes m 0x10000 (toBytes (2 ^ 63 + 0x11000) 8)
  let m := placeBytes m 0x11000 (toBytes (2 ^ 63 + 0x12000) 8)
  placeBytes m 0x12000 (toBytes (2 ^ 63 + 2 ^ 62) 8)

/-- Context 0 with the tables of `loadedMemory`, virtual die 0 bound to die 0. -/
def loadedCtx : Ctx :=
  { Ctx.reset with
    ctl := BitVec.ofNat 64 (2 ^ 63 + 7 * 2 ^ 48 + 64 * 2 ^ 32 + 8 * 2 ^ 16), btab := 0x8000, ptroot := 0x10000,
    jrnl := BitVec.ofNat 64 (10 * 2 ^ 59 + 0x20000) }

/-- A launch of one team of eight threads in one sheaf of width 8, with DEPTH 3, one scratchpad and one accumulator
granule; its entry is offset 0 of buffer 0. -/
def loadedLaunch (id : Nat) (code0 : List Host.Cell) : Launch :=
  { id := id, ctx := 0, slot := 0, rseq := 1, jseq := 0, prio := 0, sup := true,
    words := [0, 0, 0, 0, 0, 0, 0, 0, 0, 0, 0, BitVec.ofNat 64 (3 + 2 ^ 36 + 2 ^ 39), BitVec.ofNat 64 (0xC401), 0, 0,
      BitVec.ofNat 64 (2 ^ 63 + 2 ^ 56)],
    ext := [], nodes := [], eligible := true, phase := .running, started := true, cohortsDone := 0, teamsDone := [],
    code0 := code0, codeTags := [], born := 0, lottery := [], stats := [], windows := [], combine := [], fullSlots := [], spoiled := [], spillUsed := 0, outcomes := [] }

/-- Its team on core 0 of die 0, at the start. -/
def loadedTeam (s : State) (l : Launch) (id : Nat) : Team :=
  s.freshTeam l id 0 0 0 ⟨8, 3, 3, 1, 1⟩ ⟨0, (0, 1), [1, 2], [(0, 0)]⟩ none [] 0 (upto 8)

/-- s with the code loaded and its first word the issue of the cycle. -/
def State.loaded (s : State) (code : List Byte) : State :=
  let m := loadedMemory s.mem code
  let l := loadedLaunch s.serial m
  let t := loadedTeam s l (s.serial + 1)
  { s with
    serial := s.serial + 2, fwState := 2, mem := m, lost := [], poison := [], ktag := [], strm := [], stored := [], stale := [],
    ctxs := modifyAt s.ctxs 0 (fun _ => loadedCtx),
    dies := modifyAt s.dies 0 (fun D => { D with present := true, state := 1, l2 := [], l1 := [], slice := [], acts := [], dir := [], sums := [] }),
    launches := [l], teams := [t], view := [t], plan := [⟨t.id, 0, upto 8, false⟩], issue := none, accs := [], ops := [],
    units := [] }

end Sys2Proof.Machine
end

