-- ==== Sys2Proof/Machine/Step.lean ====
section
/-! DEFINITION. The step, and the state that stands for a program loaded from outside the machine (log 3). -/

namespace Sys2Proof.Machine

/-- One step of the package. -/
def step (s : State) : Host.Outcome State Fault Refusal := s.next

/-- s with one instruction as the code of a launch whose single team of eight threads issues it next: context 0 with an
identity page, its buffer 0 over the code, the launch, its team on core 0 of die 0 and that issue planned (log 3). -/
def State.withFetchWord (s : State) (nbits w : Nat) : State := s.loaded (codeBytes nbits w)

end Sys2Proof.Machine
end

