-- ==== Sys2Proof/Safety.lean ====
section
/-! DEFINITION. What a safe state and a safe run are: the stores in their canonical forms, four dies and 64 contexts, fields
within the values the spec gives them, and a run that stops nowhere. -/

namespace Sys2Proof.Machine

/-- A die's fields as Tables 16-2 and 17-1 admit them: STATE, the hot-row threshold, the counters of 32 bits. -/
def Die.Legal (D : Die) : Prop :=
  D.state ≤ 4 ∧ 0x100 ≤ D.hotth ∧ D.hotth ≤ 0x800 ∧ D.lostcnt < 2 ^ 32 ∧ D.psncnt < 2 ^ 32 ∧ D.cwdcnt < 2 ^ 32
  ∧ D.capcnt < 2 ^ 32 ∧ D.rfmcnt < 2 ^ 32

/-- A state whose memory and key tags are in canonical form, that has the package's four dies (Table 0-1) and 64 contexts
(R107), and whose clock (R393), firmware and attestation states (Table 17-2) and dies are legal. -/
def State.Sane (s : State) : Prop :=
  Memory.wf s.mem = true ∧ swf 0 s.ktag = true ∧ s.dies.length = 4 ∧ s.ctxs.length = 64
  ∧ 500 ≤ s.clock ∧ s.clock ≤ 1100 ∧ s.fwState ≤ 3 ∧ s.attStat ≤ 3 ∧ ∀ D ∈ s.dies, D.Legal

/-- k steps from s end in a next state, and it is sane. -/
def SafeRun (k : Nat) (s : State) : Prop := ∃ t, Sys2Proof.core.run k s = .next t ∧ State.Sane t

end Sys2Proof.Machine
end

