-- ==== Sys2Proof/Certificates/Slice0/Obligations.lean ====
section
/-! DEFINITION. Statements about the model, each with the rule of the spec it formalises. `Sys2Proof.Claims` holds what they
are written in: the threads in which a word takes effect, and the state in which those threads, and nothing else, have
changed. -/

namespace Sys2Proof.Claims

open Sys2Proof.Machine

/-! ### What a word of the issue under way does -/

/-- The issue iss is under way, and t is its team as the cycle found it. -/
def Issuing (s : State) (iss : Issue) (t : Team) : Prop := s.issue = some iss ∧ s.viewTeam iss = some t

/-- What thread k reads while the issue is under way. -/
def reads (iss : Issue) (t : Team) (k : Nat) : Reads := readsOf iss.completing t k

/-- A word guarded by g takes effect in thread k: k issues it, nothing in the group has stopped k, its guard holds (R40, R158). -/
def takesEffect (iss : Issue) (t : Team) (g : BitVec 3) (k : Nat) : Bool :=
  decide (k < t.threads.length) && iss.tids.contains k && !iss.suppressed.contains k && (reads iss t k).guard g

/-- The threads in which it takes effect, ascending. -/
def effective (iss : Issue) (t : Team) (g : BitVec 3) : List Nat :=
  (List.range t.threads.length).filter (takesEffect iss t g)

/-- s with the threads chosen by p changed by f, in the team of a number, and nothing else. -/
def threadsBecome (s : State) (team : Nat) (p : Nat → Bool) (f : Nat → Thread → Thread) : State :=
  { s with teams := s.teams.map (fun u => if u.id = team then
      { u with threads := u.threads.mapIdx (fun k x => if p k then f k x else x) } else u) }

/-- s with the registers of the threads in which the word takes effect changed by f, and nothing else: no other thread, flag,
uniform register, byte of memory or special register. -/
def regsBecome (s : State) (iss : Issue) (t : Team) (g : BitVec 3) (f : Reads → Regs → Regs) : State :=
  threadsBecome s iss.team (takesEffect iss t g) (fun k x => { x with regs := f (reads iss t k) x.regs })

/-- s with a variable-latency result on its way in those threads (R160): a number each, the registers and their values. -/
def pendBecome (s : State) (iss : Issue) (t : Team) (g : BitVec 3) (f : Reads → List (Nat × Word)) : State :=
  { threadsBecome s iss.team (takesEffect iss t g) (fun k x =>
      { x with pend := x.pend ++
          [⟨s.serial + ((List.range k).filter (takesEffect iss t g)).length, f (reads iss t k), true, s.cycle, false, false⟩] }) with
    serial := s.serial + (effective iss t g).length }

/-- The home sheaf h executes a uniform word: it has an issuing thread, and none of them was stopped (R63, R158). -/
def executes (iss : Issue) (t : Team) (h : Nat) : Bool :=
  let mine := (List.range t.threads.length).filter (fun k => iss.tids.contains k && k / t.width == h)
  decide (h < t.sheaves.length) && !mine.isEmpty && !mine.any (fun k => iss.suppressed.contains k)

/-- What a uniform word reads in home sheaf h: the uniform registers as its lowest issuing thread reads them. -/
def sheafReads (iss : Issue) (t : Team) (h : Nat) : Reads :=
  reads iss t (((List.range t.threads.length).find? (fun k => iss.tids.contains k && k / t.width == h)).getD 0)

/-- s with the executing home sheaves changed by f, and nothing else. -/
def sheavesBecome (s : State) (iss : Issue) (t : Team) (f : Reads → Sheaf → Sheaf) : State :=
  { s with teams := s.teams.map (fun u => if u.id = iss.team then
      { u with sheaves := u.sheaves.mapIdx (fun h x => if executes iss t h then f (sheafReads iss t h) x else x) } else u) }

/-- A team with one thread changed. -/
def onThread (k : Nat) (f : Thread → Thread) (u : Team) : Team :=
  { u with threads := u.threads.mapIdx (fun i x => if i = k then f x else x) }

/-- s with one team, thread, die, context, launch, access, operation or record changed, and nothing else. -/
def teamBecomes (s : State) (n : Nat) (f : Team → Team) : State :=
  { s with teams := s.teams.map (fun u => if u.id = n then f u else u) }
def threadBecomes (s : State) (n tid : Nat) (f : Thread → Thread) : State := teamBecomes s n (onThread tid f)
def dieBecomes (s : State) (d : Nat) (f : Die → Die) : State :=
  { s with dies := s.dies.mapIdx (fun i D => if i = d then f D else D) }
def ctxBecomes (s : State) (k : Nat) (f : Ctx → Ctx) : State :=
  { s with ctxs := s.ctxs.mapIdx (fun i c => if i = k then f c else c) }
def launchBecomes (s : State) (id : Nat) (f : Launch → Launch) : State :=
  { s with launches := s.launches.map (fun l => if l.id = id then f l else l) }
def accBecomes (s : State) (id : Nat) (f : Acc → Acc) : State :=
  { s with accs := s.accs.map (fun a => if a.id = id then f a else a) }
def opBecomes (s : State) (id : Nat) (f : Op → Op) : State :=
  { s with ops := s.ops.map (fun o => if o.serial = id then f o else o) }
def recordBecomes (s : State) (id : Nat) (f : Record → Record) : State :=
  { s with records := s.records.map (fun r => if r.id = id then f r else r) }

/-- A value of a type as an integer (R87): its low n bits, signed or not. -/
def typed (sgn : Bool) (n : Nat) (x : Nat) : Int := if sgn then (BitVec.ofNat n x).toInt else ((x % 2 ^ n : Nat) : Int)

/-- An integer put in a destination of a type of n bits, modulo 2^n (R87): one register, extended by sign or zeros, or a pair. -/
def putTyped (sgn : Bool) (n : Nat) (d : BitVec 6) (e : Int) (q : Regs) : Regs :=
  if n = 64 then q.set64 d.toNat (BitVec.ofInt 64 e)
  else q.set d.toNat (if sgn then (BitVec.ofInt n e).signExtend 32 else (BitVec.ofInt n e).setWidth 32)

/-- Width and signedness of the type codes of Table 7-5: .I8, .I16, .I32, .I64, .W8, .W16, .W32, .W64, .B32, .B64. -/
def typeWidth (t : BitVec 4) : Nat := [8, 16, 32, 64, 8, 16, 32, 64, 32, 64].getD t.toNat 32
def typeSigned (t : BitVec 4) : Bool := t.toNat ≤ 3

/-- A clamp to the range of a type (Table 4-1). -/
def clampTo (sgn : Bool) (n : Nat) (e : Int) : Int :=
  let lo : Int := if sgn then -(2 ^ (n - 1)) else 0
  let hi : Int := if sgn then 2 ^ (n - 1) - 1 else 2 ^ n - 1
  if e < lo then lo else if hi < e then hi else e

/-- Shifts of 32-bit operands (R183): a count of 32 or more gives 0, or −1 for a signed right shift of a negative number. -/
def shiftLeft (a : Word) (y : Nat) : Word := if y < 32 then a <<< y else 0
def shiftRightW (a : Word) (y : Nat) : Word := if y < 32 then a >>> y else 0
def shiftRightI (a : Word) (y : Nat) : Word := if y < 32 then a.sshiftRight y else if a.toInt < 0 then -1 else 0

/-- A V3 instruction and the word it writes to D, of A, B and the old D (Table 8-1). -/
def v3Integer : List ((Hdr → FV3 → Instr) × (Word → Word → Word → Word)) :=
  [(.iadd, fun a b _ => BitVec.ofNat 32 (a.toNat + b.toNat)),
   (.isub, fun a b _ => BitVec.ofInt 32 (a.toInt - b.toInt)),
   (.imul, fun a b _ => BitVec.ofNat 32 (a.toNat * b.toNat)),
   (.imulhI32, fun a b _ => (a.signExtend 64 * b.signExtend 64).extractLsb' 32 32),
   (.imulhW32, fun a b _ => (a.setWidth 64 * b.setWidth 64).extractLsb' 32 32),
   (.iminI32, fun a b _ => if a.slt b then a else b),
   (.iminW32, fun a b _ => if a < b then a else b),
   (.imaxI32, fun a b _ => if a.slt b then b else a),
   (.imaxW32, fun a b _ => if a < b then b else a),
   (.imac, fun a b d => BitVec.ofNat 32 (a.toNat * b.toNat + d.toNat)),
   (.and, fun a b _ => a &&& b),
   (.or, fun a b _ => a ||| b),
   (.xor, fun a b _ => a ^^^ b),
   (.popc, fun a b _ => BitVec.ofNat 32 ((List.range 32).filter (fun k => a.getLsbD k && b.getLsbD k)).length),
   (.clz, fun a _ _ => BitVec.ofNat 32 ((List.range 32).takeWhile (fun k => !a.getMsbD k)).length),
   (.shl, fun a b _ => shiftLeft a b.toNat), (.shrW32, fun a b _ => shiftRightW a b.toNat),
   (.shrI32, fun a b _ => shiftRightI a b.toNat)]

/-- VI instructions (Table 8-2), of A and the immediate; shifts read it as a count. -/
def viInteger : List ((Hdr → FVI → Instr) × (Word → Word → Word)) :=
  [(.iaddi, fun a i => BitVec.ofNat 32 (a.toNat + i.toNat)), (.andi, fun a i => a &&& i), (.ori, fun a i => a ||| i),
   (.xori, fun a i => a ^^^ i), (.movi, fun _ i => i), (.shli, fun a i => shiftLeft a i.toNat),
   (.shriW32, fun a i => shiftRightW a i.toNat), (.shriI32, fun a i => shiftRightI a i.toNat)]

/-- VD integer instructions (R187): the exact result of D and B read at the type. -/
def vdIntegers : List ((Hdr → FVD → Instr) × (Int → Int → Int)) :=
  [(.iaddVd, fun x y => x + y), (.isubVd, fun x y => x - y), (.imulVd, fun x y => x * y),
   (.iminVd, fun x y => if x < y then x else y), (.imaxVd, fun x y => if x < y then y else x)]

/-- VD shifts (R183, R187): the exact result of D and the count. -/
def vdShifts : List ((Hdr → FVD → Instr) × (Int → Nat → Int)) :=
  [(.shlVd, fun x y => x * 2 ^ y), (.shrVd, fun x y => x / 2 ^ y)]

/-- D and B read at the type of a VD word (R187). -/
def vdDest (o : FVD) (r : Reads) : Int :=
  typed (typeSigned o.t) (typeWidth o.t) (if typeWidth o.t = 64 then (r.v64 o.d).toNat else (r.v o.d).toNat)
def vdSource (o : FVD) (r : Reads) : Int :=
  typed (typeSigned o.t) (typeWidth o.t) (if typeWidth o.t = 64 then (r.b64 o.b).toNat else (r.b o.b).toNat)

/-- The exact result clamped with .SAT, put in D (R187). -/
def vdPut (o : FVD) (e : Int) (q : Regs) : Regs :=
  putTyped (typeSigned o.t) (typeWidth o.t) o.d
    (if o.m.getLsbD 1 then clampTo (typeSigned o.t) (typeWidth o.t) e else e) q

/-- Table 8-3: what ICVT leaves in D. -/
def icvtPut (o : FVD) (b : Word) (q : Regs) : Regs :=
  let d := o.d.toNat
  match o.t.toNat, o.m.getLsbD 1 with
  | 0, false => q.set d ((b.setWidth 8).signExtend 32)
  | 1, false => q.set d ((b.setWidth 16).signExtend 32)
  | 4, false => q.set d ((b.setWidth 8).setWidth 32)
  | 5, false => q.set d ((b.setWidth 16).setWidth 32)
  | 0, true => q.set d (BitVec.ofInt 32 (clampTo true 8 b.toInt))
  | 1, true => q.set d (BitVec.ofInt 32 (clampTo true 16 b.toInt))
  | 4, true => q.set d (BitVec.ofInt 32 (clampTo false 8 b.toInt))
  | 5, true => q.set d (BitVec.ofInt 32 (clampTo false 16 b.toInt))
  | 2, true => q.set d (BitVec.ofNat 32 (min b.toNat 0x7FFFFFFF))
  | 6, true => q.set d (if b.toInt < 0 then 0 else b)
  | 3, _ => q.set64 d (b.signExtend 64)
  | 7, _ => q.set64 d (b.setWidth 64)
  | 9, _ => q.set64 d (b.setWidth 64)
  | _, _ => q.set d b

/-- Flags of a − b (Table 3-2). -/
def differenceFlags {n : Nat} (a b : BitVec n) : Flags :=
  ⟨(a - b).msb, decide (a = b), decide (b ≤ a), decide ((a - b).toInt ≠ a.toInt - b.toInt)⟩

/-- A source of a UR word: the sign-extended literal for 127, else the uniform register (R166, R190). -/
def uniformSource (i : BitVec 7) (lit : Option Word) (r : Reads) : DWord :=
  if i = 127 then (lit.getD 0).signExtend 64 else r.uni.get i.toNat

/-- Table 8-4. -/
def uniformOps : List ((Hdr → FUR → Instr) × (DWord → DWord → DWord)) :=
  [(.sadd, fun a b => BitVec.ofNat 64 (a.toNat + b.toNat)), (.ssub, fun a b => BitVec.ofInt 64 (a.toInt - b.toInt)),
   (.smul, fun a b => BitVec.ofNat 64 (a.toNat * b.toNat)), (.sand, fun a b => a &&& b), (.sor, fun a b => a ||| b),
   (.sxor, fun a b => a ^^^ b), (.sshl, fun a b => if 64 ≤ b.toNat then 0 else BitVec.ofNat 64 (a.toNat * 2 ^ b.toNat)),
   (.sshr, fun a b => if 64 ≤ b.toNat then 0 else BitVec.ofNat 64 (a.toNat / 2 ^ b.toNat)), (.smov, fun a _ => a)]

/-- A uniform register written; the write time of a token it held goes with the value (R73). -/
def putUniform (d : BitVec 7) (v : DWord) (x : Sheaf) : Sheaf :=
  { x with uni := x.uni.set d.toNat v, tokenW := serase x.tokenW d.toNat }

/-- The conditions a word raises in the threads in which it would take effect, by what each reads. -/
def conditions (iss : Issue) (t : Team) (g : BitVec 3) (c : Reads → Option (Nat × DWord)) : List TrapRec :=
  (effective iss t g).filterMap (fun k => (c (reads iss t k)).map (fun x => ⟨k, x.1, x.2, iss.pc, false⟩))

/-- s where the word has raised its conditions and has done f to the team in each other thread in which it takes effect, in
ascending TID; nothing else has changed. -/
def lanesDo (s : State) (iss : Issue) (t : Team) (g : BitVec 3) (c : Reads → Option (Nat × DWord))
    (f : Reads → Team → Team) : State :=
  { s with
    teams := s.teams.map (fun u => if u.id = iss.team then
      (effective iss t g).foldl (fun u k => if (c (reads iss t k)).isNone then f (reads iss t k) u else u) u else u),
    issue := some { iss with trapped := iss.trapped ++ conditions iss t g c } }

/-- A team with one home sheaf changed. -/
def onSheaf (h : Nat) (f : Sheaf → Sheaf) (u : Team) : Team :=
  { u with sheaves := u.sheaves.mapIdx (fun i x => if i = h then f x else x) }

/-- Conditions of a word that a home sheaf executes, in its lowest issuing thread. -/
def sheafConditions (iss : Issue) (t : Team) (c : Reads → Option (Nat × DWord)) : List TrapRec :=
  ((List.range t.sheaves.length).filter (executes iss t)).filterMap (fun h =>
    (c (sheafReads iss t h)).map (fun x => ⟨(sheafReads iss t h).tid, x.1, x.2, iss.pc, false⟩))

/-- The active lanes of a cross-lane word, in ascending home lane (R195). -/
def active (iss : Issue) (t : Team) (g : BitVec 3) : List Reads := (effective iss t g).map (reads iss t)

/-- The lane a shuffle names, of lane i and y (R196). -/
def shuffles : List ((Hdr → FV3 → Instr) × (Nat → Nat → Int)) :=
  [(.xselIdx, fun _ y => y), (.xselUp, fun i y => (i : Int) - y), (.xselDown, fun i y => (i : Int) + y),
   (.xselXor, fun i y => ((i ^^^ y : Nat) : Int))]

/-- A of the lane named when it is active, else the lane's own (R196). -/
def shuffled (w : Nat) (act : List Reads) (a : BitVec 6) (l : Int) (own : Reads) : Word :=
  if 0 ≤ l ∧ l < w then
    match act.find? (fun x => decide (x.tid % w = l.toNat)) with
    | some x => x.v a
    | none => own.v a
  else own.v a

/-- Every cross-lane word (R195, R216). -/
def crossLane : Instr → Bool
  | .xselIdx _ _ => true
  | .xselUp _ _ => true
  | .xselDown _ _ => true
  | .xselXor _ _ => true
  | .topk _ _ => true
  | .xany _ _ => true
  | .xall _ _ => true
  | .xmask _ _ => true
  | .xredAdd _ _ => true
  | .xredMin _ _ => true
  | .xredMax _ _ => true
  | .xscanAdd _ _ => true
  | .xscanExAdd _ _ => true
  | .stb _ _ => true
  | _ => false

/-- One combination of a reduction or scan (R105, R106, R198). -/
def sheafOp (op : XOp) (o : FVD) (a b : Nat) : Nat :=
  if o.t.toNat < 8 then
    match op with
    | .add => (a + b) % 2 ^ typeWidth o.t
    | .min => if typed (typeSigned o.t) (typeWidth o.t) b < typed (typeSigned o.t) (typeWidth o.t) a then b else a
    | .max => if typed (typeSigned o.t) (typeWidth o.t) a < typed (typeSigned o.t) (typeWidth o.t) b then b else a
  else
    match op with
    | .add => faddBits (fmtOf o.t) (modeOf o.m) a b
    | .min => fminBits (fmtOf o.t) a b
    | .max => fmaxBits (fmtOf o.t) a b

/-- B and D of a reduction as bits of the type. -/
def sheafSource (o : FVD) (r : Reads) : Nat :=
  if is64 o.t then (r.b64 o.b).toNat else (r.b o.b).toNat % 2 ^ (if o.t.toNat < 8 then 32 else (fmtOf o.t).width)
def sheafDest (o : FVD) (r : Reads) : Nat :=
  if is64 o.t then (r.v64 o.d).toNat else (r.v o.d).toNat % 2 ^ (if o.t.toNat < 8 then 32 else (fmtOf o.t).width)
def sheafPut (o : FVD) (v : Nat) (q : Regs) : Regs :=
  if is64 o.t then q.set64 o.d.toNat (BitVec.ofNat 64 v) else q.set o.d.toNat (BitVec.ofNat 32 v)

/-- The reduction of R105: at each level x(i) becomes op(x(2i), x(2i + 1)), where a missing operand leaves the other. -/
def treeOf (op : Nat → Nat → Nat) : Nat → (Nat → Option Nat) → Option Nat
  | 0, x => x 0
  | n + 1, x => treeOf op n (fun i => combine2 op (x (2 * i)) (x (2 * i + 1)))

def reductions : List ((Hdr → FVD → Instr) × XOp) := [(.xredAdd, .add), (.xredMin, .min), (.xredMax, .max)]

/-! ### Floats -/

/-- A bit pattern of a layout: whether it is a NaN (Table 4-2). -/
def nanBitsOf (f : FFmt) (b : Nat) : Bool := decide (f.infBits < b % f.signBit)

/-- A pattern that is no NaN as a place on the line of its layout: both zeros at 0 (R242), or −0 below +0 (R241). -/
def floatPlace (f : FFmt) (b : Nat) : Int := if f.signBit ≤ b then -((b % f.signBit : Nat) : Int) else (b : Int)
def zeroPlace (f : FFmt) (b : Nat) : Int := if f.signBit ≤ b then -((b % f.signBit : Nat) : Int) - 1 else (b : Int)

/-- Table 3-2, the row of FCMP. -/
def compareFlags (f : FFmt) (a b : Nat) : Flags :=
  if nanBitsOf f a ∨ nanBitsOf f b then ⟨false, false, false, true⟩
  else ⟨decide (floatPlace f a < floatPlace f b), decide (floatPlace f a = floatPlace f b),
    decide (floatPlace f b ≤ floatPlace f a), false⟩

/-- R241: the choice between two patterns; `less` says which order of places takes B. -/
def chosen (f : FFmt) (less : Int → Int → Bool) (a b : Nat) : Nat :=
  if nanBitsOf f a then (if nanBitsOf f b then f.nanBits else b)
  else if nanBitsOf f b then a
  else if less (zeroPlace f b) (zeroPlace f a) then b else a

/-- The key of TOPK (R199): a place on the line of binary32 with both zeros at 0, and every NaN at one place below −∞. -/
def topkPlace (b : Nat) : Int := if nanBitsOf f32 b then -(2 ^ 32) else floatPlace f32 b

def fminOf (f : FFmt) (a b : Nat) : Nat := chosen f (fun x y => decide (x < y)) a b
def fmaxOf (f : FFmt) (a b : Nat) : Nat := chosen f (fun x y => decide (y < x)) a b

/-- The exact value of two or three patterns, rounded once to the layout (R90, R91). -/
def addOf (f : FFmt) (m : Mode) (a b : Nat) : Nat := pack f m (Sys2Proof.Machine.Num.add m (unpack f a) (unpack f b))
def subOf (f : FFmt) (m : Mode) (a b : Nat) : Nat := pack f m (Sys2Proof.Machine.Num.add m (unpack f a) (unpack f b).negate)
def mulOf (f : FFmt) (m : Mode) (a b : Nat) : Nat := pack f m (Sys2Proof.Machine.Num.mul (unpack f a) (unpack f b))
def macOf (f : FFmt) (m : Mode) (a b d : Nat) : Nat :=
  pack f m (Sys2Proof.Machine.Num.add m (Sys2Proof.Machine.Num.mul (unpack f a) (unpack f b)) (unpack f d))

/-- Both halves of a packed word (R66, R238). -/
def halves (op : Nat → Nat → Nat → Nat) (a b d : Word) : Word :=
  BitVec.ofNat 16 (op (a.extractLsb' 16 16).toNat (b.extractLsb' 16 16).toNat (d.extractLsb' 16 16).toNat)
    ++ BitVec.ofNat 16 (op (a.extractLsb' 0 16).toNat (b.extractLsb' 0 16).toNat (d.extractLsb' 0 16).toNat)

/-- R239: the V3 float instructions, of A, B and the old D. -/
def v3Float : List ((Hdr → FV3 → Instr) × (Word → Word → Word → Word)) :=
  [(.faddF32, fun a b _ => BitVec.ofNat 32 (addOf f32 .rn a.toNat b.toNat)),
   (.fsubF32, fun a b _ => BitVec.ofNat 32 (subOf f32 .rn a.toNat b.toNat)),
   (.fmulF32, fun a b _ => BitVec.ofNat 32 (mulOf f32 .rn a.toNat b.toNat)),
   (.fmacF32, fun a b d => BitVec.ofNat 32 (macOf f32 .rn a.toNat b.toNat d.toNat)),
   (.fminF32, fun a b _ => BitVec.ofNat 32 (fminOf f32 a.toNat b.toNat)),
   (.fmaxF32, fun a b _ => BitVec.ofNat 32 (fmaxOf f32 a.toNat b.toNat)),
   (.faddF16x2, halves (fun a b _ => addOf f16 .rn a b)), (.fmulF16x2, halves (fun a b _ => mulOf f16 .rn a b)),
   (.fmacF16x2, halves (macOf f16 .rn)), (.faddBf16x2, halves (fun a b _ => addOf bf16 .rn a b)),
   (.fmulBf16x2, halves (fun a b _ => mulOf bf16 .rn a b)), (.fmacBf16x2, halves (macOf bf16 .rn))]

/-- An operation at a float type code (Table 7-5): .F32; .F16 and .BF16 of bits [15:0]; both halves of .F16x2 and .BF16x2. -/
def atFloat (t : BitVec 4) (op : FFmt → Nat → Nat → Nat) (a b : Word) : Word :=
  match t.toNat with
  | 10 => BitVec.ofNat 32 (op f32 a.toNat b.toNat)
  | 11 => BitVec.ofNat 32 (op f16 (a.extractLsb' 0 16).toNat (b.extractLsb' 0 16).toNat)
  | 12 => BitVec.ofNat 32 (op bf16 (a.extractLsb' 0 16).toNat (b.extractLsb' 0 16).toNat)
  | 13 => halves (fun x y _ => op f16 x y) a b 0
  | _ => halves (fun x y _ => op bf16 x y) a b 0

/-- R240 and R244: fixed-latency VD float instructions, of D and B, at a layout and the rounding of the word. -/
def vdFloat : List ((Hdr → FVD → Instr) × (FFmt → Mode → Nat → Nat → Nat)) :=
  [(.fadd, addOf), (.fsub, subOf), (.fmul, mulOf), (.fmin, fun f _ => fminOf f), (.fmax, fun f _ => fmaxOf f),
   (.frnd, fun f m _ b => frndBits f m b)]

/-- R240 and R243: variable-latency VD float instructions. -/
def vdFloatSlow : List ((Hdr → FVD → Instr) × (FFmt → Mode → Nat → Nat → Nat)) :=
  [(.fdiv, fun f m a b => fdivBits f m a b), (.fsqrt, fun f m _ b => fsqrtBits f m b),
   (.frcp, fun f m _ b => frcpBits f m b), (.frsq, fun f _ _ b => frsqBits f b), (.fexp2, fun f _ _ b => fexp2Bits f b),
   (.flog2, fun f _ _ b => flog2Bits f b), (.fsin, fun f _ _ b => trig f false b), (.fcos, fun f _ _ b => trig f true b),
   (.ftanh, fun f _ _ b => ftanhBits f b)]

/-- A finite magnitude of a layout, or that of the pattern of infinity read as the next binade: mantissa and exponent. -/
def magnitude (f : FFmt) (b : Nat) : Nat × Int :=
  if b < 2 ^ f.fb then (b, 1 - (f.bias : Int) - f.fb)
  else (2 ^ f.fb + b % 2 ^ f.fb, ((b / 2 ^ f.fb : Nat) : Int) - f.bias - f.fb)

/-- m × 2^e ≤ (n / d) × 2^k, for d above 0. -/
def atMost (m : Nat) (e : Int) (n d : Nat) (k : Int) : Prop :=
  m * d * 2 ^ (e - min e k).toNat ≤ n * 2 ^ (k - min e k).toNat

/-- (n / d) × 2^k ≤ m × 2^e, for d above 0. -/
def atLeast (m : Nat) (e : Int) (n d : Nat) (k : Int) : Prop :=
  n * 2 ^ (k - min e k).toNat ≤ m * d * 2 ^ (e - min e k).toNat

/-- The largest finite pattern of a layout that is no larger than a positive number: the next finite one is larger. -/
def floorPattern (f : FFmt) (n d : Nat) (k : Int) (b : Nat) : Prop :=
  b < f.infBits ∧ atMost (magnitude f b).1 (magnitude f b).2 n d k ∧
    (b + 1 < f.infBits → ¬ atMost (magnitude f (b + 1)).1 (magnitude f (b + 1)).2 n d k)

/-- 2^e, and a distance, as numbers. -/
def power2 (e : Int) : Rat := if 0 ≤ e then ((2 ^ e.toNat : Nat) : Rat) else 1 / ((2 ^ (-e).toNat : Nat) : Rat)
def distance (a b : Rat) : Rat := if a < b then b - a else a - b

/-- The value of a magnitude of a layout (Table 4-2), as a number. -/
def valueOf (f : FFmt) (b : Nat) : Rat := ((magnitude f b).1 : Rat) * power2 (magnitude f b).2

/-- A positive real number y rounded once to a layout in a mode (R90), y given by a function that is negative below it, 0 at it
and positive above it: with b the largest finite pattern that is not above y, the result is b where y is on it, else b or the next
pattern as the mode says, to nearest by their midpoint with ties to the even one. The sign is that of the number. -/
def roundedBy (f : FFmt) (mode : Mode) (neg : Bool) (v : Rat → Rat) (r : Nat) : Prop :=
  ∀ b, b < f.infBits → v (valueOf f b) ≤ 0 → (b + 1 < f.infBits → 0 < v (valueOf f (b + 1))) →
    (let mid := v ((valueOf f b + valueOf f (b + 1)) / 2)
     r = signed f neg (if v (valueOf f b) = 0 then b else match mode with
       | .rz => b
       | .ru => if neg then b else b + 1
       | .rd => if neg then b + 1 else b
       | .rn => if mid < 0 then b + 1 else if 0 < mid then b else if b % 2 = 0 then b else b + 1))

/-- The quotient of two patterns (R240), the root, the reciprocal and the reciprocal root of one (R243, Table 10-2): the exact value
rounded once, and the special values. -/
def quotientOf (f : FFmt) (mode : Mode) (a b r : Nat) : Prop :=
  let x := a % f.signBit
  let y := b % f.signBit
  let neg := decide (f.signBit ≤ a) != decide (f.signBit ≤ b)
  if f.infBits < x ∨ f.infBits < y ∨ (x = f.infBits ∧ y = f.infBits) ∨ (x = 0 ∧ y = 0) then r = f.nanBits
  else if x = f.infBits ∨ y = 0 then r = signed f neg f.infBits
  else if x = 0 ∨ y = f.infBits then r = signed f neg 0
  else roundedBy f mode neg (fun q => q - valueOf f x / valueOf f y) r
def rootIs (f : FFmt) (mode : Mode) (a r : Nat) : Prop :=
  let x := a % f.signBit
  if f.infBits < x ∨ (f.signBit ≤ a ∧ x ≠ 0) then r = f.nanBits
  else if x = 0 ∨ x = f.infBits then r = a
  else roundedBy f mode false (fun q => q * q - valueOf f x) r
def reciprocalIs (f : FFmt) (mode : Mode) (a r : Nat) : Prop :=
  let x := a % f.signBit
  let neg := decide (f.signBit ≤ a)
  if f.infBits < x then r = f.nanBits
  else if x = 0 then r = signed f neg f.infBits
  else if x = f.infBits then r = signed f neg 0
  else roundedBy f mode neg (fun q => q - 1 / valueOf f x) r
def reciprocalRootIs (f : FFmt) (a r : Nat) : Prop :=
  let x := a % f.signBit
  if f.infBits < x ∨ (f.signBit ≤ a ∧ x ≠ 0) then r = f.nanBits
  else if x = 0 then r = signed f (decide (f.signBit ≤ a)) f.infBits
  else if x = f.infBits then r = 0
  else roundedBy f .rn false (fun q => q * q * valueOf f x - 1) r

/-! ### DX blocks (R95 to R101) -/

/-- rne of R99: n is the integer nearest to q, the even one of two. -/
def nearestEven (q : Rat) (n : Nat) : Prop := distance q n < 1 / 2 ∨ (distance q n = 1 / 2 ∧ n % 2 = 0)

/-- Largest magnitude and the step 2^(e − 127 − shift) of a field of DX8, or of DX4. -/
def dxLargest (dx4 : Bool) : Nat := if dx4 then 3 else 63
def dxStep (dx4 : Bool) (e : Nat) : Rat := power2 ((e : Int) - 127 - (if dx4 then 1 else 5))

/-- The header fields that encode_dx gives to a block whose largest magnitude is a (R99). -/
def headerFields (dx4 : Bool) (gap : Nat) (a : Rat) (e0 e1 : Nat) : Prop :=
  (a = 0 → e0 = 0)
  ∧ (a ≠ 0 → ∃ (l : Int) (n : Nat), power2 l ≤ a ∧ a < power2 (l + 1) ∧
      (let e : Nat := (min (max (l + 127) 0) 254).toNat
       nearestEven (a / dxStep dx4 e) n ∧ e0 = (if e < 254 ∧ dxLargest dx4 < n then e + 1 else e)))
  ∧ e1 = e0 - gap

/-- The element that encode_dx gives a value of magnitude x under two fields (R99): selector, sign, magnitude. -/
def elementIs (dx4 : Bool) (e0 e1 : Nat) (neg : Bool) (x : Rat) (sel sgn m : Nat) : Prop :=
  ∃ n0 m1 : Nat, nearestEven (x / dxStep dx4 e0) n0 ∧ nearestEven (x / dxStep dx4 e1) m1 ∧
    (let m0 := min n0 (dxLargest dx4)
     if m1 ≤ dxLargest dx4 ∧ distance x (m1 * dxStep dx4 e1) < distance x (m0 * dxStep dx4 e0) then sel = 1 ∧ m = m1 else sel = 0 ∧ m = m0)
    ∧ sgn = (if m ≠ 0 ∧ neg = true then 1 else 0)

/-- The code of an element (Table 4-3). -/
def codeOf (dx4 : Bool) (sel sgn m : Nat) : Nat := if dx4 then 8 * sel + 4 * sgn + m else 128 * sel + 64 * sgn + m

/-- A binary32 pattern that is finite, its magnitude and its sign. -/
def finite32 (b : Nat) : Bool := decide (b % 2 ^ 31 < 0x7F800000)
def magnitude32 (b : Nat) : Rat := valueOf f32 (b % 2 ^ 31)

/-! ### Chained groups -/

/-- The words of a group with those of the control pipe last (R158). -/
def controlLast (ws : List Placed) : List Placed :=
  ws.filter (fun w => decide (pipeOf (opMajor w.i) ≠ some .control)) ++ ws.filter (fun w => decide (pipeOf (opMajor w.i) = some .control))

/-- Words taken one after another, each at its own PC. -/
def inSequence : List Placed → State → State
  | [], v => v
  | w :: rest, v =>
    let at_ : State := { v with issue := v.issue.map (fun j => { j with pc := w.pc }) }
    match exec w.i at_ with
    | .next u => inSequence rest u
    | _ => inSequence rest at_

/-! ### Memory words -/

/-- w is s but for what reads of tables leave behind: the entries held in caches, the memory lines in slices and the rows activated
(R345, R381, R382). -/
def Looked (s w : State) : Prop :=
  w = { s with stale := w.stale, freeCtr := w.freeCtr, dies := w.dies }
  ∧ w.dies.map (fun D => { D with slice := [], acts := [] }) = s.dies.map (fun D => { D with slice := [], acts := [] })

/-- Requests that one word makes for bytes of one 64-byte line share an entry of the core's collector, of at most 64 requests, where
none waits there for that line yet (R123). -/
def shareEntries (s : State) (as : List Acc) : Prop :=
  (∀ a ∈ as, a.tid < 64) → ∀ a ∈ as, ∀ b ∈ as, a.route = b.route → a.loc / 64 = b.loc / 64 →
    (∀ c ∈ s.accs, c.stage = .waiting → ¬(c.die = a.die ∧ c.core = a.core ∧ c.route = a.route ∧ c.loc / 64 = a.loc / 64)) →
    a.entry = b.entry

/-- A route on this device (R138). -/
def onDevice : Route → Bool
  | .remote _ _ => false
  | _ => true

/-- Table 3-4: the special register of a number in thread y of team t. In the other words of a completed rendezvous' group the
core, PT and CYC are those of its arrival (R195). -/
def specialOf (s : State) (completing : Bool) (t : Team) (y : Thread) (n : Nat) : Nat :=
  let widths := if t.node.isSome then [t.tbits] else (List.range 6).map (fun k =>
    ((((s.launch? t.launch).map (fun (l : Launch) => l.words.getD 11 0)).getD 0).extractLsb' (6 * k) 6).toNat)
  let field (k : Nat) : Nat := y.wid / 2 ^ (widths.take k).sum % 2 ^ (widths.getD k 0)
  let at_ : Option Arrival := match completing, y.wait with | true, .rendezvous a => some a | _, _ => none
  [y.tid, y.tid % 64, y.tid % t.width, y.tid / t.width, t.number, t.cohort, field 0, field 1, field 2, field 3, field 4, field 5,
    at_.elim t.core Arrival.core, t.vdie, at_.elim y.pt Arrival.pt, at_.elim (s.cycle - (s.die t.die).since) Arrival.cyc].getD n 0

/-- How many threads below k the word takes effect in. -/
def earlier (iss : Issue) (t : Team) (g : BitVec 3) (k : Nat) : Nat := ((List.range k).filter (takesEffect iss t g)).length

/-- Table 6-3: PT before an access at a scope. -/
def orderedPt (scope : Nat) (acquire release : Bool) (x : Thread) : Nat :=
  if scope < 4 then x.pt else (if release then max x.pt x.lct else x.pt) + (if acquire then 1 else 0)

/-- The access of thread k as the word makes it, ordered at a scope. -/
def accessOf (s : State) (iss : Issue) (t : Team) (k : Nat) (kind : AccKind) (x : Target) (size scope : Nat)
    (acquire release : Bool) : Acc :=
  { s.accOf iss t k kind x size with
    scope := scope, acquire := acquire, release := release,
    p := ((s.thread? iss.team k).map (orderedPt scope acquire release)).getD 0 }

/-- Every lane's address passes the checks of R211 for a store, on this device, at a plain page; x is where it leads. -/
def StoresReach (s : State) (iss : Issue) (t : Team) (g : BitVec 3) (kind : AKind) (ptr : Nat) (disp : Reads → Int) (size : Nat)
    (x : Nat → Target) : Prop :=
  ∀ k ∈ effective iss t g,
    s.target t.ctx (s.slotOf t) ((reads iss t k).s ptr) (disp (reads iss t k)) size size kind = .ok (x k)
    ∧ onDevice (x k).route = true ∧ (x k).format = none ∧ s.errorAt (x k).loc size [] = none

/-- Every lane's address passes the checks of R211 for a load on this device; x is where it leads, sh how its page is read. -/
def LoadsReach (s : State) (iss : Issue) (t : Team) (o : FM) (size : Nat) (plain : Shape) (x : Nat → Target)
    (sh : Nat → Shape × Nat) : Prop :=
  ∀ k ∈ effective iss t o.g,
    s.target t.ctx (s.slotOf t) ((reads iss t k).s o.p.toNat) (mDisp o size (reads iss t k)) size size .load = .ok (x k)
    ∧ onDevice (x k).route = true ∧ loadShape (x k) size plain o.d ((reads iss t k).s o.p.toNat) = .ok (sh k)
    ∧ s.errorAt (x k).loc size (shapeLocs (sh k).1) = none

/-- Every lane's address leads, past the checks, to another device (R138, R374); x is where, w the answer held for it, if any. -/
def RemoteReach (s : State) (iss : Issue) (t : Team) (g : BitVec 3) (kind : AKind) (ptr : Nat) (disp : Reads → Int) (size : Nat)
    (x : Nat → Target) (w : Nat → Option Answer) : Prop :=
  ∀ k ∈ effective iss t g,
    s.target t.ctx (s.slotOf t) ((reads iss t k).s ptr) (disp (reads iss t k)) size size kind = .ok (x k)
    ∧ onDevice (x k).route = false ∧ s.answerFor iss k = w k

/-- s where those threads ask before they go past the group (R375), and nothing else. -/
def asking (s : State) (iss : Issue) (t : Team) (g : BitVec 3) (a : Nat → Acc) : State :=
  { s with issue := some { iss with held := iss.held ++ (effective iss t g).map a } }

/-- The lanes whose requests have been done (R375): PT ordered, the registers of d with what the answer brings, or none. -/
def answered (s : State) (iss : Issue) (t : Team) (g : BitVec 3) (scope : Nat) (acquire release : Bool)
    (brings : Option (Nat → List (Nat × Word))) : State :=
  { threadsBecome s iss.team (takesEffect iss t g) (fun k y => { y with
      pt := orderedPt scope acquire release y,
      pend := match brings with
        | some f => y.pend ++ [⟨s.serial + earlier iss t g k, f k, true, s.cycle, false, false⟩]
        | none => y.pend }) with
    serial := match brings with | some _ => s.serial + (effective iss t g).length | none => s.serial }

/-- The team has written, where the word takes effect at all. -/
def nowWritten (s : State) (iss : Issue) (t : Team) (g : BitVec 3) : State :=
  { s with teams := s.teams.map (fun u => if u.id = iss.team ∧ effective iss t g ≠ [] then { u with written := true } else u) }

/-- The aligned units of a load (R129): offset, bytes, and the registers of the destination each fills. -/
def loadUnits (size : Nat) (dest : List Nat) : List (Nat × Nat × List Nat) :=
  if size = 16 then [(0, 8, dest.take 2), (8, 8, dest.drop 2)] else [(0, size, dest)]

def unitCount (size : Nat) : Nat := if size = 16 then 2 else 1

/-- The loads: size and how a plain page is read (Table 9-2). -/
def globalLoads : List ((Hdr → FM → Instr) × Nat × Shape) :=
  [(.ldgW8, 1, .zero), (.ldgI8, 1, .sign), (.ldgW16, 2, .zero), (.ldgI16, 2, .sign), (.ldgB32, 4, .words), (.ldgB64, 8, .words),
   (.ldgB128, 16, .words)]

/-- The stores and their sizes (Table 9-3). -/
def globalStores : List ((Hdr → FM → Instr) × Nat) :=
  [(.stgB8, 1), (.stgB16, 2), (.stgB32, 4), (.stgB64, 8), (.stgB128, 16)]

/-- Atomics: type, whether the old value returns, whether the sum is exact (R221). -/
def atomics : List ((Hdr → FMA → Instr) × Nat × Bool × Bool) :=
  [(.atomI32, 0, true, false), (.atomW32, 1, true, false), (.atomI64, 2, true, false), (.atomW64, 3, true, false),
   (.atomF32, 4, true, false), (.redI32, 0, false, false), (.redW32, 1, false, false), (.redI64, 2, false, false),
   (.redW64, 3, false, false), (.redF32, 4, false, false), (.redF32Unord, 4, false, true)]

/-- Table 9-5: what an atomic does, of the operands in registers D to D + 3. -/
def atomKind (o : FMA) (typ : Nat) (returns unord : Bool) (r : Reads) : AccKind :=
  let a : DWord := if typ = 2 ∨ typ = 3 then r.v64 o.d else (r.v o.d).setWidth 64
  let b : DWord := if typ = 2 ∨ typ = 3 then pairWord (r.regs.get (o.d.toNat + 2)) (r.regs.get (o.d.toNat + 3))
    else (r.regs.get (o.d.toNat + 1)).setWidth 64
  if unord then .unord (r.v o.d) else if returns then .atomic o.op.toNat typ a b else .reduce o.op.toNat typ a

/-- The groups of 32 home lanes of an executing home sheaf that have an active lane, with the lowest such lane (R216). -/
def stbGroups (iss : Issue) (t : Team) (g : BitVec 3) : List (Nat × Nat × Nat) :=
  (((List.range t.sheaves.length).filter (fun h =>
      (List.range t.threads.length).any (fun k => iss.tids.contains k && k / t.width == h))).flatMap (fun h =>
    (if t.width = 64 then [0, 1] else [0]).filterMap (fun j =>
      ((effective iss t g).find? (fun k => k / t.width == h && (t.width != 64 || k % t.width / 32 == j))).map
        (fun k => (h, j, k)))))

/-! ### Words whose lanes act in turn -/

/-- For some threads in turn, each on the state the ones before it left: a word raises its condition, or else acts. -/
def inTurn (iss : Issue) (t : Team) (ks : List Nat) (c : Reads → State → Option (Nat × DWord)) (f : Reads → State → State)
    (s : State) : State :=
  ks.foldl (fun u k => match c (reads iss t k) u with
    | some x => u.raise k x.1 x.2
    | none => f (reads iss t k) u) s

/-- The first condition of a list that holds, with its code; its aux value is 0. -/
def firstOf (cs : List (Bool × Nat)) : Option (Nat × DWord) := (cs.find? Prod.fst).map (fun x => (x.2, 0))

/-- The 32 values of a group's block (R216): r = 32 / min(W, 32) registers of each of its lanes, inactive and ended ones too. -/
def blockValues (o : FM) (iss : Issue) (t : Team) (h j : Nat) : List Word :=
  (List.range 32).map (fun i =>
    (reads iss t (h * t.width + 32 * j + i / (32 / min t.width 32))).regs.get (4 * (o.d.toNat / 4) + i % (32 / min t.width 32)))

/-- What encode_dx makes of some values (R99): a header and their element codes. -/
def encodes (dx4 : Bool) (gap : Nat) (xs : List Word) (header : Nat) (codes : List Nat) : Prop :=
  codes.length = xs.length ∧ (if xs.all (fun x => finite32 x.toNat) = true then
    ∃ a e0 e1, (∃ x ∈ xs, magnitude32 x.toNat = a) ∧ (∀ x ∈ xs, magnitude32 x.toNat ≤ a) ∧ headerFields dx4 gap a e0 e1
      ∧ header = 256 * e1 + e0
      ∧ ∀ (i : Nat) (x : Word), xs[i]? = some x → ∃ sel sgn m, elementIs dx4 e0 e1 x.msb (magnitude32 x.toNat) sel sgn m
          ∧ codes[i]? = some (codeOf dx4 sel sgn m)
  else header = 0xFFFF ∧ ∀ c ∈ codes, c = 0)

/-- Blocks of a DX page of a size, and the bytes of its data region (Table 4-5). -/
def pageBlocks (dx4 : Bool) (size : Nat) : Nat := size / 65536 * (if dx4 then 3584 else 1920)
def pageData (dx4 : Bool) (size : Nat) : Nat := pageBlocks dx4 size * (if dx4 then 16 else 32)

/-- Electing threads (R227): the lowest guard-true thread of each issuing home sheaf, where nothing has stopped it. -/
def electing (iss : Issue) (t : Team) (g : BitVec 3) : List Nat :=
  ((List.range t.sheaves.length).filterMap (fun h => (List.range t.threads.length).find? (fun k =>
    iss.tids.contains k && k / t.width == h && (reads iss t k).guard g))).filter (fun k => !iss.suppressed.contains k)

/-- The lowest thread of each issuing home sheaf in which a word takes effect (R158, R248). -/
def acting (iss : Issue) (t : Team) (g : BitVec 3) : List Nat :=
  (List.range t.sheaves.length).filterMap (fun h => (effective iss t g).find? (fun k => k / t.width == h))

/-- The condition of a transfer's target (R159), for `lanesDo`. -/
def badJump (s : State) (t : Team) (target : Reads → BitVec 64) (r : Reads) : Option (Nat × DWord) :=
  (s.badTarget t r.tid (target r)).map (fun e => (e.code, e.aux))

/-- A branch's target: PC + 4 × disp (R169). -/
def displaced {n : Nat} (iss : Issue) (d : BitVec n) : BitVec 64 := iss.pc + 4#64 * d.signExtend 64

/-- A register's target, zero-extended (R201). -/
def inRegister (a : BitVec 6) (r : Reads) : BitVec 64 := (r.v a).setWidth 64

/-- The issue under way is left stalled: it is made again in a later cycle. -/
def Stalls (r : Result) : Prop := ∃ (v : State) (i : Issue), r = .next v ∧ v.issue = some i ∧ i.stalled = true

/-- A transfer's answer: one state where the slices serve the fetch of every lane's target; where one lane's is not served, the
issue stalls (R368, R369). -/
def Transfers (s : State) (iss : Issue) (t : Team) (g : BitVec 3) (target : Reads → BitVec 64) (done : State) (r : Result) : Prop :=
  ((∀ k ∈ effective iss t g, s.fetchFree t (target (reads iss t k)) = true) → r = .next done)
  ∧ ((∃ k ∈ effective iss t g, s.fetchFree t (target (reads iss t k)) = false) → Stalls r)

/-- The transfers of R201: a link, if any, then the next PC. -/
def jumps (s : State) (iss : Issue) (t : Team) (g : BitVec 3) (link : Option Nat) (target : Reads → BitVec 64) : State :=
  lanesDo s iss t g (badJump s t target) (fun r => onThread r.tid (fun x =>
    { x with pc := target r,
             regs := match link with | some d => x.regs.set d (iss.fall.extractLsb' 0 32) | none => x.regs }))

/-- A thread in the records of its home sheaf: E of slot k with it, or without it in the slots of a range. -/
def expecting (tid k : Nat) (f : Sheaf) : Sheaf :=
  { f with joins := f.joins.mapIdx (fun i j => if i = k then { j with e := insertNat tid j.e } else j) }
def released (tid lo hi : Nat) (f : Sheaf) : Sheaf :=
  { f with joins := f.joins.mapIdx (fun i j => if lo ≤ i ∧ i ≤ hi then j.remove tid else j) }

/-- A thread out of every record of its home sheaf. -/
def forgotten (tid : Nat) (f : Sheaf) : Sheaf := { f with joins := f.joins.map (fun j => j.remove tid) }

/-- The thread is in E of slot k of its home sheaf, in a team as it stands. -/
def expected (u : Team) (h k tid : Nat) : Bool :=
  ((u.sheaves[h]?).bind (fun f => f.joins[k]?)).any (fun j => j.e.contains tid)

/-- An arrival at slot k (R43): the thread enters A and waits; the record's last update is the one of highest TID (R47). -/
def arriving (k : Nat) (rg : Bool) (r : Reads) (u : Team) : Team :=
  if expected u r.sheaf k r.tid then
    onThread r.tid (fun x => { x with wait := .join k }) (onSheaf r.sheaf (fun f =>
      { f with joins := f.joins.mapIdx (fun i j => if i = k then
          { j with a := insertNat r.tid j.a,
                   last := match j.last with
                     | some (m, b) => if m < r.tid then some (r.tid, rg) else some (m, b)
                     | none => some (r.tid, rg) } else j) }) u)
  else u

/-! #### Placement in lanes -/

/-- The lanes of a slot that hold no thread (R50). -/
def lanesFree (u : Team) (k : Nat) : List Nat :=
  (List.range u.width).filter (fun l => !u.threads.any (fun y => y.place == some (k, l)))

/-- A thread put in a lane, out of the pool. -/
def inSlot (x k l : Nat) : Team → Team := onThread x (fun y =>
  { y with place := some (k, l), wait := match y.wait with | .pooled _ => .none | w => w })

/-- place(S, T) of R52: first the threads whose home lane is free, then the others each in the lowest free lane. -/
def placing (k : Nat) (xs : List Nat) (u : Team) : Team :=
  xs.foldl (fun u x => match u.threads[x]?, lanesFree u k with
    | some y, l :: _ => if y.place = none then inSlot x k l u else u
    | _, _ => u)
  (xs.foldl (fun u x => if x % u.width ∈ lanesFree u k then inSlot x k (x % u.width) u else u) u)

/-- The threads pooled at a PC, ascending, and absorb(S, p) of R52. -/
def pooledAt (u : Team) (p : BitVec 64) : List Nat :=
  (u.threads.filter (fun y => (match y.wait with | .pooled _ => true | _ => false) && y.pc == p)).map Thread.tid
def absorbing (k : Nat) (p : BitVec 64) (u : Team) : Team := placing k ((pooledAt u p).take (lanesFree u k).length) u

/-- The groups of some threads by next PC, taken in ascending order: one of fewer than W/2 is pooled with its stamp where the pool has an
entry for its PC or one of its 16 free; the PCs of the others are kept (R44, R51, R52). -/
def dividing (tids : List Nat) (stamp : Nat) : List (BitVec 64) → Team → Team × List (BitVec 64)
  | [], u => (u, [])
  | p :: ps, u =>
    let g := tids.filter (fun x => (u.threads[x]?).any (fun y => y.pc == p))
    if u.width / 2 ≤ g.length ∨ (p ∉ u.poolPcs ∧ 16 ≤ u.poolPcs.length) then
      let q := dividing tids stamp ps u
      (q.1, p :: q.2)
    else dividing tids stamp ps (g.foldl (fun u x => onThread x (fun y => { y with wait := .pooled stamp, place := none }) u) u)

/-- The distinct next PCs of some threads, ascending. -/
def NextWords (u : Team) (tids : List Nat) (ps : List (BitVec 64)) : Prop :=
  ps.Pairwise (fun a b => a.toNat < b.toNat) ∧ ∀ p, p ∈ ps ↔ ∃ x ∈ tids, (u.threads[x]?).map Thread.pc = some p

/-- Step 3 of R44: a thread takes its home lane of a slot, and the thread that holds that lane the one it leaves. -/
def exchanging (h m : Nat) (u : Team) : Team :=
  match (u.threads[m]?).bind Thread.place with
  | none => u
  | some p => { u with threads := u.threads.mapIdx (fun i y =>
      if i = m then { y with place := some (h, m % u.width) }
      else if y.place = some (h, m % u.width) then { y with place := some p } else y) }

/-- The sequence of the placement actions of a cycle (R47). -/
def inTurnOf (a b : Action) : Prop :=
  let slot (a : Action) : Nat := match a with | .join h _ _ => h | .regroup e => e.slot
  slot a < slot b ∨ (slot a = slot b ∧ match a, b with
    | .join _ _ m, .join _ _ n => m ≤ n
    | .join _ _ _, .regroup _ => True
    | .regroup _, .join _ _ _ => False
    | .regroup e, .regroup f => e.key ≤ f.key)

/-- A field of the words of a descriptor, a parameter block or a parameter run. -/
def fieldOf (ws : List DWord) (k lo n : Nat) : Nat := ((ws.getD k 0).extractLsb' lo n).toNat

/-- The fields of a matrix parameter block (Table 10-6). -/
structure Block where
  op : Nat
  afmt : Nat
  bfmt : Nat
  cfmt : Nat
  zi : Bool
  ta : Bool
  layout : Bool
  kstep : Nat
  m : Nat
  n : Nat
  aoff : Nat
  astride : Nat
  bslot : Nat
  bspan : Nat
  ctile : Nat

def blockOf_ (b : List DWord) : Block :=
  { op := fieldOf b 0 0 8, afmt := fieldOf b 0 8 3, bfmt := fieldOf b 0 12 3, cfmt := fieldOf b 0 16 1,
    zi := (b.getD 0 0).getLsbD 17, ta := (b.getD 0 0).getLsbD 18, layout := (b.getD 0 0).getLsbD 19, kstep := fieldOf b 0 24 8,
    m := fieldOf b 0 32 9, n := fieldOf b 0 48 8, aoff := fieldOf b 1 0 32, astride := fieldOf b 1 32 32, bslot := fieldOf b 2 0 7,
    bspan := fieldOf b 2 8 3, ctile := fieldOf b 2 16 7 }

/-- Tiles of C by row and by column, the stored rows of A and the bytes of each (R250, Tables 10-6, 10-7). -/
def Block.tm (p : Block) : Nat := (p.m + 15) / 16
def Block.tn (p : Block) : Nat := (p.n + 15) / 16
def Block.rows (p : Block) : Nat := if p.ta then p.kstep else p.m
def Block.rowBytes (p : Block) : Nat :=
  if p.afmt ≤ 1 then 2 * (if p.ta then p.m else p.kstep) else if p.afmt = 4 then p.kstep else 128

/-- A reserved field that is not 0, or a value that Table 10-6 does not allow (R249). -/
def blockRefused (b : List DWord) : Bool :=
  let p := blockOf_ b
  (List.range (b.length - 3)).any (fun k => b.getD (k + 3) 0 != 0) || fieldOf b 2 23 41 != 0 || fieldOf b 2 11 5 != 0
  || fieldOf b 2 7 1 != 0 || fieldOf b 0 56 8 != 0 || fieldOf b 0 41 7 != 0 || fieldOf b 0 20 4 != 0 || fieldOf b 0 15 1 != 0
  || fieldOf b 0 11 1 != 0 || p.aoff % 64 != 0 || p.astride % 64 != 0 || p.n == 0 || decide (128 < p.n) || p.m == 0 || decide (256 < p.m)
  || decide (p.kstep < 8) || decide (64 < p.kstep) || p.kstep % 8 != 0 || (p.ta && decide (1 < p.afmt))
  || (if p.op = 0 then decide (3 < p.afmt) || decide (3 < p.bfmt) || p.cfmt != 0
      else decide (2 < p.op) || p.afmt != 4 || p.bfmt != 4 || p.cfmt != 1)

/-- The issue checks of R252 in their order, of a block at a scratchpad offset, for a home sheaf. -/
def matrixFails (u : Team) (h at_ : Nat) (b : List DWord) : List (Bool × Nat) :=
  let p := blockOf_ b
  let slots := u.acc * Config.slotsPerGranule u.die
  [(u.baton != some h, 0x23), (u.acc == 0 || decide (u.scr * 0x4000 < at_ + 64), 0x20), (at_ % 64 != 0, 0x14), (blockRefused b, 0x22),
   (decide (16 * u.acc < p.ctile + p.tm * p.tn) || decide (slots < p.bslot + p.bspan + 1)
     || decide (u.scr * 0x4000 < p.aoff + (p.rows - 1) * p.astride + p.rowBytes), 0x20),
   ((List.range (p.bspan + 1)).any (fun k => (u.wslots.getD (p.bslot + k) ⟨none, []⟩).tag.any (fun f => f != p.bfmt)), 0x22)]

/-- R112 and the first three checks of R111 on the descriptor that a pointer names, for a requester's slot; then bounds and alignment of a
range. -/
def bufferFails (s : State) (ctx slot : Nat) (ptr : DWord) (kind : AKind) : List (Bool × Nat) :=
  let c := s.ctx ctx
  let desc := s.descOf ctx (ptr.extractLsb' 54 10).toNat
  let w := fieldOf desc
  let malformed : Bool := !(desc.getD 0 0).getLsbD 63 || w 0 54 9 != 0 || w 1 54 10 != 0 || w 2 21 43 != 0 || w 2 5 3 != 0
    || w 3 24 40 != 0 || w 3 6 2 != 0 || w 0 0 8 != 0 || decide (8 < w 3 0 4) || w 3 16 8 == 0
    || decide ((c.vdie (w 3 4 2)).elim 0 Config.channels < w 3 8 8 + w 3 16 8)
    || ((w 2 8 2 == 0 || w 2 8 2 == 2) && w 2 10 11 != 0) || (w 2 8 2 == 1 && decide (63 < w 2 10 11))
  let owned : Bool := w 2 8 2 == 0 || (w 2 8 2 == 1 && w 2 10 11 == slot) || w 2 8 2 == 3
  let right (k : Nat) : Bool := (desc.getD 2 0).getLsbD k
  let allowed : Bool := match kind with
    | .load => right 0
    | .store => right 1
    | .fetch => right 2
    | .atom => right 3 && right 0 && right 1
    | .red => right 3 && right 1
  [(malformed, 0x10), (!owned, 0x11), (!allowed, 0x12)]
def rangeFails (s : State) (ctx : Nat) (ptr : DWord) (off : Int) (size align : Nat) : List (Bool × Nat) :=
  let desc := s.descOf ctx (ptr.extractLsb' 54 10).toNat
  let va := fieldOf desc 0 0 54 + off.toNat
  [(decide (off < 0) || decide (((fieldOf desc 1 0 54 : Nat) : Int) < off + size) || decide (2 ^ 54 ≤ va), 0x13), (va % align != 0, 0x14)]

/-- The condition a pointer's checks meet, with the pointer as aux; a descriptor on a marked line comes before them (R370, R386; DEDUCED,
log 20). -/
def pointerFault (s : State) (ctx : Nat) (ptr : DWord) (fails : List (Bool × Nat)) : Option Cond :=
  match s.descError ctx (ptr.extractLsb' 54 10).toNat with
  | some code => some ⟨code, ptr⟩
  | none => (fails.find? Prod.fst).map (fun x => ⟨x.2, ptr⟩)
def rangeFault (s : State) (t : Team) (ptr : DWord) (n align : Nat) (kind : AKind) : Option Cond :=
  pointerFault s t.ctx ptr (bufferFails s t.ctx (((s.launch? t.launch).map Launch.slot).getD 0) ptr kind
    ++ rangeFails s t.ctx ptr ((ptr.extractLsb' 0 54).toNat : Int) n align)

/-- STORAGE_RANGE, then ACC_BUSY for a byte of a tile that an unfinished operation names (R228). -/
def scratchFault (t : Team) (off n : Nat) : Option Cond :=
  let tile (k : Nat) : Bool := t.mops.any (fun m => decide ((blockOf_ m.block).ctile ≤ k)
    && decide (k < (blockOf_ m.block).ctile + (blockOf_ m.block).tm * (blockOf_ m.block).tn))
  if t.mapped off n = false then some ⟨0x20, 0⟩
  else if 0 < n ∧ (List.range 128).any (fun k => decide (off < 0x200000 + 1024 * (k + 1)) && decide (0x200000 + 1024 * k < off + n) && tile k)
    = true then some ⟨0x21, 0⟩
  else none
def wordFault (bad : Bool) : Option Cond := if bad then some ⟨0x22, 0⟩ else none

/-- The first fault of checks made in their order, or what they give. -/
def checkedAll {α : Type} (cs : List (Option Cond)) (x : α) : Except Cond α :=
  match cs.findSome? id with
  | some e => .error e
  | none => .ok x

/-- The checks of COPY (R228, R229, Table 9-6): control word, source and destination as buffers, as scratchpad ranges. -/
def copyChecks (t : Team) (s : State) (ps : List DWord) : Except Cond (Option (Nat × Nat × Nat × Nat)) :=
  let len := fieldOf ps 2 0 32
  let kind := fieldOf ps 2 32 2
  let dexp := fieldOf ps 2 34 2
  let mem0 := decide (kind ≤ 1)
  let mem1 := decide (kind = 0 ∨ kind = 2)
  checkedAll [wordFault (fieldOf ps 2 36 28 != 0 || dexp == 3 || decide (2 ^ 26 < len) || (!mem0 && dexp != 0)),
    if mem0 then rangeFault s t (ps.getD 0 0) len 1 .load else none,
    if mem1 then rangeFault s t (ps.getD 1 0) (len * 2 ^ dexp) 1 .store else none,
    if mem0 then none else scratchFault t (ps.getD 0 0).toNat len,
    if mem1 then none else scratchFault t (ps.getD 1 0).toNat (len * 2 ^ dexp)] none

/-- Bytes of an element of a GATHER's source (Table 9-7). -/
def elementSize (ps : List DWord) : Nat := [4, 8, 16, 64].getD (fieldOf ps 2 32 2) 64

/-- The checks of GATHER (R228, R231, Table 9-7): of its table only the first three of R111. -/
def gatherChecks (t : Team) (s : State) (ps : List DWord) : Except Cond (Option (Nat × Nat × Nat × Nat)) :=
  let n := fieldOf ps 2 0 32
  let dexp := fieldOf ps 2 34 2
  checkedAll [wordFault (fieldOf ps 2 36 28 != 0 || dexp == 3 || decide (65536 < n) || (ps.getD 1 0).toNat % 4 != 0),
    pointerFault s t.ctx (ps.getD 0 0) (bufferFails s t.ctx (((s.launch? t.launch).map Launch.slot).getD 0) (ps.getD 0 0) .load),
    scratchFault t (ps.getD 1 0).toNat (4 * n), scratchFault t (ps.getD 3 0).toNat (n * elementSize ps * 2 ^ dexp)] none

/-- The number of a panel's element (r, c), by the stride, and the bytes up to the last (R259). -/
def panelElement (ps : List DWord) (r c : Nat) : Nat := r * fieldOf ps 1 0 32 + c
def panelBytes (ps : List DWord) : Nat :=
  let e := panelElement ps (fieldOf ps 2 0 10 - 1) (fieldOf ps 2 16 8 - 1)
  [2 * (e + 1), 2 * (e + 1), e + 1, e / 2 + 1].getD (fieldOf ps 2 24 3) (e / 8 + 1)

/-- The checks of WLOAD (R259, Table 10-8). -/
def wloadChecks (t : Team) (s : State) (ps : List DWord) : Except Cond (Option (Nat × Nat × Nat × Nat)) :=
  let f := fieldOf ps 2
  checkedAll [if t.acc = 0 ∨ t.acc * Config.slotsPerGranule t.die < f 32 7 + f 40 4 then some ⟨0x20, 0⟩ else none,
    wordFault (fieldOf ps 1 32 32 != 0 || f 44 20 != 0 || f 39 1 != 0 || f 27 5 != 0 || f 10 6 != 0 || f 40 4 == 0 || decide (8 < f 40 4)
      || decide (4 < f 24 3) || f 16 8 == 0 || decide (128 < f 16 8) || f 0 10 == 0
      || decide ((if f 24 3 = 4 then 512 else 64) < f 0 10)),
    rangeFault s t (ps.getD 0 0) (panelBytes ps) (if f 24 3 ≤ 1 then 2 else 1) .load] none

/-- A slot of the run is named by an operation that has not finished, or by a WLOAD that has not completed (R258). -/
def slotLocked (t : Team) (s : State) (ps : List DWord) : Bool :=
  let meets (first n : Nat) : Bool :=
    decide (first < fieldOf ps 2 32 7 + fieldOf ps 2 40 4) && decide (fieldOf ps 2 32 7 < first + n)
  t.mops.any (fun m => meets (blockOf_ m.block).bslot ((blockOf_ m.block).bspan + 1))
  || s.ops.any (fun o => o.kind == 1 && o.team == t.id && meets (fieldOf o.params 2 32 7) (fieldOf o.params 2 40 4))

/-- The checks of COLL (R376, Tables 16-8, 16-9), and what they give: tag, generation, ranks, root. A group entry on a marked line is not
read (R370, R386; DEDUCED, log 20). -/
def collChecks (t : Team) (s : State) (ps : List DWord) : Except Cond (Option (Nat × Nat × Nat × Nat)) :=
  let f := fieldOf ps 2
  let size := if f 35 3 = 1 ∨ f 35 3 = 2 then 2 else 4
  let c := s.ctx t.ctx
  let group := fieldOf ps 3 32 8
  let rank := fieldOf ps 3 0 16
  let die := (c.grpBase.extractLsb' 56 2).toNat
  let at_ := (c.grpBase.extractLsb' 0 54).toNat + 16 * group
  let inTable := decide (group < (c.grpN.extractLsb' 0 9).toNat)
  let e (lo n : Nat) : Nat := fieldOf [s.dpaWord die at_] 0 lo n
  checkedAll [wordFault (f 40 24 != 0 || (f 38 2 != 0 && !(decide (f 35 3 ≤ 2) && f 32 3 == 0)) || decide (4 < f 35 3) || decide (2 < f 32 3)
      || f 0 32 == 0 || decide (2 ^ 20 < f 0 32) || fieldOf ps 3 40 24 != 0 || fieldOf ps 3 16 16 != 0),
    if inTable then (s.dpaError die at_ 16).map (fun code => ⟨code, 0⟩) else none,
    wordFault (!inTable || e 63 1 == 0 || e 48 15 != 0 || e 11 5 != 0 || s.dpaWord die (at_ + 8) != 0 || decide (e 32 16 < rank)
      || (!s.domain0.getLsbD 63 && e 0 11 != (s.domain0.extractLsb' 0 11).toNat)),
    rangeFault s t (ps.getD 0 0) (f 0 32 * size) size .load, rangeFault s t (ps.getD 1 0) (f 0 32 * size) size .store]
    (some (e 16 16, sget 0 c.collGen (group * 65536 + rank), e 32 16 + 1, e 0 11))

/-- The asynchronous words: engine, parameters, which are pointers, the checks at issue, what holds the issue back, and what else
an issue does (R226, R231, R258, R376). -/
def engineWords : List ((Hdr → FA → Instr) × Nat × Nat × (List DWord → List Nat)
    × (Team → State → List DWord → Except Cond (Option (Nat × Nat × Nat × Nat))) × (Team → State → List DWord → Bool)
    × (Issue → Op → State → State)) :=
  [(.copy, 0, 3, fun ps => (if fieldOf ps 2 32 2 ≤ 1 then [0] else []) ++ (if fieldOf ps 2 32 2 = 0 ∨ fieldOf ps 2 32 2 = 2 then [1] else []),
      copyChecks, fun _ _ _ => false, fun iss op u =>
      let v := if fieldOf op.params 2 32 2 = 0 ∨ fieldOf op.params 2 32 2 = 2 then u.markWritten iss.team else u
      if ((dword op.params 2).extractLsb' 0 32).toNat = 0 then v.completeOp op 0 0 else v),
   (.wload, 1, 3, fun _ => [0], wloadChecks, slotLocked, fun iss op u => u.mapTeam iss.team (fun v =>
      { v with wslots := v.wslots.mapIdx (fun k x =>
          if fieldOf op.params 2 32 7 ≤ k ∧ k < fieldOf op.params 2 32 7 + fieldOf op.params 2 40 4 then
            { x with tag := some (fieldOf op.params 2 24 3) } else x) })),
   (.gather, 2, 4, fun _ => [0], gatherChecks, fun _ _ _ => false, fun _ _ u => u),
   (.coll, 3, 4, fun _ => [0, 1], collChecks, fun _ _ _ => false, fun iss op u =>
      (u.mapCtx op.ctx (fun c => { c with
        collGen := (let key := ((dword op.params 3).extractLsb' 32 8).toNat * 65536 + ((dword op.params 3).extractLsb' 0 16).toNat
          sset 0 c.collGen key (sget 0 c.collGen key + 1)) })).markWritten iss.team)]

/-- The slice serves the read of the group entry that a COLL's fourth parameter names (R368, R369, R376). -/
def groupServed (s : State) (ctx : Nat) (params : List DWord) : Bool :=
  let place := (s.ctx ctx).grpBase
  s.slicesFree [dpaLoc (place.extractLsb' 56 2).toNat
    ((place.extractLsb' 0 54).toNat + 16 * ((params.getD 3 0).extractLsb' 32 8).toNat)]

/-- What the checks of an engine word leave in caches and slices: the descriptors they used, and the entry of the group table that a
COLL read (R110, R376, R381). -/
def checkReads (s : State) (ctx kind : Nat) (params : List DWord) (buffers : List Nat) : State :=
  let c := s.ctx ctx
  let group := ((params.getD 3 0).extractLsb' 32 8).toNat
  let s := if kind = 3 ∧ group < (c.grpN.extractLsb' 0 9).toNat then
      s.homeTouch (secOf (dpaLoc (c.grpBase.extractLsb' 56 2).toNat ((c.grpBase.extractLsb' 0 54).toNat + 16 * group)))
    else s
  buffers.foldl (fun s idx => s.noteEntry ctx idx true (s.descBytes ctx idx)) s

/-- A team of a number as it stands, or as the cycle found it. -/
def standing (s : State) (iss : Issue) (t : Team) : Team := (s.team? iss.team).getD t

/-- A pending result of fixed value in each lane that raises no condition, the serial numbers in ascending TID (R160). -/
def valuesArrive (s : State) (iss : Issue) (t : Team) (g : BitVec 3) (c : Reads → Option (Nat × DWord))
    (f : Reads → List (Nat × Word)) : State :=
  let ok (k : Nat) : Bool := takesEffect iss t g k && (c (reads iss t k)).isNone
  { lanesDo s iss t g c (fun _ u => u) with
    teams := s.teams.map (fun u => if u.id = iss.team then
      { u with threads := u.threads.mapIdx (fun k x => if ok k then
          { x with pend := x.pend ++
              [⟨s.serial + ((List.range k).filter ok).length, f (reads iss t k), true, s.cycle, false, false⟩] }
          else x) } else u),
    serial := s.serial + ((effective iss t g).filter (fun k => (c (reads iss t k)).isNone)).length }

/-- The checks of a tile element (R262): its place in scratchpad space is 0x20_0000 + 1,024 × tile + 4 × index. -/
def tileConditions (t : Team) (o : FV3) (r : Reads) : Option (Nat × DWord) :=
  firstOf [(decide (16 * t.acc ≤ (r.b o.b).toNat ∨ 256 ≤ (r.v o.a).toNat), 0x20), (t.busy (r.b o.b).toNat, 0x21)]
def tilePlace (o : FV3) (r : Reads) : Nat := 0x200000 + 1024 * (r.b o.b).toNat + 4 * (r.v o.a).toNat

/-- The state with a queue of a team changed. -/
def onQueue (s : State) (team k : Nat) (f : Queue → Queue) : State :=
  { s with teams := s.teams.map (fun u => if u.id = team then
      { u with queues := u.queues.mapIdx (fun i q => if i = k then f q else q) } else u) }

/-- A queue of the issue's team as it stands; an unset queue has DEPTH 0 (R234). -/
def queueNow (s : State) (iss : Issue) (k : Nat) : Queue :=
  (((s.team? iss.team).bind (fun u => u.queues[k]?))).getD ⟨0, 0, 0, 0, 0⟩

/-- QUEUE_PARAM on an unset queue, of a team that stands (R235). -/
def unset (iss : Issue) (k : Nat) (_r : Reads) (s : State) : Option (Nat × DWord) :=
  match s.team? iss.team with
  | none => none
  | some _ => firstOf [(decide ((queueNow s iss k).depth = 0), 0x28)]

/-- A thread of the issue's team changed. -/
def withThread (s : State) (iss : Issue) (k : Nat) (f : Thread → Thread) : State :=
  { s with teams := s.teams.map (fun u => if u.id = iss.team then onThread k f u else u) }

/-- The scratchpad range a record instruction reads (R284). -/
def recordBytes (t : Team) (o : FX) (r : Reads) : List Byte :=
  (List.range (4 * (o.len.toNat + 1))).map (fun k => sget 0 t.scratch ((r.v o.v).toNat + k))
def rangeConditions (t : Team) (o : FX) (r : Reads) : List (Bool × Nat) :=
  [(decide (t.scr * 0x4000 < (r.v o.v).toNat + 4 * (o.len.toNat + 1)), 0x20), (decide ((r.v o.v).toNat % 4 ≠ 0), 0x14)]

/-- The node an s operand names, and the kind of its descriptor. -/
def namedNode (o : FX) (r : Reads) : Nat := ((r.s o.s.toNat).extractLsb' 0 12).toNat
def kindOf (l : Launch) (n : Nat) : Nat := ((dword (l.node n) 0).extractLsb' 39 3).toNat

/-- The executing home sheaves in turn, for a privileged uniform word: PRIVILEGED_INSTRUCTION in every issuing thread of a team
that is no supervisor's (R171, R357). -/
def supervisorDoes (s : State) (iss : Issue) (t : Team) (f : Nat → Reads → State → State) : State :=
  if t.sup then
    ((List.range t.sheaves.length).filter (executes iss t)).foldl (fun u h => f h (sheafReads iss t h) u) s
  else { s with issue := some { iss with trapped := iss.trapped ++ iss.tids.map (fun k => ⟨k, 0x03, 0, iss.pc, false⟩) } }

end Sys2Proof.Claims

open Sys2Proof Sys2Proof.Machine Sys2Proof.Claims

/-! ### The integer pipe -/

/-- Table 8-1 (R182): each V3 integer instruction of fixed latency completes; in every thread in which it takes effect D takes
the value of the table, of A, B and D as the thread reads them, and nothing else changes. -/
def Obligations.V3IntegerResults : Prop :=
  ∀ p ∈ v3Integer, ∀ (h : Hdr) (o : FV3) (s : State) (iss : Issue) (t : Team), Issuing s iss t →
    exec (p.1 h o) s = .next (regsBecome s iss t o.g (fun r q => q.set o.d.toNat (p.2 (r.v o.a) (r.b o.b) (r.v o.d))))

/-- R183, division: the quotient truncated toward zero, −1 or all ones for a zero divisor, 0x8000_0000 by −1 as it wraps; it is
on its way to D as the loop level names it, and nothing else changes (R160).
R160, R240, R243: FDIV and the unary functions complete with a result on its way to D as the loop level names it; nothing
else changes. FDIV, FSQRT, FRCP and FRSQ give the exact quotient, root, reciprocal and reciprocal root rounded once, with the special
values of Table 10-2. The values of 2^x, log2 x, sine, cosine and tanh are the model's series of 400 bits rounded once (log 7). -/
def Obligations.SlowResults : Prop :=
  (∀ (h : Hdr) (o : FV3) (s : State) (iss : Issue) (t : Team), Issuing s iss t →
    exec (.idivI32 h o) s = .next (pendBecome s iss t o.g (fun r =>
        [(phys r.regs.level o.d.toNat,
          if (r.b o.b).toInt = 0 then -1
          else if (r.v o.a) = 0x80000000#32 ∧ (r.b o.b).toInt = -1 then 0x80000000#32
          else BitVec.ofInt 32 ((r.v o.a).toInt.tdiv (r.b o.b).toInt))]))
    ∧ exec (.idivW32 h o) s = .next (pendBecome s iss t o.g (fun r =>
        [(phys r.regs.level o.d.toNat,
          if (r.b o.b).toNat = 0 then 0xFFFFFFFF#32 else BitVec.ofNat 32 ((r.v o.a).toNat / (r.b o.b).toNat))])))
  ∧ (∀ p ∈ vdFloatSlow, ∀ (h : Hdr) (o : FVD) (s : State) (iss : Issue) (t : Team), Issuing s iss t →
    10 ≤ o.t.toNat → o.t.toNat ≤ 14 →
    exec (p.1 h o) s = .next (pendBecome s iss t o.g (fun r =>
      [(phys r.regs.level o.d.toNat, atFloat o.t (fun f => p.2 f (modeOf o.m)) (r.v o.d) (r.b o.b))])))
  ∧ (∀ f ∈ [f32, f16, bf16], ∀ (mode : Mode) (a b : Nat), a < 2 ^ f.width → b < 2 ^ f.width →
    quotientOf f mode a b (fdivBits f mode a b) ∧ rootIs f mode a (fsqrtBits f mode a)
    ∧ reciprocalIs f mode a (frcpBits f mode a) ∧ reciprocalRootIs f a (frsqBits f a))

/-- Table 8-2 (R184), majors with a literal: the immediate is 7 bits sign-extended, or the literal in its place (R166). -/
def Obligations.ImmediateResults : Prop :=
  ∀ p ∈ viInteger, ∀ (h : Hdr) (o : FVI) (s : State) (iss : Issue) (t : Team), Issuing s iss t →
    exec (p.1 h o) s = .next (regsBecome s iss t o.g (fun r q =>
      q.set o.d.toNat (p.2 (r.v o.a) (match o.lit with | some l => l | none => o.imm.signExtend 32))))

/-- MOV, MOVS and PADD (R185, R186). MOVS reads the special register of number b of the thread, by Table 3-4: its bits [31:0], or
the pair with a = 1. -/
def Obligations.MoveResults : Prop :=
  ∀ (h : Hdr) (o : FV3) (s : State) (iss : Issue) (t : Team), Issuing s iss t →
    exec (.mov h o) s = .next (regsBecome s iss t o.g (fun r q => q.set o.d.toNat (r.b o.b)))
    ∧ exec (.movs h o) s = .next (threadsBecome s iss.team (takesEffect iss t o.g) (fun k x =>
        match t.threads[k]? with
        | none => x
        | some y =>
          let v : DWord := BitVec.ofNat 64 (specialOf s iss.completing t y o.b.toNat)
          { x with regs := if o.a = 1 then x.regs.set64 o.d.toNat v else x.regs.set o.d.toNat (v.setWidth 32) }))
    ∧ exec (.padd h o) s = .next (regsBecome s iss t o.g (fun r q =>
        q.set o.d.toNat (BitVec.ofInt 32 (clampTo true 32 ((r.v o.a).toInt + (r.b o.b).toInt)))))

/-- R187: D and B read at the type, the exact result clamped to the type's range with .SAT and taken modulo 2^n without, then
extended or put in a pair. Shift counts are B[31:0].
Table 8-3 (R188). -/
def Obligations.TypedIntegerResults : Prop :=
  ((∀ p ∈ vdIntegers, ∀ (h : Hdr) (o : FVD) (s : State) (iss : Issue) (t : Team), Issuing s iss t → o.t.toNat ≤ 7 →
    exec (p.1 h o) s = .next (regsBecome s iss t o.g (fun r q => vdPut o (p.2 (vdDest o r) (vdSource o r)) q)))
  ∧ (∀ p ∈ vdShifts, ∀ (h : Hdr) (o : FVD) (s : State) (iss : Issue) (t : Team), Issuing s iss t → o.t.toNat ≤ 7 →
    exec (p.1 h o) s = .next (regsBecome s iss t o.g (fun r q => vdPut o (p.2 (vdDest o r) (r.b o.b).toNat) q))))
  ∧ (∀ (h : Hdr) (o : FVD) (s : State) (iss : Issue) (t : Team), Issuing s iss t → (Instr.icvt h o).wf = true →
    exec (.icvt h o) s = .next (regsBecome s iss t o.g (fun r q => icvtPut o (r.b o.b) q)))

/-- R189 and Table 3-2: ICMP writes the four flags of cN from the difference at the width of the type, and no register.
R242 and Table 3-2: FCMP writes the four flags of cN, +0 and −0 equal, a NaN unordered, and no register. -/
def Obligations.CompareFlags : Prop :=
  (∀ (h : Hdr) (o : FVC) (s : State) (iss : Issue) (t : Team), Issuing s iss t → o.code.toNat ≤ 9 →
    exec (.icmp h o) s = .next (regsBecome s iss t o.g (fun r q =>
      q.setFlags o.cn (match typeWidth o.code with
        | 8 => differenceFlags ((r.v o.a).setWidth 8) ((r.b o.b).setWidth 8)
        | 16 => differenceFlags ((r.v o.a).setWidth 16) ((r.b o.b).setWidth 16)
        | 32 => differenceFlags (r.v o.a) (r.b o.b)
        | _ => differenceFlags (r.v64 o.a) (r.b64 o.b)))))
  ∧ (∀ (h : Hdr) (o : FVC) (s : State) (iss : Issue) (t : Team), Issuing s iss t → 10 ≤ o.code.toNat → o.code.toNat ≤ 12 →
    exec (.fcmp h o) s = .next (regsBecome s iss t o.g (fun r q =>
      q.setFlags o.cn (if o.code.toNat = 10 then compareFlags f32 (r.v o.a).toNat (r.b o.b).toNat
        else compareFlags (if o.code.toNat = 11 then f16 else bf16) ((r.v o.a).toNat % 65536) ((r.b o.b).toNat % 65536)))))

/-! ### Uniform words and guards -/

/-- Table 8-4 (R190): each executing home sheaf writes its own D from its own registers or the literal, and nothing else
changes. -/
def Obligations.UniformResults : Prop :=
  ∀ p ∈ uniformOps, ∀ (h : Hdr) (o : FUR) (s : State) (iss : Issue) (t : Team), Issuing s iss t →
    exec (p.1 h o) s = .next (sheavesBecome s iss t (fun r =>
      putUniform o.d (p.2 (uniformSource o.a o.lit r) (uniformSource o.b o.lit r))))

/-- R194: GSET sets the definition of guard slot 1 to 7 to (cN, COND) in each executing home sheaf, and changes no flag.
R192, R193, R363: VDIE gives the buffer's virtual die, or 2^63 + OID for owner kind 3, after BUFFER_INVALID and
BUFFER_OWNER, which it raises in the lowest thread of the home sheaf, as it does the condition of a descriptor on a marked line (DEDUCED, log
20); it waits where a slice does not serve the descriptor (R368, R369). VHOP gives the hop distance of Table 16-3, and all ones
where a virtual die is not bound (R363). -/
def Obligations.UniformStateResults : Prop :=
  (∀ (h : Hdr) (o : FG) (s : State) (iss : Issue) (t : Team), Issuing s iss t → o.slot ≠ 0 →
    exec (.gset h o) s = .next (sheavesBecome s iss t (fun _ x =>
      { x with uni := { x.uni with g := x.uni.g.mapIdx (fun i d => if i + 1 = o.slot.toNat then ⟨o.cn, o.cond⟩ else d) } })))
  ∧ (∀ (h : Hdr) (o : FUR) (s : State) (iss : Issue) (t : Team), Issuing s iss t →
    (let buf (r : Reads) : Nat := ((uniformSource o.a o.lit r).extractLsb' 54 10).toNat
     let d (r : Reads) := s.descOf t.ctx (buf r)
     let c (r : Reads) : Option (Nat × DWord) :=
       if (s.descError t.ctx (buf r)).isSome then some ((s.descError t.ctx (buf r)).getD 0, uniformSource o.a o.lit r)
       else if descInvalid (s.ctx t.ctx) (d r) then some (0x10, uniformSource o.a o.lit r)
       else if !ownerAdmits (d r) (((s.launch? t.launch).map Launch.slot).getD 0) then some (0x11, uniformSource o.a o.lit r)
       else none
     ((∃ k, executes iss t k = true ∧ s.descFree t.ctx (buf (sheafReads iss t k)) = false) → Stalls (exec (.vdie h o) s))
     ∧ ((∀ k, executes iss t k = true → s.descFree t.ctx (buf (sheafReads iss t k)) = true) →
       ∃ u, Looked s u ∧ exec (.vdie h o) s = .next { sheavesBecome u iss t (fun r x => if (c r).isSome then x else
         putUniform o.d (BitVec.ofNat 64 (if dOkind (d r) = 3 then 2 ^ 63 + dOid (d r) else dVd (d r))) x) with
       issue := some { iss with trapped := iss.trapped ++ sheafConditions iss t c } }))
    ∧ exec (.vhop h o) s = .next (sheavesBecome s iss t (fun r =>
        putUniform o.d (match (s.ctx t.ctx).vdie ((uniformSource o.a o.lit r).toNat % 4),
            (s.ctx t.ctx).vdie ((uniformSource o.b o.lit r).toNat % 4) with
          | some x, some y => BitVec.ofNat 64 (Config.hop x y)
          | _, _ => BitVec.allOnes 64))))

/-! ### Cross-lane words -/

/-- R61 and R195: when a cross-lane word issues, every thread that issues it, guard-true or not, waits at rendezvous with its
group, its slot and the lowest TID of its sub-sheaf, and with its registers, its home sheaf's uniform state and its PT, CORE and
CYC as they stood; nothing else changes. R61, R62, R158: a home sheaf's rendezvous with a member that is neither at it nor released (ended,
at reorder, at a join that does not complete now) stays as it is. Where every member that is there has issued one and the same group, with one
cross-lane word, that word takes effect once for all of them, then the group's other words, and the members go on at the word after
the group, no earlier than 2 cycles after the last arrival, and 4 later again where one is off its home lane or they stand in more than one
slot; where the word traps in some member nothing takes effect and the trap is taken at the group's PC. (The words read scratchpad memory
as the cycle found it: DEDUCED, log 4; each member's accesses before it have been performed at sheaf scope, R151.) -/
def Obligations.CrossLaneArrival : Prop :=
  (∀ (i : Instr) (s : State) (iss : Issue) (t : Team), Issuing s iss t → crossLane i = true → iss.completing = false →
    exec i s = .next (threadsBecome s iss.team
      (fun k => decide (k < t.threads.length) && iss.tids.contains k && !iss.suppressed.contains k)
      (fun k x => { x with wait := .rendezvous (Arrival.mk iss.pc iss.replay iss.fall s.cycle iss.words
        (reads iss t k).regs (reads iss t k).uni iss.slot
        (((List.range t.threads.length).filter (fun y => iss.tids.contains y)).headD 0) x.pt t.core (s.cycle - (s.die t.die).since)) })))
  ∧ (∀ (s : State) (n h : Nat) (t : Team), s.team? n = some t → (∀ (k : Nat) (x : Thread), t.threads[k]? = some x → x.tid = k) →
    (let member (k : Nat) : Prop := k < t.threads.length ∧ k / t.width = h
     let released (x : Thread) : Prop := x.wait = .ended ∨ (∃ key, x.wait = .reorder key) ∨ ∃ k, x.wait = .join k
     ((∃ k x, member k ∧ t.threads[k]? = some x ∧ ¬released x ∧ ∀ a, x.wait ≠ .rendezvous a) → s.meet n h = s)
     ∧ (∀ (xs : List Nat) (arr : Nat → Arrival) (w : Placed) (others : List Placed) (a0 : Arrival), xs ≠ [] → xs.Pairwise (· < ·) →
       (∀ k, k ∈ xs ↔ member k ∧ ∃ x, t.threads[k]? = some x ∧ x.wait = .rendezvous (arr k)) →
       (∀ k x, member k → t.threads[k]? = some x → x.asked = none ∧ (k ∈ xs ∨ x.wait = .ended
         ∨ (∃ key, x.wait = .reorder key) ∨ ∃ j f r, x.wait = .join j ∧ t.sheaves[h]? = some f ∧ f.joins[j]? = some r ∧ (r.e = [] ∨ r.a ≠ r.e))) →
       (∀ k ∈ xs, (arr k).replay = a0.replay ∧ (arr k).cycle = a0.cycle ∧ (arr k).slot = a0.slot ∧ (arr k).lead = a0.lead
         ∧ (arr k).fall = a0.fall ∧ (arr k).words = a0.words) →
       a0.words.filter (fun x => isCross x.i) = [w] → a0.words.filter (fun x => !isCross x.i) = others →
       (let off (k : Nat) : Prop := ((t.threads[k]?).bind Thread.place).map Prod.snd ≠ some (k % t.width)
        let apart (j k : Nat) : Prop := ((t.threads[j]?).bind Thread.place).map Prod.fst ≠ ((t.threads[k]?).bind Thread.place).map Prod.fst
        ∀ first, ((∃ k ∈ xs, off k ∨ ∃ j ∈ xs, apart j k) → first = a0.cycle + 6) →
          ((∀ k ∈ xs, ¬off k ∧ ∀ j ∈ xs, ¬apart j k) → first = a0.cycle + 2) → (∀ k ∈ xs, ((t.threads[k]?).bind Thread.place).isSome = true) →
          (let go : State := { threadsBecome s n xs.contains (fun _ y =>
               { y with wait := .none, pc := a0.fall, earliest := max y.earliest first }) with
             view := s.teams.map (fun u => match s.view.find? (fun v => v.id == u.id) with
               | some v => { u with scratch := v.scratch, tiles := v.tiles }
               | none => u) }
           let iss (ws : List Placed) : Issue :=
             { team := n, slot := a0.slot, tids := xs, pc := a0.replay, replay := a0.replay, fall := a0.fall, words := ws, lone := false,
               completing := true, suppressed := [], trapped := [], held := [], waiting := [], stalled := false }
           let start (v : State) (ws : List Placed) : State := { v with issue := some (iss ws) }
           let clean (v : State) : Prop := ∃ j, v.issue = some j ∧ j.trapped = [] ∧ j.held = [] ∧ j.waiting = [] ∧ j.stalled = false
           let u1 := inSequence [w] (start go [w])
           let u2 := if others = [] then u1 else inSequence (controlLast others) (start { u1 with issue := none } others)
           (clean u1 → clean u2 → s.meet n h = { threadsBecome u2 n xs.contains (fun k y =>
               y.afterGroup (readsOf true t k) s.cycle xs a0.words) with issue := none, view := s.view })
           ∧ (∀ r, go.runGroup (iss [w]) [w] = some r → r.trapped ≠ [] → r.held = [] →
             others = [] → s.meet n h = s.takeTraps n (fun k => if xs.contains k then a0.replay else 0) r.trapped))))))

/-- R196: at a rendezvous' completion each active lane receives A of the lane named when that lane is active, else its own.
R197: XANY, XALL and XMASK over the active lanes; bit i of the mask is lane i's. -/
def Obligations.ShuffleAndVoteResults : Prop :=
  (∀ p ∈ shuffles, ∀ (h : Hdr) (o : FV3) (s : State) (iss : Issue) (t : Team), Issuing s iss t → iss.completing = true →
    exec (p.1 h o) s = .next (regsBecome s iss t o.g (fun r q =>
      q.set o.d.toNat (shuffled t.width (active iss t o.g) o.a (p.2 (r.tid % t.width) (r.b o.b).toNat) r))))
  ∧ (∀ (h : Hdr) (o : FVC) (s : State) (iss : Issue) (t : Team), Issuing s iss t → iss.completing = true →
    (let p (r : Reads) : Bool := condHolds o.code (r.regs.flags o.cn)
     let act := active iss t o.g
     exec (.xany h o) s = .next (regsBecome s iss t o.g (fun _ q => q.set o.a.toNat (if act.any p then 1 else 0)))
     ∧ exec (.xall h o) s = .next (regsBecome s iss t o.g (fun _ q => q.set o.a.toNat (if act.all p then 1 else 0)))
     ∧ exec (.xmask h o) s = .next (regsBecome s iss t o.g (fun _ q => q.set64 o.a.toNat
         (BitVec.ofNat 64 (((act.filter p).map (fun r => 2 ^ (r.tid % t.width))).sum))))))

/-- R198 with R105 and R106: D op the tree reduction of B over the active lanes, for each of ADD, MIN and MAX; D + the scan of
B over the active lanes up to and with the lane, or before it, which for the first active lane is the identity. -/
def Obligations.SheafReductionResults : Prop :=
  ∀ (h : Hdr) (o : FVD) (s : State) (iss : Issue) (t : Team), Issuing s iss t → iss.completing = true → xredOk o = true →
    (let act := active iss t o.g
     (∀ p ∈ reductions, exec (p.1 h o) s = .next (regsBecome s iss t o.g (fun r q =>
       sheafPut o (sheafOp p.2 o (sheafDest o r) ((treeOf (sheafOp p.2 o) (Nat.log2 t.width) (fun i =>
         if i < t.width then (act.find? (fun x => x.tid % t.width == i)).map (sheafSource o) else none)).getD 0)) q)))
     ∧ (∀ p ∈ ([(.xscanAdd, fun x y => decide (x ≤ y)), (.xscanExAdd, fun x y => decide (x < y))] :
           List ((Hdr → FVD → Instr) × (Nat → Nat → Bool))),
         exec (p.1 h o) s = .next (regsBecome s iss t o.g (fun r q =>
           sheafPut o (sheafOp .add o (sheafDest o r) (match (act.filter (fun x => p.2 x.tid r.tid)).map (sheafSource o) with
             | [] => 0
             | x :: l => l.foldl (sheafOp .add o) x)) q))))

/-- R199: each active lane receives the number of active lanes before it when that is below k, else all ones; k is B of the
lowest active lane.
R199, the order of TOPK: it is total on distinct threads, so ranks are distinct: of two lanes one is before the other, not
both, a lane is never before itself, and a lane before one that is before a third is before the third. The key of a lane is its
value as binary32, −0 as +0 and every NaN below −∞; of equal keys the lower lane is first. -/
def Obligations.TopkResults : Prop :=
  (∀ (h : Hdr) (o : FV3) (s : State) (iss : Issue) (t : Team), Issuing s iss t → iss.completing = true →
    exec (.topk h o) s = .next (regsBecome s iss t o.g (fun r q =>
      let rank := ((active iss t o.g).filter (fun j => topkBefore j r o.a)).length
      q.set o.d.toNat (if rank < (((active iss t o.g).head?.map (fun x => (x.b o.b).toNat)).getD 0)
        then BitVec.ofNat 32 rank else 0xFFFFFFFF))))
  ∧ (∀ (i j k : Reads) (a : BitVec 6),
    topkBefore i i a = false
    ∧ (i.tid ≠ j.tid → topkBefore i j a ≠ topkBefore j i a)
    ∧ (topkBefore i j a = true → topkBefore j k a = true → topkBefore i k a = true)
    ∧ (topkBefore j i a = true ↔ topkPlace (i.v a).toNat < topkPlace (j.v a).toNat
        ∨ (topkPlace (i.v a).toNat = topkPlace (j.v a).toNat ∧ j.tid < i.tid)))

/-! ### The float pipe -/

/-- R239: A op B, and A × B + D rounded once, under RN; on both halves of packed words; FMIN and FMAX choose (R241).
R240, R244: D op B, or B rounded to an integral value, at the type and rounding of the word.
R241: the choice of FMIN and FMAX that every other form makes too (reductions, atomics, collectives) is the same one. -/
def Obligations.FloatResults : Prop :=
  (∀ p ∈ v3Float, ∀ (h : Hdr) (o : FV3) (s : State) (iss : Issue) (t : Team), Issuing s iss t →
    exec (p.1 h o) s = .next (regsBecome s iss t o.g (fun r q => q.set o.d.toNat (p.2 (r.v o.a) (r.b o.b) (r.v o.d)))))
  ∧ (∀ p ∈ vdFloat, ∀ (h : Hdr) (o : FVD) (s : State) (iss : Issue) (t : Team), Issuing s iss t →
    10 ≤ o.t.toNat → o.t.toNat ≤ 14 →
    exec (p.1 h o) s = .next (regsBecome s iss t o.g (fun r q =>
      q.set o.d.toNat (atFloat o.t (fun f => p.2 f (modeOf o.m)) (r.v o.d) (r.b o.b)))))
  ∧ (∀ f ∈ [f32, f16, bf16], ∀ a b : Nat, a < 2 ^ f.width → b < 2 ^ f.width →
    fminBits f a b = fminOf f a b ∧ fmaxBits f a b = fmaxOf f a b)

/-- R93, R245: conversions read B at the type code, round once, and clamp to an integer type; NaN gives 0. -/
def Obligations.FloatConversionResults : Prop :=
  (∀ p ∈ ([(.cvtF32, f32), (.cvtF16, f16), (.cvtBf16, bf16)] : List ((Hdr → FVD → Instr) × FFmt)),
    ∀ (h : Hdr) (o : FVD) (s : State) (iss : Issue) (t : Team), Issuing s iss t → o.t.toNat ≤ 12 → o.t.toNat ≠ 8 → o.t.toNat ≠ 9 →
      exec (p.1 h o) s = .next (regsBecome s iss t o.g (fun r q => q.set o.d.toNat (BitVec.ofNat 32 (pack p.2 (modeOf o.m)
        (if o.t.toNat ≤ 7 then numOfInt (vdSource o r)
         else if o.t.toNat = 10 then unpack f32 (r.b o.b).toNat
         else unpack (if o.t.toNat = 11 then f16 else bf16) ((r.b o.b).toNat % 65536)))))))
  ∧ (∀ p ∈ ([(.cvtI32, true, 32), (.cvtW32, false, 32), (.cvtI64, true, 64), (.cvtW64, false, 64)] :
        List ((Hdr → FVD → Instr) × Bool × Nat)),
    ∀ (h : Hdr) (o : FVD) (s : State) (iss : Issue) (t : Team), Issuing s iss t → 10 ≤ o.t.toNat → o.t.toNat ≤ 12 →
      exec (p.1 h o) s = .next (regsBecome s iss t o.g (fun r q => putTyped p.2.1 p.2.2 o.d
        (match (if o.t.toNat = 10 then unpack f32 (r.b o.b).toNat
            else unpack (if o.t.toNat = 11 then f16 else bf16) ((r.b o.b).toNat % 65536)) with
          | .nan => 0
          | .inf neg => if neg then clampTo p.2.1 p.2.2 (-(2 ^ 65)) else clampTo p.2.1 p.2.2 (2 ^ 65)
          | .fin neg m e => clampTo p.2.1 p.2.2 (roundInt (modeOf o.m) neg m e)) q)))

/-- R246 and R247: DXENC and DXDEC complete with D of A and the control word B alone. With MODE 0 the header is that of a block whose
largest magnitude is |A|, or 0xFFFF where A is NaN or infinite; with MODE 1 the element is that of A under the two fields of HDR, or 0
where A is NaN or infinite or a field is 0xFF (R99).
R96: an element code decodes to the value Table 4-3 gives, of the header field its selector chooses: NaN for 0xFF, +0 for
magnitude 0, else (−1)^s × m × 2^(E − 127 − shift). -/
def Obligations.ElementConversionResults : Prop :=
  (∀ (h : Hdr) (o : FV3) (s : State) (iss : Issue) (t : Team), Issuing s iss t →
    exec (.dxenc h o) s = .next (regsBecome s iss t o.g (fun r q => q.set o.d.toNat (dxenc (r.v o.a) (r.b o.b))))
    ∧ exec (.dxdec h o) s = .next (regsBecome s iss t o.g (fun r q =>
        q.set o.d.toNat (let fmt := if (r.b o.b).getLsbD 2 then 2 else 1
          let v := dxDecode fmt ((r.b o.b).extractLsb' 16 16).toNat ((r.v o.a).extractLsb' 0 8).toNat
          BitVec.ofNat 32 (pack (if (r.b o.b).getLsbD 3 then f16 else f32) .rn v)))))
  ∧ (∀ a b : Word,
    (let dx4 := b.getLsbD 2
     let e0 := (b.extractLsb' 16 8).toNat
     let e1 := (b.extractLsb' 24 8).toNat
     (b.getLsbD 3 = false → if finite32 a.toNat = true then
         ∃ f0 f1, headerFields dx4 ([2, 3, 4, 6].getD (b.extractLsb' 0 2).toNat 0) (magnitude32 a.toNat) f0 f1
           ∧ dxenc a b = BitVec.ofNat 32 (256 * f1 + f0)
       else dxenc a b = 0xFFFF#32)
     ∧ (b.getLsbD 3 = true → if finite32 a.toNat = true ∧ e0 ≠ 255 ∧ e1 ≠ 255 then
         ∃ sel sgn m, elementIs dx4 e0 e1 a.msb (magnitude32 a.toNat) sel sgn m ∧ dxenc a b = BitVec.ofNat 32 (codeOf dx4 sel sgn m)
       else dxenc a b = 0)))
  ∧ (∀ (hd sel sgn m : Nat), hd < 65536 → sel < 2 → sgn < 2 →
    (m < 64 → dxDecode 1 hd (128 * sel + 64 * sgn + m) =
      (let e := if sel = 0 then hd % 256 else hd / 256
       if e = 255 then .nan else if m = 0 then .fin false 0 0 else .fin (decide (sgn = 1)) m ((e : Int) - 132)))
    ∧ (m < 4 → dxDecode 2 hd (8 * sel + 4 * sgn + m) =
      (let e := if sel = 0 then hd % 256 else hd / 256
       if e = 255 then .nan else if m = 0 then .fin false 0 0 else .fin (decide (sgn = 1)) m ((e : Int) - 128))))

/-- R90: rounding a positive number (n / d) × 2^k to a layout. With b the largest finite pattern no larger than it and x its
value: toward zero gives b; away from zero gives b when it is exact, else the next pattern, which above the largest finite one
is infinity; to nearest gives b below the midpoint of b and the next pattern, the next above it, and the even one of the two
on it. The sign is the number's. -/
def Obligations.RoundingIsCorrect : Prop :=
  ∀ f ∈ [f32, f16, bf16], ∀ (neg : Bool) (n d : Nat) (k : Int) (b : Nat), 0 < n → 0 < d → floorPattern f n d k b →
    (let x := magnitude f b
     let y := magnitude f (b + 1)
     let e0 := min x.2 y.2
     let mid := x.1 * 2 ^ (x.2 - e0).toNat + y.1 * 2 ^ (y.2 - e0).toNat
     let twice := mid * d * 2 ^ (e0 - 1 - min (e0 - 1) k).toNat
     let it := n * 2 ^ (k - min (e0 - 1) k).toNat
     roundQ f .rz neg n d k = signed f neg b
     ∧ (atLeast x.1 x.2 n d k → ∀ m, roundQ f m neg n d k = signed f neg b)
     ∧ (¬ atLeast x.1 x.2 n d k → roundQ f (if neg then .rd else .ru) neg n d k = signed f neg (b + 1)
         ∧ roundQ f (if neg then .ru else .rd) neg n d k = signed f neg b)
     ∧ roundQ f .rn neg n d k =
         signed f neg (if it < twice then b else if twice < it then b + 1 else if b % 2 = 0 then b else b + 1))

/-! ### Memory words -/

/-- R213 and R129: where every lane's address passes the checks on this device, each lane's load enters the memory system at the
word's scope, an access for each aligned unit of 8 bytes, with the destination registers pending; PT rises by 1 for an acquire
at cohort scope or wider (Table 6-3). Nothing else changes but what the reads of tables leave in caches and slices (R345, R381). R123:
loads of one line share an entry of the collector where none waits for that line; that they join no sent one is the model's (log 9).
R138, R374, R375: where the addresses lead to another device the threads ask it first; once it has answered, the registers it brings
are on their way.
R148 and R220: a future load enters as an 8-byte access with its pair pending, and its thread is blocked in it. -/
def Obligations.LoadResults : Prop :=
  (∀ p ∈ globalLoads, ∀ (h : Hdr) (o : FM) (s : State) (iss : Issue) (t : Team) (x : Nat → Target) (sh : Nat → Shape × Nat),
    Issuing s iss t → LoadsReach s iss t o p.2.1 p.2.2 x sh →
    (let size := p.2.1
     let m := unitCount size
     let dest (k : Nat) : List Nat := (List.range (sh k).2).map (fun j => phys (reads iss t k).regs.level (o.d.toNat + j))
     let id (k i : Nat) : Nat := s.serial + m * earlier iss t o.g k + i
     let new (entry : Nat → Nat → Nat) : List Acc := (effective iss t o.g).flatMap (fun k =>
       (loadUnits size (dest k)).zipIdx.map (fun q =>
         { accessOf s iss t k (.load (sh k).1) (x k) q.1.2.1 (mScope o) (mOrdered o) false with
           id := id k q.2, entry := entry k q.2, loc := (x k).loc + q.1.1, aux := BitVec.ofNat 64 ((x k).va + q.1.1), dest := q.1.2.2 }))
     ∃ w entry, Looked s w ∧ shareEntries s (new entry) ∧
       exec (p.1 h o) s = .next { threadsBecome w iss.team (takesEffect iss t o.g) (fun k y => { y with
         pt := orderedPt (mScope o) (mOrdered o) false y,
         pend := y.pend ++ (loadUnits size (dest k)).zipIdx.map (fun q =>
           ⟨id k q.2, q.1.2.2.map (fun d => (d, 0)), false, 0, false, false⟩) }) with
       accs := s.accs ++ new entry,
       serial := s.serial + m * (effective iss t o.g).length }))
  ∧ (∀ p ∈ globalLoads, ∀ (h : Hdr) (o : FM) (s : State) (iss : Issue) (t : Team) (x : Nat → Target),
    Issuing s iss t →
    (RemoteReach s iss t o.g .load o.p.toNat (mDisp o p.2.1) p.2.1 x (fun _ => none) →
      ∃ u, Looked s u ∧ exec (p.1 h o) s = .next (asking u iss t o.g (fun k =>
        { s.accOf iss t k (.load p.2.2) (x k) p.2.1 with scope := mScope o, acquire := mOrdered o })))
    ∧ (∀ w : Nat → Answer, RemoteReach s iss t o.g .load o.p.toNat (mDisp o p.2.1) p.2.1 x (fun k => some (w k)) →
      (let ws (k : Nat) : List Word := answerWords p.2.2 p.2.1 (w k).data
       (∀ k ∈ effective iss t o.g, (w k).code = 0 ∧ (p.2.1 < 8 → (ws k).length = 2 → o.d.toNat % 2 = 0)) →
       ∃ u, Looked s u ∧ exec (p.1 h o) s = .next (answered u iss t o.g (mScope o) (mOrdered o) false (some (fun k =>
         (((List.range (ws k).length).map (fun j => phys (reads iss t k).regs.level (o.d.toNat + j))).zip (ws k))))))))
  ∧ (∀ (h : Hdr) (o : FM) (s : State) (iss : Issue) (t : Team) (x : Nat → Target),
    Issuing s iss t → StoresReach s iss t o.g .load o.p.toNat (mDisp o 8) 8 x →
    (let dest (k : Nat) : List Nat :=
       [phys (reads iss t k).regs.level o.d.toNat, phys (reads iss t k).regs.level (o.d.toNat + 1)]
     let id (k : Nat) : Nat := s.serial + earlier iss t o.g k
     let new (entry : Nat → Nat) : List Acc := (effective iss t o.g).map (fun k =>
       { accessOf s iss t k .ldf (x k) 8 (mScope o) (mOrdered o) false with id := id k, entry := entry k, dest := dest k })
     ∃ w entry, Looked s w ∧ shareEntries s (new entry) ∧
       exec (.ldf h o) s = .next { threadsBecome w iss.team (takesEffect iss t o.g) (fun k y => { y with
         pt := orderedPt (mScope o) (mOrdered o) false y, block := .ldf (id k),
         pend := y.pend ++ [⟨id k, (dest k).map (fun d => (d, 0)), false, 0, true, false⟩] }) with
       accs := s.accs ++ new entry,
       serial := s.serial + (effective iss t o.g).length }))

/-- R215: where every lane's address passes the checks on this device at a plain page, the bytes each lane stores are those of
Table 9-3 at the location its address leads to, at the word's scope; the team is marked as one that has written (the model marks it at
issue, log 22); nothing else changes but what the reads of tables leave in caches and slices, and no byte of
memory before the accesses are performed. Where the addresses lead to another device the threads ask it first, and go on when it has
answered (R375). -/
def Obligations.GlobalStoreResults : Prop :=
  ∀ p ∈ globalStores, ∀ (h : Hdr) (o : FM) (s : State) (iss : Issue) (t : Team) (x : Nat → Target),
    Issuing s iss t →
    (let bytes (k : Nat) : List (Nat × Byte × Byte) := (List.range p.2).map (fun i => ((x k).loc + i,
       ((reads iss t k).regs.get (o.d.toNat + i / 4)).extractLsb' (8 * (i % 4)) 8, 0xFF#8))
     (StoresReach s iss t o.g .store o.p.toNat (mDisp o p.2) p.2 x →
      ∃ v new, Looked s v ∧ exec (p.1 h o) s = .next { v with
          teams := s.teams.map (fun u => if u.id = iss.team ∧ effective iss t o.g ≠ [] then
            { u with written := true, threads := u.threads.mapIdx (fun k y => if takesEffect iss t o.g k then
                { y with pt := orderedPt (mScope o) false (mOrdered o) y } else y) } else u),
          accs := s.accs ++ new, serial := s.serial + new.length }
        ∧ shareEntries s new
        ∧ (∀ a ∈ new, a.tid ∈ effective iss t o.g ∧
            a = { accessOf s iss t a.tid .store (x a.tid) a.size (mScope o) false (mOrdered o) with
              id := a.id, entry := a.entry, loc := a.loc, wrote := a.wrote })
        ∧ ∀ k ∈ effective iss t o.g, (new.filter (fun a => decide (a.tid = k))).flatMap Acc.wrote = bytes k)
     ∧ (RemoteReach s iss t o.g .store o.p.toNat (mDisp o p.2) p.2 x (fun _ => none) →
       ∃ v, Looked s v ∧ exec (p.1 h o) s = .next (asking v iss t o.g (fun k =>
         { s.accOf iss t k .store (x k) p.2 with scope := mScope o, release := mOrdered o, wrote := bytes k })))
     ∧ (∀ w : Nat → Answer, RemoteReach s iss t o.g .store o.p.toNat (mDisp o p.2) p.2 x (fun k => some (w k)) →
       (∀ k ∈ effective iss t o.g, (w k).code = 0) →
       ∃ v, Looked s v ∧ exec (p.1 h o) s = .next (nowWritten (answered v iss t o.g (mScope o) false (mOrdered o) none) iss t o.g)))

/-- R216 to R218: STB at a rendezvous' completion. Where the checks of R217 pass for every group of 32 home lanes with an active
lane, the bytes stored are those of each group's block, the address being that of its lowest active lane; the store is relaxed, and
the team is marked as one that has written (at issue: log 22).
Nothing else changes but what the reads of tables leave in caches and slices. Where the first group of a home sheaf that fails is the only home sheaf's, its condition is raised in the lane that
gave its address, and nothing is stored. Where the slices do not serve a group's tables, or a migration holds its buffer, the home
sheaf's completion stalls (R368, R369, R372).
R217: the checks of a group after those of R111, FORMAT_STORE of FMTO and the translation, in their order, and the bytes written: on a
B1 page the word of 32 bits, each 0 where its value is a zero; on a DX page the header and the elements of encode_dx at the block's
positions, a DX4 element in its nibble. A value is binary32, read as R216 says. -/
def Obligations.BlockStoreResults : Prop :=
  (∀ (h : Hdr) (o : FM) (s : State) (iss : Issue) (t : Team) (x : Nat → Target) (ws : Nat → List (Nat × Byte × Byte)),
    Issuing s iss t → iss.completing = true →
    (let at_ (q : Nat × Nat × Nat) := s.stbWrites t.ctx (s.slotOf t) ((reads iss t q.2.2).s o.p.toNat) (mDisp o 1 (reads iss t q.2.2))
       (o.d.toNat % 4) ((blockValues o iss t q.1 q.2.1).map (fun v => unpack f32 v.toNat))
     let may (q : Nat × Nat × Nat) : Bool :=
       s.pathFree t.ctx ((reads iss t q.2.2).s o.p.toNat) (mDisp o 1 (reads iss t q.2.2))
       && !s.bufferHeld t.ctx (((reads iss t q.2.2).s o.p.toNat).extractLsb' 54 10).toNat
     ((∀ q ∈ stbGroups iss t o.g, at_ q = .ok (x q.2.2, ws q.2.2) ∧ onDevice (x q.2.2).route = true ∧ may q = true) →
      ∃ v new, Looked s v ∧ exec (.stb h o) s = .next { v with
          teams := s.teams.map (fun u => if u.id = iss.team ∧ stbGroups iss t o.g ≠ [] then { u with written := true } else u),
          accs := s.accs ++ new, serial := s.serial + new.length }
        ∧ shareEntries s new
        ∧ (∀ a ∈ new, ∃ q ∈ stbGroups iss t o.g,
            a = { s.accOf iss t q.2.2 .store (x q.2.2) a.size with id := a.id, entry := a.entry, loc := a.loc, wrote := a.wrote })
        ∧ ∀ q ∈ stbGroups iss t o.g, ((new.filter (fun a => decide (a.tid = q.2.2))).flatMap Acc.wrote).Perm (ws q.2.2))
     ∧ (∀ (q : Nat × Nat × Nat) (rest : List (Nat × Nat × Nat)) (e : Cond), stbGroups iss t o.g = q :: rest →
        (∀ r ∈ rest, r.1 = q.1) → at_ q = .error e → (∀ r ∈ q :: rest, may r = true) →
        (∀ r ∈ rest, ∀ y, at_ r = .ok y → onDevice y.1.route = true) →
        ∃ v, Looked s v ∧ exec (.stb h o) s = .next { v with
          issue := some { iss with trapped := iss.trapped ++ [⟨q.2.2, e.code, e.aux, iss.pc, false⟩] } })
     ∧ ((∃ q ∈ stbGroups iss t o.g, may q = false) → (∀ q ∈ stbGroups iss t o.g, ∀ r ∈ stbGroups iss t o.g, q.1 = r.1) →
        Stalls (exec (.stb h o) s))))
  ∧ (∀ (s : State) (ctx slot va gap : Nat) (ptr : DWord) (disp : Int) (xs : List Word) (x : Target) (p : Page), xs.length = 32 → gap < 4 →
    s.checked ctx slot (((ptr.extractLsb' 0 54).toNat : Int) + disp) 2 2 .store ptr = .ok va →
    s.target ctx slot ptr disp 2 2 .store = .ok x → x.page = some p → p.fmt < 4 →
    (let d := s.descOf ctx (ptr.extractLsb' 54 10).toNat
     let limit := ((dword d 1).extractLsb' 0 54).toNat
     let out := s.stbWrites ctx slot ptr disp gap (xs.map (fun v => unpack f32 v.toNat))
     let o := va % p.size
     let inside (n : Nat) : Bool := decide (o + dBase d ≤ va + n) && decide (va + n < o + dBase d + limit)
     let loc (n : Nat) : Nat := pageLoc d x.die p n
     let dx4 := decide (p.fmt = 2)
     let b := (o - pageData dx4 p.size) / 2
     let pos (i : Nat) : Nat := if p.geom = 0 then 32 * b + i else b / 32 * 1024 + 32 * i + b % 32
     let byte (i : Nat) : Nat := if dx4 then pos i / 2 else pos i
     ((dword d 2).getLsbD 4 = true → out = .error ⟨0x1D, 0⟩)
     ∧ ((dword d 2).getLsbD 4 = false →
       (p.fmt = 0 → out = .error ⟨0x1C, 0⟩)
       ∧ (p.fmt = 3 →
         (va % 4 ≠ 0 → out = .error ⟨0x14, ptr⟩)
         ∧ (va % 4 = 0 → (inside o && inside (o + 3)) = false → out = .error ⟨0x13, ptr⟩)
         ∧ (va % 4 = 0 → (inside o && inside (o + 3)) = true → ∀ c, s.memError x.loc 4 = some c → out = .error ⟨c, BitVec.ofNat 64 va⟩)
         ∧ (va % 4 = 0 → (inside o && inside (o + 3)) = true → s.memError x.loc 4 = none → ∃ w : Word,
             (∀ i < 32, w.getLsbD i = decide ((xs.getD i 0).toNat % 2 ^ 31 ≠ 0))
             ∧ out = .ok (x, (List.range 4).map (fun k => (x.loc + k, w.extractLsb' (8 * k) 8, 0xFF#8)))))
       ∧ (p.fmt = 1 ∨ p.fmt = 2 →
         (o < pageData dx4 p.size ∨ pageData dx4 p.size + 2 * pageBlocks dx4 p.size ≤ o → out = .error ⟨0x1C, 0⟩)
         ∧ (pageData dx4 p.size ≤ o → o < pageData dx4 p.size + 2 * pageBlocks dx4 p.size →
           (((List.range 32).all (fun i => inside (byte i))) = false → out = .error ⟨0x13, ptr⟩)
           ∧ (((List.range 32).all (fun i => inside (byte i))) = true →
             (let locs := [loc o, loc (o + 1)] ++ (List.range 32).map (fun i => loc (byte i))
              (∀ c, locs.findSome? (fun l => s.memError l 1) = some c → out = .error ⟨c, BitVec.ofNat 64 va⟩)
              ∧ ((∀ l ∈ locs, s.memError l 1 = none) → ∃ header codes, encodes dx4 ([2, 3, 4, 6].getD gap 0) xs header codes ∧
                out = .ok (x, [(loc o, BitVec.ofNat 8 header, 0xFF#8), (loc (o + 1), BitVec.ofNat 8 (header / 256), 0xFF#8)]
                  ++ (List.range 32).map (fun i =>
                    if dx4 = false then (loc (byte i), BitVec.ofNat 8 (codes.getD i 0), 0xFF#8)
                    else if pos i % 2 = 0 then (loc (byte i), BitVec.ofNat 8 (codes.getD i 0), 0x0F#8)
                    else (loc (byte i), BitVec.ofNat 8 (16 * codes.getD i 0), 0xF0#8)))))))))))

/-- R141, R221, R222: where every lane's address passes the checks, each atomic or reduction enters the memory system with the
operands of Table 9-5; an atomic's destination is pending; PT moves by Table 6-3 at the order and scope of the word; the team
is marked as one that has written (at issue: log 22). RED.F32.UNORD does so at host memory (which has no home slice: log 25) or where an
exact sum stands at the location, and asks for one elsewhere, again where its sum has retired since; where none could be had it raises
what the slice answered, with aux 0 (R143).
Where the addresses lead to another device the threads ask it first (R375). -/
def Obligations.AtomicResults : Prop :=
  ∀ p ∈ atomics, ∀ (h : Hdr) (o : FMA) (s : State) (iss : Issue) (t : Team) (x : Nat → Target), Issuing s iss t →
    (let typ := p.2.1
     let returns := p.2.2.1
     let size := if typ = 2 ∨ typ = 3 then 8 else 4
     let acq := o.ord.getLsbD 0
     let rel := o.ord.getLsbD 1
     let akind : AKind := if returns then .atom else .red
     let kind (k : Nat) : AccKind := atomKind o typ returns p.2.2.2 (reads iss t k)
     let needs (k : Nat) : Bool := p.2.2.2 && (x k).route != .host && !(s.die (homeOf (x k).loc)).sums.any (fun e => e.loc == (x k).loc)
     let dest (k : Nat) : List Nat := if returns then
         (List.range (size / 4)).map (fun j => phys (reads iss t k).regs.level (o.d.toNat + j)) else []
     let id (k : Nat) : Nat := s.serial + earlier iss t o.g k
     let new (entry : Nat → Nat) : List Acc := (effective iss t o.g).map (fun k =>
       { accessOf s iss t k (kind k) (x k) size o.scope.toNat acq rel with id := id k, entry := entry k, dest := dest k })
     let claims (k : Nat) : Prop := ∀ v, s.answerFor iss k = some v → v.code = 0 ∨ v.loc ≠ (x k).loc
     let asks (k : Nat) (what : AccKind) : Acc :=
       { s.accOf iss t k what (x k) size with scope := o.scope.toNat, acquire := acq, release := rel, dest := dest k }
     (StoresReach s iss t o.g akind o.p.toNat (fun _ => 0) size x → (∀ k ∈ effective iss t o.g, needs k = false) →
      ∃ u entry, Looked s u ∧ shareEntries s (new entry) ∧ exec (p.1 h o) s = .next { u with
        teams := s.teams.map (fun u => if u.id = iss.team ∧ effective iss t o.g ≠ [] then
          { u with written := true, threads := u.threads.mapIdx (fun k y => if takesEffect iss t o.g k then
              { y with pt := orderedPt o.scope.toNat acq rel y,
                       pend := if returns then y.pend ++ [⟨id k, (dest k).map (fun d => (d, 0)), false, 0, false, false⟩]
                         else y.pend }
              else y) } else u),
        accs := s.accs ++ new entry,
        serial := s.serial + (effective iss t o.g).length })
     ∧ (StoresReach s iss t o.g akind o.p.toNat (fun _ => 0) size x → (∀ k ∈ effective iss t o.g, needs k = true ∧ claims k) →
       ∃ u, Looked s u ∧ exec (p.1 h o) s = .next (asking u iss t o.g (fun k => asks k .claim)))
     ∧ (∀ w : Nat → Answer, StoresReach s iss t o.g akind o.p.toNat (fun _ => 0) size x →
       (∀ k ∈ effective iss t o.g, needs k = true ∧ s.answerFor iss k = some (w k) ∧ (w k).code ≠ 0 ∧ (w k).loc = (x k).loc) →
       ∃ u, Looked s u ∧ exec (p.1 h o) s = .next { u with issue := some { iss with
         trapped := iss.trapped ++ (effective iss t o.g).map (fun k => ⟨k, (w k).code, 0, iss.pc, false⟩) } })
     ∧ (RemoteReach s iss t o.g akind o.p.toNat (fun _ => 0) size x (fun _ => none) →
       ∃ u, Looked s u ∧ exec (p.1 h o) s = .next (asking u iss t o.g (fun k => asks k (kind k))))
     ∧ (∀ w : Nat → Answer, RemoteReach s iss t o.g akind o.p.toNat (fun _ => 0) size x (fun k => some (w k)) →
       (∀ k ∈ effective iss t o.g, (w k).code = 0) →
       ∃ u, Looked s u ∧ exec (p.1 h o) s = .next (nowWritten (answered u iss t o.g o.scope.toNat acq rel
         (if returns then some (fun k => (dest k).zip (plainWords .words (w k).data)) else none)) iss t o.g)))

/-- R133, R223, R224: a fence leaves PT at max(PT, LCT) + 1 at cohort scope and wider and as it was below; a thread that arrives
at a barrier waits there, and BAR.COHORT in a cohort of several teams is an act of the team on others. R224, Table 6-5: a team barrier at which every
live thread of the team waits lets them go, no earlier than 4 cycles after the last arrival; a cohort barrier at which every live thread of every
team of the cohort waits, none of them saved or discarded (R25, R338), lets them go no earlier than 48 cycles after it, each with its PT above
every PT and LCT among them (that it is the largest plus 1: DEDUCED, log 11); any other stays as it is. -/
def Obligations.FenceAndBarrierResults : Prop :=
  (∀ (h : Hdr) (o : FS) (s : State) (iss : Issue) (t : Team), Issuing s iss t →
    exec (.fence h o) s = .next (threadsBecome s iss.team (takesEffect iss t o.g) (fun _ x =>
      { x with pt := if o.scope.toNat < 4 then x.pt else max x.pt x.lct + 1 }))
    ∧ exec (.bar h o) s = .next { s with teams := s.teams.map (fun u => if u.id = iss.team then
        { u with
          threads := u.threads.mapIdx (fun k x => if takesEffect iss t o.g k then
            { x with block := .bar (o.scope == 4) s.cycle } else x),
          written := u.written || (o.scope == 4 && s.cohortSize t != 1 && !(effective iss t o.g).isEmpty) } else u) })
  ∧ (∀ (t : Team) (last : Nat),
    (let live (x : Thread) : Prop := x ∈ t.threads ∧ x.wait ≠ .ended
     ((¬∃ x, live x) ∨ (∃ x, live x ∧ ∀ c, x.block ≠ .bar false c) → t.teamBarrier = t)
     ∧ ((∃ x, live x ∧ x.block = .bar false last) → (∀ x, live x → ∃ c, c ≤ last ∧ x.block = .bar false c) →
       t.teamBarrier = { t with threads := t.threads.map (fun x => if x.wait = .ended then x else
         { x with block := .none, earliest := max x.earliest (last + 4) }) })))
  ∧ (∀ (s : State) (t : Team) (last high : Nat),
    (let live (x : Thread) : Prop := ∃ u ∈ s.teams, sameCohort t u = true ∧ x ∈ u.threads ∧ x.wait ≠ .ended
     let away : Prop := ∃ u ∈ s.teams, sameCohort t u = true ∧ ((∃ c, u.res = .saved c) ∨ u.res = .discarded)
     ((¬∃ x, live x) ∨ away ∨ (∃ x, live x ∧ ∀ c, x.block ≠ .bar true c) → s.cohortBarrier t = s)
     ∧ ((∃ x, live x ∧ x.block = .bar true last) → (∀ x, live x → ∃ c, c ≤ last ∧ x.block = .bar true c) → ¬away →
       (∃ x, live x ∧ max x.pt x.lct = high) → (∀ x, live x → x.pt ≤ high ∧ x.lct ≤ high) →
       s.cohortBarrier t = { s with teams := s.teams.map (fun u => if sameCohort t u = true then
         { u with threads := u.threads.map (fun x => if x.wait = .ended then x else
           { x with block := .none, earliest := max x.earliest (last + 48), pt := high + 1 }) } else u) })))

/-- R211, R219, R150: scratchpad loads and stores in the order of their checks (STORAGE_RANGE, MISALIGNED_ACCESS, ACC_BUSY);
loads read what the cycle found; stores in ascending TID.
R150 and R81: a scratchpad word written stands there unless a write of the cycle from a later slot, or of the same slot and a
higher TID, has been made to it; every other aligned word of scratchpad space is as it was. -/
def Obligations.ScratchpadResults : Prop :=
  (∀ (h : Hdr) (o : FM) (s : State) (iss : Issue) (t : Team), Issuing s iss t →
    (let at_ (size : Nat) (r : Reads) : Int := (r.s o.p.toNat).toNat + mDisp o size r
     let bad (size : Nat) (r : Reads) : Option (Nat × DWord) :=
       if at_ size r < 0 ∨ 2 ^ 32 ≤ at_ size r ∨ t.mapped (at_ size r).toNat size = false then some (0x20, 0)
       else if (at_ size r).toNat % size ≠ 0 then some (0x14, 0)
       else if t.busyRange (at_ size r).toNat size then some (0x21, 0)
       else none
     let off (size : Nat) (r : Reads) : Nat := (at_ size r).toNat
     exec (.ldsB32 h o) s = .next (lanesDo s iss t o.g (bad 4) (fun r => onThread r.tid (fun x =>
       { x with regs := x.regs.set o.d.toNat (t.readWord (off 4 r)) })))
     ∧ exec (.ldsB64 h o) s = .next (lanesDo s iss t o.g (bad 8) (fun r => onThread r.tid (fun x =>
       { x with regs := (x.regs.set o.d.toNat (t.readWord (off 8 r))).set (o.d.toNat + 1) (t.readWord (off 8 r + 4)) })))
     ∧ exec (.stsB32 h o) s = .next (lanesDo s iss t o.g (bad 4) (fun r u =>
       u.writeWord iss.slot r.tid (off 4 r) (r.v o.d)))
     ∧ exec (.stsB64 h o) s = .next (lanesDo s iss t o.g (bad 8) (fun r u =>
       (u.writeWord iss.slot r.tid (off 8 r) (r.v o.d)).writeWord iss.slot r.tid (off 8 r + 4) (r.regs.get (o.d.toNat + 1))))))
  ∧ (∀ (u : Team) (slot tid off : Nat) (w : Word), off % 4 = 0 →
    (let later := ∃ e ∈ u.wlog, e.1 = off ∧ (slot < e.2.1 ∨ (slot = e.2.1 ∧ tid < e.2.2))
     (¬ later → (u.writeWord slot tid off w).readWord off = w)
     ∧ (later → u.writeWord slot tid off w = u)
     ∧ ∀ a, a % 4 = 0 → a ≠ off → (u.writeWord slot tid off w).readWord a = u.readWord a))

/-- R211: a load, store or atomic whose address fails the checks of R111, of R343 or of R100 in every lane raises, in each, the condition
those checks find first, and has no other effect but what its reads of tables leave in caches and slices (R345, R381). R375: a condition
that another device answered is raised with the local pointer as aux.
The order of the checks and their codes: BUFFER_INVALID, BUFFER_OWNER, BUFFER_RIGHTS, BUFFER_BOUNDS, MISALIGNED_ACCESS with the pointer
as aux (R111, R112); a marked descriptor before them (R370, R386; its aux is DEDUCED, log 20); an owner kind of 3 is not translated (R374);
then the translation with the virtual address (R343), and the page's geometry (R100). Where the access goes: the page's bytes by the interleave of
the buffer (R113, R114), or host memory (R342).
R341 to R343: an entry of a walk with V = 0 raises PAGE_INVALID, 0x18, a malformed one PAGE_TABLE, 0x19; a leaf is the page; writing
a read-only page and fetching from a format or host page raise PAGE_PROTECT, 0x1A. -/
def Obligations.GlobalAccessConditions : Prop :=
  (∀ (h : Hdr) (s : State) (iss : Issue) (t : Team), Issuing s iss t →
    (let fails (g : BitVec 3) (ptr : Nat) (disp : Reads → Int) (size : Nat) (kind : AKind) (e : Reads → Cond) : Prop :=
       ∀ k ∈ effective iss t g, s.target t.ctx (s.slotOf t) ((reads iss t k).s ptr) (disp (reads iss t k)) size size kind =
         .error (e (reads iss t k))
     let raises (g : BitVec 3) (e : Reads → Cond) (r : Result) : Prop :=
       ∃ w, Looked s w ∧ r = .next { w with issue := some { iss with
           trapped := iss.trapped ++ conditions iss t g (fun r => some ((e r).code, (e r).aux)) } }
     let refuses (g : BitVec 3) (ptr : Nat) (w : Nat → Answer) (r : Result) : Prop :=
       ∃ v, Looked s v ∧ r = .next { v with issue := some { iss with trapped := iss.trapped ++ (effective iss t g).map (fun k =>
           ⟨k, (w k).code, (reads iss t k).s ptr, iss.pc, true⟩) } }
     let refused (g : BitVec 3) (w : Nat → Answer) : Prop := ∀ k ∈ effective iss t g, (w k).code ≠ 0 ∧ (w k).remote = true
     (∀ p ∈ globalLoads, ∀ (o : FM) (e : Reads → Cond), fails o.g o.p.toNat (mDisp o p.2.1) p.2.1 .load e →
       raises o.g e (exec (p.1 h o) s))
     ∧ (∀ p ∈ globalStores, ∀ (o : FM) (e : Reads → Cond), fails o.g o.p.toNat (mDisp o p.2) p.2 .store e →
       raises o.g e (exec (p.1 h o) s))
     ∧ (∀ (o : FM) (e : Reads → Cond), fails o.g o.p.toNat (mDisp o 8) 8 .load e → raises o.g e (exec (.ldf h o) s))
     ∧ (∀ p ∈ atomics, ∀ (o : FMA) (e : Reads → Cond),
       fails o.g o.p.toNat (fun _ => 0) (if p.2.1 = 2 ∨ p.2.1 = 3 then 8 else 4) (if p.2.2.1 then .atom else .red) e →
       raises o.g e (exec (p.1 h o) s))
     ∧ (∀ p ∈ globalLoads, ∀ (o : FM) (x : Nat → Target) (w : Nat → Answer), refused o.g w →
       RemoteReach s iss t o.g .load o.p.toNat (mDisp o p.2.1) p.2.1 x (fun k => some (w k)) →
       refuses o.g o.p.toNat w (exec (p.1 h o) s))
     ∧ (∀ p ∈ globalStores, ∀ (o : FM) (x : Nat → Target) (w : Nat → Answer), refused o.g w →
       RemoteReach s iss t o.g .store o.p.toNat (mDisp o p.2) p.2 x (fun k => some (w k)) →
       refuses o.g o.p.toNat w (exec (p.1 h o) s))))
  ∧ (∀ (s : State) (ctx slot size align : Nat) (ptr : DWord) (disp : Int) (kind : AKind),
    (let idx := (ptr.extractLsb' 54 10).toNat
     let c := s.ctx ctx
     let desc := s.descOf ctx idx
     let w (k lo n : Nat) : Nat := ((dword desc k).extractLsb' lo n).toNat
     let off : Int := ((ptr.extractLsb' 0 54).toNat : Int) + disp
     let va := w 0 0 54 + off.toNat
     let die := c.vdie (w 3 4 2)
     let malformed : Bool := !(dword desc 0).getLsbD 63 || w 0 54 9 != 0 || w 1 54 10 != 0 || w 2 21 43 != 0 || w 2 5 3 != 0
       || w 3 24 40 != 0 || w 3 6 2 != 0 || w 0 0 8 != 0 || decide (8 < w 3 0 4) || w 3 16 8 == 0
       || decide (die.elim 0 Config.channels < w 3 8 8 + w 3 16 8)
       || ((w 2 8 2 == 0 || w 2 8 2 == 2) && w 2 10 11 != 0) || (w 2 8 2 == 1 && decide (63 < w 2 10 11))
     let owned : Bool := w 2 8 2 == 0 || (w 2 8 2 == 1 && w 2 10 11 == slot) || w 2 8 2 == 3
     let right (k : Nat) : Bool := (dword desc 2).getLsbD k
     let allowed : Bool := match kind with
       | .load => right 0
       | .store => right 1
       | .fetch => right 2
       | .atom => right 3 && right 0 && right 1
       | .red => right 3 && right 1
     let fails : List (Bool × Nat) := [(malformed, 0x10), (!owned, 0x11), (!allowed, 0x12),
       (decide (off < 0) || decide (((w 1 0 54 : Nat) : Int) < off + size) || decide (2 ^ 54 ≤ va), 0x13), (va % align != 0, 0x14)]
     s.target ctx slot ptr disp size align kind = (match s.descError ctx idx with
       | some code => .error ⟨code, ptr⟩
       | none => match fails.find? Prod.fst with
         | some x => .error ⟨x.2, ptr⟩
         | none => if w 2 8 2 = 3 then .ok ⟨idx, desc, va, die.getD 0, none, .remote (w 2 10 11) va, 0, ptr⟩
           else match s.translate ctx (die.getD 0) va kind with
             | .error e => .error e
             | .ok p =>
               if 2 ≤ p.geom ∨ (p.geom ≠ 0 ∧ (p.fmt = 0 ∨ p.fmt = 3)) then .error ⟨0x1C, 0⟩
               else
                 let a := p.addr + va % p.size
                 let g := 256 * 2 ^ w 3 0 4
                 .ok ⟨idx, desc, va, die.getD 0, some p, if p.host then .host else if p.strm then .strm else .coherent,
                   if p.host then 2 ^ 70 + a
                   else (die.getD 0 * 256 + (w 3 8 8 + a / g % w 3 16 8)) * 2 ^ 54 + (a / g / w 3 16 8 * g + a % g), ptr⟩)))
  ∧ (∀ (s : State) (ctx die va : Nat) (kind : AKind),
    (let root := (s.ctx ctx).ptroot
     let no (code : Nat) : Except Cond Page := .error ⟨code, BitVec.ofNat 64 va⟩
     s.translate ctx die va kind = (match walk s ctx (root.extractLsb' 56 2).toNat (Config.capacity die) va 4 (root.extractLsb' 0 54).toNat with
       | .error e => .error e
       | .ok p => if p.ro = true ∧ (kind = .store ∨ kind = .atom ∨ kind = .red) then no 0x1A
         else if kind = .fetch ∧ (p.fmt ≠ 0 ∨ p.host = true) then no 0x1A
         else .ok p)
     ∧ ∀ (n tdie cap table : Nat), n ≤ 4 →
       (let shift (n : Nat) : Nat := [16, 21, 30, 39, 48].getD n 0
        let entries (n : Nat) : Nat := [32, 512, 512, 512, 64].getD n 0
        let at_ := table + 8 * (va / 2 ^ shift n % entries n)
        let e : DWord := BitVec.ofNat 64 (ofBytes (s.cachedWord ctx at_ false (s.dpaBytes tdie at_ 8)))
        let addr := (e.extractLsb' 8 46).toNat * 256
        let leaf := e.getLsbD 62
        let malformed : Bool := e.getLsbD 54 || e.extractLsb' 0 8 != 0 || (leaf && decide (3 ≤ n)) || (!leaf && n == 0)
          || (!leaf && (e.extractLsb' 55 7 != 0 || addr % (8 * entries (n - 1)) != 0
            || decide (Config.capacity tdie < addr + 8 * entries (n - 1))))
          || (leaf && (addr % 2 ^ shift n != 0
            || (if e.getLsbD 59 then e.extractLsb' 55 4 != 0 || e.getLsbD 61 else decide (cap < addr + 2 ^ shift n))))
        walk s ctx tdie cap va n table = (match s.memError (dpaLoc tdie at_) 8 with
          | some code => no code
          | none => if e.getLsbD 63 = false then no 0x18
            else if malformed then no 0x19
            else if leaf = true then .ok ⟨addr, 2 ^ shift n, e.getLsbD 61, e.getLsbD 59, (e.extractLsb' 57 2).toNat, (e.extractLsb' 55 2).toNat,
              e.getLsbD 60⟩
            else walk s ctx tdie cap va (n - 1) addr))))

/-! ### Control -/

/-- R201 and R159: a guard-true thread whose target passes goes there, CALL linking in v63 and CALLI in D; one whose target fails
raises its condition with no link written; every other thread and all else is as it was. A .RG form then makes its regroup event
(the statement LevelAndRegroupResults). Where a slice does not serve the target's fetch the issue stalls (R368, R369). -/
def Obligations.TransferResults : Prop :=
  ∀ (h : Hdr) (s : State) (iss : Issue) (t : Team), Issuing s iss t →
    (∀ o : FB,
      (let p : Reads → BitVec 64 := fun _ => displaced iss o.disp
       Transfers s iss t o.g p (jumps s iss t o.g none p) (exec (.bra h o) s)
       ∧ Transfers s iss t o.g p (jumps s iss t o.g none p).regroupEvent (exec (.braRg h o) s)
       ∧ Transfers s iss t o.g p (jumps s iss t o.g (some 63) p) (exec (.call h o) s)))
    ∧ (∀ o : FV3,
      (let p := inRegister o.a
       Transfers s iss t o.g p (jumps s iss t o.g (some o.d.toNat) p) (exec (.calli h o) s)
       ∧ Transfers s iss t o.g p (jumps s iss t o.g none p) (exec (.jmpi h o) s)
       ∧ Transfers s iss t o.g p (jumps s iss t o.g none p).regroupEvent (exec (.jmpiRg h o) s)
       ∧ Transfers s iss t o.g p (jumps s iss t o.g none p) (exec (.ret h o) s)))

/-- R69 and R202: LOOP raises and ENDLOOP lowers each guard-true thread's level by one; at level D, or 0, it raises LOOP_DEPTH.
R205, R206, R52, R47: REGROUP makes a regroup event in the slot of the issuing sub-sheaf, of its threads that nothing has stopped and
that wait at no join (which threads of the sub-sheaf it takes is the model's reading: DEDUCED, log 19), with the sub-sheaf's lowest TID, and has
no other effect; at the cycle's end it divides those that still go on (log 19) by next PC, pools the groups of fewer than W/2 with stamp c + 1
while the pool has room, keeps the others, and absorbs pooled threads at each PC it kept. REORDER makes each guard-true thread wait with key
A[15:0]; R58: when every live thread waits so, its accesses performed at team scope (R151), they are sorted by (key, TID) and placed in runs of W
in the slots from 0 on, the first issue no earlier than 8 + ⌈N / 64⌉ cycles later. NOP changes nothing.
R209: YIELD of a resident team begins its save when it may be saved and a waiting team of no lower priority wants the room, and
else changes nothing. -/
def Obligations.LevelAndRegroupResults : Prop :=
  (∀ (h : Hdr) (o : FN) (s : State) (iss : Issue) (t : Team), Issuing s iss t →
    exec (.loop h o) s = .next (lanesDo s iss t o.g
      (fun r => firstOf [(decide (t.depth ≤ r.regs.level), 0x06)])
      (fun r => onThread r.tid (fun x => { x with regs := { x.regs with level := r.regs.level + 1 } })))
    ∧ exec (.endloop h o) s = .next (lanesDo s iss t o.g
      (fun r => firstOf [(decide (r.regs.level = 0), 0x06)])
      (fun r => onThread r.tid (fun x => { x with regs := { x.regs with level := r.regs.level - 1 } }))))
  ∧ (∀ (h : Hdr) (s : State) (iss : Issue) (t : Team), Issuing s iss t →
    (∀ o : FN,
      exec (.regroup h o) s = .next { s with teams := s.teams.map (fun u => if u.id = iss.team then
        (let mine := (List.range u.threads.length).filter (fun k => iss.tids.contains k)
         let atJoin (k : Nat) : Bool := match (u.threads[k]?).map Thread.wait with | some (.join _) => true | _ => false
         { u with regroups := u.regroups ++
             [⟨iss.slot, mine.filter (fun k => !iss.suppressed.contains k && !atJoin k), mine.headD 0⟩] }) else u) }
      ∧ exec (.nop h) s = .next s
      ∧ exec (.yield h o) s = .next (match s.team? iss.team with
        | none => s
        | some u => if effective iss t o.g ≠ [] ∧ u.res = .resident ∧ s.maySave u 0 = true ∧ s.wanted u = true then s.beginSave u
            else s))
    ∧ ∀ o : FV3, exec (.reorder h o) s = .next (threadsBecome s iss.team (takesEffect iss t o.g) (fun k x =>
        { x with wait := .reorder (((reads iss t k).v o.a).extractLsb' 0 16).toNat })))
  ∧ (∀ (t : Team) (e : RegroupEv) (cycle : Nat) (ps : List (BitVec 64)),
    (let xs := e.tids.filter (fun k => (t.threads[k]?).any (fun x => decide (x.wait = .none ∧ x.block = .none)))
     NextWords t xs ps → t.regroup e cycle =
       (dividing xs (cycle + 1) ps t).2.foldl (fun u p => absorbing e.slot p u) (dividing xs (cycle + 1) ps t).1))
  ∧ (∀ (t : Team) (cycle : Nat) (late order : List Nat) (key : Nat → Nat), (∀ (k : Nat) (x : Thread), t.threads[k]? = some x → x.tid = k) →
    (∀ k, k ∈ order ↔ ∃ x, t.threads[k]? = some x ∧ x.wait ≠ .ended) → order.Pairwise (fun a b => key a < key b ∨ (key a = key b ∧ a < b)) →
    (order = [] ∨ (∃ k ∈ order, k ∈ late ∨ ∃ x, t.threads[k]? = some x ∧ ∀ n, x.wait ≠ .reorder n) → t.reorder cycle late = t)
    ∧ (order ≠ [] → 0 < t.width → (∀ k ∈ order, k ∉ late ∧ ∃ x, t.threads[k]? = some x ∧ x.wait = .reorder (key k)) →
      t.reorder cycle late =
        (List.range ((order.length + t.width - 1) / t.width)).foldl (fun u i =>
          placing i ((List.range t.threads.length).filter ((order.drop (i * t.width)).take t.width).contains) u)
        { t with threads := t.threads.mapIdx (fun k x => if k ∈ order then
            { x with wait := .none, place := none, earliest := max x.earliest (cycle + 8 + (order.length + 63) / 64) } else x) }))

/-- R42, R43, R45, R203, R204: JSET puts each guard-true thread in E of its home sheaf's record; JOIN puts an expected one in A,
where it waits, and lets another pass; LEAVE takes it out of the slots of its range and branches in one step, or raises the
target's condition and changes no record, or stalls the issue where a slice does not serve the target's fetch. A .RG form then
makes its regroup event. R44: a record that completes empties; its members go on, no earlier than 2 cycles later; where its last update is an
arrival by JOIN.RG their groups below W/2 are pooled; those kept take their home lanes of the slot one at a time, exchanging with who
holds them, and after JOIN.RG pooled threads at their PCs are absorbed. R47: at a cycle's end the records that are complete, the accesses of their
members performed at sheaf scope (R151), and the regroup events are taken in one sequence: by slot, joins by their last update's TID, then
events by lowest TID. -/
def Obligations.JoinRecords : Prop :=
  (∀ (h : Hdr) (o : FJ) (s : State) (iss : Issue) (t : Team), Issuing s iss t →
    (let leave := lanesDo s iss t o.g (badJump s t (fun _ => displaced iss o.disp)) (fun r u =>
       onThread r.tid (fun x => { x with pc := displaced iss o.disp })
         (onSheaf r.sheaf (released r.tid o.ja.toNat o.jb.toNat) u))
     exec (.jset h o) s = .next (lanesDo s iss t o.g (fun _ => none) (fun r => onSheaf r.sheaf (expecting r.tid o.ja.toNat)))
     ∧ exec (.join h o) s = .next (lanesDo s iss t o.g (fun _ => none) (arriving o.ja.toNat false))
     ∧ exec (.joinRg h o) s = .next (lanesDo s iss t o.g (fun _ => none) (arriving o.ja.toNat true)).regroupEvent
     ∧ Transfers s iss t o.g (fun _ => displaced iss o.disp) leave (exec (.leave h o) s)
     ∧ Transfers s iss t o.g (fun _ => displaced iss o.disp) leave.regroupEvent (exec (.leaveRg h o) s)))
  ∧ (∀ (t : Team) (h k cycle : Nat) (f : Sheaf) (j : JoinRec), t.sheaves[h]? = some f → f.joins[k]? = some j →
    (let u : Team := onSheaf h (fun f => { f with joins := f.joins.mapIdx (fun i j => if i = k then ⟨[], [], none⟩ else j) })
       { t with threads := t.threads.mapIdx (fun i x => if i ∈ j.a then
           { x with wait := .none, earliest := max x.earliest (cycle + 2) } else x) }
     ((∀ m, j.last ≠ some (m, true)) → t.joinDone h k cycle = j.a.foldl (fun u x => exchanging h x u) u)
     ∧ (∀ m ps, j.last = some (m, true) → NextWords u j.a ps →
       (let q := dividing j.a (cycle + 1) ps u
        let kept := j.a.filter (fun x => (q.1.threads[x]?).any (fun y => match y.wait with | .pooled _ => false | _ => true))
        t.joinDone h k cycle = q.2.foldl (fun u p => absorbing h p u) (kept.foldl (fun u x => exchanging h x u) q.1)))))
  ∧ (∀ (t : Team) (cycle : Nat) (late : List Nat),
    (let full (j : JoinRec) : Prop := j.e ≠ [] ∧ j.a = j.e
     ∃ acts : List Action, acts.Pairwise inTurnOf
       ∧ (∀ h k m, .join h k m ∈ acts ↔ ∃ f j, t.sheaves[h]? = some f ∧ f.joins[k]? = some j ∧ full j ∧ (∀ x ∈ j.a, x ∉ late)
           ∧ m = (j.last.map Prod.fst).getD 0)
       ∧ (acts.filterMap (fun a => match a with | .regroup e => some e | _ => none)).Perm t.regroups
       ∧ (acts.filterMap (fun a => match a with | .join h k _ => some (h, k) | _ => none)).Nodup
       ∧ (let u := acts.foldl (fun u a => match a with | .join h k _ => u.joinDone h k cycle | .regroup e => u.regroup e cycle) t
          t.placements cycle late = { u with regroups := [], sheaves := u.sheaves.map (fun f =>
            { f with joins := f.joins.map (fun j => if j.e ≠ [] ∧ j.a = j.e then j else { j with last := none }) }) })))

/-- R22, R207: EXIT ends each guard-true thread, or where its group blocks in a memory word makes it end when that has taken
effect. A thread with no record bound that ends keeps no pending write, leaves its sheaf and every expected set of its home
sheaf, and counts in E of the team's progress (R329).
R60, R208: EXIT.NEXT without a displacement is EXIT. Otherwise a thread whose target passes and whose entry has a row in the
successor table restarts there: out of every expected set of its home sheaf, with the registers of level 0 its keep mask keeps,
level 0 and flags clear, pooled at the entry or staying in its lane where the pool cannot take it, its next issue at least 17
cycles away; without a row it raises ENTRY_UNKNOWN. Where a slice does not serve the entry's fetch or the table the issue stalls. That a
condition met reading the successor table is raised as one of EXIT.NEXT, and that every row up to the entry's is read, is the model's
(DEDUCED, log 20). -/
def Obligations.ThreadEnds : Prop :=
  ((∀ (h : Hdr) (o : FN) (s : State) (iss : Issue) (t : Team), Issuing s iss t →
    exec (.exit h o) s = .next (if iss.words.any (fun w => mayBlock w.i) then
        threadsBecome s iss.team (takesEffect iss t o.g) (fun _ x => { x with wait := .leaving false })
      else inTurn iss t (effective iss t o.g) (fun _ _ => none) (fun r u => u.endThread iss.team r.tid false) s))
  ∧ ∀ (s : State) (t : Team) (tid : Nat) (x : Thread) (passed : Bool), s.team? t.id = some t → t.threads[tid]? = some x →
      t.boundRec tid = none →
      (let ended (u : Team) : Team :=
         { onSheaf (tid / t.width) (forgotten tid) (onThread tid (fun x => { x with
             wait := .ended, block := .none, place := none, pend := [], marker := [], asked := none }) u) with
           progE := u.progE + 1 }
       (s.endThread t.id tid passed).teams = s.teams.map (fun u => if u.id = t.id then
         (let v := ended u
          if u.baton = some (tid / u.width) ∧ (v.threads.filter (fun y => y.tid / u.width == tid / u.width)).all
            (fun y => y.wait == .ended) then v.passBaton s.cycle else v) else u)))
  ∧ (∀ (h : Hdr) (o : FB) (s : State) (iss : Issue) (t : Team) (l : Launch), Issuing s iss t → s.launch? t.launch = some l →
    (o.disp = 0 → exec (.exitNext h o) s = exec (.exit h ⟨o.g⟩) s)
    ∧ (o.disp ≠ 0 →
      let p := displaced iss o.disp
      let rows := ((l.ext.getD 7 0).extractLsb' 0 16).toNat
      let row := succRow s t (l.ext.getD 6 0) p.toNat rows 0
      let served : Bool := s.fetchFree t p && s.succFree t (l.ext.getD 6 0) rows
      (served = false → effective iss t o.g ≠ [] → Stalls (exec (.exitNext h o) s))
      ∧ (served = true → (∀ k < rows, ∀ x, s.target t.ctx (s.slotOf t) (l.ext.getD 6 0) ((16 * k : Nat) : Int) 8 8 .load = .ok x →
          x.route = .strm → (s.dirOf (lineOf x.loc)).host = .hi) → ∃ w, Looked s w ∧ exec (.exitNext h o) s = .next (lanesDo w iss t o.g
        (fun r => match badJump s t (fun _ => p) r with
          | some e => some e
          | none => match row with
            | .error e => some (e.code, e.aux)
            | .ok none => some (0x05, 0)
            | .ok (some _) => none)
        (fun r u => match row with
          | .ok (some keep) => (onThread r.tid (fun x => { x with
              earliest := s.cycle + 17,
              regs := ⟨x.regs.v.filter (fun q => decide (q.1 < 64) && keep.getLsbD q.1), 0,
                [⟨false, false, false, false⟩, ⟨false, false, false, false⟩, ⟨false, false, false, false⟩,
                 ⟨false, false, false, false⟩]⟩ })
              (onSheaf r.sheaf (forgotten r.tid) u)).poolThread r.tid p (s.cycle + 1)
          | _ => u)))))

/-! ### Engines and the matrix path -/

/-- R227, R228: an asynchronous word whose electing thread's token is not pending, whose class counter has room and whose buffers
no migration holds checks its parameters, in the order of R228, Tables 9-6, 9-7, 10-8 and 16-8 (R229, R231, R259, R376); where they pass,
an operation with those parameters and descriptors starts, counted, with its token pending (R73). A copy of no bytes completes at once
(R229), a WLOAD tags its slots (R259).
R227, R258: the electing threads of several home sheaves issue their operations in turn, each as if it alone elected, on the state
the ones before it left; a word whose token is pending or whose counter is full stalls the issue, as one does whose descriptor or
group entry no slice serves (R368, R369); a failed check raises its condition, what it read left in caches and slices (R110, R381); a WLOAD onto a locked slot keeps the threads of its
home sheaf and of the later ones before the group. That the checks come before that wait is the model's choice (log 25). -/
def Obligations.EngineIssues : Prop :=
  (∀ p ∈ engineWords, ∀ (h : Hdr) (o : FA) (s : State) (iss : Issue) (t u : Team) (f : Sheaf) (k : Nat)
      (coll : Option (Nat × Nat × Nat × Nat)), Issuing s iss t → electing iss t o.g = [k] → s.team? iss.team = some u →
    u.sheaves[k / t.width]? = some f →
    (let r := reads iss t k
     let params := (List.range p.2.2.1).map (fun i => r.s (o.p.toNat + i))
     let ptrs := p.2.2.2.1 params
     f.tokens.all (fun q => q.1 != o.t.toNat) = true → (f.out.filter (fun q => q.cls == p.2.1)).length < 63 →
     ptrs.all (fun i => !s.bufferHeld t.ctx ((params.getD i 0).extractLsb' 54 10).toNat
       && s.descFree t.ctx ((params.getD i 0).extractLsb' 54 10).toNat) = true →
     (p.2.1 = 3 → groupServed s t.ctx params = true) →
     p.2.2.2.2.1 u s params = .ok coll → p.2.2.2.2.2.1 u s params = false →
     let op : Op := {
       serial := s.serial, kind := p.2.1, team := iss.team, sheaf := k / t.width, tid := k, ctx := t.ctx, launch := t.launch,
       die := t.die, core := t.core, pc := iss.pc, token := o.t.toNat, scope := o.sub.toNat, params := params,
       descs := ptrs.map (fun i => (i, s.descOf t.ctx ((params.getD i 0).extractLsb' 54 10).toNat)),
       p := ((s.thread? iss.team k).map Thread.pt).getD 0, after := s.serial, since := s.cycle, paused := none, coll := coll,
       sent := false, result := none, final := none, taken := [], landed := [], wts := 0 }
     ∃ w, Looked s w ∧ exec (p.1 h o) s = .next (p.2.2.2.2.2.2 iss op { w with
       teams := s.teams.map (fun v => if v.id = iss.team then onSheaf (k / t.width) (fun f => { f with
           out := f.out ++ [⟨p.2.1, s.serial, false, 0⟩], tokens := f.tokens ++ [(o.t.toNat, s.serial)],
           tokenW := serase f.tokenW o.t.toNat }) v else v),
       serial := s.serial + 1, ops := s.ops ++ [op] })))
  ∧ (∀ p ∈ engineWords, ∀ (h : Hdr) (o : FA) (s : State) (iss : Issue) (t : Team), Issuing s iss t →
    exec (p.1 h o) s = .next ((electing iss t o.g).foldl (fun v k =>
      let u := (v.team? iss.team).getD t
      let f := (u.sheaves[k / t.width]?).getD Sheaf.reset
      let r := reads iss t k
      let params := (List.range p.2.2.1).map (fun i => r.s (o.p.toNat + i))
      let ptrs := p.2.2.2.1 params
      if f.tokens.any (fun q => q.1 == o.t.toNat) ∨ 63 ≤ (f.out.filter (fun q => q.cls == p.2.1)).length
          ∨ ptrs.any (fun i => v.bufferHeld t.ctx ((params.getD i 0).extractLsb' 54 10).toNat
            || !v.descFree t.ctx ((params.getD i 0).extractLsb' 54 10).toNat)
          ∨ (p.2.1 = 3 ∧ groupServed v t.ctx params = false) then v.stall
      else
        let seen := checkReads v t.ctx p.2.1 params (ptrs.map (fun i => ((params.getD i 0).extractLsb' 54 10).toNat))
        match p.2.2.2.2.1 u v params with
        | .error e => seen.raise k e.code e.aux
        | .ok coll =>
          if p.2.2.2.2.2.1 u v params then { seen with issue := v.issue.map (fun i => { i with
              waiting := i.waiting ++ iss.tids.filter (fun x => decide (k / t.width ≤ x / t.width)) }) }
          else
            let op : Op := {
              serial := v.serial, kind := p.2.1, team := iss.team, sheaf := k / t.width, tid := k, ctx := t.ctx,
              launch := t.launch, die := t.die, core := t.core, pc := iss.pc, token := o.t.toNat, scope := o.sub.toNat,
              params := params, descs := ptrs.map (fun i => (i, v.descOf t.ctx ((params.getD i 0).extractLsb' 54 10).toNat)),
              p := ((v.thread? iss.team k).map Thread.pt).getD 0, after := v.serial, since := v.cycle, paused := none,
              coll := coll, sent := false, result := none, final := none, taken := [], landed := [], wts := 0 }
            p.2.2.2.2.2.2 iss op { seen with
              teams := v.teams.map (fun y => if y.id = iss.team then onSheaf (k / t.width) (fun f => { f with
                out := f.out ++ [⟨p.2.1, v.serial, false, 0⟩], tokens := f.tokens ++ [(o.t.toNat, v.serial)],
                tokenW := serase f.tokenW o.t.toNat }) y else y),
              serial := v.serial + 1, ops := v.ops ++ [op] }) s))

/-- R146, R233: a thread whose home sheaf's counter of the class is at most n goes on with PT raised to the write times of the
operations that have left the counter; another waits.
R256: a thread waits until every operation of batch n and the batches before it has finished; a number above the team's last
raises ASYNC_PARAM; batch 0 does not wait.
R248: TAKE gives a free baton to the home sheaf, changes nothing for its holder, and makes the guard-true threads of another
wait; PASS by the holder passes it to the waiting home sheaf of oldest wait, the lower of equals, whose threads go on no earlier
than 2 cycles later, or frees it; PASS by another raises BATON_STATE in its lowest guard-true thread. A thread that a word of the
group stops takes no part (R158). R151: a PASS whose threads have accesses that are not performed at team scope frees the baton of its
holder, for no home sheaf, and passes it once they are performed. -/
def Obligations.WaitsAndBaton : Prop :=
  ((∀ (h : Hdr) (o : FK) (s : State) (iss : Issue) (t : Team), Issuing s iss t →
    exec (.waitc h o) s = .next (threadsBecome s iss.team (takesEffect iss t o.g) (fun k x =>
      match (standing s iss t).sheaves[k / t.width]? with
      | none => x
      | some f =>
        if (f.out.filter (fun q => q.cls == o.cls.toNat)).length ≤ o.n.toNat then
          { x with wait := .none, pt := max x.pt (f.topW.getD o.cls.toNat 0) }
        else { x with wait := .waitc o.cls.toNat o.n.toNat })))
  ∧ (∀ (h : Hdr) (o : FA) (s : State) (iss : Issue) (t : Team), Issuing s iss t →
    (let u := standing s iss t
     let n (r : Reads) := (r.s o.p.toNat).toNat
     exec (.waitb h o) s = .next (lanesDo s iss t o.g (fun r => firstOf [(decide (u.batches < n r), 0x22)])
       (fun r => onThread r.tid (fun x =>
         if u.mops.any (fun m => m.batch.any (fun b => decide (b ≤ n r))) then { x with wait := .waitb (n r) } else x))))))
  ∧ ((∀ (h : Hdr) (o : FN) (s : State) (iss : Issue) (t : Team), Issuing s iss t →
    exec (.batonTake h o) s = .next (inTurn iss t (acting iss t o.g) (fun _ _ => none) (fun r v =>
      match (standing v iss t).baton with
      | none => { v with teams := v.teams.map (fun u => if u.id = iss.team then { u with baton := some r.sheaf } else u) }
      | some b => if b = r.sheaf then v else
          threadsBecome v iss.team (fun k => takesEffect iss t o.g k && k / t.width == r.sheaf)
            (fun _ x => { x with wait := .baton s.cycle })) s)
    ∧ exec (.batonPass h o) s = .next (inTurn iss t (acting iss t o.g)
      (fun r v => firstOf [((standing v iss t).baton != some r.sheaf, 0x23)])
      (fun r v => { v with teams := v.teams.map (fun u => if u.id = iss.team then
        (let late := (v.accs.filter (fun a => a.team == iss.team && !a.parked && a.stage == .waiting
           && (effective iss t o.g).any (fun k => k / t.width == r.sheaf && k == a.tid))).map Acc.id
         if late = [] then u.passBaton s.cycle else { u with baton := some u.sheaves.length, passing := late }) else u) }) s))
  ∧ (∀ (s : State) (u : Team), s.passWaiting u =
      (if u.passing = [] ∨ ∃ a ∈ s.accs, a.id ∈ u.passing ∧ a.stage = .waiting then s
       else { s with teams := s.teams.map (fun v => if v.id = u.id then v.passBaton s.cycle else v) }))
  ∧ ∀ (u : Team) (cycle : Nat),
      ((∀ x ∈ u.threads, ∀ c, x.wait ≠ .baton c) → u.passBaton cycle = { u with baton := none, passing := [] })
      ∧ ∀ (x : Thread) (c : Nat), x ∈ u.threads → x.wait = .baton c →
          (∀ y ∈ u.threads, ∀ d, y.wait = .baton d → c < d ∨ (c = d ∧ x.tid / u.width ≤ y.tid / u.width)) →
          u.passBaton cycle = { u with
            baton := some (x.tid / u.width), passing := [],
            threads := u.threads.map (fun y => match y.wait with
              | .baton _ => if y.tid / u.width = x.tid / u.width then
                  { y with wait := .none, earliest := max y.earliest (cycle + 2) } else y
              | _ => y) })

/-- R252 and R255: for each electing thread in turn, on the state the ones before it left, MMA.ISSUE stalls where the home sheaf's counter
is 63 or the team has 64 operations that have not finished; one that passes its checks, in their order, copies the parameter block of 64
bytes into an operation of the open batch and counts it; a check that fails raises its condition. MMA.COMMIT stalls while 8 committed
batches have not completed (before it looks at the baton: log 25); by the holder it numbers the open batch
next and writes the number to s(T) of the home sheaf, and by another it raises BATON_STATE.
R261, R262: LDACC delivers the element's bits, STACC writes D to it, and ACCZ clears COUNT tiles from FIRST for each electing
thread, each after its checks; STACC and ACCZ as scratchpad writes (R150). -/
def Obligations.MatrixResults : Prop :=
  (∀ (h : Hdr) (o : FA) (s : State) (iss : Issue) (t : Team), Issuing s iss t →
    exec (.mmaIssue h o) s = .next ((electing iss t o.g).foldl (fun v k =>
      let u := standing v iss t
      let at_ := ((reads iss t k).s o.p.toNat).toNat
      let block := (List.range 8).map (fun j => BitVec.ofNat 64 (ofBytes ((List.range 8).map (fun i => sget 0 t.scratch (at_ + 8 * j + i)))))
      if 63 ≤ (((u.sheaves[k / t.width]?).getD Sheaf.reset).out.filter (fun q => q.cls == 1)).length ∨ 64 ≤ u.mops.length then v.stall
      else match (matrixFails u (k / t.width) at_ block).find? Prod.fst with
        | some c => v.raise k c.2 0
        | none => { v with
            teams := v.teams.map (fun y => if y.id = iss.team then
              { onSheaf (k / t.width) (fun f => { f with out := f.out ++ [⟨1, v.serial, false, 0⟩] }) y with
                mops := y.mops ++ [⟨v.serial, k / t.width, k, block, none, false, []⟩] } else y),
            serial := v.serial + 1 }) s)
    ∧ exec (.mmaCommit h o) s = .next ((electing iss t o.g).foldl (fun v k =>
      let u := standing v iss t
      let open_ : Nat := ((List.range u.batches).filter (fun b => u.mops.any (fun m => match m.batch with
        | some n => decide (n ≤ b + 1)
        | none => false))).length
      if 8 ≤ open_ then v.stall
      else if u.baton ≠ some (k / t.width) then v.raise k 0x23 0
      else { v with
        teams := v.teams.map (fun y => if y.id = iss.team then
          { onSheaf (k / t.width) (putUniform o.t (BitVec.ofNat 64 (u.batches + 1))) y with
            batches := u.batches + 1,
            mops := y.mops.map (fun m => if m.batch = none then { m with batch := some (u.batches + 1) } else m) } else y) }) s))
  ∧ ((∀ (h : Hdr) (o : FV3) (s : State) (iss : Issue) (t : Team), Issuing s iss t →
    exec (.ldacc h o) s = .next (valuesArrive s iss t o.g (tileConditions t o) (fun r =>
      [(phys r.regs.level o.d.toNat, t.readWord (tilePlace o r))]))
    ∧ exec (.stacc h o) s = .next (lanesDo s iss t o.g (tileConditions t o) (fun r u =>
        u.writeWord iss.slot r.tid (tilePlace o r) (r.v o.d))))
  ∧ ∀ (h : Hdr) (o : FA) (s : State) (iss : Issue) (t : Team), Issuing s iss t →
      (let w (r : Reads) : DWord := r.s o.p.toNat
       let first (r : Reads) := ((w r).extractLsb' 0 7).toNat
       let count (r : Reads) := ((w r).extractLsb' 8 8).toNat
       exec (.accz h o) s = .next (inTurn iss t (electing iss t o.g)
         (fun r _ => firstOf [
           (decide ((w r).extractLsb' 16 48 ≠ 0 ∨ (w r).getLsbD 7 = true ∨ count r = 0 ∨ 128 < count r), 0x22),
           (decide (16 * t.acc < first r + count r), 0x20),
           ((List.range (count r)).any (fun j => t.busy (first r + j)), 0x21)])
         (fun r v => { v with teams := v.teams.map (fun u => if u.id = iss.team then
           (List.range (256 * count r)).foldl (fun u j =>
             u.writeWord iss.slot r.tid (0x200000 + 1024 * first r + 4 * j) 0) u else u) }) s)))

/-! ### Queues -/

/-- R234, R235: QINIT sets the queue empty with its whole depth allowed, after its checks in their order, and QCRED returns credit
up to the depth.
R235, R236: pushes and pops of an issue in ascending TID. A push with count below DEPTH and allowance writes its element at
BASE + 4 × ((head + count) mod DEPTH), over what a push of the cycle left there and in the order of R150 with other writes; a pop of
a queue that is not empty takes the element at head, as the cycle found it or as the last push of the cycle there gave it, its destination
written in the cycle 4 later; one that cannot proceed waits, or with .NB is not done; with
.NB the flags of cN are 0 but Z, which says it was not done. -/
def Obligations.QueueResults : Prop :=
  (∀ (h : Hdr) (o : FQ) (s : State) (iss : Issue) (t : Team), Issuing s iss t →
    (let depth (r : Reads) := ((r.v o.v).extractLsb' 22 10).toNat
     let base (r : Reads) := ((r.v o.v).extractLsb' 0 22).toNat
     exec (.qinit h o) s = .next (lanesDo s iss t o.g
       (fun r => firstOf [(decide (depth r = 0), 0x28), (decide (t.scr * 0x4000 < base r + 4 * depth r), 0x20),
         (decide (base r % 4 ≠ 0), 0x14)])
       (fun r u => { u with queues := u.queues.mapIdx (fun i q => if i = o.q.toNat then ⟨base r, depth r, 0, 0, depth r⟩ else q) }))
     ∧ exec (.qcred h o) s = .next (inTurn iss t (effective iss t o.g) (unset iss o.q.toNat) (fun r v =>
         onQueue v iss.team o.q.toNat (fun q => { q with allow := min (q.allow + (r.v o.v).toNat) q.depth })) s)))
  ∧ (∀ (h : Hdr) (o : FQ) (s : State) (iss : Issue) (t : Team), Issuing s iss t →
    (let n := o.q.toNat
     let flags (done : Bool) (k : Nat) (v : State) : State :=
       withThread v iss k (fun x => { x with regs := x.regs.setFlags o.cn ⟨false, !done, false, false⟩ })
     exec (.qpush h o) s = .next (inTurn iss t (effective iss t o.g) (unset iss n) (fun r v =>
       if (v.team? iss.team).isNone then v
       else
         let q := queueNow v iss n
         let can := decide (q.count < q.depth) && decide (0 < q.allow)
         let at_ (u : Team) : Nat :=
           let q := (u.queues[n]?).getD ⟨0, 0, 0, 0, 0⟩
           q.base + 4 * ((q.head + q.count) % q.depth)
         let v' : State := if can then { v with teams := v.teams.map (fun u => if u.id = iss.team then
             { (if u.pushed.any (fun e => e.1 == at_ u) then
                   { u.putWord (at_ u) (r.v o.v) with wlog := u.wlog ++ [(at_ u, iss.slot, r.tid)] }
                 else u.writeWord iss.slot r.tid (at_ u) (r.v o.v)) with
               pushed := (at_ u, r.v o.v) :: u.pushed,
               queues := u.queues.mapIdx (fun i q => if i = n then { q with count := q.count + 1, allow := q.allow - 1 } else q) }
             else u) } else v
         if o.nb then flags can r.tid v'
         else if can then v' else withThread v' iss r.tid (fun x => { x with block := .push n (r.v o.v) s.cycle })) s)
     ∧ exec (.qpop h o) s = .next (inTurn iss t (effective iss t o.g) (unset iss n) (fun r v =>
       if (v.team? iss.team).isNone then v
       else
         let u := standing v iss t
         let q := queueNow v iss n
         let at_ := q.base + 4 * (q.head % q.depth)
         let d := phys r.regs.level o.v.toNat
         let arrives (w : State) (x : Word) (known : Bool) (when_ : Nat) : State :=
           { withThread w iss r.tid (fun y => { y with pend := y.pend ++ [⟨w.serial, [(d, x)], known, when_, false, known⟩] }) with
             serial := w.serial + 1 }
         let can := decide (0 < q.count)
         let v' : State := if can then arrives { v with teams := v.teams.map (fun y => if y.id = iss.team then
             { u with queues := u.queues.mapIdx (fun i q => if i = n then
                 { q with head := (q.head + 1) % q.depth, count := q.count - 1 } else q) } else y) }
             (((u.pushed.find? (fun e => e.1 == at_)).map Prod.snd).getD (t.readWord at_)) true (s.cycle + 4) else v
         if o.nb then flags can r.tid v'
         else if can then v'
         else withThread (arrives v' 0 false s.cycle) iss r.tid (fun x => { x with block := .pop n v'.serial s.cycle })) s)))

/-! ### Records -/

/-- R272, R284 to R287: SPAWN, EMIT and ENQX check in their order RECORD_STATE, RECORD_PARAM, the scratchpad range, the token
header of ENQX, and room (QUEUE_SPILL, 0x29); then the record goes to its node, and the team counts as having written from this issue on
(the issue, and not a later performance, as the instant is the model's reading: DEDUCED, log 22).
R272: where its target's store has room and its sender holds no earlier record, a record that is made is on its way with
its units claimed there, and nothing else changes. -/
def Obligations.RecordSends : Prop :=
  (∀ (h : Hdr) (o : FX) (s : State) (iss : Issue) (t : Team) (l : Launch), Issuing s iss t → s.launch? t.launch = some l →
    (let pure_ (r : Reads) := s.inPure t r.tid
     let units := recordUnits (4 * (o.len.toNat + 1))
     let full (v : State) (n : Nat) : Bool := v.roomFor l.id n units == .none
     let written (v : State) : State :=
       { v with teams := v.teams.map (fun u => if u.id = iss.team then { u with written := true } else u) }
     let unknown (r : Reads) : Bool := ((r.s o.s.toNat).extractLsb' 12 52 != 0) || decide (l.nodes.length ≤ namedNode o r)
     exec (.spawn h o) s = .next (inTurn iss t (effective iss t o.g)
       (fun r v => firstOf ([(pure_ r, 0x2A),
           (unknown r || !(kindOf l (namedNode o r) == 1 || kindOf l (namedNode o r) == 2), 0x2B)]
         ++ rangeConditions t o r ++ [(full v (namedNode o r), 0x29)]))
       (fun r v => written (v.makeRecord l.id (namedNode o r) (recordBytes t o r) none (senderThread iss.team r.tid) s.serial)) s)
     ∧ exec (.enqx h o) s = .next (inTurn iss t (effective iss t o.g)
       (fun r v => firstOf ([(pure_ r, 0x2A), (unknown r || kindOf l (namedNode o r) != 4 || o.len == 0, 0x2B)]
         ++ rangeConditions t o r ++ [(headerBad (recordBytes t o r), 0x2B), (full v (namedNode o r), 0x29)]))
       (fun r v => written (v.makeRecord l.id (namedNode o r) (recordBytes t o r) none (senderThread iss.team r.tid) s.serial)) s)
     ∧ exec (.emit h o) s = .next (inTurn iss t (effective iss t o.g)
       (fun r v =>
         let n := l.emitNode t
         let port := ((r.s o.s.toNat).extractLsb' 0 2).toNat
         firstOf ([(t.node.isNone || pure_ r, 0x2A),
           (((r.s o.s.toNat).extractLsb' 2 62 != 0) || (nPort (l.node n) port).isNone, 0x2B)]
         ++ rangeConditions t o r ++ [(full v (if nOrd (l.node n) then n else (nPort (l.node n) port).getD n), 0x29)]))
       (fun r v => written (v.emitTo l.id (l.emitNode t) ((r.s o.s.toNat).extractLsb' 0 2).toNat (recordBytes t o r)
         ((t.boundRec r.tid).getD 0) (senderThread iss.team r.tid) s.serial)) s)))
  ∧ (∀ (s : State) (launch node d : Nat) (l : Launch) (bytes : List Byte) (emittedFor : Option Nat) (sender issue : Nat),
    s.launch? launch = some l → s.nodeDie launch node = some d → d < s.dies.length →
    (s.die d).used + (bytes.length + 16 + 63) / 64 ≤ Config.storeUnits →
    (∀ r ∈ s.records, r.place = .heldBack → r.sender ≠ sender) →
    s.makeRecord launch node bytes emittedFor sender issue = { s with
      dies := s.dies.mapIdx (fun i D => if i = d then { D with used := D.used + (bytes.length + 16 + 63) / 64 } else D),
      serial := s.serial + 1,
      records := s.records ++ [⟨s.serial, launch, node, bytes, 0, .moving, 0, 0, emittedFor, true, false, sender, issue⟩] })

/-- R288 to R290: STAGE.PASS and STAGE.DROP end a thread bound to a stage's record with its outcome and raise RECORD_STATE in
another; RECLD delivers words of the bound record; COMBINE adds its vector to the token's slot after its checks (of two COMBINEs that
conflict the later issue traps, where R290 lets either: DEDUCED, log 22). R280: a slot takes the layer and K of its first contribution; when it
holds K the combine unit, which holds no record, sends (ID, LAYER + 1, the sums in ascending expert number, each addition rounded) to PORT0 of
the lowest contributing expert and empties the slot. R273: a set's record goes to the bin of a stage that the lottery draws among the pure
stages it has not passed, else to that of its lowest effectful one left, else out through PORT0 under AUTO, and retires. R275: the draw
steps x and takes the lowest stage whose cumulative weight exceeds x × Σw / 2^32, w = ⌊(1,024 − P) × 2^24 / (C × (256 + q))⌋ or 1. R277: a record
emitted by a node or set without ORD is released to its port; with ORD it waits in the entry of its input record; a record that retires
leaves the store and marks its entry; then, and only from the oldest entry on, retired entries release their records in the order
they were sent. -/
def Obligations.BoundRecordResults : Prop :=
  (∀ (h : Hdr) (o : FX) (s : State) (iss : Issue) (t : Team), Issuing s iss t →
    (let stage (r : Reads) : Bool := (t.boundRec r.tid).isSome && (s.teamNode t).any (fun q => nodeKind q.2 == 3)
     let ends (passed : Bool) : State := inTurn iss t (effective iss t o.g) (fun r _ => firstOf [(!stage r, 0x2A)])
       (fun r v => (v.leaveThread iss r.tid passed).markWritten iss.team) s
     let rec_ (r : Reads) : Option (Record × Nat × List DWord) := match (t.boundRec r.tid).bind s.record?, s.teamNode t with
       | some x, some q => some (x, q)
       | _, _ => none
     exec (.stagePass h o) s = .next (ends true) ∧ exec (.stageDrop h o) s = .next (ends false)
     ∧ exec (.recld h o) s = .next (valuesArrive s iss t o.g
         (fun r => firstOf [((rec_ r).isNone, 0x2A), ((r.s o.s.toNat).extractLsb' 8 56 != 0, 0x2B)])
         (fun r => match rec_ r with
           | none => []
           | some x => (List.range (o.len.toNat + 1)).map (fun j => (phys r.regs.level (o.v.toNat + j),
               recordWord x.1 x.2.1 x.2.2 (((r.s o.s.toNat).extractLsb' 0 8).toNat + j)))))
     ∧ exec (.combine h o) s = .next (inTurn iss t (effective iss t o.g)
         (fun r v => match rec_ r, v.launch? t.launch with
           | some x, some l =>
             let id := ofBytes (x.1.bytes.take 4)
             let w := ofBytes ((x.1.bytes.drop 4).take 4)
             let slot := (l.combine.filter (fun c => c.id == id)).take 1
             firstOf ([(nodeKind x.2.2 != 4 || slot.any (fun c => c.layer != w % 65536 || c.k != w / 65536 % 16
                 || c.parts.any (fun p => p.1 == x.2.1)), 0x2A),
               (decide (62 ≤ o.len.toNat) || decide (l.combSize < 2048 * (id + 1))
                 || slot.any (fun c => c.parts.any (fun p => p.2.length != o.len.toNat + 1)), 0x2B)] ++ rangeConditions t o r)
           | _, _ => some (0x2A, 0))
         (fun r v => match rec_ r with
           | none => v
           | some x =>
             let w := ofBytes ((x.1.bytes.drop 4).take 4)
             (v.combineInto ((v.launch? t.launch).elim 0 Launch.id) (ofBytes (x.1.bytes.take 4)) (w % 65536) (w / 65536 % 16) x.2.1
               ((List.range (o.len.toNat + 1)).map (fun j => BitVec.ofNat 32 (ofBytes
                 (((recordBytes t o r).drop (4 * j)).take 4))))).markWritten iss.team) s)))
  ∧ (∀ (s : State) (l : Launch) (id layer k expert : Nat) (vec : List Word), s.launch? l.id = some l → s.slotMarked l id = false →
    (let old := (l.combine.find? (fun c => c.id == id)).getD ⟨id, layer, k, []⟩
     let parts := old.parts ++ [(expert, vec)]
     (parts.length < old.k → s.combineInto l.id id layer k expert vec = launchBecomes s l.id (fun x =>
       { x with combine := x.combine.filter (fun c => decide (c.id ≠ id)) ++ [⟨old.id, old.layer, old.k, parts⟩] }))
     ∧ (∀ (order : List (Nat × List Word)) (lowest target : Nat), old.k ≤ parts.length → order.Perm parts →
       order.Pairwise (fun a b => a.1 < b.1) → (order.map Prod.fst).head? = some lowest → nPort (l.node lowest) 0 = some target →
       (∀ p ∈ parts, p.2.length = vec.length) → l.spoiled.contains id = false → l.fullSlots = [] →
       (∀ x ∈ s.launches, x.id = l.id → x = l) → (∀ r ∈ s.records, ¬(r.place = .heldBack ∧ r.sender = 2 ^ 61 + l.id)) → l.id < 2 ^ 61 →
       s.combineInto l.id id layer k expert vec = State.makeRecord
         (launchBecomes s l.id (fun x => { x with combine := x.combine.filter (fun c => decide (c.id ≠ id)), fullSlots := [] }))
         l.id target (toBytes old.id 4 ++ toBytes ((old.layer + 1) % 65536) 4 ++ (List.range vec.length).flatMap (fun j =>
           toBytes (order.foldl (fun x p => addOf f32 .rn x (p.2.getD j 0).toNat) 0 % 2 ^ 32) 4)) none (2 ^ 61 + l.id) s.serial)))
  ∧ (∀ (s : State) (r : Record) (l : Launch) (n : Nat) (st : Nat → Nat), s.record? r.id = some r → s.launch? r.launch = some l → n ≤ 8 →
    (∀ i < 8, nStage (l.node r.node) i = if i < n then some (st i) else none) →
    (let left (i : Nat) : Bool := decide (i < n) && !r.done.getLsbD i
     let effectful (i : Nat) : Bool := ((l.node (st i)).getD 0 0).getLsbD 44
     let ps := (List.range 8).filter (fun i => left i && !effectful i)
     let toBin (v : State) (i : Nat) (q : Record) : Prop := ∃ d, s.nodeDie r.launch (st i) = some d ∧
       (let now := s.dispatch d + (if (s.die d).fired.1 = s.dispatch d ∧ 0 < (s.die d).fired.2 then 1 else 0)
        v = { s with launches := v.launches, records := s.records.filter (fun q => decide (q.id ≠ r.id))
          ++ [{ q with place := .binned, stage := i, stamp := now }] })
     (∀ i, i ∈ ps → (s.nodeDie r.launch (st i)).isSome = true →
       (let x := lotteryStep (sget 0 l.lottery r.node)
        let w (j : Nat) : Nat :=
          let q := (s.records.filter (fun q => q.launch == l.id && q.node == r.node && q.place == .binned && q.stage == j)).length
          max 1 ((1024 - (l.stat (st j)).p) * 2 ^ 24 / ((l.stat (st j)).c * (256 + min q 65535)))
        let upTo (j : Nat) : Nat := ((ps.filter (fun m => decide (m ≤ j))).map w).sum
        x * (ps.map w).sum / 2 ^ 32 < upTo i → (∀ j ∈ ps, j < i → upTo j ≤ x * (ps.map w).sum / 2 ^ 32) →
        toBin (s.route r.id) i r ∧ (s.route r.id).launches = (launchBecomes s l.id (fun y =>
          { y with lottery := sset 0 y.lottery r.node x })).launches))
     ∧ (∀ i, ps = [] → left i = true → (∀ j < i, left j = false) → (s.nodeDie r.launch (st i)).isSome = true →
       toBin (s.route r.id) i r ∧ (s.route r.id).launches = s.launches)
     ∧ ((∀ i, left i = false) →
       (let auto : Bool := ((l.node r.node).getD 0 0).getLsbD 45 && (nPort (l.node r.node) 0).isSome
        let router := 2 ^ 62 + (s.nodeDie l.id r.node).getD 0
        (auto = false → s.route r.id = s.retireRecord r.id)
        ∧ (auto = true → (∀ q ∈ s.records, ¬(q.place = .heldBack ∧ q.sender = router)) →
          s.route r.id = (s.emitTo l.id r.node 0 r.bytes r.id router s.serial).retireRecord r.id)
        ∧ (auto = true → (∃ q ∈ s.records, q.place = .heldBack ∧ q.sender = router) →
          s.route r.id = recordBecomes s r.id (fun q => { q with place := .passed }))))))
  ∧ (∀ (s : State) (l : Launch) (node port target : Nat) (bytes : List Byte) (input sender issue : Nat), s.launch? l.id = some l →
    nPort (l.node node) port = some target →
    (let ordered := ((l.node node).getD 0 0).getLsbD 46
     let units := (bytes.length + 16 + 63) / 64
     let room := s.roomFor l.id node units
     let c := s.claimUnits l.id node units room
     (ordered = false → s.emitTo l.id node port bytes input sender issue = s.makeRecord l.id target bytes (some input) sender issue)
     ∧ (ordered = true → s.emitTo l.id node port bytes input sender issue = launchBecomes
         { c with serial := c.serial + 1, records := s.records ++ [⟨s.serial, l.id, node, bytes, 0,
           if room = .none then .heldBack else .window input, 0, 0, some input, decide (room = .store), decide (room = .spill),
           sender, issue⟩] }
         l.id (fun x => { x with windows := x.windows.map (fun w =>
           if w.node = node ∧ w.input = input then { w with emitted := w.emitted ++ [(s.serial, target)] } else w) }))))
  ∧ (∀ (s : State) (l : Launch) (node n : Nat), s.launch? l.id = some l →
    (let entries := l.windows.filter (fun w => w.node == node)
     s.releaseNode l.id node = s.releaseWindow l.id node ((entries.map (fun w => 1 + w.emitted.length)).sum + 1)
     ∧ ((∀ w ∈ entries.head?, w.retired = false) → s.releaseWindow l.id node n = s)
     ∧ (∀ w rest, entries = w :: rest → w.retired = true → (∀ r ∈ s.records, ¬(r.place = .heldBack ∧ r.sender = 2 ^ 60 + node)) →
       node < 2 ^ 60 → (∀ x ∈ s.launches, x.id = l.id → x = l) →
       (w.emitted = [] → s.releaseWindow l.id node (n + 1) =
         (launchBecomes s l.id (fun x => { x with windows := x.windows.erase w })).releaseWindow l.id node n)
       ∧ (∀ e more r, w.emitted = e :: more → s.record? e.1 = some r → r.place ≠ .heldBack →
         (∀ a ∈ s.accs, senderThread a.team a.tid = r.sender → a.id < r.id → a.parked = true ∨ a.performed 6 = true) →
         s.releaseWindow l.id node (n + 1) = ((launchBecomes s l.id (fun x => { x with windows := x.windows.map (fun v =>
           if v.input = w.input then { v with emitted := more } else v) })).releaseRecord l.id node e.2 r).releaseWindow l.id node n))))
  ∧ (∀ (s : State) (r : Record), s.record? r.id = some r →
    (let v := launchBecomes { s.freeUnits r with records := s.records.filter (fun q => decide (q.id ≠ r.id)) } r.launch (fun x =>
       { x with windows := x.windows.map (fun w => if w.input = r.id then { w with retired := true } else w) })
     ((∀ l, s.launch? r.launch = some l → ∀ w ∈ l.windows, w.input ≠ r.id) → s.retireRecord r.id = v)
     ∧ (∀ l w, s.launch? r.launch = some l → l.windows.find? (fun w => w.input == r.id) = some w →
       s.retireRecord r.id = v.releaseNode r.launch w.node)))

/-! ### Traps and the supervisor -/

/-- R359, R357: TRAP raises 0xC0 + n with vA as aux in each guard-true thread. TRET in a supervisor team restores v60 to v63 from the
thread's frame and transfers to its word 4, or stalls where a slice does not serve that fetch (DEDUCED, log 20); a frame that would lie below
the scratchpad raises STORAGE_RANGE 0x20, which no rule gives (DEDUCED, log 20); in another team it raises PRIVILEGED_INSTRUCTION. -/
def Obligations.TrapAndReturn : Prop :=
  ∀ (h : Hdr) (s : State) (iss : Issue) (t : Team), Issuing s iss t →
    (∀ o : FVI, exec (.trap h o) s = .next (lanesDo s iss t o.g
      (fun r => some (0xC0 + o.imm.toNat, (r.v o.a).setWidth 64)) (fun _ u => u)))
    ∧ ∀ o : FN, (t.sup = true →
        (let frame (r : Reads) : Int := (t.scr : Int) * 0x4000 - 32 * 2 ^ t.tbits + 32 * r.tid
         let word (r : Reads) (k : Nat) : Word := t.readWord ((frame r).toNat + 4 * k)
         let target (r : Reads) : BitVec 64 := (word r 4).setWidth 64
         let fetched (k : Nat) : Bool := decide (frame (reads iss t k) < 0) || s.fetchFree t (target (reads iss t k))
         ((∃ k ∈ effective iss t o.g, fetched k = false) → Stalls (exec (.tret h o) s))
         ∧ ((∀ k ∈ effective iss t o.g, fetched k = true) → exec (.tret h o) s = .next (lanesDo s iss t o.g (fun r => if frame r < 0 then some (0x20, 0) else badJump s t target r)
           (fun r => onThread r.tid (fun x => { x with
             pc := target r,
             regs := (((x.regs.set 60 (word r 0)).set 61 (word r 1)).set 62 (word r 2)).set 63 (word r 3) }))))))
      ∧ (t.sup = false → exec (.tret h o) s = .next { s with issue := some { iss with
          trapped := iss.trapped ++ iss.tids.map (fun k => ⟨k, 0x03, 0, iss.pc, false⟩) } })

/-- R357, R346: SYSRD puts the register of its number in sD of each executing home sheaf; SYSWR has the effect of a host write of
the register; INVAL begins an invalidate of its kind that each thread of the executing home sheaf waits for that waits for nothing
else; each raises PRIVILEGED_INSTRUCTION in a team that is no supervisor's. -/
def Obligations.SystemRegisterResults : Prop :=
  ∀ (h : Hdr) (o : FY) (s : State) (iss : Issue) (t : Team), Issuing s iss t →
    (let n := o.num.toNat
     exec (.sysrd h o) s = .next (supervisorDoes s iss t (fun sheaf _ v =>
       { v with teams := v.teams.map (fun u => if u.id = iss.team then onSheaf sheaf (putUniform o.s
           (if n ≤ 8 then s.trapRead t.ctx n
            else if 0x10 ≤ n ∧ n ≤ 0x13 then (s.ctx t.ctx).event.extractLsb' (64 * (n - 0x10)) 64 else 0)) u else u) }))
     ∧ exec (.syswr h o) s = .next (supervisorDoes s iss t (fun _ r v =>
       let x := r.s o.s.toNat
       if n ≤ 8 then v.trapWrite t.ctx n x
       else if 0x14 ≤ n ∧ n ≤ 0x17 then v.updateEvents t.ctx (fun e => e ||| x.setWidth 256 <<< (64 * (n - 0x14)))
       else if n = 0x18 then v.lclr t r x else v))
     ∧ exec (.inval h o) s = .next (supervisorDoes s iss t (fun _ r v =>
       let w := v.startInval t.ctx n ((r.s o.s.toNat).extractLsb' 0 54).toNat (some (t.id, r.sheaf))
       { w with teams := w.teams.map (fun u => if u.id = iss.team then
           { u with threads := u.threads.map (fun x => if x.tid / u.width = r.sheaf ∧ x.wait = .none then
               { x with wait := .inval v.serial } else x) } else u) })))

/-- Table 15-5: what a write of a word of the trap block does: TRAP0, TRAP1 and FQ take the value when its reserved bits are 0 and
are as they were otherwise; the read-only FQHEAD and INVDONE do not change; FQTAIL moves within what the queue holds; writing 1
clears OVF unless a report is held still; RESUME and INVAL are commands. -/
def Obligations.TrapBlockWrites : Prop :=
  ∀ (s : State) (ctx : Nat) (v : DWord), ctx < s.ctxs.length →
    (let put (f : Ctx → Ctx) : State := { s with ctxs := s.ctxs.mapIdx (fun i c => if i = ctx then f c else c) }
     let c := s.ctx ctx
     s.trapWrite ctx 0 v = (if v.extractLsb' 6 56 = 0 then put (fun c => { c with trap0 := v }) else s)
     ∧ s.trapWrite ctx 1 v = (if v.extractLsb' 0 2 = 0 then put (fun c => { c with trap1 := v }) else s)
     ∧ s.trapWrite ctx 2 v = (if v &&& 0xFCC0000000001FFF = 0 then put (fun c => { c with fq := v }) else s)
     ∧ s.trapWrite ctx 3 v = s ∧ s.trapWrite ctx 8 v = s
     ∧ (c.fqtail < 2 ^ 32 → c.fqhead < 2 ^ 32 →
        s.trapWrite ctx 4 v = (if v.toNat < 2 ^ 32 ∧
          (BitVec.ofNat 32 v.toNat - BitVec.ofNat 32 c.fqtail).toNat ≤ (BitVec.ofNat 32 c.fqhead - BitVec.ofNat 32 c.fqtail).toNat
          then put (fun c => { c with fqtail := v.toNat }) else s))
     ∧ s.trapWrite ctx 5 v = (if v.getLsbD 63 then put (fun c => { c with ovf := !c.heldReports.isEmpty }) else s)
     ∧ s.trapWrite ctx 6 v = (if v.extractLsb' 32 31 = 0 then s.resume ctx (v.extractLsb' 0 32).toNat (v.getLsbD 63) else s)
     ∧ s.trapWrite ctx 7 v = (if v.extractLsb' 54 8 = 0 then
         s.startInval ctx (v.extractLsb' 62 2).toNat (v.extractLsb' 0 54).toNat none else s))

namespace Sys2Proof.Claims

open Sys2Proof.Machine

/-! ### What an event does -/

/-- A byte under writes through masks, in their order (R119, R217). -/
def overwritten (ws : List (Nat × Byte × Byte)) (loc : Nat) (b : Byte) : Byte :=
  ws.foldl (fun b w => if w.1 = loc then (b &&& ~~~w.2.2) ||| (w.2.1 &&& w.2.2) else b) b

/-- No live launch has a combine region of a slot of 2,048 bytes or more (R280). -/
def noCombine (s : State) : Prop := ∀ l ∈ s.launches, l.phase ≠ .retiring → l.combSize < 2048

/-- The sectors of a die's L2 hold 64 bytes each. -/
def wholeSectors (s : State) (d : Nat) : Prop := ∀ sec x, s.sector d sec = some x → x.data.length = 64 ∧ x.mask.length = 64

/-- An access of a number that no other of its entry waits with, at a place that bears no exact sum and lies in no combine region, in
lines already under its context's key. -/
def Alone (s : State) (n : Nat) (a : Acc) : Prop :=
  s.acc? n = some a ∧ (∀ b ∈ s.accs, b.id = n → b = a) ∧ s.mates a = [a] ∧ s.sumsAt a.locs = [] ∧ noCombine s
  ∧ ∀ l ∈ a.locs, sget 0 s.ktag (secOf l) = s.keyOf a.ctx a.route

/-- The bytes that an access reads at a location of its route (R131, R139, R342). -/
def there (s : State) (a : Acc) (loc n : Nat) : List Byte := (List.range n).map (fun k =>
  match a.route with
  | .coherent => s.dieByte a.die (loc + k)
  | .host => byteAt s.mem (loc + k)
  | _ => s.truth (loc + k))

/-- The access is over and its words are on their way to its registers; the thread's PT and LCT are no lower, it goes on where it waited
for the access, and nothing else of it has changed (R160). -/
def Delivered (s t : State) (a : Acc) (ws : List Word) : Prop :=
  t.acc? a.id = none ∧ ∀ x, s.thread? a.team a.tid = some x → ∃ p l, x.pt ≤ p ∧ x.lct ≤ l ∧
    t.thread? a.team a.tid = some { x with
      pt := p, lct := l, block := if x.block = .ldf a.id then .none else x.block,
      pend := x.pend.map (fun q => if q.serial = a.id then { q with regs := (q.regs.map Prod.fst).zip ws, ready := true } else q) }

/-- A byte of memory when a die's written bits of it have gone back; over a poisoned line they are discarded (R119, R386). -/
def wentBack (s : State) (d loc : Nat) : Byte :=
  match s.sector d (secOf loc) with
  | some x => if s.poison.contains (secOf loc) then byteAt s.mem loc
      else (byteAt s.mem loc &&& ~~~(x.mask.getD (loc % 64) 0)) ||| (x.data.getD (loc % 64) 0 &&& x.mask.getD (loc % 64) 0)
  | none => byteAt s.mem loc

/-- The matrix operation at the head of a team's list changed. -/
def onHead (f : MOp → MOp) (u : Team) : Team :=
  { u with mops := match u.mops with | [] => [] | m :: r => f m :: r }

/-- An atomic's new value (Table 9-5), of the old value and the operands as numbers of the type's width; none when nothing is
written. -/
def tableNew (op typ old a b : Nat) : Option Nat :=
  let n := if typ = 2 ∨ typ = 3 then 64 else 32
  let sgn := decide (typ = 0 ∨ typ = 2)
  if typ = 4 then some (if op = 0 then faddBits f32 .rn old a else if op = 1 then fminBits f32 old a else fmaxBits f32 old a)
  else if op = 0 then some ((old + a) % 2 ^ n)
  else if op = 1 then some (if typed sgn n a < typed sgn n old then a else old)
  else if op = 2 then some (if typed sgn n old < typed sgn n a then a else old)
  else if op = 3 then some (old &&& a)
  else if op = 4 then some (old ||| a)
  else if op = 5 then some (old ^^^ a)
  else if op = 6 then some a
  else if old = a then some b
  else none

/-- An engine's work done and its operation ended: the units before the first condition, the completion value of their bytes, and
the report of the condition. -/
def engineEnds (s : State) (o : Op) (us : List Unit?) (bad : Option Nat) : State :=
  let q := s.performUnits o us
  match q.2.2.2 with
  | some (code, va) => q.1.finishOp o (completion (stopStatus code) q.2.1 0) q.2.2.1 (some (code, stopAux code va))
  | none => match bad with
    | some k => q.1.finishOp o (completion 6 q.2.1 k) q.2.2.1 none
    | none => q.1.finishOp o (completion 0 q.2.1 0) q.2.2.1 none

/-! #### What an engine reads -/

/-- A byte as an operation's engine reads it: at its thread's die where the page is coherent, else at the home slice (R145). -/
def seenBy (s : State) (o : Op) (p : Page) (loc : Nat) : Byte :=
  s.dieByte (if p.host = false ∧ p.strm = false then o.die else homeOf loc) loc

/-- The page of a virtual address of a buffer whose translation passes, its geometry among those of R100. -/
def PageIs (s : State) (o : Op) (d : List DWord) (va : Nat) (kind : AKind) (p : Page) : Prop :=
  s.translate o.ctx (((s.ctx o.ctx).vdie (fieldOf d 3 4 2)).getD 0) va kind = .ok p
  ∧ p.geom < 2 ∧ (p.geom = 0 ∨ (p.fmt ≠ 0 ∧ p.fmt ≠ 3))

/-- Where an offset of the page lies (R113, R342); bytes there that carry no mark and lie under the key of the operation's context. -/
def placeIn (s : State) (o : Op) (d : List DWord) (p : Page) (off : Nat) : Nat :=
  pageLoc d (((s.ctx o.ctx).vdie (fieldOf d 3 4 2)).getD 0) p off
def Readable (s : State) (o : Op) (p : Page) (loc n : Nat) : Prop :=
  s.memError loc n = none ∧ ∀ k < n, sget 0 s.ktag (secOf (loc + k)) = s.keyOf o.ctx (pageRoute p)

/-- The value of element e of a DX page, whose code lies in the byte at va (R96, R97, R100, Table 4-3): through a buffer without FMTO, its
header within the buffer. -/
def DxElement (s : State) (o : Op) (d : List DWord) (va dx e : Nat) (p : Page) (x : Machine.Num) : Prop :=
  let off := va % p.size
  let data := pageData (decide (dx = 2)) p.size
  let h := data + 2 * (if p.geom = 0 then e / 32 else e / 1024 * 32 + e % 32)
  let hl := placeIn s o d p h
  let code := (seenBy s o p (placeIn s o d p off)).toNat
  p.fmt = dx ∧ (dx = 1 ∨ dx = 2) ∧ (d.getD 2 0).getLsbD 4 = false ∧ off < data
  ∧ off + fieldOf d 0 0 54 ≤ va + h ∧ va + h + 2 ≤ off + fieldOf d 0 0 54 + fieldOf d 1 0 54
  ∧ Readable s o p (placeIn s o d p off) 1 ∧ Readable s o p hl 2
  ∧ x = dxDecode dx (ofBytes [seenBy s o p hl, seenBy s o p (hl + 1)]) (if dx = 1 then code else code / 16 ^ (e % 2) % 16)

/-- The bytes that a source byte at va gives an engine at an expected format (R116, R229): itself, or its elements as FP16 values. -/
def Gives (s : State) (o : Op) (d : List DWord) (va dx : Nat) (bs : List Byte) : Prop :=
  ∃ p, PageIs s o d va .load p ∧
    (if dx = 0 then ((d.getD 2 0).getLsbD 4 = true ∨ p.fmt = 0 ∨ p.fmt = 3) ∧ Readable s o p (placeIn s o d p (va % p.size)) 1
        ∧ bs = [seenBy s o p (placeIn s o d p (va % p.size))]
     else ∃ xs : List Machine.Num, xs.length = dx ∧ bs = xs.flatMap (fun x => toBytes (pack f16 .rn x) 2)
        ∧ ∀ (k : Nat) (x : Machine.Num), xs[k]? = some x → DxElement s o d va dx (if dx = 1 then va % p.size else 2 * (va % p.size) + k) p x)

/-- The value of a panel's element of number e at a slot's format (R259). -/
def PanelElement (s : State) (o : Op) (d : List DWord) (off fmt e : Nat) (x : Machine.Num) : Prop :=
  let va := fieldOf d 0 0 54 + off + [2 * e, 2 * e, e, e / 2].getD fmt (e / 8)
  ∃ p, PageIs s o d va .load p ∧
    (let loc := placeIn s o d p (va % p.size)
     if fmt ≤ 1 then (p.fmt = 0 ∨ (d.getD 2 0).getLsbD 4 = true) ∧ Readable s o p loc 2
         ∧ x = unpack (if fmt = 0 then f16 else bf16) (ofBytes [seenBy s o p loc, seenBy s o p (loc + 1)])
     else if fmt = 4 then p.fmt = 3 ∧ (d.getD 2 0).getLsbD 4 = false ∧ Readable s o p loc 1
         ∧ x = .fin false ((seenBy s o p loc).toNat / 2 ^ (e % 8) % 2) 0
     else DxElement s o d va (fmt - 1) (if fmt = 2 then va % p.size else 2 * (va % p.size) + e % 2) p x)

/-- An operation of a team that stands, which may be performed and meets no exact sum: its units are us. -/
def Performs (s : State) (o : Op) (us : List Unit?) (t : Team) (f : Sheaf) : Prop :=
  s.op? o.serial = some o ∧ s.team? o.team = some t ∧ t.sheaves[o.sheaf]? = some f ∧ s.opMay o us = true ∧ s.meetsSum us = false
  ∧ noCombine s ∧ o.taken = [] ∧ o.landed = [] ∧ o.wts = 0

/-- The operation is over, with a completion value in its token's register. -/
def Completed (v : State) (o : Op) (value : DWord) : Prop :=
  v.op? o.serial = none ∧ ∃ u g, v.team? o.team = some u ∧ u.sheaves[o.sheaf]? = some g ∧ g.uni.get o.token = value
    ∧ ∀ q ∈ g.tokens, q.2 ≠ o.serial

/-! #### What the matrix array computes -/

/-- A byte of operand A as the operation's segments hold it. -/
def segmentByte (segs : List (Nat × List Byte)) (off : Nat) : Nat :=
  match segs.find? (fun g => g.1 == off / 64 * 64) with
  | some g => (g.2.getD (off % 64) 0).toNat
  | none => 0

/-- A(i, k) of Table 10-7; a bit is 0 or 1. -/
def operandA (p : Block) (segs : List (Nat × List Byte)) (i k : Nat) : Machine.Num :=
  let row (q : Nat) : Nat := p.aoff + q * p.astride
  let two (off : Nat) : Nat := segmentByte segs off + 256 * segmentByte segs (off + 1)
  if p.afmt ≤ 1 then unpack (if p.afmt = 0 then f16 else bf16) (two (if p.ta then row k + 2 * i else row i + 2 * k))
  else if p.afmt = 4 then .fin false (segmentByte segs (row i + k / 8) / 2 ^ (k % 8) % 2) 0
  else if p.afmt = 2 then dxDecode 1 (two (row i + 64 + 2 * (k / 32))) (segmentByte segs (row i + k))
  else dxDecode 2 (two (row i + 64 + 2 * (k / 32))) (segmentByte segs (row i + k / 2) / 16 ^ (k % 2) % 16)

/-- B(k, j) of R251 and R253: of the blocks that the named slots hold, sixteen of +0 for an unfilled one, +0 beyond them. -/
def operandB (t : Team) (p : Block) (k j : Nat) : Machine.Num :=
  let stream := (List.range (p.bspan + 1)).flatMap (fun q =>
    match (t.wslots.getD (p.bslot + q) ⟨none, []⟩).blocks with
    | [] => List.replicate 16 []
    | bs => bs.map Prod.fst)
  let depth := if p.op = 0 then p.kstep else 8 * p.kstep
  (stream.getD (j / 16 * ((depth + 15) / 16) + k / 16) []).getD (k % 16 * 16 + j % 16) (.fin false 0 0)

/-- One group of eight products, added exactly by pairs and rounded once; +0 for an exact zero (R104). -/
def groupOfEight (x : Nat → Machine.Num) : Nat :=
  let add := Sys2Proof.Machine.Num.add .rn
  match add (add (add (x 0) (x 1)) (add (x 2) (x 3))) (add (add (x 4) (x 5)) (add (x 6) (x 7))) with
  | .fin _ 0 _ => 0
  | y => pack f32 .rn y

/-- The element (i, j) of C after an operation, from what it was (R103, R104, R253). -/
def matrixElement (t : Team) (m : MOp) (i j : Nat) (c : Word) : Word :=
  let p := blockOf_ m.block
  if p.op = 0 then
    BitVec.ofNat 32 ((List.range (p.kstep / 8)).foldl (fun acc g => addOf f32 .rn acc (groupOfEight (fun k =>
      Sys2Proof.Machine.Num.mul (operandA p m.segs i (8 * g + k)) (operandB t p (8 * g + k) j)))) (if p.zi then 0 else c.toNat))
  else
    let one (x : Machine.Num) : Bool := match x with | .fin _ 0 _ => false | _ => true
    (if p.zi then 0 else c) + BitVec.ofNat 32 ((List.range (8 * p.kstep)).filter (fun k =>
      if p.op = 1 then one (operandA p m.segs i k) != one (operandB t p k j)
      else one (operandA p m.segs i k) && one (operandB t p k j))).length

/-- Where the element (i, j) of C stands in scratchpad space. -/
def elementPlace (p : Block) (i j : Nat) : Nat :=
  0x200000 + 1024 * (p.ctile + (if p.layout then j / 16 * p.tm + i / 16 else i / 16 * p.tn + j / 16)) + 4 * (16 * (i % 16) + j % 16)

/-- A unit of a waiting order whose turn it is, with the bid, the die and the cores it gets. -/
def PlacedNext (s : State) (unit tag : Nat) (b : Bid) (d : Nat) (ps : List CorePlace) : Prop :=
  s.nextPlace = some (b, d, ps) ∧ b.unit.id = unit ∧ b.unit.kind.tag = tag

/-- Two elements of ranks combined (R107, R241, R378): of a float type 0 to 2 as floats, ADD in the ROUND mode; else as 32-bit integers. -/
def rankOp (op typ round a b : Nat) : Nat :=
  let f := [f32, f16, bf16].getD typ f32
  if typ ≤ 2 then
    if op = 0 then addOf f (modeOf (BitVec.ofNat 2 round)) a b else if op = 1 then fminOf f a b else fmaxOf f a b
  else if op = 0 then (a + b) % 2 ^ 32
  else if op = 1 then (if typed (decide (typ = 3)) 32 a < typed (decide (typ = 3)) 32 b then a else b)
  else if typed (decide (typ = 3)) 32 a < typed (decide (typ = 3)) 32 b then b else a

/-- A collective's result: each element by the canonical tree over the ranks (R107, R378). -/
def rankResult (parts : List Contribution) (c : Contribution) : List Byte :=
  let z := if c.typ = 1 ∨ c.typ = 2 then 2 else 4
  (List.range c.count).flatMap (fun k => toBytes ((treeOf (rankOp c.op c.typ c.round) 17 (fun i =>
    if i < c.ranks then (parts.find? (fun p => p.rank == i)).map (fun p => ofBytes ((p.data.drop (k * z)).take z)) else none)).getD 0) z)

/-- An outcome entered in a stage's window of 1,024 (R274). -/
def entered (passed : Bool) (cost : Nat) (x : StageStat) : StageStat :=
  let passes := if passed then x.passes + 1 else x.passes
  if x.seen + 1 = 1024 then ⟨x.node, passes, max 1 (min 65535 ((x.cost + cost) / 1024)), 0, 0, 0⟩
  else { x with seen := x.seen + 1, passes := passes, cost := x.cost + cost }

/-- Locations of device memory that bear no exact sum and lie in no combine region, their lines under one key, owned by no die but the
home. -/
def Plain (s : State) (key : Nat) (locs : List Nat) : Prop :=
  s.sumsAt locs = [] ∧ noCombine s ∧ ∀ l ∈ locs, l < hostBase ∧ homeOf l < s.dies.length ∧ sget 0 s.ktag (secOf l) = key
    ∧ (s.dirOf (lineOf l)).owner = none ∧ wholeSectors s (homeOf l)

/-- A record that must arrive before another of its node (R269): sent earlier by the same sender, or by the same issue of threads, and
on its way still or held. -/
def arrivesBefore (q r : Record) : Prop :=
  q.id < r.id ∧ q.node = r.node ∧ q.launch = r.launch ∧ (q.place = .moving ∨ q.place = .heldBack)
  ∧ ((q.sender = r.sender ∧ r.sender < 2 ^ 62) ∨ (q.issue = r.issue ∧ q.sender < 2 ^ 62 ∧ r.sender < 2 ^ 62))

/-- The unit of a placed bid gone from the waiting order, or cut to its other cohorts, and the cores held for it free (R320, R327). -/
def bidGone (s : State) (b : Bid) : State :=
  { s with
    serial := s.serial + 1,
    units := s.units.flatMap (fun u => if u.id = b.unit.id then u.without b.cohort s.serial else [u]),
    dies := s.dies.map (fun D =>
      { D with reserves := D.reserves.filter (fun r => decide (r.unit ≠ b.unit.id)),
               drainFit := D.drainFit.filter (fun p => decide (p.2 ≠ b.unit.id)) }) }

/-- A team at its start (R20 to R24, R39, R77, R81, R135): in its place, resident, with every register, store and record empty, its
threads at the entry with their WIDs, PT at HWM + 1 and LCT 0, each in its lane or, where it is none's, ended. -/
def Begun (s : State) (l : Launch) (sh : TeamShape) (d : Nat) (p : CorePlace) (entry : Nat) (wid : Nat → Nat) (has : Nat → Bool)
    (u : Team) : Prop :=
  u.launch = l.id ∧ u.ctx = l.ctx ∧ u.die = d ∧ u.core = p.core ∧ u.run = p.run ∧ u.granules = p.granules ∧ u.slots = p.slots
  ∧ u.width = sh.width ∧ u.tbits = sh.tbits ∧ u.depth = sh.depth ∧ u.scr = sh.scr ∧ u.acc = sh.acc
  ∧ u.res = .resident ∧ u.eff = l.prio ∧ u.sup = l.sup ∧ u.written = false ∧ u.tenure = none ∧ u.baton = none ∧ u.mops = []
  ∧ (∀ off, u.readByte off = 0) ∧ u.tiles = [] ∧ (∀ q ∈ u.queues, q = ⟨0, 0, 0, 0, 0⟩) ∧ (∀ w ∈ u.wslots, w = ⟨none, []⟩)
  ∧ (∀ f ∈ u.sheaves, (∀ k, f.uni.get k = 0) ∧ (∀ j ∈ f.joins, j.e = [] ∧ j.a = []) ∧ f.tokens = [] ∧ f.out = [])
  ∧ u.threads.length = 2 ^ sh.tbits
  ∧ ∀ k x, u.threads[k]? = some x → x.tid = k ∧ x.wid = (if k < 2 ^ sh.tbits then wid k else 0) ∧ x.pc = BitVec.ofNat 64 entry
    ∧ x.pt = (s.die d).hwm + 1 ∧ x.lct = 0 ∧ x.regs.level = 0 ∧ (∀ i, x.regs.get i = 0) ∧ x.pend = [] ∧ x.block = .none
    ∧ (if has k then x.wait = .none ∧ x.place = some (k / sh.width, k % sh.width) else x.wait = .ended ∧ x.place = none)

/-- Cached table entries that an invalidate of a kind takes away (Table 15-7): of the tables of translation, all or those on the
path of a page; of descriptors, one or all. -/
def staleAfter (s : State) (ctx kind arg : Nat) : List Stale :=
  s.stale.filter (fun e => !(e.ctx == ctx && (
    if kind = 0 then !e.desc
    else if kind = 1 then !e.desc
      && (pathLocs s ctx ((s.ctx ctx).ptroot.extractLsb' 56 2).toNat arg 4 ((s.ctx ctx).ptroot.extractLsb' 0 54).toNat).contains e.loc
    else if kind = 2 then e.desc && e.loc == arg % 1024
    else e.desc)))

/-- A byte of host or device memory as the home slice gives it to a host read, under no key. -/
def hostLines (die dpa n : Nat) : List Nat := distinct (((List.range n).map (fun k => dpaLoc die (dpa + k))).map lineOf)

end Sys2Proof.Claims

open Sys2Proof Sys2Proof.Machine Sys2Proof.Claims

/-! ### Events of a team -/

/-- R53, R54: a team that runs forms a sheaf from the pool entry that R53 chooses: an entry that has waited 64 cycles, or
holds W threads, or stands while every live thread outside the pool is blocked. R31: a loop buffer takes the block it waited
for, the least recently used of four leaving, with its translations used (R345). R163: a result that is due lands in one of its registers, and has landed with its
last. R236: a waiting queue operation that can proceed does, as it would at its issue, and else has been tried in this cycle. -/
def Obligations.PipelineEvents : Prop :=
  (∀ (s : State) (n : Nat) (t : Team), s.team? n = some t →
    (∀ p, t.forms = true → s.formation t = some p →
      exec (.sheafFormation n) s = .next (teamBecomes s n (fun u => u.form p s.cycle))
      ∧ ((t.poolAt p).any (fun x => decide (poolStamp x + 64 ≤ s.cycle)) = true ∨ t.width ≤ (t.poolAt p).length
        ∨ ∀ x ∈ t.threads, x.live = true → x.pooled = true ∨ s.blocked t x = true)))
  ∧ (∀ (s : State) (n k : Nat) (x : Thread), s.thread? n k = some x →
    (∀ q, x.refill = some q → q.2 ≤ s.cycle + 1 →
      (∀ t pc y, s.team? n = some t → s.fetchTarget t pc = .ok y → y.route = .strm → (s.dirOf (lineOf y.loc)).host = .hi) →
      ∃ w, Looked s w ∧ exec (.loopBufferRefill n k) s = .next (threadBecomes w n k (fun y => match y.refill with
        | none => y
        | some r =>
          let others := y.blocks.filter (fun b => decide (b.1 ≠ r.1))
          { y with refill := none,
                   blocks := (if others.length < 4 then others else match leastBy (fun b => [b.2]) others with
                     | some b => others.erase b
                     | none => others) ++ [r] })))
    ∧ (∀ m p, x.pend.find? (fun q => q.serial == m) = some p → p.ready = true → p.notBefore ≤ s.cycle →
      ∃ j, (p.regs = [] ∨ j < p.regs.length) ∧ exec (.variableLatencyReturn n k m) s = .next (State.tryHandler
        { threadBecomes s n k (fun y => { y with
            regs := match p.regs[j]? with
              | some r => { y.regs with v := sset 0 y.regs.v r.1 r.2 }
              | none => y.regs,
            pend := if p.regs.length ≤ 1 then y.pend.filter (fun q => decide (q.serial ≠ m))
              else y.pend.map (fun q => if q.serial = m then { q with regs := p.regs.eraseIdx j } else q) }) with
          freeCtr := if 2 ≤ p.regs.length then s.freeCtr + 1 else s.freeCtr } n k)))
  ∧ (∀ (s : State) (n k : Nat) (t : Team) (x : Thread), s.team? n = some t → s.thread? n k = some x →
    (let tried := threadBecomes s n k (fun y => { y with tried := s.cycle })
     (∀ q v c, x.block = .push q v c → exec (.queueRetry n k) s = .next (
       if (t.queue q).count < (t.queue q).depth ∧ 0 < (t.queue q).allow then
         threadBecomes (teamBecomes tried n (fun u => u.doPush q ((x.place.map Prod.fst).getD 0) k v)) n k (fun y => { y with block := .none })
       else tried))
     ∧ (∀ q m c, x.block = .pop q m c → exec (.queueRetry n k) s = .next (
       if 0 < (t.queue q).count then
         (let found := (s.view.find? (fun u => u.id == n)).getD t
          threadBecomes (teamBecomes tried n (fun u => (u.doPop found q).1)) n k (fun y => { y with
            block := .none,
            pend := y.pend.map (fun p => if p.serial = m then
              { p with regs := p.regs.map (fun r => (r.1, (t.doPop found q).2)), ready := true, notBefore := s.cycle + 4,
                       exact := true } else p) }))
       else tried))))

/-! ### Events of the memory system -/

/-- R132, R137, R139: a store that may be applied is applied, with the requests of its entry that can (R125). One alone, on a line
already under its context's key and in no combine region: at host memory the bytes written stand in memory and every other byte is
as it was; at a STRM page the same of the current bytes of device memory; at a coherent line of which no other die must be recalled,
of the bytes as the storing die's L2 gives them, with nothing else changed for another die unless the storing die owns the line, and
LCT takes the write time; the access is then applied, package-performed where the die owns the line, gone when no host caches it
either. That a store of the home die owns the line, and is package-performed, as it is applied, though other dies hold the line in S, is the
model's (DEDUCED, log 11). Requests that come later find the entry sent (R123; log 9).
R131, R139, R148: a load that may be performed is. One alone delivers to its registers the words its shape makes of the bytes there: of
host memory, of device memory at a STRM page, as its die's L2 gives them at a coherent line, or of a copy in the core's L1 whose lease
covers PT. A future load whose address leads elsewhere takes its new place first; one whose word is full lands and lets its thread go
on; one whose word is not parks.
R149: a parked future load without an entry of the wait table executes again 128 cycles after it parked, where its team runs and it waits
for no resume command (R333, R355). R137: where a die's L2 owns a
line its stores there are package-performed, and system-performed when no host cache holds the line. Each event leaves the state alone
where it may not occur. -/
def Obligations.StoreAndLoadEvents : Prop :=
  ((∀ (s : State) (n : Nat) (a : Acc), s.acc? n = some a →
    exec (.storeApply n) s = .next (if s.canStores a then
        State.shutEntry (if s.sumsAt ((s.mates a).flatMap Acc.locs) = [] then (s.mates a).foldl (fun u b => u.applyStore b) s
         else s.retireAt ((s.mates a).flatMap Acc.locs)) a else s)
    ∧ exec (.loadRenew n) s = .next (if s.canLoads a then (s.applyLoads a).shutEntry a else s)
    ∧ (let due : Prop := a.kind = .ldf ∧ a.parked = true ∧ a.inTable = false ∧ a.since + 128 ≤ s.cycle
         ∧ (∃ t, s.team? a.team = some t ∧ (t.res = .resident ∨ ∃ e, t.res = .draining e))
         ∧ ∀ x p, s.thread? a.team a.tid = some x → x.block ≠ .ldfFault n p
       (¬due → exec (.ldfRetry n) s = .next s)
       ∧ (due → exec (.ldfRetry n) s = .next (accBecomes s n (fun b => { b with parked := false })))))
  ∧ (∀ (s : State) (a : Acc), s.shutEntry a = { s with accs := s.accs.map (fun b =>
      if b.entry = a.entry ∨ (b.id < a.id ∧ a.oneLine b = true) then { b with shut := true } else b) })
  ∧ (∀ (s : State) (d line : Nat),
      (let granted : State :=
         (let moved := s.accs.map (fun a =>
            if a.stage = .applied ∧ a.die = d ∧ a.pkg = false ∧ lineOf a.loc = line then
              { a with pkg := true, sys := decide ((s.dirOf line).host = .hi) } else a)
          { s with accs := moved.filter (fun a => !(decide (a.stage = .applied) && a.pkg && a.sys)) })
       ((∃ a ∈ s.accs, a.stage = .applied ∧ a.die = d ∧ a.pkg = false ∧ lineOf a.loc = line) →
         ((s.dirOf line).of d = .m ∨ (s.dirOf line).of d = .e) → (∀ f ∈ s.fills, ¬(f.die = d ∧ f.line = line)) →
         exec (.writeOwnershipGrant d line) s = .next granted)
       ∧ exec (.writeOwnershipGrant d line) s = .next (if s.canGrant d line then granted else s))))
  ∧ ((∀ (s : State) (n : Nat) (a : Acc), Alone s n a → s.canStores a = true → a.wrote ≠ [] →
      (∀ w ∈ a.wrote, secOf w.1 = secOf a.loc) →
      (a.route = .host → ∃ m, exec (.storeApply n) s =
          .next (State.shutEntry { s with mem := m, accs := s.accs.filter (fun b => decide (b.id ≠ n)) } a)
        ∧ ∀ loc, byteAt m loc = overwritten a.wrote loc (byteAt s.mem loc))
      ∧ (a.route = .strm → (s.dirOf (lineOf a.loc)).owner = none → wholeSectors s (homeOf a.loc) →
        ∃ t, exec (.storeApply n) s = .next t ∧ t.acc? n = none ∧ t.mem = s.mem ∧ t.teams = s.teams
          ∧ ∀ loc, t.truth loc = overwritten a.wrote loc (s.truth loc))
      ∧ (a.route = .coherent → a.loc < hostBase → a.die < s.dies.length → wholeSectors s a.die →
        (homeOf a.loc = a.die → (s.dirOf (lineOf a.loc)).owner = none) →
        (let e := s.dirOf (lineOf a.loc)
         let owned : Bool := decide (homeOf a.loc = a.die) || e.of a.die == .m || e.of a.die == .e
         let wts := max a.p ((match s.sector a.die (secOf a.loc) with | some x => x.rts | none => (s.die a.die).hwm) + 1)
         ∃ t, exec (.storeApply n) s = .next t ∧ t.mem = s.mem
          ∧ (∀ loc, t.dieByte a.die loc = overwritten a.wrote loc (s.dieByte a.die loc))
          ∧ (owned = false → ∀ d loc, d ≠ a.die → t.dieByte d loc = s.dieByte d loc)
          ∧ t.acc? n = (if owned ∧ e.host = .hi then none
              else some { a with stage := .applied, pkg := owned, sys := owned && e.host == .hi, shut := true })
          ∧ ∀ x, s.thread? a.team a.tid = some x → t.thread? a.team a.tid = some { x with lct := max x.lct wts })))
    ∧ (∀ (s : State) (n : Nat) (a : Acc), Alone s n a → s.canLoads a = true →
      (let l1 (loc : Nat) : Option Copy := sfind (s.die a.die).l1 (a.core * 2 ^ 80 + secOf loc)
       (∀ sh, a.kind = .load sh → (a.route = .coherent → (a.acquire = true ∧ 4 ≤ a.scope) ∨ ∀ l ∈ a.locs, l1 l = none) →
         ∃ t, exec (.loadRenew n) s = .next t
           ∧ Delivered s t a (loadWords sh (there s a a.loc a.size) ((shapeLocs sh).map (fun h => ofBytes (there s a h 2)))))
       ∧ (∀ sh c x, a.kind = .load sh → shapeLocs sh = [] → a.route = .coherent → (∀ l ∈ a.locs, secOf l = secOf a.loc) →
         l1 a.loc = some c → s.thread? a.team a.tid = some x → x.pt ≤ c.rts →
         ∃ t, exec (.loadRenew n) s = .next t
           ∧ (Delivered s t a (loadWords sh (there s a a.loc a.size) [])
             ∨ Delivered s t a (loadWords sh ((List.range a.size).map (fun k => c.data.getD ((a.loc + k) % 64) 0)) [])))
       ∧ (∀ b, a.kind = .ldf → s.refind a = .ok b → b.loc = a.loc → b.route = a.route → s.locError a.locs = none →
         (2 ^ 63 ≤ ofBytes (there s a a.loc a.size) → ∃ t, exec (.loadRenew n) s = .next t
           ∧ Delivered s t a (plainWords .words (there s a a.loc a.size)))
         ∧ (ofBytes (there s a a.loc a.size) < 2 ^ 63 → ∃ t inTable, exec (.loadRenew n) s = .next t
           ∧ t.acc? n = some { a with parked := true, inTable := inTable, since := s.cycle, shut := true }))
       ∧ (∀ b, a.kind = .ldf → s.refind a = .ok b → ¬(b.loc = a.loc ∧ b.route = a.route) →
         ∃ w, Looked s w ∧ exec (.loadRenew n) s = .next (State.shutEntry (accBecomes w n (fun _ => b)) a)))))

/-- R132: a store of bytes of one sector at a slice gives it the write time max(p, rts + 1), which it returns, and the same
lease; the bytes written stand in it, marked as written, and its other bytes are as they were; HWM is no lower than the time, and no
other sector changes, nor does memory. R131: a read renews the lease to at least PT + LEASE
and never below what it was, and returns the sector's bytes. R386: written bytes that go back over a poisoned line are
discarded, which adds one to PSNCNT and has no other effect.
R136: once a die's HWM has reached 2^47 and no store of it is in flight, a rebase empties its L1s and puts every time of the die at
0: HWM, each sector's, each thread's PT and LCT, each home sheaf's, and those of the accesses and operations under way; and nothing
else changes. -/
def Obligations.TimesAtSlices : Prop :=
  ((∀ (s : State) (d sec p : Nat) (ws : List (Nat × Byte × Byte)) (D : Die) (x : Sector), s.dies[d]? = some D →
    sfind D.l2 sec = some x →
    (s.storeSector d sec ws p).2 = max p (x.rts + 1)
    ∧ ((s.storeSector d sec ws p).1.sector d sec).map (fun y => (y.wts, y.rts, y.full)) =
        some (max p (x.rts + 1), max p (x.rts + 1), x.full)
    ∧ (∀ y k, (s.storeSector d sec ws p).1.sector d sec = some y → k < 64 → x.data.length = 64 → x.mask.length = 64 →
        y.data.getD k 0 = overwritten ws (sec * 64 + k) (x.data.getD k 0)
        ∧ y.mask.getD k 0 = (ws.filter (fun w => w.1 == sec * 64 + k)).foldl (fun m w => m ||| w.2.2) (x.mask.getD k 0))
    ∧ ((s.storeSector d sec ws p).1.die d).hwm = max D.hwm (max p (x.rts + 1))
    ∧ (∀ k, k ≠ sec → (s.storeSector d sec ws p).1.sector d k = s.sector d k)
    ∧ (∀ e k, e ≠ d → (s.storeSector d sec ws p).1.sector e k = s.sector e k)
    ∧ (s.storeSector d sec ws p).1.mem = s.mem)
  ∧ (∀ (s : State) (d sec pt lease : Nat) (D : Die) (x : Sector), s.dies[d]? = some D → sfind D.l2 sec = some x →
    (s.renew d sec pt lease).2 = { x with rts := max x.rts (max x.wts (pt + lease)) }
    ∧ (s.renew d sec pt lease).1.sector d sec = some { x with rts := max x.rts (max x.wts (pt + lease)) }
    ∧ ((s.renew d sec pt lease).1.die d).hwm = max D.hwm (max x.rts (max x.wts (pt + lease))))
  ∧ (∀ (s : State) (sec : Nat) (x : Sector), s.poison.contains sec = true →
    s.writeBack sec x = (if x.dirty then dieBecomes s (homeOf (sec * 64)) (fun D => { D with psncnt := min (D.psncnt + 1) (2 ^ 32 - 1) })
      else s)))
  ∧ (∀ (s : State) (d : Nat), 2 ^ 47 ≤ (s.die d).hwm → s.storesQuiet d = true →
    exec (.timeRebase d) s = .next { s with
      dies := s.dies.mapIdx (fun i D => if i = d then
        { D with hwm := 0, l1 := [], l2 := D.l2.map (fun r => (r.1, { r.2 with wts := 0, rts := 0 })) } else D),
      teams := s.teams.map (fun t => if t.die = d then
        { t with threads := t.threads.map (fun x => { x with pt := 0, lct := 0 }),
                 sheaves := t.sheaves.map (fun f => { f with
                   tokenW := [], out := f.out.map (fun o => { o with wts := 0 }), topW := [0, 0, 0, 0] }) }
        else t),
      accs := s.accs.map (fun a => if a.die = d then { a with p := 0 } else a),
      ops := s.ops.map (fun o => if o.die = d then { o with p := 0, wts := 0, final := o.final.map (fun v => (v.1, 0)) } else o) })

/-- Table 16-4 and R364 to R367: a read miss applied at the directory, where it has room, gives the die E when no other die and
not the home L2 holds the line and S otherwise, with the line's current bytes on their way; another die that owns the line is
left in S with its written bytes back in memory. Write ownership recalls or invalidates the others and leaves the die in M and every other
die I, with the bytes on their way, the home L2's written bytes back in memory and its copy gone. An access of the home side recalls
an owner, which is I after it and keeps nothing of the line. An eviction notice leaves the die I. Line data fills the L2 with the
written bytes over the fill, and makes a die in E that has written M. A line leaves an L2 with exactly its written bytes back in
memory, and an L2 eviction wakes the parked future loads of the line. -/
def Obligations.DirectoryEvents : Prop :=
  (∀ (s : State) (d line : Nat),
    exec (.dirReadMiss d line) s = .next (if s.canReadMiss d line then s.applyReadMiss d line else s)
    ∧ exec (.dirWriteOwnership d line) s = .next (if s.canOwn d line then s.applyOwn d line else s)
    ∧ exec (.dirHomeAccess line) s = .next (if s.canRecall line then s.homeRecall line else s)
    ∧ (∀ y, s.canRecall line = true → (s.dirOf line).owner = some y → exec (.dirHomeAccess line) s = .next (s.recall y line))
    ∧ exec (.dirEviction d line) s = .next (if s.canNotice d line then s.setDirDie line d .i else s)
    ∧ (∀ f, s.fillFor d line = some f → exec (.lineDataReceive d line) s = .next
        (let u := (s.receive f).dropFills d line
         if (u.dirOf line).of d = .e ∧ (List.range 4).any (fun k => (u.sector d (line * 4 + k)).any Sector.dirty) = true
         then u.setDirDie line d .m else u))
    ∧ exec (.l2Eviction d line) s = .next (if s.canEvict d line then (s.evictLine d line).wakeLine d line else s))
  ∧ (∀ (s : State) (d line : Nat), s.victim line = none → (s.dirOf line).dies.length = 4 → d < 4 →
    (s.canReadMiss d line = true →
      ((s.dirOf line).owner = none → ∃ t, exec (.dirReadMiss d line) s = .next t ∧ t.mem = s.mem
        ∧ (t.dirOf line).of d = (if (s.dirOf line).othersI d && !s.homeHolds line then .e else .s)
        ∧ t.fills = s.fills ++ [⟨d, line, (List.range 256).map (fun k => s.truth (line * 256 + k)), false⟩]
        ∧ ∀ e sec, t.sector e sec = s.sector e sec)
      ∧ (∀ y, (s.dirOf line).owner = some y → ∃ t, exec (.dirReadMiss d line) s = .next t
        ∧ (t.dirOf line).of d = .s ∧ (t.dirOf line).of y = .s
        ∧ t.fills = s.fills ++ [⟨d, line, (List.range 256).map (fun k => s.truth (line * 256 + k)), false⟩]
        ∧ ∀ loc, byteAt t.mem loc = if lineOf loc = line then wentBack s y loc else byteAt s.mem loc))
    ∧ (s.canOwn d line = true → (s.dirOf line).owner = none →
      ∃ t, exec (.dirWriteOwnership d line) s = .next t ∧ (t.dirOf line).of d = .m ∧ (∀ e, e < 4 → e ≠ d → (t.dirOf line).of e = .i)
        ∧ t.fills = s.fills ++ [⟨d, line, (List.range 256).map (fun k => s.truth (line * 256 + k)), true⟩]
        ∧ (∀ k, k < 4 → t.sector (lineHome line) (line * 4 + k) = none)
        ∧ ∀ loc, byteAt t.mem loc = if lineOf loc = line then wentBack s (lineHome line) loc else byteAt s.mem loc)
    ∧ (s.canOwn d line = true → ∀ y, (s.dirOf line).owner = some y →
      (∀ e, ((s.dirOf line).of e = .e ∨ (s.dirOf line).of e = .m) → e = y) →
      ∃ t, exec (.dirWriteOwnership d line) s = .next t ∧ (t.dirOf line).of d = .m ∧ (∀ e, e < 4 → e ≠ d → (t.dirOf line).of e = .i)
        ∧ t.fills = s.fills ++ [⟨d, line, (List.range 256).map (fun k => (s.recall y line).truth (line * 256 + k)), true⟩]))
  ∧ (∀ (s : State) (line y : Nat), s.canRecall line = true → (s.dirOf line).owner = some y →
      ∃ t, exec (.dirHomeAccess line) s = .next t ∧ (t.dirOf line).of y = .i ∧ (∀ k, k < 4 → t.sector y (line * 4 + k) = none)
        ∧ ∀ loc, byteAt t.mem loc = if lineOf loc = line then wentBack s y loc else byteAt s.mem loc)
  ∧ (∀ (s : State) (d line : Nat), s.canNotice d line = true → d < (s.dirOf line).dies.length →
      ∃ t, exec (.dirEviction d line) s = .next t ∧ (t.dirOf line).of d = .i ∧ t.mem = s.mem)
  ∧ (∀ (s : State) (d line k j : Nat) (f : Fill), s.fillFor d line = some f → d < s.dies.length → k < 4 → j < 64 →
      ∃ t x, exec (.lineDataReceive d line) s = .next t ∧ t.mem = s.mem ∧ t.sector d (line * 4 + k) = some x ∧ x.full = true
        ∧ (match s.sector d (line * 4 + k) with
          | some o => x.mask = o.mask ∧ x.data.getD j 0 = (f.data.getD (64 * k + j) 0 &&& ~~~(o.mask.getD j 0)) ||| (o.data.getD j 0 &&& o.mask.getD j 0)
          | none => x.mask = List.replicate 64 0 ∧ x.data.getD j 0 = f.data.getD (64 * k + j) 0)
        ∧ (∀ o, s.sector d (line * 4 + k) = some o → o.dirty = true → (s.dirOf line).of d = .e → (t.dirOf line).of d = .m))
  ∧ (∀ (s : State) (d line k : Nat) (x : Sector), k < 4 → s.sector d (line * 4 + k) = some x → (∀ f ∈ s.fills, ¬(f.die = d ∧ f.line = line)) →
      lineHome line = d ∨ (s.dirOf line).of d = .m ∨ (s.dirOf line).of d = .e
        ∨ (∀ j y, j < 4 → s.sector d (line * 4 + j) = some y → y.dirty = false) →
      exec (.l2Eviction d line) s = .next ((s.evictLine d line).wakeLine d line))
  ∧ (∀ (s : State) (d line : Nat),
      (∀ loc, byteAt (s.evictLine d line).mem loc = if lineOf loc = line then wentBack s d loc else byteAt s.mem loc)
      ∧ (∀ sec, (s.evictLine d line).sector d sec = if sec / 4 = line then none else s.sector d sec)
      ∧ ∀ e sec, e ≠ d → (s.evictLine d line).sector e sec = s.sector e sec)

/-- R222 and Table 9-5: an atomic that may be applied, at a place that bears no exact sum, returns the old bytes and
writes the new value of the table unless it is a CAS that fails; PT, and LCT when it writes, take the write time. R141: a reduction is
applied when it is accepted, returns nothing and moves LCT. Every other byte is as it was. R143: a .UNORD add joins the sum that stands at
its location, or starts one from the bytes there; a claim succeeds where the sum stands or the slice has room, and
otherwise answers REDUCTION_FULL, 0x24. A sum that another access meets retires: its rounded value stands at its location, every other
byte is as it was, and its place is free, but for an add on its way to it (log 25). Every contribution is added exactly, modulo 2^320: the
value is the sum of the contributions in steps of 2^−149, rounded once to nearest, +0 where it is zero, infinite above the largest; a NaN or
infinities of both signs give the canonical NaN, other infinities theirs. -/
def Obligations.AtomicEvents : Prop :=
  (∀ (s : State) (n : Nat) (a : Acc), s.acc? n = some a → s.canHome a = true → s.sumsAt a.locs = [] →
    (let w (typ : Nat) (x : DWord) : Nat := x.toNat % 2 ^ (if typ = 2 ∨ typ = 3 then 64 else 32)
     (∀ op typ x y, a.kind = .atomic op typ x y → typ ≤ 4 →
       (let q := s.modifyHome a (fun old => tableNew op typ old (w typ x) (w typ y))
        let u := q.1.raisePt a.team a.tid q.2.2
        exec (.atomicApply n) s = .next ((State.land
          (if (tableNew op typ (ofBytes q.2.1) (w typ x) (w typ y)).isSome then u.raiseLct a.team a.tid q.2.2 else u) a
          (plainWords .words q.2.1)).shutEntry a)))
     ∧ (∀ op typ x, a.kind = .reduce op typ x → typ ≤ 4 →
       (let q := s.modifyHome a (fun old => tableNew op typ old (w typ x) 0)
        exec (.reductionAccept n) s = .next (((q.1.raiseLct a.team a.tid q.2.2).dropAcc n).shutEntry a)))))
  ∧ (∀ (s : State) (n : Nat) (a : Acc), s.acc? n = some a → s.canHome a = true → s.sumsAt a.locs = [] → noCombine s →
    (∀ l ∈ a.locs, sget 0 s.ktag (secOf l) = s.keyOf a.ctx a.route) → a.size = 4 ∨ a.size = 8 → a.loc % a.size = 0 →
    (a.route ≠ .host → (s.dirOf (lineOf a.loc)).owner = none ∧ wholeSectors s (homeOf a.loc) ∧ a.loc < hostBase) →
    (let w (typ : Nat) (x : DWord) : Nat := x.toNat % 2 ^ (if typ = 2 ∨ typ = 3 then 64 else 32)
     let byte (u : State) (loc : Nat) : Byte := if a.route = .host then byteAt u.mem loc else u.truth loc
     let old : Nat := ofBytes ((List.range a.size).map (fun k => byte s (a.loc + k)))
     let becomes (t : State) (new : Option Nat) : Prop := ∀ loc, byte t loc =
       if a.loc ≤ loc ∧ loc < a.loc + a.size then (match new with
         | some v => BitVec.ofNat 8 (v / 256 ^ (loc - a.loc))
         | none => byte s loc)
       else byte s loc
     (∀ op typ x y, a.kind = .atomic op typ x y → typ ≤ 4 → ∃ t, exec (.atomicApply n) s = .next t
       ∧ becomes t (tableNew op typ old (w typ x) (w typ y))
       ∧ Delivered s t a (plainWords .words ((List.range a.size).map (fun k => byte s (a.loc + k)))))
     ∧ (∀ op typ x, a.kind = .reduce op typ x → typ ≤ 4 → ∃ t, exec (.reductionAccept n) s = .next t
       ∧ becomes t (tableNew op typ old (w typ x) 0) ∧ t.acc? n = none)))
  ∧ (∀ (s : State) (n : Nat) (a : Acc) (w : Word), s.acc? n = some a → a.kind = .unord w → s.canHome a = true → noCombine s →
    (∀ l ∈ a.locs, sget 0 s.ktag (secOf l) = s.keyOf a.ctx a.route) → a.loc % 4 = 0 → a.size = 4 →
    (a.route = .coherent ∨ a.route = .strm) → a.loc < hostBase → (s.dirOf (lineOf a.loc)).owner = none →
    (∀ e, s.sumAt a.loc = some e → e.held = true →
      ∃ t, exec (.reductionAccept n) s = .next t ∧ t.acc? n = none ∧ t.sumAt a.loc = some (e.add w))
    ∧ ((∀ e ∈ (s.die (homeOf a.loc)).sums, e.loc = a.loc → e.held = false) →
      ∃ t, exec (.reductionAccept n) s = .next t ∧ t.acc? n = none
        ∧ t.sumAt a.loc = some (((⟨a.loc, true, 0, none, a.launch, a.ctx⟩ : ExactSum).add
            (BitVec.ofNat 32 (ofBytes (s.truthBytes a.loc 4)))).add w)))
  ∧ (∀ (s : State) (n : Nat) (a : Acc), s.acc? n = some a → a.kind = .claim → (s.die (homeOf a.loc)).state = 1 → a.loc < hostBase →
    exec (.exactSumClaim n) s = .next (
      if (s.sumAt a.loc).isSome then s.answerThread a ⟨a.pc, 0, [], false, a.loc⟩
      else if s.sumRoom a.loc then
        State.answerThread (dieBecomes s (homeOf a.loc) (fun D => { D with sums := D.sums ++ [⟨a.loc, false, 0, none, a.launch, a.ctx⟩] })) a
          ⟨a.pc, 0, [], false, a.loc⟩
      else s.answerThread a ⟨a.pc, 0x24, [], false, a.loc⟩))
  ∧ (∀ (s : State) (e : ExactSum), e.held = true → e.loc % 4 = 0 → s.sumsAt ((List.range 4).map (fun k => e.loc + k)) = [e] →
    e ∈ (s.die (homeOf e.loc)).sums → noCombine s → e.loc < hostBase → homeOf e.loc < s.dies.length →
    (s.dirOf (lineOf e.loc)).owner = none →
    wholeSectors s (homeOf e.loc) → sget 0 s.ktag (secOf e.loc) = s.keyOf e.ctx .coherent →
    (let t := s.retireAt ((List.range 4).map (fun k => e.loc + k))
     (∀ loc, t.truth loc = if e.loc ≤ loc ∧ loc < e.loc + 4 then BitVec.ofNat 8 (e.rounded.toNat / 256 ^ (loc - e.loc)) else s.truth loc)
     ∧ t.sumsAt ((List.range 4).map (fun k => e.loc + k)) = []
     ∧ ((∀ a ∈ s.accs, a.loc = e.loc → ∀ w, a.kind ≠ .unord w) → ∀ f ∈ (t.die (homeOf e.loc)).sums, f.loc ≠ e.loc)))
  ∧ (∀ (ws : List Word) (loc launch ctx : Nat),
    (let e := ws.foldl ExactSum.add ⟨loc, true, 0, none, launch, ctx⟩
     let infinite (neg : Bool) (w : Word) : Bool := decide (w.toNat % 2 ^ 31 = 0x7F800000) && w.msb == neg
     let units (w : Word) : Int :=
       (if w.msb then -1 else 1) * (magnitude f32 (w.toNat % 2 ^ 31)).1 * 2 ^ ((magnitude f32 (w.toNat % 2 ^ 31)).2 + 149).toNat
     ((∃ w ∈ ws, nanBitsOf f32 w.toNat = true) ∨ ((∃ w ∈ ws, infinite true w = true) ∧ ∃ w ∈ ws, infinite false w = true) →
       e.rounded.toNat = f32.nanBits)
     ∧ (∀ neg, (∃ w ∈ ws, infinite neg w = true) → (∀ w ∈ ws, nanBitsOf f32 w.toNat = false ∧ infinite (!neg) w = false) →
       e.rounded.toNat = signed f32 neg f32.infBits)
     ∧ ((∀ w ∈ ws, finite32 w.toNat = true) → e.value = BitVec.ofInt 320 ((ws.map units).sum)
       ∧ (e.value = 0 → e.rounded = 0)
       ∧ (e.value ≠ 0 → roundedBy f32 .rn e.value.msb (fun q => q - (e.value.toInt.natAbs : Rat) * power2 (-149)) e.rounded.toNat))))

/-! ### Events of the engines and the matrix array -/

/-- R229 to R232, R259, R260: an operation that may be performed, and meets no exact sum, does its work up to the first condition and
completes with the status, the bytes written and, for GATHER, the lowest bad element; a copy to another device sends and waits. R354:
one that meets a translation condition pauses with a class F record, or, when its launch has ended early, completes with status 5
(R350, R351), which is reported. The status and the bytes of an operation that stops are those before its first condition, all at one
instant (DESIGN CHOICE, log 8); a WLOAD that stops in a block left over when its run is full ends with that status and not 8 (DESIGN CHOICE,
log 25). A copy from scratchpad to scratchpad between ranges apart leaves each byte of the source in its place, every other
byte as it was, and completes its token with status 0 and its length. R253, R254: a matrix operation starts when its panels have come,
reads its segments one by one, ascending, and at its finish writes its tiles and leaves its counter: the elements of R253, each the
sum of R104 in groups of eight or the count of R103, of operands by Table 10-7 and R251. R229, R116: a copy to scratchpad leaves the source's
bytes there, or its DX elements as FP16 values; one to memory leaves the scratchpad's bytes as its die sees them. R231: a gather leaves its
elements, zeros for a bad one, and names the lowest. R259, R260: the blocks of a panel, their values and sizes, and how they fill slots. -/
def Obligations.EngineEvents : Prop :=
  (∀ (s : State) (n : Nat) (o : Op), s.op? n = some o →
    (o.kind = 0 → o.sent = false → s.opMay o (s.copyUnits o) = true → s.meetsSum (s.copyUnits o) = false →
      exec (.copyComplete n) s = .next (
        if ((s.copyWork o).1.performUnits o (s.copyWork o).2).2.2.2 = none ∧ o.remote 1 = true ∧ copyToMem (dword o.params 2) = true then
          opBecomes ((s.copyWork o).1.performUnits o (s.copyWork o).2).1 n (fun o => { o with sent := true })
        else engineEnds (s.copyWork o).1 o (s.copyWork o).2 none))
    ∧ (o.kind = 2 → s.opMay o (s.gatherUnits o) = true → s.meetsSum (s.gatherUnits o) = false →
      exec (.gatherComplete n) s = .next (engineEnds s o (s.gatherUnits o) (s.gatherBad o)))
    ∧ (o.kind = 1 → s.opMay o (s.wloadUnits o) = true → s.meetsSum (s.wloadUnits o) = false →
      exec (.wloadComplete n) s = .next (
        let us := s.wloadUnits o
        let w := dword o.params 2
        let stop := firstStop us
        let blocks := ((s.wloadBlocks o).take (match stop with | some x => x.1 | none => us.length)).filterMap
          (fun b => match b with | .ok (x, _) => some x | .error _ => none)
        let q := placeBlocks (wSpan w) blocks []
        let u := ((s.noteWalks o).engineReads o (us.flatMap (fun u => match u with | .ok (_, l) => l | .error _ => []))).mapTeam o.team (fun t =>
          t.mapSlots (wSlot w) (wSpan w) (fun k x => { x with blocks := q.1.getD k [] }))
        match stop with
        | some (_, code, va) => u.finishOp o (wloadValue q.1 (stopStatus code)) 0 (some (code, stopAux code va))
        | none => u.finishOp o (wloadValue q.1 (if q.2 then 8 else 0)) 0 none))
    ∧ (∀ code va, s.opPause o = some (code, va) → (let v := s.noteWalks o
        (v.stopped o = true → exec (.engineFaultPause n) s = .next (v.abortOp o (some (code, BitVec.ofNat 64 va))))
        ∧ (v.stopped o = false → exec (.engineFaultPause n) s = .next (
          let u := opBecomes v n (fun o => { o with paused := some (code, va) })
          (u.report (u.engineReport o code (BitVec.ofNat 64 va) false)).1)))))
  ∧ (∀ (s : State) (n : Nat) (o : Op) (t : Team) (f : Sheaf), s.op? n = some o → s.team? o.team = some t → t.sheaves[o.sheaf]? = some f →
    (let w := dword o.params 2
     let len := (w.extractLsb' 0 32).toNat
     let a := (dword o.params 0).toNat
     let b := (dword o.params 1).toNat
     o.kind = 0 → o.sent = false → o.descs = [] → o.taken = [] → o.landed = [] → o.wts = 0 → s.opReady o = true →
     w.extractLsb' 32 2 = 3 → w.extractLsb' 34 2 = 0 → (a + len ≤ b ∨ b + len ≤ a) →
     ∃ v u g, exec (.copyComplete n) s = .next v ∧ v.op? n = none ∧ v.team? o.team = some u
       ∧ (∀ off, u.readByte off = if b ≤ off ∧ off < b + len then t.readByte (a + (off - b)) else t.readByte off)
       ∧ u.sheaves[o.sheaf]? = some g ∧ g.uni.get o.token = BitVec.ofNat 64 len ∧ ∀ q ∈ g.tokens, q.2 ≠ n))
  ∧ (∀ (s : State) (n : Nat) (t : Team) (m : MOp) (rest : List MOp), s.team? n = some t → t.mops = m :: rest →
    (m.started = false → s.ops.any (fun o => o.kind == 1 && o.team == t.id && decide (o.serial < m.serial)) = false →
      exec (.mmaOperationStart n) s = .next (teamBecomes s n (onHead (fun m => { m with started := true }))))
    ∧ (∀ off, m.started = true → (aSegments m.block)[m.segs.length]? = some off →
      (∀ u, s.view.find? (fun u => u.id == n) = some u → ∃ y ∈ u.mops, y.serial = m.serial) →
      exec (.segmentRead n) s = .next (teamBecomes s n (onHead (fun m => { m with segs := m.segs ++
        [(off, ((s.view.find? (fun u => u.id == n)).getD t).scratchBytes off 64)] }))))
    ∧ (m.started = true → (aSegments m.block).length ≤ m.segs.length →
      exec (.mmaOperationFinish n) s = .next (teamBecomes s n (fun u => match u.mops with
        | [] => u
        | m :: r => { (u.mmaWrite m).mapSheaf m.sheaf (fun f => f.complete 1 m.serial 0) with mops := r })))
    ∧ (m.started = true → (aSegments m.block).length ≤ m.segs.length →
      (let p := blockOf_ m.block
       ∃ v u, exec (.mmaOperationFinish n) s = .next v ∧ v.team? n = some u ∧ u.mops = rest
        ∧ (∀ i < p.m, ∀ j < p.n, u.readWord (elementPlace p i j) = matrixElement t m i j (t.readWord (elementPlace p i j)))
        ∧ ∀ a, a % 4 = 0 → (∀ i < p.m, ∀ j < p.n, a ≠ elementPlace p i j) → u.readWord a = t.readWord a)))
  ∧ (∀ b : List DWord, (aSegments b).Pairwise (· < ·) ∧ ∀ x, x ∈ aSegments b ↔
      (let p := blockOf_ b
       ∃ q < p.rows, ∃ j < (p.rowBytes + 63) / 64, x = p.aoff + q * p.astride + 64 * j))
  ∧ (∀ (s : State) (o : Op) (t : Team) (f : Sheaf) (bytes : Nat → List Byte), Performs s o (s.copyUnits o) t f →
    o.kind = 0 → o.sent = false → fieldOf o.params 2 32 2 = 1 → o.remote 0 = false → fieldOf o.params 2 0 32 ≤ 2 ^ 26 →
    (let len := fieldOf o.params 2 0 32
     let dx := fieldOf o.params 2 34 2
     let b := (o.params.getD 1 0).toNat
     dx < 3 → (∀ k < len, Gives s o (o.desc 0) (fieldOf (o.desc 0) 0 0 54 + fieldOf o.params 0 0 54 + k) dx (bytes k)) →
     ∃ v u, exec (.copyComplete o.serial) s = .next v ∧ v.team? o.team = some u ∧ Completed v o (BitVec.ofNat 64 (len * 2 ^ dx))
       ∧ ∀ x, u.readByte x = if b ≤ x ∧ x < b + len * 2 ^ dx then (bytes ((x - b) / 2 ^ dx)).getD ((x - b) % 2 ^ dx) 0 else t.readByte x))
  ∧ (∀ (s : State) (o : Op) (t : Team) (f : Sheaf) (p : Nat → Page), Performs s o (s.copyUnits o) t f →
    o.kind = 0 → o.sent = false → fieldOf o.params 2 32 2 = 2 → o.remote 1 = false → fieldOf o.params 2 34 2 = 0 →
    fieldOf o.params 2 0 32 ≤ 2 ^ 26 → wholeSectors s o.die → o.die < s.dies.length →
    (let len := fieldOf o.params 2 0 32
     let d := o.desc 1
     let va (k : Nat) : Nat := fieldOf d 0 0 54 + fieldOf o.params 1 0 54 + k
     let loc (k : Nat) : Nat := placeIn s o d (p k) (va k % (p k).size)
     (∀ k < len, PageIs s o d (va k) .store (p k) ∧ ((p k).fmt = 0 ∨ (d.getD 2 0).getLsbD 4 = true) ∧ Readable s o (p k) (loc k) 1
       ∧ (p k).host = false ∧ (p k).strm = false ∧ homeOf (loc k) = o.die ∧ (s.dirOf (lineOf (loc k))).owner = none) →
     ∃ v, exec (.copyComplete o.serial) s = .next v ∧ Completed v o (BitVec.ofNat 64 len)
       ∧ ∀ x, v.dieByte o.die x = overwritten ((List.range len).map (fun k =>
           (loc k, t.readByte ((o.params.getD 0 0).toNat + k), (0xFF : Byte)))) x (s.dieByte o.die x)))
  ∧ (∀ (s : State) (o : Op) (t : Team) (f : Sheaf) (bytes : Nat → Nat → List Byte), Performs s o (s.gatherUnits o) t f →
    o.kind = 2 → o.remote 0 = false → fieldOf o.params 2 0 32 ≤ 65536 →
    (let count := fieldOf o.params 2 0 32
     let dx := fieldOf o.params 2 34 2
     let z := elementSize o.params
     let index := (o.params.getD 1 0).toNat
     let dst := (o.params.getD 3 0).toNat
     let d := o.desc 0
     let off (k : Nat) : Nat := fieldOf o.params 0 0 54 + (t.readWord (index + 4 * k)).toNat * z
     let bad (k : Nat) : Bool := decide (fieldOf d 1 0 54 < off k + z) || decide (2 ^ 54 ≤ fieldOf d 0 0 54 + off k)
       || (fieldOf d 0 0 54 + off k) % z != 0
     dx < 3 → index % 4 = 0 → (index + 4 * count ≤ dst ∨ dst + count * (z * 2 ^ dx) ≤ index) →
     (∀ k < count, bad k = false → ∀ j < z, Gives s o d (fieldOf d 0 0 54 + off k + j) dx (bytes k j)) →
     ∃ v u, exec (.gatherComplete o.serial) s = .next v ∧ v.team? o.team = some u
       ∧ Completed v o (match (List.range count).find? bad with
         | some k => BitVec.ofNat 64 (k * 2 ^ 40 + 6 * 2 ^ 32 + count * (z * 2 ^ dx))
         | none => BitVec.ofNat 64 (count * (z * 2 ^ dx)))
       ∧ ∀ x, u.readByte x = if dst ≤ x ∧ x < dst + count * (z * 2 ^ dx) then
           (let k := (x - dst) / (z * 2 ^ dx)
            if bad k then 0 else (bytes k ((x - dst) % (z * 2 ^ dx) / 2 ^ dx)).getD ((x - dst) % 2 ^ dx) 0)
         else t.readByte x))
  ∧ (∀ (s : State) (o : Op) (x : Nat → Nat → Machine.Num), o.remote 0 = false → noCombine s →
    (let g := fieldOf o.params 2
     let rb := (g 0 10 + 15) / 16
     g 24 3 ≤ 4 → (∀ r < g 0 10, ∀ c < g 16 8, PanelElement s o (o.desc 0) (fieldOf o.params 0 0 54) (g 24 3) (panelElement o.params r c) (x r c)) →
     (s.wloadBlocks o).length = rb * ((g 16 8 + 15) / 16)
     ∧ ∀ q < rb * ((g 16 8 + 15) / 16), ∃ vals size locs, (s.wloadBlocks o)[q]? = some (.ok ((vals, size), locs)) ∧ vals.length = 256
       ∧ (∀ k < 256, vals.getD k .nan = (let r := 16 * (q % rb) + k / 16
           let c := 16 * (q / rb) + k % 16
           let y := if r < g 0 10 ∧ c < g 16 8 then x r c else .fin false 0 0
           match y with | .fin _ 0 _ => .fin false 0 0 | y => y))
       ∧ size = if g 24 3 = 4 then 32
           else 32 + 2 * (vals.filter (fun y => match y with | .fin _ 0 _ => false | _ => true)).length))
  ∧ (∀ (span : Nat) (bs : List (List Machine.Num × Nat)), (∀ b ∈ bs, b.2 ≤ 4096) →
    (let q := placeBlocks span bs []
     q.1.flatten = bs.take q.1.flatten.length ∧ q.1.length ≤ span
     ∧ (q.2 = true ↔ q.1.flatten.length < bs.length)
     ∧ (∀ sl ∈ q.1, sl ≠ [] ∧ sl.length ≤ 16 ∧ (sl.map Prod.snd).sum ≤ 4096)
     ∧ (∀ k sl, q.1[k]? = some sl → ∀ b, bs[(q.1.take (k + 1)).flatten.length]? = some b →
         sl.length = 16 ∨ 4096 < (sl.map Prod.snd).sum + b.2)
     ∧ (q.2 = true → q.1.length = span)))

/-! ### Collectives and other devices -/

/-- R378, R379: a contribution of another device enters its set, and the set is settled; one more set than 256 is not opened. A set
that some rank is missing from stays as it is, and so does one whose parts differ in the number of ranks (the spec states no outcome of
that; DESIGN CHOICE, log 25); a full one whose ranks agree on OP, TYPE, ROUND and COUNT answers every rank of this device with the
elements combined by the tree of R107 over the ranks, each float addition rounded in the ROUND mode (R107, R378), and one whose ranks
disagree with status 9. A rank's result is written to its destination and its token completes; a status other than 0 completes with
nothing written. R374: the checks of
a request at its row, in their order: BUFFER_OWNER where this device is in no domain, the row lies past the table, is not valid, admits
another device or has a reserved bit set, then BUFFER_RIGHTS; a row on a marked line answers its condition (R370, R386; DEDUCED,
log 20). A request that fails the checks changes nothing here but what its reads of tables leave in caches and slices (R345, R381), and
gets its condition; a store of another device that passes them leaves its bytes at its locations and every other current byte as it was.
An access that names this device's own number is served here (DEDUCED, log 25), its entry's requests as one (R124, R125); alone in its
entry it is answered as the request is, and its thread's PT is no lower. R375: the answer to an access or operation reaches it; where no working
route leads to the device for 2^20 cycles the answer is DATA_LOST. R389: a link that comes up runs with encryption or without (a Duette link
that comes up gives every device a working route: the model's form of the message, log 1). -/
def Obligations.DomainEvents : Prop :=
  (∀ (s : State) (c : Contribution), c.sender = none → exec (.collContribution c) s = .next (
    if s.collSets.any (fun x => x.tag == c.tag && x.gen == c.gen) then
      State.settleSet { s with collSets := s.collSets.map (fun x =>
        if x.tag = c.tag ∧ x.gen = c.gen then { x with parts := x.parts ++ [c] } else x) } c.tag c.gen
    else if s.collSets.length < 256 then State.settleSet { s with collSets := s.collSets ++ [⟨c.tag, c.gen, [c]⟩] } c.tag c.gen
    else s))
  ∧ (∀ (s : State) (tag gen : Nat) (x : CollSet) (c : Contribution) (rest : List Contribution),
    s.collSets.find? (fun x => x.tag == tag && x.gen == gen) = some x → x.parts = c :: rest → c.ranks ≤ 65536 →
    (((∃ i < c.ranks, ∀ p ∈ x.parts, p.rank ≠ i) ∨ ∃ p ∈ x.parts, p.ranks ≠ c.ranks) → s.settleSet tag gen = s)
    ∧ ((∀ i < c.ranks, ∃ p ∈ x.parts, p.rank = i) → (∀ p ∈ x.parts, p.ranks = c.ranks) →
      s.settleSet tag gen = { s with
        collSets := s.collSets.filter (fun y => !(y.tag == tag && y.gen == gen)),
        collAnswers := s.collAnswers ++ x.parts.filterMap (fun p => p.sender.map (fun id =>
          if ∀ q ∈ x.parts, q.op = c.op ∧ q.typ = c.typ ∧ q.round = c.round ∧ q.count = c.count then (id, 0, rankResult x.parts c)
          else (id, 9, []))) }))
  ∧ (∀ (s : State) (n : Nat) (o : Op) (reply : CollReply) (status : Nat) (data : List Byte), s.op? n = some o → o.kind = 3 →
    o.sent = true → o.paused = none → o.final = none → s.collAnswer o reply = some (status, data) →
    (let u : State := { s with collAnswers := s.collAnswers.filter (fun a => decide (a.1 ≠ n)) }
     let us := u.collDestUnits o data
     (status ≠ 0 → exec (.collResult n reply) s = .next (u.finishOp o (completion status 0 0) 0 none))
     ∧ (status = 0 → o.remote 1 = false → pauseOf us = none → u.walksFree o = true → u.engineMay o us = true → u.meetsSum us = false →
       exec (.collResult n reply) s = .next (engineEnds u o us none))))
  ∧ (∀ (s : State) (r : RemoteRequest) (c : Nat), s.exptabCheck r = .error c →
    (∃ w, Looked s w ∧ exec (.remoteAccessRequest r) s = .next w) ∧ ∃ w, Looked s w ∧ s.serve r = (w, .condition c))
  ∧ (∀ (s : State) (r : RemoteRequest),
    (let e := r.va / 2 ^ 42
     let die := (s.expBase.extractLsb' 56 2).toNat
     let at_ := (s.expBase.extractLsb' 0 54).toNat + 16 * e
     let w := s.dpaWord die at_
     let allowed : Bool := match r.kind with
       | .load => w.getLsbD 48
       | .future => w.getLsbD 48
       | .store _ => w.getLsbD 49
       | .block _ _ => w.getLsbD 49
       | .atomic _ _ _ _ => w.getLsbD 50 && w.getLsbD 48 && w.getLsbD 49
       | .reduce _ _ _ => w.getLsbD 50 && w.getLsbD 49
       | .unord _ => w.getLsbD 50 && w.getLsbD 49
     s.exportOf r = (if s.domain0.getLsbD 63 = false ∨ (s.expN.extractLsb' 0 13).toNat ≤ e then .error 0x11
       else match s.dpaError die at_ 16 with
         | some c => .error c
         | none => if w.getLsbD 63 = false ∨ (w.getLsbD 62 = false ∧ (w.extractLsb' 32 11).toNat ≠ r.device)
               ∨ s.dpaWord die (at_ + 8) ≠ 0 ∨ w.extractLsb' 51 11 ≠ 0 ∨ w.extractLsb' 43 5 ≠ 0 ∨ w.extractLsb' 22 10 ≠ 0
               ∨ w.extractLsb' 10 6 ≠ 0 then .error 0x11
             else if allowed = false then .error 0x12
             else .ok w)))
  ∧ (∀ (s : State) (r : RemoteRequest) (v : Served) (bs : List Byte), r.kind = .store bs → remoteForm r = true →
    s.exptabCheck r = .ok v → s.remoteReady r = true → s.sumsAt (remoteAcc s r v).locs = [] →
    (v.place.route = .host → ∃ w, Looked s w ∧
      exec (.remoteAccessRequest r) s = .next (w.putHost (wholeWrites v.place.loc bs)))
    ∧ (v.place.route = .coherent ∨ v.place.route = .strm → noCombine s →
      (∀ w ∈ v.writes, w.1 < hostBase ∧ sget 0 s.ktag (secOf w.1) = s.keyOf v.ctx v.place.route
        ∧ (s.dirOf (lineOf w.1)).owner = none ∧ wholeSectors s (homeOf w.1)) →
      ∃ t, exec (.remoteAccessRequest r) s = .next t ∧ ∀ loc, t.truth loc = overwritten v.writes loc (s.truth loc)))
  ∧ (∀ (s : State) (n : Nat) (a : Acc) (reply : RemoteReply), s.acc? n = some a → s.asks a = true →
    (s.ownDevice a.device = false → a.fits reply = true → exec (.remoteResponse n reply) s = .next ((s.threadReply a reply true).shutEntry a))
    ∧ (s.canOwnServe a = true → exec (.remoteResponse n reply) s = .next (s.ownAnswer a))
    ∧ (s.ownDevice a.device = true → (∀ b ∈ s.ownMates a, s.ownMay b = true) → s.canOwnServe a = true)
    ∧ (s.ownMates a = [a] → ∃ p, s.ownAnswer a =
      (((s.serve a.request).1.raisePt a.team a.tid p).threadReply a (s.serve a.request).2 true).shutEntry a)
    ∧ (∀ c, (s.lostDevices.find? (fun d => d.1 == a.device)).map Prod.snd = some c → max c a.since + 2 ^ 20 ≤ s.cycle →
      exec (.duetteRouteTimeout n) s = .next (s.threadReply a (.condition 0x30) false)))
  ∧ (∀ (s : State) (a : Acc) (bs : List Byte) (code : Nat) (remote : Bool), s.isAsked a = true →
    s.threadReply a (.value bs) remote = s.answerThread a ⟨a.pc, 0, bs, false, 0⟩
    ∧ s.threadReply a (.condition code) remote = s.answerThread a ⟨a.pc, code, [], remote, 0⟩)
  ∧ (∀ (s : State) (a : Acc) (code : Nat) (remote : Bool), s.isAsked a = false →
    s.threadReply a (.condition code) remote = s.lateRaise a code (if remote then a.ptr else a.aux) remote)
  ∧ (∀ (s : State) (device port : Nat) (enc : Bool),
    exec (.duetteLinkLoss device) s = .next (if s.lostDevices.any (fun d => d.1 == device) then s
      else { s with lostDevices := s.lostDevices ++ [(device, s.cycle)] })
    ∧ exec (.linkBringUp port enc) s = .next (if port < 24 then
        { s with lostDevices := [],
                 ports := if enc then insertNat port s.ports else s.ports.filter (fun p => decide (p ≠ port)) }
      else { s with hostIde := enc }))

/-! ### Records, placement, launches -/

/-- R269: a record on its way arrives when its node's die is running, its fabric has not fired in this dispatcher cycle, no record that
must arrive before it (of one sender to the node, or of one issue to it) is still on its way or held, and its sender's accesses before it
are performed at package scope (R151); it enters its node's bin, or waits at the
input of an ordered set whose window is full, stamped with the dispatcher cycle. R271: a bin whose oldest record has reached TIMER takes its
place in the firing order; a bin fires by age, or with COAL records. R270, R322: a
firing takes records in arrival order, t of them or by age as many shares of t as hold the aged ones, no more than its ordered node's window
has room for, and binds them, a team's share at a time, to units that wait for a core. R272: a spilled record returns to the store when it has
room, and the first record that a sender holds is placed when there is room. R274: a stage team's outcomes enter its stage's window together in
ascending TID, each at the team's cycles over its bound records; the window's 1,024th replaces P by the passes and C by the mean cost, clamped to 1
to 65,535; before the first, P and C are the node's. Which of the bins of a launch that reach their age in one dispatcher cycle comes first, the
lower node's, and that records released to one node through several ports keep their order, are the model's choice (DESIGN CHOICE, log 25). -/
def Obligations.FabricEvents : Prop :=
  (∀ (s : State) (n : Nat) (r : Record), s.record? n = some r →
    exec (.recordArrival n) s = .next (if s.canArrive r then s.arriveRecord n else s)
    ∧ (∀ (l : Launch) (d : Nat), s.launch? r.launch = some l → s.nodeDie r.launch r.node = some d → r.place = .moving →
      (s.die d).state = 1 → ¬((s.die d).fired.1 = s.dispatch d ∧ 0 < (s.die d).fired.2) → (∀ q ∈ s.records, ¬arrivesBefore q r) →
      (∀ a ∈ s.accs, senderThread a.team a.tid = r.sender → a.id < r.id → a.parked = true ∨ a.performed 6 = true) →
      (let others := s.records.filter (fun q => decide (q.id ≠ n))
       let set := (((l.nodes.getD r.node []).getD 0 0).extractLsb' 39 3).toNat = 2
       (¬set → exec (.recordArrival n) s =
         .next { s with records := others ++ [{ r with place := .binned, stamp := s.dispatch d }] })
       ∧ (set → ((l.nodes.getD r.node []).getD 0 0).getLsbD 46 = true →
         (Config.windowEntries ≤ (l.windows.filter (fun w => w.node == r.node)).length
           ∨ ∃ q ∈ s.records, q.id ≠ n ∧ q.launch = r.launch ∧ q.node = r.node ∧ q.place = .atInput) →
         exec (.recordArrival n) s =
           .next { s with records := others ++ [{ r with place := .atInput, stamp := s.dispatch d }] })))
    ∧ (∀ d, s.recordDie r = some d → r.spilled = true → (s.die d).used + r.units ≤ Config.storeUnits →
      exec (.recordUnspill n) s = .next (recordBecomes (dieBecomes (s.freeUnits r) d (fun D => { D with used := D.used + r.units })) n
        (fun r => { r with spilled := false, stored := true })))
    ∧ (r.place = .heldBack →
      (∀ q ∈ s.records, ¬(q.place = .heldBack ∧ q.sender = r.sender ∧ q.launch = r.launch ∧ q.id < r.id)) →
      s.roomFor r.launch r.node r.units ≠ .none → exec (.heldRecordPlace n) s = .next (
        let room := s.roomFor r.launch r.node r.units
        recordBecomes (s.claimUnits r.launch r.node r.units room) n (fun q => { q with
          place := match s.heldFor r with | some i => .window i | none => .moving,
          stored := decide (room = .store), spilled := decide (room = .spill) }))))
  ∧ (∀ (s : State) (l : Launch) (id n d : Nat) (r : Record) (rest : List Record), s.launch? id = some l → s.nodeDie id n = some d →
    s.binOf l n = r :: rest → (s.die d).state = 1 → r.stamp + ((dword (l.node n) 3).extractLsb' 16 16).toNat ≤ s.dispatch d →
    (∀ b ∈ (s.die d).byAge, ¬(b.2.1 = id ∧ b.2.2 = n)) →
    exec (.binAgeEligible id n) s = .next (dieBecomes s d (fun D =>
      { D with byAge := insertBy (fun b => [b.1, b.2.1, b.2.2]) (s.dispatch d, id, n) D.byAge })))
  ∧ (∀ (s : State) (l : Launch) (n : Nat), nodeKind (l.node n) = 1 ∨ nodeKind (l.node n) = 4 →
    s.binOf l n = s.records.filter (fun r => r.launch == l.id && r.node == n && r.place == .binned))
  ∧ (∀ (s : State) (d n : Nat) (l : Launch), (∀ byAge, s.nextBin d = some (l, n, byAge) →
      if byAge then ∃ r rest, s.binOf l n = r :: rest ∧ r.stamp + ((dword (l.node n) 3).extractLsb' 16 16).toNat ≤ s.dispatch d
      else s.nodeDie l.id n = some d ∧ 0 < ((dword (l.node n) 3).extractLsb' 0 12).toNat
        ∧ ((dword (l.node n) 3).extractLsb' 0 12).toNat ≤ (s.binOf l n).length))
  ∧ (∀ (s : State) (d n : Nat) (l : Launch) (byAge : Bool), s.nextBin d = some (l, n, byAge) → (s.die d).state = 1 →
    (s.cycle - (s.die d).since) % 2 = 1 →
    ((s.die d).fired.1 ≠ s.dispatch d ∨ (s.die d).fired.2 < (if Config.isM d then 1 else 2)) →
    (let bin := s.binOf l n
     let size := 2 ^ ((dword (l.node n) 1).extractLsb' 4 4).toNat
     let aged := bin.filter (fun r => decide (r.stamp + ((dword (l.node n) 3).extractLsb' 16 16).toNat ≤ s.dispatch d))
     let ordered : Prop := nodeKind (l.node n) = 1 ∧ (dword (l.node n) 0).getLsbD 46 = true
     let most := if byAge then (aged.length + size - 1) / size * size else size
     let recs := (bin.take (min most (if ordered then
       Config.windowEntries - (l.windows.filter (fun w => w.node == n)).length else 2 ^ 64))).map Record.id
     let now := s.dispatch d
     let teams := (List.range ((recs.length + size - 1) / size)).map (fun i => (recs.drop (i * size)).take size)
     exec (.binFiring d) s = .next { s with
       dies := s.dies.mapIdx (fun i D => if i = d then
         { D with fired := (now, if D.fired.1 = now then D.fired.2 + 1 else 1),
                  byAge := D.byAge.filter (fun b => !(b.2.1 == l.id && b.2.2 == n)) } else D),
       records := s.records.map (fun r => if recs.contains r.id then { r with place := .fired } else r),
       launches := if ordered then
           s.launches.map (fun x => if x.id = l.id then
             { x with windows := x.windows ++ recs.map (fun r => (⟨n, r, false, []⟩ : WinEntry)) } else x)
         else s.launches,
       serial := s.serial + teams.length,
       units := s.units ++ teams.zipIdx.map (fun q => ⟨s.serial + q.2, .fabric n q.1, l.id, s.cycle, some d⟩) }))
  ∧ (∀ (l : Launch) (t : Team) (node cycle : Nat) (mine : List (Nat × Nat × Bool)),
    mine.Perm (l.outcomes.filter (fun o => o.1 == t.id)) → mine.Pairwise (fun a b => a.2.1 < b.2.1) →
    (let cost := (cycle - t.startCycle) / max 1 (t.bound.filter Option.isSome).length
     l.addOutcomes t node cycle = { l with
       outcomes := l.outcomes.filter (fun o => o.1 != t.id),
       stats := l.stats.filter (fun x => x.node != node) ++ [mine.foldl (fun x o => entered o.2.2 cost x) (l.stat node)] })
    ∧ ((∀ x ∈ l.stats, x.node ≠ node) → l.stat node = ⟨node, ((dword (l.node node) 3).extractLsb' 32 11).toNat,
        ((dword (l.node node) 3).extractLsb' 48 16).toNat, 0, 0, 0⟩))

/-- R318, R319, R322, R332, R336: the unit that is next in the waiting order to have room is placed. R20 to R24: the teams of a cohort start
together, each in its place, every thread at the entry with its WID; R268: a fired team starts at its node's entry with a record bound
to each thread that has one; R336: a saved team goes on where it stood, on its new core, its pool units free (where no abort has come
meanwhile, R351); R332: a discarded team starts anew with its work identifiers and records. Each takes its unit out of the waiting order with
the cores held for it; an event that names another unit does
nothing. R333: a save whose transfers have landed (an LDF has returned or is parked, and a parked one executes again after the restore,
but for one that waits on a fault) writes the pool, leaves each thread's PT at max(PT, LCT) + 1, and the team waits for a core. R22: a team of which every thread has ended and no operation is
left is gone from its core, at its own time where no order of stage outcomes holds it (R274). -/
def Obligations.PlacementEvents : Prop :=
  (∀ (s : State) (unit : Nat) (b : Bid) (d : Nat) (ps : List CorePlace),
    (PlacedNext s unit 0 b d ps → exec (.cohortStart unit) s = .next (s.startCohort b d ps)
      ∧ (let v : State := if b.l.started = true then s
           else launchBecomes (s.journal b.l.ctx b.l.slot b.l.rseq 0 1) b.l.id (fun l =>
             { l with started := true, phase := .running, code0 := s.flatMemory, codeTags := s.ktag, born := (s.journal b.l.ctx b.l.slot b.l.rseq 0 1).serial })
         ∃ us : List Team, us.length = ps.length
          ∧ exec (.cohortStart unit) s = .next { bidGone v b with serial := v.serial + 1 + ps.length, teams := v.teams ++ us }
          ∧ ∀ k u, us[k]? = some u → ∃ p, ps[k]? = some p ∧ u.id = v.serial + 1 + k ∧ u.cohort = b.cohort ∧ u.number = k ∧ u.node = none
            ∧ Begun v b.l b.shape d p ((dword b.l.words 8).extractLsb' 0 54).toNat
              (fun j => b.cohort * 2 ^ b.l.b b.l.cb + k * 2 ^ b.l.b b.l.tb + j) (fun _ => true) u))
    ∧ (∀ n recs p rest, PlacedNext s unit 1 b d ps → b.unit.kind = .fabric n recs → ps = p :: rest →
        ∃ u, exec (.fabricTeamStart unit) s = .next { bidGone s b with serial := s.serial + 2, teams := s.teams ++ [u] }
          ∧ u.id = s.serial + 1 ∧ u.node = some n ∧ (∀ k < 2 ^ b.shape.tbits, u.bound[k]? = some recs[k]?)
          ∧ Begun s b.l b.shape d p ((dword (b.l.node n) 0).extractLsb' 0 32).toNat (fun j => j) (fun k => decide (k < recs.length)) u)
    ∧ (∀ t p rest, PlacedNext s unit 2 b d ps → b.unit.kind = .saved t.id → b.back = some t → ps = p :: rest →
        (let saved := match t.res with | .saved c => c | _ => s.cycle
         let v := dieBecomes (bidGone s b) t.die (fun D => { D with spused := D.spused - t.saveUnits })
         let w := teamBecomes { v with accs := s.accs.map (fun a => if a.team = t.id then { a with core := p.core } else a) } t.id (fun u =>
           { u with core := p.core, run := p.run, granules := p.granules, slots := p.slots, res := .resident, saveUnits := 0,
                    since := s.cycle, tenure := if u.overdue then some (s.cycle + 2 ^ 18) else none,
                    eff := if u.overdue then s.effOf t else b.l.prio, overdue := false,
                    threads := u.threads.map (fun x => match x.wait with
                      | .pooled stamp => { x with wait := .pooled (s.cycle + stamp - saved) }
                      | _ => x) })
         exec (.teamRestore unit) s = .next (w.restoreAborts t.id)
         ∧ ((∀ x ∈ t.threads, ∀ q, x.wait = .parked q → q.kind ≠ .abortAtRestore) → exec (.teamRestore unit) s = .next w)))
    ∧ (∀ t p rest, PlacedNext s unit 3 b d ps → b.unit.kind = .discarded t.id → b.back = some t → ps = p :: rest →
        ∃ u, exec (.discardedTeamRestart unit) s = .next (teamBecomes { bidGone s b with serial := s.serial + 2 } t.id (fun _ => u))
          ∧ u.id = t.id ∧ u.cohort = t.cohort ∧ u.number = t.number ∧ u.node = t.node ∧ u.bound = t.bound
          ∧ Begun s b.l t.shape t.die p (match t.node with
              | some n => ((dword (b.l.node n) 0).extractLsb' 0 32).toNat
              | none => ((dword b.l.words 8).extractLsb' 0 54).toNat)
            (fun j => (t.threads.map Thread.wid).getD j 0) (fun k => t.node.isNone || (t.bound.getD k none).isSome) u))
  ∧ (∀ (s : State) (unit : Nat),
    ((∀ b d ps, ¬PlacedNext s unit 0 b d ps) → exec (.cohortStart unit) s = .next s)
    ∧ ((∀ b d ps, ¬PlacedNext s unit 1 b d ps) → exec (.fabricTeamStart unit) s = .next s)
    ∧ ((∀ b d ps, ¬PlacedNext s unit 2 b d ps) → exec (.teamRestore unit) s = .next s)
    ∧ ((∀ b d ps, ¬PlacedNext s unit 3 b d ps) → exec (.discardedTeamRestart unit) s = .next s))
  ∧ (∀ (s : State) (n : Nat) (t : Team), s.team? n = some t →
    (t.res = .saving → s.teamQuiet t = true → (∀ a ∈ s.accs, a.team = n → (a.kind = .ldf ∧ a.parked = true) ∨ a.performed 5 = true) →
      (∀ x ∈ t.threads, x.asked = none ∧ ∀ p ∈ x.pend, (p.ldf = true ∧ ∃ a ∈ s.accs, a.id = p.serial ∧ a.parked = true)
        ∨ ∃ q i, x.block = .pop q p.serial i) → s.slicesFree ((s.saveSecs t).map (· * 64)) = true →
      exec (.saveComplete n) s = .next (State.addUnit (teamBecomes
        (State.writeSave
          { s with accs := s.accs.map (fun a => if a.team = n ∧ a.kind = .ldf then { a with parked := s.ldfFaulted a, inTable := false } else a) } t)
        n (fun u =>
          { u with res := .saved s.cycle, progT := u.progT + (s.cycle - u.since),
                   threads := u.threads.map (fun x => { x with pt := max x.pt x.lct + 1, blocks := [], refill := none }) }))
        (.saved n) t.launch (some t.die)))
    ∧ (t.runs = true → (∀ x ∈ t.threads, x.live = false) → s.teamQuiet t = true → s.isStage t = false → s.canRetireTeam t = true)
    ∧ (s.canRetireTeam t = true → exec (.teamRetire n) s = .next (launchBecomes
        { (if s.isStage t then dieBecomes s t.die (fun D => { D with stageOut := (s.dispatch t.die, t.startOrder) }) else s) with
          teams := s.teams.filter (fun u => u.id != n) } t.launch (fun l =>
          match t.node with
          | some k => if ((dword (l.node k) 0).extractLsb' 39 3).toNat = 3 then l.addOutcomes t k s.cycle else l
          | none =>
            if sget 0 l.teamsDone t.cohort + 1 = l.cohortTeams then
              { l with cohortsDone := l.cohortsDone + 1, teamsDone := sset 0 l.teamsDone t.cohort 0 }
            else { l with teamsDone := sset 0 l.teamsDone t.cohort (sget 0 l.teamsDone t.cohort + 1) }))))

/-- R327 to R331: a pre-emption for a unit that cannot be placed picks a core for each of its teams with victims of lower effective
priority out of tenure, reserves the cores and drains, discards or saves each victim as the estimator says (R329); a reservation that loses
a core to an overdue team's ends (log 22). A
draining team past its
budget is discarded when it has written nothing, saved when the save may be made, and else drains on. R332: a discarded team's threads hold
nothing, and memory is as it was. R320: a unit that has waited
65,536 cycles with its die chosen, and cannot be placed, picks the cores it lacks. R325, R326: a saved team's priority rises by one every 2^17
cycles, up to the highest of the teams that run on its core; it is overdue after
2^20; tenure ends at its time, with the launch's priority. -/
def Obligations.PreemptionEvents : Prop :=
  (∀ (s : State) (d : Nat) (b : Bid) (plan : List (Nat × List Nat)), s.nextPreempt d = some (b, plan) →
    s.placeOf b = none ∧ plan.length = b.count
    ∧ (∀ p ∈ plan, ∀ n ∈ p.2, ∃ t ∈ s.teams, t.id = n ∧ t.die = d ∧ t.core = p.1 ∧ t.res = .resident ∧ t.tenure = none
        ∧ t.eff < b.eff + (if b.overdue then 1 else 0))
    ∧ exec (.preemptionStart d) s = .next (
      (plan.flatMap Prod.snd).foldl (fun u n => match u.team? n with
        | none => u
        | some t =>
          let ran := t.progT + (u.cycle - t.since)
          let budget := ((dword b.l.words 13).extractLsb' 32 32).toNat * 1024
          if 1 ≤ t.progE ∧ (ran * (t.progN - t.progE) + t.progE - 1) / t.progE ≤ budget then
            teamBecomes u n (fun t => { t with res := .draining (u.cycle + budget) })
          else if t.written = false then u.discardTeam t
          else u.beginSave t)
      (dieBecomes (s.isolate b).1 d (fun D => { D with
        reserves := D.reserves.filter (fun r => r.cores.all (fun c => !(plan.map Prod.fst).contains c))
          ++ [⟨(s.isolate b).2, plan.map Prod.fst, plan.flatMap Prod.snd⟩] }))))
  ∧ (∀ (s : State) (n : Nat) (t : Team), s.team? n = some t →
    (∀ e, t.res = .draining e → e ≤ s.cycle → t.threads.any Thread.live = true → exec (.drainBudgetExpiry n) s = .next (
      if t.written = false then s.discardTeam t
      else if s.maySave t 0 then s.beginSave t
      else teamBecomes s n (fun t => { t with res := .draining (2 ^ 70) })))
    ∧ (∀ c, t.res = .saved c →
      (c < s.cycle → (s.cycle - c) % 2 ^ 17 = 0 →
        exec (.priorityAging n) s = .next (if t.eff = s.effOf t then s else teamBecomes s n (fun u => { u with eff := s.effOf t })))
      ∧ (c + 2 ^ 20 ≤ s.cycle → t.overdue = false →
        exec (.teamOverdue n) s = .next (teamBecomes s n (fun u => { u with overdue := true })))
      ∧ (∀ own, (s.launch? t.launch).map Launch.prio = some own →
        (let beside (u : Team) : Prop := u.die = t.die ∧ u.core = t.core ∧ (u.res = .resident ∨ ∃ e, u.res = .draining e)
         own ≤ s.effOf t ∧ s.effOf t ≤ own + (s.cycle - c) / 2 ^ 17
         ∧ ((∃ u ∈ s.teams, beside u) → ∃ u ∈ s.teams, beside u ∧ s.effOf t ≤ max own u.eff)
         ∧ ((∃ u ∈ s.teams, beside u ∧ own + (s.cycle - c) / 2 ^ 17 ≤ u.eff) → s.effOf t = own + (s.cycle - c) / 2 ^ 17))))
    ∧ (∀ e, t.tenure = some e → exec (.tenureEnd n) s = .next (if e ≤ s.cycle then
        teamBecomes s n (fun u => { u with tenure := none, eff := ((s.launch? t.launch).map Launch.prio).getD u.eff }) else s)))
  ∧ (∀ (s : State) (t : Team), s.beginSave t = teamBecomes
      (dieBecomes s t.die (fun D => { D with spused := D.spused + t.saveSize })) t.id (fun u =>
        { u with res := .saving, saveUnits := u.saveSize, tenure := none, eff := ((s.launch? u.launch).map Launch.prio).getD u.eff }))
  ∧ (∀ (s : State) (t : Team), (s.discardTeam t).mem = s.mem ∧ (∀ a ∈ (s.discardTeam t).accs, a.team ≠ t.id)
    ∧ ∀ u ∈ (s.discardTeam t).teams, u.id = t.id → u.res = .discarded ∧ u.tenure = none ∧ u.baton = none
      ∧ ∀ x ∈ u.threads, x.place = none ∧ x.pend = [] ∧ x.block = .none ∧ x.wait = .none)
  ∧ (∀ (s : State) (unit d : Nat) (b : Bid), s.nextFit unit = some (b, d) →
    b.unit.id = unit ∧ b.die = some d ∧ b.unit.entered + 65536 ≤ s.cycle ∧ s.placeOf b = none
    ∧ exec (.drainForFit unit) s = .next ((s.isolate b).1.pickCores d (s.isolate b).2
      (b.count - (((s.isolate b).1.die d).fitCores (s.isolate b).2))))

/-- R299 to R301: a write of a slot's byte 127 that holds V with a new SEQ leaves a trigger held; the context's oldest is parsed when the
journal has room and its reads are served, which where no host caches a line leave only the entries of tables in caches and lines in
slices (R345, R381). A trigger of
a context under destruction ignored, a parse of a slot whose V is 0 dropped and a trigger of a slot that holds one moved to the end of the
order are the model's reading (DEDUCED, log 23). R305, R314: a record that a check refuses has the entry of its cause, and one that passes is
accepted, its SEQ noted and
the measurement extended; cause 1 is a shape beyond Table 1-2. R312: a journal entry's words stand at its place in the ring, and JHEAD
rises by one.
R307, R309 to R311, R313: an event update sets or clears bits of the vector and lets launches become eligible; a retiring launch is
dropped with its SET mask in one update; a cancelled launch stops and, with nothing of it left, has its terminal entry; the
journal's tail moves up to JHEAD and never back. -/
def Obligations.LaunchLife : Prop :=
  ((∀ (s : State) (ctx slot : Nat) (v : Byte) (c : Ctx), s.fwState = 2 → ctx < 64 → slot < 64 → s.ctxs[ctx]? = some c →
    exec (.launchTrigger ctx slot v) s = .next (
      let u := ctxBecomes s ctx (fun c => { c with window := sset 0 c.window (128 * slot + 127) v })
      if 128 ≤ v.toNat ∧ c.valid = true ∧ c.dying = false ∧ sget 0 c.seqs slot ≠ v.toNat - 128 then
        { ctxBecomes u ctx (fun c => { c with held := c.held.filter (fun t => decide (t.slot ≠ slot)) ++ [⟨slot, s.serial⟩] }) with
          serial := s.serial + 1 }
      else u))
  ∧ (∀ (s : State) (ctx slot : Nat) (bytes : List Byte), s.parseReady ctx slot = true → (s.ctx ctx).slotBytes slot = bytes →
    (let b127 := (bytes.getD 127 0).toNat
     let w := (s.parsePtrs ctx slot bytes).foldl (fun u p => u.parseUse ctx slot p.1 p.2)
       ((s.parseBuffers ctx slot bytes).foldl (fun u b => u.noteDesc ctx b) s)
     let u := ctxBecomes w ctx (fun c => { c with held := c.held.drop 1 })
     let q := u.parseSlot ctx slot bytes
     ((∀ line, (s.dirOf line).host = .hi) → Looked s w)
     ∧ (b127 < 128 ∨ sget 0 (s.ctx ctx).seqs slot = b127 % 128 → exec (.launchParse ctx slot) s = .next u)
     ∧ (128 ≤ b127 → sget 0 (s.ctx ctx).seqs slot ≠ b127 % 128 → q.2 ≠ 0 →
       exec (.launchParse ctx slot) s = .next (u.journal ctx slot q.1.rseq q.2 5))
     ∧ (128 ≤ b127 → sget 0 (s.ctx ctx).seqs slot ≠ b127 % 128 → q.2 = 0 →
       exec (.launchParse ctx slot) s = .next (
         let w := u.journal ctx slot q.1.rseq 0 0
         State.testEligible (ctxBecomes { w with serial := w.serial + 1, launches := w.launches ++ [q.1] } ctx (fun c =>
           { c with seqs := sset 0 c.seqs slot q.1.rseq, measure := sha384 (c.measure ++ bytes) })) ctx))))
  ∧ (∀ (s : State) (ctx slot : Nat) (bytes : List Byte),
    (let w11 := dword (wordsOf bytes) 11
     let width (k : Nat) : Nat := (w11.extractLsb' (6 * k) 6).toNat
     let b (k : Nat) : Nat := ((List.range k).map width).sum
     let tb := (w11.extractLsb' 36 3).toNat
     let cb := (w11.extractLsb' 39 3).toNat
     (s.parseSlot ctx slot bytes).2 = 1 ↔ (∃ k < 6, 32 < width k) ∨ tb = 0 ∨ 6 < tb ∨ cb < tb ∨ 6 < cb
       ∨ b tb < 3 + (w11.extractLsb' 42 2).toNat ∨ 11 < b tb ∨ 4 < b cb - b tb ∨ 32 < b 6 - b cb)))
  ∧ (∀ (s : State) (ctx slot rseq cause state : Nat), ctx < s.ctxs.length →
    (let c := s.ctx ctx
     let d := (c.jrnl.extractLsb' 56 2).toNat
     let a := (c.jrnl.extractLsb' 0 54).toNat + 16 * (c.jhead % 2 ^ (c.jrnl.extractLsb' 59 5).toNat)
     let t := s.journal ctx slot rseq cause state
     (t.ctx ctx).jhead = (c.jhead + 1) % 2 ^ 48
     ∧ (Plain s 0 ((List.range 16).map (fun k => dpaLoc d (a + k))) →
       (∀ k < 16, s.memError (dpaLoc d (a + k)) 1 = none) →
       ∀ loc, t.truth loc = overwritten ((List.range 16).map (fun k => (dpaLoc d (a + k),
         (toBytes (c.jhead % 2 ^ 48 * 2 ^ 16 + rseq * 2 ^ 8 + slot) 8 ++ toBytes (ctx * 2 ^ 32 + cause * 2 ^ 8 + state) 8).getD k 0,
         (0xFF : Byte)))) loc (s.truth loc))))
  ∧ ((∀ (s : State) (ctx w slot : Nat) (v : DWord), s.fwState = 2 →
    exec (.evset ctx w v) s = .next (State.testEligible (ctxBecomes s ctx (fun c => { c with event := c.event ||| eventBits w v })) ctx)
    ∧ exec (.evclr ctx w v) s = .next (State.testEligible (ctxBecomes s ctx (fun c => { c with event := c.event &&& ~~~(eventBits w v) })) ctx)
    ∧ exec (.slotCancel ctx slot) s = .next (match s.slotLaunch ctx slot with | some l => s.cancelLaunch l.id 1 | none => s)
    ∧ exec (.jtailWrite ctx v) s = .next (if v.toNat ≤ (s.ctx ctx).jhead ∧ (s.ctx ctx).jtail ≤ v.toNat then
        ctxBecomes s ctx (fun c => { c with jtail := v.toNat }) else s))
  ∧ (∀ (w : Nat) (v : DWord) (k : Nat), w < 4 → k < 256 → (eventBits w v).getLsbD k = (decide (k / 64 = w) && v.getLsbD (k % 64)))
  ∧ (∀ (s : State) (n : Nat) (l : Launch), s.launch? n = some l →
    (l.phase = .retiring → exec (.applySetMask n) s = .next (State.enterPlacement (State.finishDestroy
      (State.testEligible (ctxBecomes
        { s with launches := s.launches.filter (fun l => decide (l.id ≠ n)), teams := s.teams.filter (fun t => decide (t.launch ≠ n)),
                 stored := if s.launches.all (fun l => decide (l.id = n)) then [] else s.stored }
        l.ctx (fun c => { c with event := c.event ||| l.setMask })) l.ctx) l.ctx)))
    ∧ (∀ cancelled cause, l.phase = .ending cancelled cause → s.launchQuiet n = true → s.journalFree l.ctx = true →
      exec (.cancelComplete n) s = .next (State.enterPlacement (State.finishDestroy (State.dropLaunch
        (((s.retireSumsOf n).scrambleCombine l).journal l.ctx l.slot l.rseq cause (if cancelled then 4 else 3)) n) l.ctx)))
    ∧ ((l.phase = .waiting ∨ l.phase = .running) → ∀ cause,
      s.cancelLaunch n cause = launchBecomes (s.stopLaunch n) n (fun l => { l with phase := .ending true cause })
      ∧ s.faultLaunch n cause = launchBecomes (s.stopLaunch n) n (fun l => { l with phase := .ending false cause }))))

/-- R297: a write of CTL with V = 1 leaves a valid context as it is but for PRIO; of an invalid one whose registers fail the checks it stores
the fields with V at 0 and ERR set (that the other fields are stored is DEDUCED, log 23); where they pass it makes the context valid, clears its
buffer table and its launch window (R302), starts its registers, and gives a confidential one fresh keys (R388); that its measurement starts
as 48 zero bytes is the model's choice (DESIGN CHOICE, log 14).
R298: a destroyed context has every live launch cancelled and takes no more triggers, its held ones dropped (DEDUCED, log 23); when the last
of them has ended V reads 0, its keys are gone, no migration is under way (DEDUCED, log 23), and nothing of its launches is left. -/
def Obligations.ContextEvents : Prop :=
  (∀ (s : State) (ctx : Nat) (v : DWord), s.fwState = 2 → ctx < 64 →
    (let w := v ||| (1#64 <<< 63)
     (s.ctx ctx).valid = true → exec (.contextCreate ctx v) s = .next (ctxBecomes s ctx (fun c =>
       { c with ctl := (c.ctl &&& ~~~(7#64 <<< 48)) ||| (w &&& (7#64 <<< 48)) })))
    ∧ (let w := v ||| (1#64 <<< 63)
       (s.ctx ctx).valid = false → s.createBad (s.ctx ctx) w = true → exec (.contextCreate ctx v) s = .next (ctxBecomes s ctx (fun c =>
         { c with ctl := (w &&& 0x4007FFFFFFFF0000#64) ||| (1#64 <<< 61) })))
    ∧ (let w := v ||| (1#64 <<< 63)
       (s.ctx ctx).valid = false → s.createBad (s.ctx ctx) w = false → exec (.contextCreate ctx v) s = .next (
         let u := s.dpaWrite ((s.ctx ctx).btab.extractLsb' 56 2).toNat ((s.ctx ctx).btab.extractLsb' 0 54).toNat (List.replicate 32768 0)
         ctxBecomes { u with stale := u.stale.filter (fun e => decide (e.ctx ≠ ctx)), serial := u.serial + 1 } ctx (fun c =>
           { c with ctl := (w &&& 0xC007FFFFFFFF0000#64) ||| (if w.extractLsb' 32 16 = 0 then 64#64 <<< 32 else 0),
                    event := 0, jhead := 0, jtail := 0, seqs := [], held := [], window := [], collGen := [],
                    measure := List.replicate 48 0, key := if w.getLsbD 62 then u.serial else 0, dying := false }))))
  ∧ (∀ (s : State) (c : Ctx) (v : DWord),
    (let ring := 16 * 2 ^ (c.jrnl.extractLsb' 59 5).toNat
     let inside (w : DWord) (n : Nat) : Prop := (s.die (w.extractLsb' 56 2).toNat).present = true
       ∧ (w.extractLsb' 0 54).toNat + n ≤ Config.capacity (w.extractLsb' 56 2).toNat
     s.createBad c v = false ↔
       v.extractLsb' 51 10 = 0 ∧ v.extractLsb' 0 16 = 0
       ∧ c.btab.extractLsb' 58 6 = 0 ∧ c.btab.extractLsb' 54 2 = 0 ∧ (c.btab.extractLsb' 0 54).toNat % 32768 = 0 ∧ inside c.btab 32768
       ∧ c.ptroot.extractLsb' 58 6 = 0 ∧ c.ptroot.extractLsb' 54 2 = 0 ∧ (c.ptroot.extractLsb' 0 54).toNat % 512 = 0 ∧ inside c.ptroot 512
       ∧ c.jrnl.extractLsb' 58 1 = 0 ∧ c.jrnl.extractLsb' 54 2 = 0 ∧ 10 ≤ (c.jrnl.extractLsb' 59 5).toNat
       ∧ (c.jrnl.extractLsb' 59 5).toNat ≤ 20 ∧ (c.jrnl.extractLsb' 0 54).toNat % ring = 0 ∧ inside c.jrnl ring
       ∧ (∀ k < 4, 8 ≤ (v.extractLsb' (16 + 4 * k) 4).toNat → (v.extractLsb' (16 + 4 * k) 4).toNat < 12
           ∧ (s.die ((v.extractLsb' (16 + 4 * k) 4).toNat % 8)).present = true)
       ∧ (v.getLsbD 62 = true → s.hostIde = true ∧ (s.domain0.getLsbD 63 = true → ∀ p < 24, p ∈ s.ports))))
  ∧ (∀ (s : State) (ctx : Nat), s.fwState = 2 → (s.ctx ctx).valid = true → exec (.contextDestroy ctx) s = .next (
      State.finishDestroy (ctxBecomes ((s.launches.filter (fun l => l.ctx == ctx)).foldl (fun u l => u.cancelLaunch l.id 2) s) ctx
        (fun c => { c with dying := true, held := [] })) ctx))
  ∧ (∀ (s : State) (ctx : Nat),
    ((s.ctx ctx).dying = false ∨ (∃ l ∈ s.launches, l.ctx = ctx ∧ l.phase ≠ .retiring) → s.finishDestroy ctx = s)
    ∧ ((s.ctx ctx).dying = true → (∀ l ∈ s.launches, l.ctx = ctx → l.phase = .retiring) →
      (let t := s.finishDestroy ctx
       (t.ctx ctx).valid = false ∧ (t.ctx ctx).key = 0 ∧ (t.ctx ctx).dying = false ∧ (t.ctx ctx).mbusy = false ∧ (∀ l ∈ t.launches, l.ctx ≠ ctx)
       ∧ ∀ k, k ≠ ctx → t.ctx k = s.ctx k)))

/-- R345, R346: an invalidate takes the cached entries it covers away and waits for the accesses in flight and, of kind 2 or 3, for
the operations that checked a covered descriptor; the host's count of those completed rises by one, or the threads that wait go on. R353:
FQTAIL moves within what the queue
holds; a backlog entry whose queue has room is written, the oldest first. R355: a resume command that names a record no longer waiting does
nothing, and one of replay makes a paused operation go on. -/
def Obligations.SupervisionEvents : Prop :=
  (∀ (s : State) (ctx va index fseq : Nat) (v : DWord),
    (let begins (kind arg : Nat) : State := { s with
       stale := staleAfter s ctx kind arg, serial := s.serial + 1,
       invals := s.invals ++ [⟨s.serial, ctx, kind, arg, true, none,
         (s.accs.filter (fun a => a.ctx == ctx && !a.parked && !a.performed 6)).map Acc.id
         ++ (s.ops.filter (fun o => o.ctx == ctx && decide (2 ≤ kind)
           && (kind == 3 || o.descs.any (fun d => ((dword o.params d.1).extractLsb' 54 10).toNat == arg % 1024)))).map Op.serial⟩] }
     exec (.invalidateTranslations ctx) s = .next (begins 0 0)
     ∧ exec (.invalidatePage ctx va) s = .next (begins 1 va)
     ∧ exec (.invalidateDescriptor ctx index) s = .next (begins 2 index)
     ∧ exec (.invalidateAllDescriptors ctx) s = .next (begins 3 0))
    ∧ exec (.fqtailWrite ctx v) s = .next (
        if v.toNat < 2 ^ 32 ∧ (v.toNat + 2 ^ 32 - (s.ctx ctx).fqtail) % 2 ^ 32 ≤ ((s.ctx ctx).fqhead + 2 ^ 32 - (s.ctx ctx).fqtail) % 2 ^ 32
        then ctxBecomes s ctx (fun c => { c with fqtail := v.toNat }) else s)
    ∧ exec (.resumeReplay ctx fseq) s = .next (s.resume ctx fseq false)
    ∧ exec (.resumeAbort ctx fseq) s = .next (s.resume ctx fseq true)
    ∧ ((s.ctx ctx).awaits.find? (fun w => w.fseq == fseq) = none → ∀ abort, s.resume ctx fseq abort = s)
    ∧ (∀ w id o, (s.ctx ctx).awaits.find? (fun w => w.fseq == fseq) = some w → w.who = [] → w.ops = [id] → s.op? id = some o →
        o.paused ≠ none → s.resume ctx fseq false = opBecomes (ctxBecomes s ctx (fun c =>
          { c with awaits := c.awaits.filter (fun v => decide (v.fseq ≠ fseq)) })) id (fun o => { o with paused := none })))
  ∧ (∀ (s : State) (n : Nat) (v : Inval), s.invals.find? (fun w => w.serial == n) = some v → s.invalReady v = true →
    (let u : State := { s with stale := staleAfter s v.ctx v.kind v.arg, invals := s.invals.filter (fun w => decide (w.serial ≠ n)) }
     exec (.invalidateComplete n) s = .next (if v.host = true then
         ctxBecomes u v.ctx (fun c => { c with invdone := (c.invdone + 1) % 2 ^ 32 })
       else { u with teams := s.teams.map (fun t => if t.ctx = v.ctx then
         { t with threads := t.threads.map (fun x => if x.wait = .inval n then { x with wait := .none } else x) } else t) })))
  ∧ (∀ (s : State) (d : Nat) (r : Report), (s.die d).backlog.find? (fun r => !(s.ctx r.ctx).fqFull) = some r →
    exec (.backlogDrain d) s = .next ((dieBecomes s d (fun D => { D with backlog := D.backlog.erase r })).writeRecord r))

/-! ### The host, the dies, health and trust -/

/-- R368: an uncached host access to memory of a die that runs finds the owner of each line downgraded and exact sums retired before it
reads, and its
bytes applied at the home slices when it writes: where they meet no other die's line, key or sum they stand there afterwards and every other
byte is as it was; a marked line is not written, and reads as poison. Table 16-4: a line the host caches is HS or, owned, HM with
every die I, but for a line of a STRM page, which takes no host state (R122); that such a line is found by the page tables as they stand and
that the host keeps, and gives back when it likes, what it has cached of one (s.strm) are the model's choice (DESIGN CHOICE, log 22); a host
that held a line modified gives its data back, and then no host cache holds it. R300: a write of the launch-window region
is taken byte by byte, in ascending order. -/
def Obligations.HostMemoryEvents : Prop :=
  (∀ (s : State) (die dpa n : Nat) (bytes : List Byte), s.fwState = 2 → (s.die die).present = true → (s.die die).state = 1 →
    dpa + n ≤ Config.capacity die → bytes.length = n →
    (let ws := ((List.range n).map (fun k => (dpaLoc die (dpa + k), bytes.getD k 0, (0xFF : Byte)))).filter
       (fun w => (s.memError w.1 1).isNone)
     let r := s.retireAt (ws.map Prod.fst)
     let u := ((distinct (ws.map (fun w => secOf w.1))).foldl (fun v sec => v.rekey 0 (sec * 64)) r).spoil (ws.map Prod.fst)
     exec (.hostWrite (.memory die dpa) bytes) s = .next (u.homeWrite ws 0).1
     ∧ (Plain s 0 (ws.map Prod.fst) →
       ∃ t, exec (.hostWrite (.memory die dpa) bytes) s = .next t ∧ ∀ loc, t.truth loc = overwritten ws loc (s.truth loc)))
    ∧ (let r := (hostLines die dpa n).foldl (fun u line => match (u.dirOf line).owner with | some y => u.downgrade y line | none => u)
          (s.retireAt ((List.range n).map (fun k => dpaLoc die (dpa + k))))
       ∃ t, Looked r t ∧ exec (.hostRead (.memory die dpa) n) s = .next t)
    ∧ (∀ loc, loc = dpaLoc die dpa → (s.memError loc 1 ≠ none → s.hostByte (.memory die dpa) = none)
      ∧ (s.memError loc 1 = none → noCombine s → sget 0 s.ktag (secOf loc) = 0 → s.hostByte (.memory die dpa) = some (s.truth loc))))
  ∧ (∀ (s : State) (off n : Nat) (bytes : List Byte), s.fwState = 2 → off + bytes.length ≤ 0x80000 →
    exec (.hostWrite (.window off) bytes) s =
      .next ((List.range bytes.length).foldl (fun u k => u.windowByte (off + k) (bytes.getD k 0)) s)
    ∧ exec (.hostRead (.window off) n) s = .next s)
  ∧ (∀ (s : State) (die dpa line : Nat), s.hostLine die dpa = some line → s.dirReady line = true →
    s.locError (lineLocs line) = none →
    (let r := s.retireAt (lineLocs line)
     let u := ({ r with strm := s.strm.filter (fun l => decide (l ≠ line)) } : State).makeRoom line
     (s.strmLine line = true → ∀ own, exec (.hostCacheRequest die dpa own) s = .next { r with strm := insertNat line s.strm })
     ∧ (s.strmLine line = false →
       exec (.hostCacheRequest die dpa true) s = .next ((u.homeOwn line).setHost line .hm)
       ∧ exec (.hostCacheRequest die dpa false) s = .next
         ((match (u.dirOf line).owner with | some y => u.downgrade y line | none => u).setHost line .hs))))
  ∧ (∀ (s : State) (die dpa line : Nat) (data : Option (List Byte)),
    (s.canSnoop line = true →
      (let gone := ((if (s.dirOf line).host = .hm then s.hostReturns line data else s).hostGone line)
       exec (.backInvalidateResponse line data) s = .next gone
       ∧ (s.hostLine die dpa = some line → exec (.hostCacheEviction die dpa data) s = .next gone)))
    ∧ (s.canSnoop line = false → s.strm.contains line = true → s.hostLine die dpa = some line →
      exec (.hostCacheEviction die dpa data) s =
        .next { s.hostReturns line data with strm := s.strm.filter (fun l => decide (l ≠ line)) }))

/-- R369, R370: an orderly reset of a die with nothing on it writes its dirty bytes back and stops it, STATE 2; an abrupt reset, asked for or
of a fatal error, begins at once when the die runs, and leaves it in STATE 3 with its L1s, reservations and engines empty; a reset
completes in two steps: the die restarts, STATE 4, with no L2 and no exact sum and the lines whose dirty sectors or sums it held marked lost,
and then runs, STATE 1, the records in its bins with stamp 0. These two steps, the marks of the sums' lines, the stamps and that GO of an
invalid context is ignored are the model's reading (DEDUCED, log 23). R370: a mark counts once; LOSTCLR writes a line with zeros and clears its mark. R372: GO starts a migration
of the buffer it names, which waits for the accesses and operations past the port; a placement that fails the check stops it with status 1;
at its end BASE and word 3 of the descriptor stand written. -/
def Obligations.DieEvents : Prop :=
  (∀ (s : State) (d : Nat),
    ((s.die d).present = true → (s.die d).state = 1 → (s.die d).spused = 0 →
      (∀ t ∈ s.teams, t.die = d → t.res = .discarded ∧ t.mops = [] ∧ ∀ o ∈ s.ops, o.team ≠ t.id) →
      (∀ l ∈ s.launches, l.phase ≠ .retiring → ∀ n < l.nodes.length, nodeKind (l.node n) ≠ 0 → s.nodeDie l.id n ≠ some d) →
      exec (.dieResetOrderly d) s = .next (dieBecomes (s.writeBackDie d) d (fun D => { D with state := 2, since := s.cycle, l1 := [] })))
    ∧ ((s.die d).present = true → (s.die d).state = 1 → exec (.dieResetAbrupt d) s = .next (s.abruptReset d)
        ∧ exec (.fatalDieError d) s = .next (s.abruptReset d))
    ∧ (d < s.dies.length → ((s.abruptReset d).die d).state = 3 ∧ ((s.abruptReset d).die d).l1 = [] ∧ ((s.abruptReset d).die d).reserves = []
        ∧ ∀ r ∈ ((s.abruptReset d).die d).l2, homeOf (r.1 * 64) = d)
    ∧ ((s.die d).state = 2 ∨ (s.die d).state = 3 → exec (.dieResetComplete d) s = .next
      (let gone := distinct (((s.die d).l2.filter (fun r => decide (homeOf (r.1 * 64) = d) && r.2.dirty)).map (fun r => r.1 / 4)
         ++ ((s.die d).sums.filter ExactSum.held).map (fun e => lineOf e.loc))
       dieBecomes (gone.foldl State.markLost s) d (fun D => { D with state := 4, l1 := [], l2 := [], sums := [] })))
    ∧ ((s.die d).state = 4 → exec (.dieResetComplete d) s = .next
      (dieBecomes { s with records := s.records.map (fun r => if s.nodeDie r.launch r.node = some d then { r with stamp := 0 } else r) } d
         (fun D => { D with state := 1, since := s.cycle, fired := (0, 0), stageOut := (0, 0), byAge := [] })))
    ∧ (∀ line, s.markLost line = (if s.lost.contains line then s
        else dieBecomes { s with lost := insertNat line s.lost } (lineHome line) (fun D =>
          { D with lostcnt := min (D.lostcnt + 1) (2 ^ 32 - 1) })))
    ∧ (∀ v : DWord, v.extractLsb' 54 10 = 0 → s.inMemory d (v.extractLsb' 0 54).toNat 1 = true →
      (let line := lineOf (dpaLoc d (v.extractLsb' 0 54).toNat)
       s.slicesFree [line * 256] = true →
       (lineLocs line).all (fun l => !s.poison.contains (secOf l)) = true →
       exec (.lostclr d v) s = .next (s.zeroLine 0 line)
       ∧ (Plain s 0 (lineLocs line) → ∀ loc, (s.zeroLine 0 line).truth loc = (if lineOf loc = line then 0 else s.truth loc))
       ∧ (Plain s 0 (lineLocs line) → (s.zeroLine 0 line).lost = s.lost.filter (fun l => decide (l ≠ line))))))
  ∧ (∀ (s : State) (ctx : Nat) (v : DWord), s.fwState = 2 → (s.ctx ctx).mbusy = false →
    (let u := ctxBecomes s ctx (fun c => { c with mbuf := v &&& 0x3FF })
     exec (.migrationStart ctx v) s = .next (
       if v.getLsbD 63 = false ∨ (s.ctx ctx).valid = false then u
       else if descInvalid (s.ctx ctx) (u.newDesc ctx) then ctxBecomes u ctx (fun c => { c with mstatus := 1 })
       else ctxBecomes u ctx (fun c => { c with mbusy := true, mwait := u.pastPort ctx (v.extractLsb' 0 10).toNat }))))
  ∧ (∀ (s : State) (ctx : Nat), s.canMigrate ctx = true →
    (let c := s.ctx ctx
     let buf := (c.mbuf.extractLsb' 0 10).toNat
     let old := s.descOf ctx buf
     let sums := (s.dies.flatMap (fun D => D.sums.map ExactSum.loc)).filter (fun l =>
       (List.range ((dLimit old + 255) / 256)).any (fun k => match s.bufferPage ctx old (256 * k) with
         | some q => decide (q.2 ≤ l) && decide (l < q.2 + 256)
         | none => false))
     let q := (s.retireAt sums).copyBuffer ctx old (s.newDesc ctx) (dLimit old) (dLimit old / 256 + 1) 0
     let tdie := (c.btab.extractLsb' 56 2).toNat
     let row := (c.btab.extractLsb' 0 54).toNat + 32 * buf
     let base := (s.dpaWord tdie row).toNat / 2 ^ 54 * 2 ^ 54 + (c.mbase.extractLsb' 0 54).toNat
     exec (.migrationComplete ctx) s = .next (if q.2 ≠ 0 then q.1.endMigration ctx q.2
       else State.endMigration (State.dropCached ((q.1.dpaWrite tdie row (toBytes base 8)).dpaWrite tdie (row + 24) (toBytes c.mplace.toNat 8))
         ctx 2 buf) ctx 0)))

/-- R382, R383: a bank of HBM4E whose count of activations has reached HOTTH is refresh-managed, its count restarted and its row captured to
the end of the next window unless the slice pins 64 rows; the device
counts it and raises its alert; one of GDDR7 is refresh-managed only; a window's end returns every count to 0 and releases the rows of the
window before, their dirty lines written back. Table 17-1: an event bit that goes from 0 to 1 sends an MSI-X message. R387: a clean
copy is dropped, a dirty line's loss, in an L2 or a memory-side slice, poisons its memory line, a team's storage or a stored record lost faults
its launch. R384, R385: a memory line with an uncorrectable error is rebuilt, with no byte of memory changed, from the slice, a clean copy or
the seven others of its group and the parity line, and counted; where nothing gives its value it is poisoned. R386: PCLR writes a memory line with zeros and clears its mark. -/
def Obligations.HealthEvents : Prop :=
  (∀ (s : State) (d channel row : Nat) (a : Nat × Nat × Nat),
    (let noted := dieBecomes s d (fun D => { D with alert := true, msix := if D.alert then D.msix else D.msix + 1, rfmcnt := min (D.rfmcnt + 1) (2 ^ 32 - 1), acts := serase D.acts a.1 })
     let mine := (s.die d).captured.filter (fun r => r.1 == channel)
     ((s.die d).acts.find? (fun r => decide ((s.die d).hotth ≤ r.2.1) && r.1 / 2 ^ 16 == channel && r.2.2 == row) = some a →
       Config.isM d = false →
       exec (.hotRowThreshold d channel row) s = .next (
         if mine.any (fun r => r.2.1 == row) then noted
         else if mine.length < 64 then
           State.captureRow (dieBecomes noted d (fun D =>
             { D with captured := D.captured ++ [(channel, row, 2)], capcnt := min (D.capcnt + 1) (2 ^ 32 - 1) })) d channel row
         else dieBecomes noted d (fun D => { D with capfull := true, msix := if D.capfull then D.msix else D.msix + 1 })))
     ∧ ((s.die d).acts.find? (fun r => decide ((s.die d).hotth ≤ r.2.1) && r.1 / 2 ^ 16 == channel) = some a → Config.isM d = true →
       exec (.gddr7HotRowThreshold d channel) s = .next noted)))
  ∧ (∀ (s : State) (d : Nat), ((s.die d).slice.map Prod.fst).Pairwise (· < ·) →
    (let freed (line : Nat) : Bool := (s.die d).captured.any (fun r =>
       decide (r.2.2 ≤ 1) && r.1 == channelOf (line * 64) && r.2.1 == rowOf (line * 64))
     ∃ acts n, exec (.refreshWindowEnd d) s = .next (dieBecomes { s with freeCtr := n } d (fun D =>
         { D with acts := acts, slice := D.slice.map (fun r => if freed r.1 then (r.1, false) else r),
                  captured := (D.captured.filter (fun r => decide (1 < r.2.2))).map (fun r => (r.1, r.2.1, r.2.2 - 1)) }))
       ∧ ((∀ r ∈ (s.die d).slice, r.2 = true → freed r.1 = false) → acts = [] ∧ n = s.freeCtr)))
  ∧ (∀ (s : State) (d line : Nat),
    (let dropped := dieBecomes s d (fun D => { D with l2 := serase D.l2 line, l1 := D.l1.filter (fun r => decide (r.1 % 2 ^ 80 ≠ line)) })
     exec (.softError .singleBit) s = .next s
     ∧ (∀ x, s.sector d line = some x → x.dirty = false → exec (.softError (.cleanCopy d line)) s = .next dropped)
     ∧ (∀ x, s.sector d line = some x → x.dirty = true → exec (.softError (.dirtyLine d line)) s = .next (dropped.poisonLine (line * 64)))
     ∧ (∀ dirty, sfind (s.die d).slice line = some dirty → exec (.softError (.sliceLine d line)) s = .next (
         let u := dieBecomes s d (fun D => { D with slice := serase D.slice line })
         if dirty then u.poisonLine (line * 64) else u))
     ∧ (homeOf (line * 64) = d → (s.die d).present = true →
       (s.poison.contains line = true → ∀ group, exec (.softError (.memoryLine d line group)) s = .next s)
       ∧ (∀ group, s.poison.contains line = false →
         (sfind (s.die d).slice line = some false ∨ (sfind (s.die d).slice line = none
           ∧ (s.cleanCopy line = true ∨ (Config.isM d = false ∧ group = false ∧ ∀ x ∈ parityGroup line, s.poison.contains x = false)))) →
         ∃ m, exec (.softError (.memoryLine d line group)) s = .next (dieBecomes { s with mem := m } d (fun D =>
             { D with cwdcnt := min (D.cwdcnt + 1) (2 ^ 32 - 1), lastcwd := placeWord (line * 64), cwd := true,
                       msix := if D.cwd then D.msix else D.msix + 1 }))
           ∧ ∀ loc, byteAt m loc = byteAt s.mem loc)
       ∧ (∀ group, s.poison.contains line = false → sfind (s.die d).slice line = none → s.cleanCopy line = false →
         (Config.isM d = true ∨ group = true ∨ ∃ x ∈ parityGroup line, s.poison.contains x = true) →
         exec (.softError (.memoryLine d line group)) s = .next (s.poisonLine (line * 64))))))
  ∧ (∀ (s : State) (n : Nat) (t : Team) (r : Record),
    (s.team? n = some t → t.holdsPool = true → exec (.softError (.teamStorage n)) s = .next (s.faultLaunch t.launch 0x31))
    ∧ (s.record? n = some r → r.stored = true → exec (.softError (.storedRecord n)) s = .next (s.faultLaunch r.launch 0x31)))
  ∧ (∀ (s : State) (d : Nat) (v : DWord), v.extractLsb' 48 8 = 0 → (s.die d).present = true →
    (v.extractLsb' 56 8).toNat < Config.channels d → (v.extractLsb' 0 48).toNat < Config.capacity d / Config.channels d →
    (s.die d).state = 1 →
    (let loc := locOf d (v.extractLsb' 56 8).toNat ((v.extractLsb' 0 48).toNat / 64 * 64)
     let locs := (List.range 64).map (fun k => loc + k)
     let u : State := { s with poison := s.poison.filter (fun x => decide (x ≠ secOf loc)) }
     (s.dirOf (lineOf loc)).host ≠ .hm →
     exec (.pclr d v) s = .next (State.homeWrite (((u.retireAt locs).spoil locs).rekey 0 loc) (wholeWrites loc (List.replicate 64 0)) 0).1
     ∧ (Plain s 0 locs → ∃ t, exec (.pclr d v) s = .next t ∧ (∀ x ∈ t.poison, x ≠ secOf loc)
       ∧ ∀ k, t.truth k = if secOf k = secOf loc then 0 else s.truth k)))

/-- R390: a write of ATTGO starts an attestation unless one runs; it ends with a report signed twice and one LMS key fewer, or
refused. R391, R392: power-on and a recovery image each begin a verification, FWSTATE 1; an image that fails a check, in the order malformed,
ECDSA, LMS, SVN, leaves the recovery state with its reason; one that
passes runs, device memory reads zeros and every mark is gone; power that comes back starts every register over. R393: the clock moves by 100
MHz between 500 and 1,100. REGISTER_WRITE, by offset in the management region: the domain block does not change while any context is valid
(R373); the die, health, save pool, trust, migration, group, trap and context blocks have the effects of Tables 13-1, 14-3, 15-5, 16-2, 16-5, 16-9, 17-1
and 17-2; a word at no register takes nothing. (The model's choice are: the report's layout and that the nonce is read at the end, log 14; that an image of more than 2^26 bytes is malformed,
the order of an image's checks and what outlives a power cycle, log 15; POWER_ON in two steps, log 3; reserved bits that no rule speaks of not
stored, log 23.) -/
def Obligations.TrustEvents : Prop :=
  (∀ (s : State) (v : DWord) (image : Image) (hold : Bool),
    exec (.attestationRequest v) s = .next (if v.getLsbD 63 = true ∧ s.attStat ≠ 1 then
      { s with attStat := 1, attCtx := (v.extractLsb' 0 6).toNat } else s)
    ∧ (s.attStat = 1 → exec .attestationComplete s = .next (if (s.ctx s.attCtx).valid = true ∧ 0 < s.lmsLeft then
        { s with attStat := 2, lmsLeft := s.lmsLeft - 1,
                 attReport := s.reportBody ++ Config.signEcdsa s.reportBody ++ Config.signLms s.lmsLeft s.reportBody }
        else { s with attStat := 3 }))
    ∧ (s.fwState = 3 → exec (.recoveryImageLoad v image) s = .next { s with fwState := 1, verifying := some { image with
        wellFormed := image.wellFormed && decide ((v.extractLsb' 0 27).toNat ≤ 2 ^ 26) } })
    ∧ (s.fwState = 0 → exec .powerOn s = .next { s with lmsLeft := Config.lmsKeys, fwState := 1, verifying := some s.moduleImage })
    ∧ (∀ i, s.fwState = 1 → s.verifying = some i → exec .powerOn s = .next (s.boot i))
    ∧ (s.fwState = 2 ∨ s.fwState = 3 → ∃ t, exec .powerOn s = .next t ∧ t.fwState = 1 ∧ t.verifying = some t.moduleImage
        ∧ (s.fwState = 3 → t.moduleImage = s.moduleImage) ∧ t.teams = [] ∧ t.launches = [] ∧ t.accs = [] ∧ t.ops = [] ∧ t.records = []
        ∧ t.ctxs = State.reset.ctxs ∧ t.dies = State.reset.dies ∧ t.lmsLeft = s.lmsLeft ∧ t.poison = [] ∧ t.lost = []
        ∧ ∀ loc, byteAt t.mem loc = if loc < 2 ^ 70 then 0 else byteAt s.mem loc)
    ∧ exec (.clockThrottle hold) s = .next { s with clock := if hold then min 1100 (s.clock + 100) else max 500 (s.clock - 100) })
  ∧ (∀ (s : State) (i : Image), s.boot i =
      (let why := if i.wellFormed = false then 4 else if i.ecdsa = false then 1 else if i.lms = false then 2
         else if i.svn < Config.minSvn then 3 else 0
       if why = 0 then { s with fwState := 2, fwErr := 0, fwSvn := i.svn, fwImage := i, verifying := none,
                                mem := s.mem.filter (fun c => decide (2 ^ 70 ≤ c.1)), lost := [], poison := [], ktag := [] }
       else { s with fwState := 3, fwErr := why, verifying := none }))
  ∧ (∀ (s : State) (off : Nat) (v : DWord), 0x800 ≤ off → off < 0x818 → off % 8 = 0 →
    exec (.registerWrite off v) s = .next (
      if s.fwState ≠ 2 ∨ s.ctxs.any Ctx.valid = true then s
      else if off = 0x800 then { s with domain0 := v &&& 0x80000000000007FF }
      else if off = 0x808 then { s with expBase := v &&& 0x033FFFFFFFFF0000 }
      else { s with expN := v &&& 0x1FFF }))
  ∧ (∀ (s : State) (d : Nat) (v : DWord), d < 4 →
    exec (.registerWrite (0x1008 + 0x40 * d) v) s = (if v.extractLsb' 0 62 ≠ 0 then .next s
      else if v.extractLsb' 62 2 = 1 then exec (.dieResetOrderly d) s
      else if v.extractLsb' 62 2 = 2 then exec (.dieResetAbrupt d) s else .next s)
    ∧ exec (.registerWrite (0x1010 + 0x40 * d) v) s = exec (.lostclr d v) s
    ∧ exec (.registerWrite (0x1820 + 0x40 * d) v) s = .next (dieBecomes s d (fun D =>
        { D with alert := D.alert && !v.getLsbD 63, cwd := D.cwd && !v.getLsbD 62, psn := D.psn && !v.getLsbD 61,
                 capfull := D.capfull && !v.getLsbD 60 }))
    ∧ exec (.registerWrite (0x1828 + 0x40 * d) v) s = .next (
        if 256 ≤ (v.extractLsb' 0 12).toNat ∧ (v.extractLsb' 0 12).toNat ≤ 2048 then
          dieBecomes s d (fun D => { D with hotth := (v.extractLsb' 0 12).toNat }) else s)
    ∧ exec (.registerWrite (0x1830 + 0x40 * d) v) s = exec (.pclr d v) s
    ∧ (s.fwState = 2 → (s.die d).spused = 0 →
      exec (.registerWrite (0x2000 + 0x20 * d) v) s = .next (
        if v.extractLsb' 54 9 ≠ 0 ∨ (v.getLsbD 63 = true ∧ (v.extractLsb' 0 16 ≠ 0 ∨ s.inMemory d (v.extractLsb' 0 54).toNat 1 = false)) then s
        else dieBecomes s d (fun D => { D with spv := v.getLsbD 63, spbase := v &&& 0x3FFFFFFFFFFFFF }))
      ∧ exec (.registerWrite (0x2008 + 0x20 * d) v) s = .next (if v.extractLsb' 32 32 ≠ 0 then s
        else dieBecomes s d (fun D => { D with spunits := (v.extractLsb' 0 32).toNat })))
    ∧ (s.fwState ≠ 2 ∨ (s.die d).spused ≠ 0 → exec (.registerWrite (0x2000 + 0x20 * d) v) s = .next s
      ∧ exec (.registerWrite (0x2008 + 0x20 * d) v) s = .next s))
  ∧ (∀ (s : State) (v : DWord), exec (.registerWrite 0x3010 v) s = exec (.attestationRequest v) s
    ∧ (s.fwState = 3 → exec (.registerWrite 0x3008 v) s = exec (.recoveryImageLoad v (imageOf
        ((List.range (min (v.extractLsb' 0 27).toNat (2 ^ 26))).map (fun k => sget 0 s.rcvWindow k)))) s)
    ∧ (∀ j < 6, exec (.registerWrite (0x3020 + 8 * j) v) s = .next { s with attNonce := (List.range 48).map (fun k =>
        if k / 8 = j then v.extractLsb' (8 * (k % 8)) 8 else s.attNonce.getD k 0) })
    ∧ (∀ off < 0x4000000, off % 8 = 0 → ∃ w, exec (.registerWrite (0x1000000 + off) v) s = .next { s with rcvWindow := w }
        ∧ ∀ k, sget 0 w k = if off ≤ k ∧ k < off + 8 then v.extractLsb' (8 * (k - off)) 8 else sget 0 s.rcvWindow k))
  ∧ (∀ (s : State) (c : Nat) (v : DWord), c < 64 →
    (s.fwState = 2 → (s.ctx c).mbusy = false →
      exec (.registerWrite (0x4000 + 0x40 * c) v) s = exec (.migrationStart c v) s
      ∧ exec (.registerWrite (0x4008 + 0x40 * c) v) s = .next (ctxBecomes s c (fun x => { x with mbase := v &&& 0x3FFFFFFFFFFFFF }))
      ∧ exec (.registerWrite (0x4010 + 0x40 * c) v) s = .next (ctxBecomes s c (fun x => { x with mplace := v })))
    ∧ (s.fwState ≠ 2 ∨ (s.ctx c).mbusy = true → ∀ k < 8, exec (.registerWrite (0x4000 + 0x40 * c + 8 * k) v) s = .next s)
    ∧ exec (.registerWrite (0x6000 + 0x20 * c) v) s = .next (ctxBecomes s c (fun x => { x with grpBase := v &&& 0x033FFFFFFFFFF000 }))
    ∧ exec (.registerWrite (0x6008 + 0x20 * c) v) s = .next (ctxBecomes s c (fun x => { x with grpN := v &&& 0x1FF }))
    ∧ (∀ w < 32, exec (.registerWrite (0x80000 + 0x100 * c + 8 * w) v) s = .next (s.trapWrite c w v))
    ∧ (s.fwState = 2 →
      (v.getLsbD 63 = true → exec (.registerWrite (0x100000 + 0x400 * c) v) s = exec (.contextCreate c v) s)
      ∧ (v.getLsbD 63 = false → exec (.registerWrite (0x100000 + 0x400 * c) v) s = (
          if (s.ctx c).valid = true then
            exec (.contextDestroy c) (ctxBecomes s c (fun x => { x with ctl := (x.ctl &&& ~~~(7#64 <<< 48)) ||| (v &&& (7#64 <<< 48)) }))
          else .next (ctxBecomes s c (fun x => { x with ctl := (x.ctl &&& (1#64 <<< 61)) ||| (v &&& 0xC007FFFFFFFF0000) }))))
      ∧ exec (.registerWrite (0x100008 + 0x400 * c) v) s = .next (if (s.ctx c).valid then s else ctxBecomes s c (fun x => { x with btab := v }))
      ∧ exec (.registerWrite (0x100010 + 0x400 * c) v) s = .next (if (s.ctx c).valid then s else ctxBecomes s c (fun x => { x with ptroot := v }))
      ∧ exec (.registerWrite (0x100018 + 0x400 * c) v) s = .next (if (s.ctx c).valid then s else ctxBecomes s c (fun x => { x with jrnl := v }))
      ∧ exec (.registerWrite (0x100028 + 0x400 * c) v) s = exec (.jtailWrite c (v &&& 0xFFFFFFFFFFFF)) s
      ∧ (∀ w < 4, exec (.registerWrite (0x100060 + 0x400 * c + 8 * w) v) s = exec (.evset c w v) s
        ∧ exec (.registerWrite (0x100080 + 0x400 * c + 8 * w) v) s = exec (.evclr c w v) s)
      ∧ exec (.registerWrite (0x1000A0 + 0x400 * c) v) s = (if v.getLsbD 7 then exec (.slotCancel c (v.extractLsb' 0 6).toNat) s else .next s))
    ∧ (s.fwState ≠ 2 → ∀ w < 128, exec (.registerWrite (0x100000 + 0x400 * c + 8 * w) v) s = .next s))
  ∧ (∀ (s : State) (off : Nat) (v : DWord), off % 8 ≠ 0 ∨ (0x818 ≤ off ∧ off < 0x1000) ∨ 0x5000000 ≤ off →
    exec (.registerWrite off v) s = .next s)

/-! ### Encodings -/

/-- R153, R166, R170, R172 and the formats of Tables 7-3 to 7-8: a word and its literal decode to an instruction exactly when it is
well-formed and they are its encoding; so no bit is dropped, no reserved bit is read, and two instructions never share an encoding. -/
def Obligations.DecodeEncodeAgree : Prop :=
  ∀ (i : Instr) (w : Word) (lit : Option Word),
    decodeWord w lit = .ok i ↔ i.wf = true ∧ encode i = some (w, lit)

/-- Words written out by hand from Tables 7-1 and 7-8 and Chapter 08 and 09's formats decode to the instructions they stand for. -/
def Obligations.WordsOfTheManual : Prop :=
  decodeWord 0x2A440000#32 none = .ok (.jset ⟨false, false⟩ ⟨1, 0, 0, 0⟩)
  ∧ decodeWord 0x28800058#32 none = .ok (.call ⟨false, false⟩ ⟨11, 0⟩)
  ∧ decodeWord 0x0D030A22#32 none = .ok (.topk ⟨false, false⟩ ⟨3, 2, 68, 2⟩)
  ∧ decodeWord 0x0A8504FE#32 (some 0x3E8#32) = .ok (.sadd ⟨false, false⟩ ⟨10, 4, 127, some 0x3E8⟩)
  ∧ decodeWord 0x3C001C29#32 none = .ok (.trap ⟨false, false⟩ ⟨0, 7, 5, 1, none⟩)
  ∧ decodeWord 0x3D048008#32 none = .ok (.inval ⟨false, false⟩ ⟨9, 1⟩)

/-! ### The machine as a whole -/

/-- R157, R158, R172: a step runs the decoded instructions. Where the cycle's next issue, alone of its slot, is of threads of a team, what
stands at their PC is fetched (a use of the code's translations, R345) and, where nothing stalls and no word is a cross-lane one, the words
of its chained group take effect one after another, control words last, each by exec at its own PC in those threads; PT is at the
group's largest before (R130), the threads go on at the word after the group (R37), and the group's markers hold afterwards. Where a word
traps in some threads, none of the group's words takes effect in them, the words run in the others, and the traps are taken at
the group's PC, the first in packet order. A group that cannot be decoded is taken as its condition by every thread. The group is the one at the
PC: a word that chains nothing, with the next as its literal when it takes one; two words, when the first has C = 1 and the second not;
C = 1 to the packet's end, two words of one pipe or two that write one register are ILLEGAL_ENCODING 0x01; a word that does not decode is
ILLEGAL_INSTRUCTION 0x02, and a privileged one in a team that is no supervisor's PRIVILEGED_INSTRUCTION 0x03 (R171). -/
def Obligations.StepRunsTheDecodedWord : Prop :=
  (∀ (s : State) (c : Choice) (rest : List Choice) (now t : Team) (x : Thread) (k : Nat) (ks : List Nat) (f : Fetched),
    s.nextRetry = none → s.plan = c :: rest → (∀ d ∈ rest.head?, ¬(d.team = c.team ∧ d.slot = c.slot)) →
    (let s1 : State := { s with plan := rest }
     let s2 := if c.lone then s1 else s1.noteFetch t x.pc
     let tids := k :: ks
     let made (v : State) : State := { v with made := v.made ++ [{ c with tids := tids }] }
     s.team? c.team = some now → s.view.find? (fun u => u.id == c.team) = some t → s1.choiceTids now c = tids →
     now.thread? k = some x → s1.teamRuns now = true → s1.codeHeld now = false → s1.fetchGroup now x.tid x.pc = f →
     (∀ e pc, f.bad = some (e, pc) → step s = .next ((made s2).takeTraps c.team (fun _ => x.pc)
       (tids.map (fun k => ⟨k, e.code, e.aux, pc, false⟩))))
     ∧ (f.bad = none → (∀ w ∈ f.words, s2.stalls t tids w.i = false ∧ isCross w.i = false) →
       (let run (stop : List Nat) : State := inSequence (controlLast f.words) { s2.beginIssue t tids f.fall f.words with
          issue := some { team := c.team, slot := c.slot, tids := tids, pc := x.pc, replay := x.pc, fall := f.fall, words := f.words,
                          lone := c.lone, completing := false, suppressed := stop, trapped := [], held := [], waiting := [],
                          stalled := false } }
        ∀ j, (run []).issue = some j → j.held = [] → j.waiting = [] → j.stalled = false →
          (j.trapped = [] → step s = .next (made (State.afterIssue { run [] with issue := none } t tids tids f.words)))
          ∧ (j.trapped ≠ [] → ∃ stop traps, (∀ n, n ∈ stop ↔ ∃ r ∈ j.trapped, r.tid = n) ∧ traps.Perm j.trapped
            ∧ traps.Pairwise (fun a b => a.pc.toNat ≤ b.pc.toNat)
            ∧ (((run stop).issue.map Issue.stalled) = some false → step s = .next (made (State.takeTraps
              (State.afterIssue { run stop with issue := none } t tids (tids.filter (fun k => !stop.contains k)) f.words)
              c.team (fun _ => x.pc) traps)))))))
  ∧ (∀ (s : State) (t : Team) (tid : Nat) (pc : BitVec 64) (w0 w1 w2 : Word), pc.toNat % 12 = 0 →
    s.packetOf t tid pc = ([w0, w1, w2], none) →
    (w0.getLsbD 31 = false →
      (let lit : Option Word := if takesLiteral w0 then some w1 else none
       (∀ i, decodeWord w0 lit = .ok i →
         ((privileged i = true → t.sup = true) →
           s.fetchGroup t tid pc = ⟨[⟨pc, i⟩], if takesLiteral w0 then pc + 8 else pc + 4, none⟩)
         ∧ (privileged i = true → t.sup = false → ∃ fall, s.fetchGroup t tid pc = ⟨[], fall, some (⟨0x03, 0⟩, pc)⟩))
       ∧ (∀ e, decodeWord w0 lit = .error e → ∃ fall, s.fetchGroup t tid pc = ⟨[], fall, some (⟨0x02, 0⟩, pc)⟩)))
    ∧ (w0.getLsbD 31 = true → takesLiteral w0 = false → takesLiteral w1 = false →
      (let onePipe : Prop := ∃ p, pipeOf (majorOf w0) = some p ∧ pipeOf (majorOf w1) = some p
       let oneTarget (i j : Instr) : Prop := ∃ r ∈ i.writes, r ∈ j.writes
       (∀ i j, w1.getLsbD 31 = false → decodeWord w0 none = .ok i → decodeWord w1 none = .ok j → ¬onePipe → ¬oneTarget i j →
         (privileged i = true ∨ privileged j = true → t.sup = true) →
         s.fetchGroup t tid pc = ⟨[⟨pc, i⟩, ⟨pc + 4, j⟩], pc + 8, none⟩)
       ∧ ((w1.getLsbD 31 = true ∧ w2.getLsbD 31 = true) ∨ onePipe
           ∨ (∃ i j, decodeWord w0 none = .ok i ∧ decodeWord w1 none = .ok j ∧ oneTarget i j) →
         s.fetchGroup t tid pc = ⟨[], pc, some (⟨0x01, 0⟩, pc)⟩)))))

/-- Every step ends in a next state, and keeps the state sane: memory and the key tags in canonical form, four dies and 64
contexts, the clock within its limits (R393), the firmware and attestation states among those of Table 17-2, each die's state and
counters within their fields (Tables 16-2 and 17-1). -/
def Obligations.StepKeepsSane : Prop :=
  ∀ s : State, State.Sane s → ∃ t, step s = .next t ∧ State.Sane t

/-- What reset leaves: a sane state with no team, launch, access or record, memory reading 0 (that it does before step 4 of power-on, and
in host memory, is the model's choice, log 6), the firmware in its boot state, the clock at 1,100 MHz; every context invalid with every register 0;
every die of the part
running with HWM 0 and its threshold 0x800; every die's counters 0. Which dies are present and HWM 0 are the model's choice (DESIGN CHOICE, log
16). Table 17-3: the first step is POWER_ON's, which begins the verification of the module's image, and the second ends it (two steps of POWER_ON
are the model's choice, DESIGN CHOICE, log 3). -/
def Obligations.ResetLeaves : Prop :=
  State.Sane State.reset
  ∧ State.reset.teams = [] ∧ State.reset.launches = [] ∧ State.reset.accs = [] ∧ State.reset.ops = [] ∧ State.reset.records = []
  ∧ State.reset.mem = [] ∧ State.reset.fwState = 0 ∧ State.reset.clock = 1100 ∧ State.reset.attStat = 0
  ∧ (∀ loc, byteAt State.reset.mem loc = 0)
  ∧ (∀ c ∈ State.reset.ctxs, c.ctl = 0 ∧ c.btab = 0 ∧ c.ptroot = 0 ∧ c.jrnl = 0 ∧ c.jhead = 0 ∧ c.jtail = 0 ∧ c.event = 0
      ∧ c.trap0 = 0 ∧ c.trap1 = 0 ∧ c.fq = 0 ∧ c.fqhead = 0 ∧ c.fqtail = 0 ∧ c.ovf = false ∧ c.invdone = 0
      ∧ c.mbuf = 0 ∧ c.mbase = 0 ∧ c.mplace = 0 ∧ c.mbusy = false ∧ c.mstatus = 0 ∧ c.mdone = 0 ∧ c.grpBase = 0 ∧ c.grpN = 0)
  ∧ (∀ d < 4, ∃ D, State.reset.dies[d]? = some D ∧ D.present = Config.present d ∧ D.state = (if Config.present d then 1 else 0)
      ∧ D.hwm = 0 ∧ D.hotth = 0x800 ∧ D.lostcnt = 0 ∧ D.psncnt = 0 ∧ D.cwdcnt = 0 ∧ D.capcnt = 0 ∧ D.rfmcnt = 0 ∧ D.alert = false
      ∧ D.cwd = false ∧ D.psn = false ∧ D.capfull = false ∧ D.spv = false ∧ D.spbase = 0 ∧ D.spunits = 0 ∧ D.spused = 0)
  ∧ (∃ t, step State.reset = .next t ∧ exec .powerOn State.reset = .next t ∧ t.fwState = 1
      ∧ step t = .next (t.boot State.reset.moduleImage) ∧ exec .powerOn t = .next (t.boot State.reset.moduleImage))

/-- R67, R68: the names v0 to v63 reach different registers at each level, all among the thread's 64 + 48 × level; v48 to v63 of a level
are v0 to v15 of the level below; a register written holds its value and leaves every other as it was. -/
def Obligations.RegisterNames : Prop :=
  (∀ n i, phys 0 i = i ∧ (i < 48 → phys (n + 1) i = 64 + 48 * n + i) ∧ (i < 16 → phys (n + 1) (48 + i) = phys n i))
  ∧ (∀ n i j, i < 64 → j < 64 → phys n i < 64 + 48 * n ∧ (phys n i = phys n j → i = j))
  ∧ (∀ (q : Regs) (d e : Nat) (w : Word), d < 64 → e < 64 →
      (q.set d w).get e = (if d = e then w else q.get e) ∧ (q.set d w).level = q.level ∧ (q.set d w).c = q.c
      ∧ q.get d = sget 0 q.v (phys q.level d) ∧ sget 0 (q.set d w).v (phys q.level d) = w
      ∧ (swf 0 q.v = true → swf 0 (q.set d w).v = true))
  ∧ (∀ (q : Regs) (d : Nat) (w : DWord), d < 63 → (q.set64 d w).get64 d = w)

/-- R349: a class T condition of a thread with no pending write, where a handler is armed and the word does not lie in it, is taken at
once: the thread's v60 to v63 hold the code, the replay PC and aux, a supervisor's thread has its frame written, and the thread is
pooled at HOFF (or, when the pool cannot take it, in its lane there); one with pending writes waits for them, parked. R353, R347: one of class F
parks it with a record and enters no handler; one of class N has its record first. R310: where no handler takes a condition of another class its
launch faults with the code. -/
def Obligations.TrapEntry : Prop :=
  ∀ (s : State) (n k code : Nat) (aux : DWord) (pc : BitVec 64) (rp : Nat → BitVec 64) (t : Team) (x : Thread), s.team? n = some t →
    t.thread? k = some x →
    (let c := s.ctx t.ctx
     let hoff := (c.trap1.extractLsb' 0 32).toNat
     let hlen := (c.trap1.extractLsb' 32 32).toNat
     let caught := c.trap0.getLsbD 63 && !(decide (hoff ≤ pc.toNat) && decide (pc.toNat < hoff + hlen))
     let frame : Int := (t.scr : Int) * 0x4000 - 32 * 2 ^ t.tbits + 32 * k
     let at_ (kind : ParkKind) : Park := ⟨code, aux, pc, rp k, kind, BitVec.ofNat 64 hoff, false⟩
     let parked (kind : ParkKind) : State := threadBecomes s n k (fun y => { y with
       wait := .parked (at_ kind), pc := rp k, marker := [], asked := none, answer := none })
     let put (y : Thread) (v : List Word) : Regs :=
       (((y.regs.set 60 (v.getD 0 0)).set 61 (v.getD 1 0)).set 62 (v.getD 2 0)).set 63 (v.getD 3 0)
     (code ∉ [0x18, 0x19, 0x1A, 0x30, 0x31] →
       (caught = true → x.pend = [] → (t.sup = true → 0 ≤ frame) →
         s.takeTraps n rp [⟨k, code, aux, pc, false⟩] = teamBecomes s n (fun u =>
           let v := if u.sup then u.putScratch frame.toNat (([x.regs.get 60, x.regs.get 61, x.regs.get 62, x.regs.get 63,
             (rp k).extractLsb' 0 32, BitVec.ofNat 32 code, 0, 0].map (fun w => toBytes w.toNat 4)).flatten) else u
           Team.poolThread (onThread k (fun y => { y with
             wait := .parked (at_ .trap), pc := rp k, marker := [], asked := none, answer := none,
             regs := put y [BitVec.ofNat 32 code, (rp k).extractLsb' 0 32, aux.extractLsb' 0 32, aux.extractLsb' 32 32] }) v)
             k (BitVec.ofNat 64 hoff) (s.cycle + 1)))
       ∧ (caught = true → x.pend ≠ [] → s.takeTraps n rp [⟨k, code, aux, pc, false⟩] = parked .trap))
     ∧ (code ∉ [0x18, 0x19, 0x1A] → caught = false → c.fqFull = false → s.takeTraps n rp [⟨k, code, aux, pc, false⟩] =
         ((parked .trap).writeRecord ((parked .trap).threadReport t code aux pc [k] true)).faultLaunch t.launch code)
     ∧ (code ∈ [0x30, 0x31] → caught = true → c.fqFull = false → s.takeTraps n rp [⟨k, code, aux, pc, false⟩] =
         ((parked .trap).writeRecord ((parked .trap).threadReport t code aux pc [k] true)).tryHandler n k)
     ∧ (code ∈ [0x18, 0x19, 0x1A] → c.fqFull = false → s.takeTraps n rp [⟨k, code, aux, pc, false⟩] =
         (parked .fault).writeRecord ((parked .fault).threadReport t code aux pc [k] false)))
end

