-- ==== Sys2Proof/Machine/AsythFlow.lean ====
section
/-! DEFINITION. The control flow of a code object as asyth follows it (07 R164, R400): the words of each chained group, the
paths out of it, and the registers that its words write late. -/

namespace Sys2Proof.Machine

/-- An instruction word of a code object: its address, the raw word and what it decodes to. -/
structure CodeWord where
  pc : Nat
  word : Word
  i : Instr
deriving DecidableEq, Repr

/-- The three words of the packet that holds an address. -/
def packetAt (ws : List Word) (pc : Nat) : List PacketWord :=
  let b := pc / 12 * 3
  packetWords (ws.getD b 0) (ws.getD (b + 1) 0) (ws.getD (b + 2) 0)

/-- The group a thread issues at an address of the object and the address after it (R157, R159). -/
def groupAt (ws : List Word) (pc : Nat) : Except DecodeError Group :=
  if isLiteralAt (packetAt ws pc) (pc % 12 / 4) then .error .illegalEncoding
  else groupFrom (packetAt ws pc) (pc % 12 / 4)

/-- The decoded words of that group in packet order, and the address of the first instruction word after it. -/
def wordsAt (ws : List Word) (pc : Nat) : List CodeWord × Nat :=
  match groupAt ws pc with
  | .error _ => ([], 4 * ws.length)
  | .ok g =>
    let base := pc / 12 * 12
    (g.words.filterMap (fun w =>
      match decodeWord w.word w.lit with
      | .ok i => some ⟨base + w.pos, w.word, i⟩
      | .error _ => none), base + g.after)

/-- The W bit of a word, or an implicit marker (R162, R164). -/
def CodeWord.marks (w : CodeWord) : Bool := w.word.getLsbD 30 || implicitMarker w.i

/-- An address moved by a signed number of words. -/
def movedBy (pc : Nat) (words : Int) : Option Nat :=
  let t := (pc : Int) + 4 * words
  if 0 ≤ t then some t.toNat else none

/-- Where a word sends a path other than to the word after its group (R164). -/
def CodeWord.targets (w : CodeWord) : List Nat :=
  match w.i with
  | .bra _ o => (movedBy w.pc o.disp.toInt).toList
  | .braRg _ o => (movedBy w.pc o.disp.toInt).toList
  | .call _ o => (movedBy w.pc o.disp.toInt).toList
  | .leave _ o => (movedBy w.pc o.disp.toInt).toList
  | .leaveRg _ o => (movedBy w.pc o.disp.toInt).toList
  | .exitNext _ o => if o.disp = 0 then [] else (movedBy w.pc o.disp.toInt).toList
  | _ => []

/-- No thread that issues the word goes on to the word after its group: an unguarded end, LEAVE or indirect transfer.
A branch keeps its fall-through (R164), and a call the word that it links to. -/
def CodeWord.stops (w : CodeWord) : Bool :=
  guardOf w.i == 0 &&
    match w.i with
    | .exit _ _ => true
    | .exitNext _ _ => true
    | .leave _ _ => true
    | .leaveRg _ _ => true
    | .jmpi _ _ => true
    | .jmpiRg _ _ => true
    | .ret _ _ => true
    | .tret _ _ => true
    | _ => false

/-- The loop level after a group (R400). -/
def levelAfter (level : Nat) (g : List CodeWord) : Nat :=
  g.foldl (fun l w => match w.i with
    | .loop _ _ => l + 1
    | .endloop _ _ => l - 1
    | _ => l) level

/-- The level at which a word's target is entered: EXIT.NEXT starts an entry at level 0 (R60, R400). -/
def CodeWord.levelThere (w : CodeWord) (level : Nat) : Nat :=
  match w.i with
  | .exitNext _ _ => 0
  | _ => level

/-- The places, an address with a loop level, to which paths go on from a group. -/
def onward (ws : List Word) (g : List CodeWord × Nat) (level : Nat) : List (Nat × Nat) :=
  let l := levelAfter level g.1
  (g.1.flatMap (fun w => w.targets.map (fun a => (a, w.levelThere l))) ++ (if g.1.any CodeWord.stops then [] else [(g.2, l)])).filter
    (fun p => decide (p.1 < 4 * ws.length))

/-- The majors of Table 7-3. -/
def isVariable (m : Nat) : Bool :=
  (decide (0x80 ≤ m) && decide (m ≤ 0x86)) || m == 0x8D || (decide (0x94 ≤ m) && decide (m ≤ 0x98)) || m == 0x06 || m == 0x07
    || m == 0x4F || (decide (0x53 ≤ m) && decide (m ≤ 0x5A)) || m == 0xCE || m == 0xE5 || m == 0xC8

/-- Vector registers a word writes, by name. -/
def vWrites (i : Instr) : List Nat := i.writes.filterMap (fun t => match t with | .v n => some n | _ => none)

/-- Vector registers whose write is variable-latency (R160). -/
def variableWrites (i : Instr) : List Nat := if isVariable (opMajor i) then vWrites i else []

/-- A uniform-class word that writes an s register or a guard-slot definition (R164). -/
def writesUniform (i : Instr) : Bool :=
  isUniform i && i.writes.any (fun t => match t with | .s _ => true | .g _ => true | _ => false)

/-- A word that can raise a condition other than a decode trap and that a uniform-class word can be chained with: every
word of the memory and asynchronous pipes but FENCE and BAR. Uniform-class words take the control pipe themselves (R157),
and the words of the integer and float pipes raise no such condition (08, R238). -/
def canTrap (i : Instr) : Bool :=
  match pipeOf (opMajor i) with
  | some .memory => opMajor i != 0x92 && opMajor i != 0x93
  | some .async => true
  | _ => false

/-- Places that paths reach: addresses with a loop level. `next` gives the places after one; fuel bounds the visits. -/
def reach (next : Nat × Nat → List (Nat × Nat)) : Nat → List (Nat × Nat) → List (Nat × Nat) → List (Nat × Nat)
  | 0, _, seen => seen
  | _, [], seen => seen
  | fuel + 1, p :: todo, seen =>
    if seen.contains p then reach next fuel todo seen
    else reach next fuel (next p ++ todo) (p :: seen)

/-- Visits that suffice for an object: each place once for each way into it. -/
def visits (ws : List Word) : Nat := 40 * (ws.length + 1)

/-- The places after a place, along the paths of R400; levels above 3 are not followed, as no team has them (R79). -/
def placesAfter (ws : List Word) (p : Nat × Nat) : List (Nat × Nat) :=
  (onward ws (wordsAt ws p.1) p.2).filter (fun q => decide (q.2 ≤ 3))

/-- The places that paths from an entry reach. -/
def placesFrom (ws : List Word) (entry : Nat) : List (Nat × Nat) :=
  reach (placesAfter ws) (visits ws) [(entry, 0)] []

/-- The first LOOP at which a path from an entry stands at level D (R400). -/
def tooDeep (ws : List Word) (entry depth : Nat) : Option Nat :=
  (placesFrom ws entry).findSome? (fun p =>
    if depth ≤ p.2 then
      ((wordsAt ws p.1).1.find? (fun w => match w.i with | .loop _ _ => true | _ => false)).map (fun w => w.pc)
    else none)

end Sys2Proof.Machine
end

