-- ==== Sys2Proof/Machine/AsythCheck.lean ====
section
/-! DEFINITION. Marker discipline and `asyth --check` (07 R164, R165): the breaches of a code object. -/

namespace Sys2Proof.Machine

/-- A breach of marker discipline (R164), with the address of the writing word and of the offending word. -/
inductive Breach where
  /-- Condition 1: a register written late is named before a marker. -/
  | late (writer offender : Nat)
  /-- Condition 2: a uniform-class write that a divergent word reaches before the paths meet; the first address is that of
  the divergent word. -/
  | diverged (source writer : Nat)
  /-- Condition 4: a uniform-class write chained with a word that can raise a condition. -/
  | chained (writer trapping : Nat)
deriving DecidableEq, Repr

/-- The addresses of the instruction words of an object. -/
def codeAddresses (ws : List Word) : List Nat :=
  ((List.range ws.length).map (fun k => 4 * k)).filter (fun pc => !isLiteralAt (packetAt ws pc) (pc % 12 / 4))

/-- The decoded word at an address. -/
def wordAt (ws : List Word) (pc : Nat) : Option CodeWord := (wordsAt ws pc).1.head?

/-! ### Condition 1 -/

/-- Physical registers that a word reads or writes at a loop level, in a team of sheaves of w threads (R68). -/
def touches (w level : Nat) (i : Instr) : List Nat := (vReads w i ++ vWrites i).map (phys level)

/-- How a path meets the words of one group while writes are pending. -/
inductive Meeting where
  | offends (pc : Nat)
  | marked
  | goesOn
deriving DecidableEq, Repr

/-- The first word of a list that touches a pending register, or a marker before it. -/
def meetWords (w level : Nat) (pending : List Nat) : List CodeWord → Meeting
  | [] => .goesOn
  | c :: r =>
    if (touches w level c.i).any pending.contains then .offends c.pc
    else if c.marks then .marked
    else meetWords w level pending r

/-- Follow the paths on from a writing word: the offending words met first. -/
def lateFrom (ws : List Word) (w : Nat) (pending : List Nat) : Nat → List (Nat × Nat) → List (Nat × Nat) → List Nat → List Nat
  | 0, _, _, found => found
  | _, [], _, found => found
  | fuel + 1, p :: todo, seen, found =>
    if seen.contains p then lateFrom ws w pending fuel todo seen found
    else
      match meetWords w p.2 pending (wordsAt ws p.1).1 with
      | .offends pc => lateFrom ws w pending fuel todo (p :: seen) (if found.contains pc then found else found ++ [pc])
      | .marked => lateFrom ws w pending fuel todo (p :: seen) found
      | .goesOn => lateFrom ws w pending fuel (placesAfter ws p ++ todo) (p :: seen) found

/-- The breaches of condition 1 by the word at an address in the group at a place. The words chained to it follow it in packet
order; the paths go on from the whole group. -/
def lateBreaches (ws : List Word) (w : Nat) (pc : Nat) (p : Nat × Nat) : List Breach :=
  match (wordsAt ws p.1).1.dropWhile (fun c => c.pc != pc) with
  | [] => []
  | c :: r =>
    let pending := (variableWrites c.i).map (phys p.2)
    if pending = [] ∨ c.marks = true then []
    else
      match meetWords w p.2 pending r with
      | .offends o => [.late pc o]
      | .marked => []
      | .goesOn => (lateFrom ws w pending (visits ws) (placesAfter ws p) [] []).map (.late pc)

/-! ### Condition 2 -/

/-- A branch whose guard is not g0, a LEAVE, or an indirect transfer (R164). -/
def CodeWord.diverges (c : CodeWord) : Bool :=
  match c.i with
  | .bra _ o => o.g != 0
  | .braRg _ o => o.g != 0
  | .leave _ _ => true
  | .leaveRg _ _ => true
  | .calli _ _ => true
  | .jmpi _ _ => true
  | .jmpiRg _ _ => true
  | .ret _ _ => true
  | _ => false

/-- A JOIN or a cross-lane instruction, where paths meet again (R61, R164). -/
def CodeWord.meets (c : CodeWord) : Bool :=
  match c.i with
  | .join _ _ => true
  | .joinRg _ _ => true
  | i => isCross i

/-- The uniform writers before the first meeting word of a list, and whether a meeting word stands in it. -/
def writersBefore : List CodeWord → List Nat × Bool
  | [] => ([], false)
  | c :: r =>
    if c.meets then ([], true)
    else
      let p := writersBefore r
      (if writesUniform c.i then c.pc :: p.1 else p.1, p.2)

/-- Follow the paths on from a divergent word: the uniform writers that they reach first. -/
def divergedFrom (ws : List Word) : Nat → List (Nat × Nat) → List (Nat × Nat) → List Nat → List Nat
  | 0, _, _, found => found
  | _, [], _, found => found
  | fuel + 1, p :: todo, seen, found =>
    if seen.contains p then divergedFrom ws fuel todo seen found
    else
      let r := writersBefore (wordsAt ws p.1).1
      let found := found ++ r.1.filter (fun a => !found.contains a)
      if r.2 then divergedFrom ws fuel todo (p :: seen) found
      else divergedFrom ws fuel (placesAfter ws p ++ todo) (p :: seen) found

def divergedBreaches (ws : List Word) (pc level : Nat) : List Breach :=
  match wordAt ws pc with
  | some c => if c.diverges then (divergedFrom ws (visits ws) (placesAfter ws (pc, level)) [] []).map (.diverged pc) else []
  | none => []

/-! ### Condition 4 -/

/-- Uniform writers of a group with the words chained to them that can raise a condition. -/
def chainedBreaches (g : List CodeWord) : List Breach :=
  (g.filter (fun c => writesUniform c.i)).flatMap (fun c =>
    (g.filter (fun t => canTrap t.i)).map (fun t => .chained c.pc t.pc))

/-! ### The check -/

/-- The places, among those that paths from the entries reach, whose groups hold the word at an address; where none does, the
address itself at level 0. -/
def groupsWith (places : List (Nat × Nat)) (ws : List Word) (pc : Nat) : List (Nat × Nat) :=
  let here := places.filter (fun p => (wordsAt ws p.1).1.any (fun c => c.pc == pc))
  if here = [] then [(pc, 0)] else here

/-- The breaches of marker discipline in the words of an object with these entries, in sheaves of w threads (R165). -/
def breaches (ws : List Word) (entries : List Nat) (w : Nat) : List Breach :=
  let places := distinct (entries.flatMap (placesFrom ws))
  distinct ((codeAddresses ws).flatMap (fun pc =>
    (groupsWith places ws pc).flatMap (fun p => lateBreaches ws w pc p ++ divergedBreaches ws pc p.2)
      ++ chainedBreaches (wordsAt ws pc).1))

/-- Marker discipline (R164). -/
def MarkerDiscipline (ws : List Word) (entries : List Nat) (w : Nat) : Prop := breaches ws entries w = []

end Sys2Proof.Machine
end

