-- ==== Sys2Proof/Machine/AsythText.lean ====
section
/-! DEFINITION. The source text of asyth: lines, statements, operands and constants (07 R173, R174). A line is a list of
characters. -/

namespace Sys2Proof.Machine

/-- Why asyth refuses a source (R165, R173 to R178, R291, R400). -/
inductive AsythError where
  /-- A line that is no statement, directive, label or comment (R173). -/
  | badLine
  /-- An identifier that is the name of a register or a mnemonic (R173). -/
  | badIdentifier
  /-- No mnemonic of Table 7-8. -/
  | badMnemonic
  /-- A suffix that the mnemonic does not take, or out of the order of R175. -/
  | badSuffix
  /-- Operands that the mnemonic does not take (R174, R176), or a name beyond .regs or .uregs (Table 7-9). -/
  | badOperand
  /-- A constant or a displacement that fits neither the field nor a literal form (R176). -/
  | outOfRange
  /-- A word that would fail decoding under R172. -/
  | undecodable (e : DecodeError)
  /-- A name that nothing declares. -/
  | unknownName
  /-- A name that is both a node and an entry or label (R291). -/
  | ambiguousName
  /-- A name declared twice. -/
  | duplicateName
  /-- A node number given twice (R291). -/
  | duplicateNumber
  /-- A chained group of more than three words (R178). -/
  | groupTooLong
  /-- A chain mark followed by no instruction before the next directive (R178). -/
  | danglingChain
  /-- A directive, or an argument of one, outside Table 7-9 and Table 11-5. -/
  | badDirective
  /-- A LOOP at which a path stands at level D (R400). -/
  | loopDepth
  /-- No .end closes the text. -/
  | noEnd
  /-- Label values and instruction lengths that never agree (R177, R178). -/
  | unsettled
deriving DecidableEq, Repr

abbrev Text := List Char

/-! ### Characters and fields -/

def isBlank (c : Char) : Bool := c == ' ' || c == '\t' || c == '\r'

def trimLeft : Text → Text
  | [] => []
  | c :: r => if isBlank c then trimLeft r else c :: r

def trim (t : Text) : Text := (trimLeft (trimLeft t).reverse).reverse

/-- The text before a comment, which begins with a semicolon or two strokes (R173). -/
def dropComment : Text → Text
  | [] => []
  | ';' :: _ => []
  | '/' :: '/' :: _ => []
  | c :: r => c :: dropComment r

/-- Fields between separators that stand outside round brackets; d counts the open brackets. -/
def splitAt (sep : Char) : Nat → Text → List Text
  | _, [] => [[]]
  | d, c :: r =>
    if c == sep && d == 0 then [] :: splitAt sep 0 r
    else
      match splitAt sep (if c == '(' then d + 1 else if c == ')' then d - 1 else d) r with
      | [] => [[c]]
      | f :: fs => (c :: f) :: fs

/-- The trimmed fields of an operand or argument list; a blank list has none. -/
def fieldsOf (t : Text) : List Text := if trim t = [] then [] else (splitAt ',' 0 t).map trim

/-- The text before and after the first separator. -/
def cutAt (sep : Char) : Text → Option (Text × Text)
  | [] => none
  | c :: r => if c == sep then some ([], r) else (cutAt sep r).map (fun p => (c :: p.1, p.2))

def capitals (t : Text) : String := String.ofList (t.map Char.toUpper)

def startsName (c : Char) : Bool := c.isAlpha || c == '_' || c == '.'
def goesInName (c : Char) : Bool := startsName c || c.isDigit

/-- The longest name at the front of a text, and the rest. -/
def spanName : Text → Text × Text
  | [] => ([], [])
  | c :: r => if goesInName c then (c :: (spanName r).1, (spanName r).2) else ([], c :: r)

/-! ### Numbers -/

def digitOf (c : Char) : Option Nat :=
  if c.isDigit then some (c.toNat - '0'.toNat)
  else if 'a' ≤ c ∧ c ≤ 'f' then some (c.toNat - 'a'.toNat + 10)
  else if 'A' ≤ c ∧ c ≤ 'F' then some (c.toNat - 'A'.toNat + 10)
  else none

/-- Digits with `_` between digits: value and number of digits; `open?` tells that a digit must follow. -/
def digitsOf (base : Nat) (open? : Bool) (acc n : Nat) : Text → Option (Nat × Nat)
  | [] => if open? then none else some (acc, n)
  | c :: r =>
    if c == '_' then (if open? then none else digitsOf base true acc n r)
    else
      match digitOf c with
      | some d => if d < base then digitsOf base false (acc * base + d) (n + 1) r else none
      | none => none

def natOf (base : Nat) (t : Text) : Option Nat := (digitsOf base true 0 0 t).map (fun p => p.1)

/-- Digits, or nothing at all. -/
def digitsOrNone (t : Text) : Option (Nat × Nat) := if t = [] then some (0, 0) else digitsOf 10 true 0 0 t

/-- A constant of the text (R174): an integer, with its hexadecimal spelling noted, or the float constant
(−1)^neg × m × 10^e. -/
inductive Constant where
  | int (hex : Bool) (n : Int)
  | real (neg : Bool) (m : Nat) (e : Int)
deriving DecidableEq, Repr

/-- An exponent, with an optional sign. -/
def exponentOf : Text → Option Int
  | '-' :: r => (natOf 10 r).map (fun n => -(n : Int))
  | '+' :: r => (natOf 10 r).map (fun n => (n : Int))
  | r => (natOf 10 r).map (fun n => (n : Int))

/-- A float constant without its sign: a point or an exponent, and at least one digit before the exponent. -/
def realOf (neg : Bool) (t : Text) : Option Constant :=
  let cut := match cutAt 'e' t with | some p => some p | none => cutAt 'E' t
  let mant := match cut with | some p => p.1 | none => t
  let ex := match cut with | some p => exponentOf p.2 | none => some 0
  match ex, cutAt '.' mant with
  | some e, some (a, b) =>
    match digitsOrNone a, digitsOrNone b with
    | some (x, p), some (y, q) => if p + q = 0 then none else some (.real neg (x * 10 ^ q + y) (e - q))
    | _, _ => none
  | some e, none => if cut.isSome then (natOf 10 mant).map (fun m => .real neg m e) else none
  | none, _ => none

/-- A constant without its sign. -/
def unsignedOf (neg : Bool) (t : Text) : Option Constant :=
  let sgn (n : Nat) : Int := if neg then -(n : Int) else n
  match t with
  | '0' :: 'x' :: r => (natOf 16 r).map (fun n => .int true (sgn n))
  | '0' :: 'X' :: r => (natOf 16 r).map (fun n => .int true (sgn n))
  | _ =>
    match natOf 10 t with
    | some n => some (.int false (sgn n))
    | none => realOf neg t

def constantOf : Text → Option Constant
  | '-' :: r => unsignedOf true r
  | t => unsignedOf false t

/-- An integer, as directives and offsets take it. -/
def integerOf (t : Text) : Option Int :=
  match constantOf t with
  | some (.int _ n) => some n
  | _ => none

def naturalOf (t : Text) : Option Nat :=
  match integerOf t with
  | some n => if 0 ≤ n then some n.toNat else none
  | none => none

/-- The bits of a float constant in a layout under RN (R174). -/
def realBits (f : FFmt) (neg : Bool) (m : Nat) (e : Int) : Nat :=
  roundQ f .rn neg (m * 10 ^ e.toNat) (10 ^ (-e).toNat) 0

/-! ### Names and expressions -/

/-- The register files an operand may name (R174). -/
inductive RegFile where
  | v
  | s
  | c
  | g
  | j
  | q
  | a
  | w
deriving DecidableEq, Repr

/-- Letter and size of each register file. -/
def regFiles : List (Char × RegFile × Nat) :=
  [('V', .v, 64), ('S', .s, 96), ('C', .c, 4), ('G', .g, 8), ('J', .j, 16), ('Q', .q, 16), ('A', .a, 128), ('W', .w, 128)]

/-- A register name, in capitals or not: a letter and a decimal number without leading zeros. -/
def registerOf : Text → Option (RegFile × Nat)
  | [] => none
  | l :: r =>
    match regFiles.find? (fun e => e.1 == l.toUpper), r.all Char.isDigit && (r == ['0'] || r.head? != some '0'), natOf 10 r with
    | some e, true, some n => if n < e.2.2 then some (e.2.1, n) else none
    | _, _, _ => none

/-- An expression (R174): a constant, or a name plus a number. -/
inductive Expr where
  | const (c : Constant)
  | name (n : String) (k : Int)
deriving DecidableEq, Repr

/-- A float constant. -/
def Expr.isReal : Expr → Bool
  | .const (.real _ _ _) => true
  | _ => false

def exprOf (t : Text) : Option Expr :=
  match constantOf t with
  | some c => some (.const c)
  | none =>
    let p := spanName t
    if !(p.1.head?.any startsName) || (registerOf p.1).isSome then none
    else
      match trimLeft p.2 with
      | [] => some (.name (String.ofList p.1) 0)
      | '+' :: r => (integerOf (trim r)).map (fun k => .name (String.ofList p.1) k)
      | '-' :: r => (integerOf (trim r)).map (fun k => .name (String.ofList p.1) (-k))
      | _ => none

/-! ### Operands and statements -/

/-- An operand (R174): a register, a LEAVE range, a pointer register alone in square brackets, one with an offset
register, one with an offset, a vector register in square brackets (Table 11-4), an expression. -/
inductive Operand where
  | reg (f : RegFile) (n : Nat)
  | range (a b : Nat)
  | mem (s : Nat)
  | memReg (s v : Nat)
  | memOff (s : Nat) (e : Expr)
  | record (v : Nat)
  | expr (e : Expr)
deriving DecidableEq, Repr

/-- What stands between square brackets (R174). -/
def bracketOf (t : Text) : Option Operand :=
  match cutAt '+' t with
  | none =>
    match registerOf (trim t) with
    | some (.s, n) => some (.mem n)
    | some (.v, n) => some (.record n)
    | _ => none
  | some (a, b) =>
    match registerOf (trim a), registerOf (trim b) with
    | some (.s, n), some (.v, m) => some (.memReg n m)
    | some (.s, n), none => (exprOf (trim b)).map (fun e => .memOff n e)
    | _, _ => none

/-- A LEAVE range `jA-jB`. -/
def rangeOf (t : Text) : Option Operand :=
  match cutAt '-' t with
  | some (a, b) =>
    match registerOf (trim a), registerOf (trim b) with
    | some (.j, x), some (.j, y) => some (.range x y)
    | _, _ => none
  | none => none

def operandOf (t : Text) : Option Operand :=
  match t with
  | '[' :: r => if r.getLast? = some ']' then bracketOf r.dropLast else none
  | _ =>
    match registerOf t, rangeOf t with
    | some (f, n), _ => some (.reg f n)
    | none, some o => some o
    | none, none => (exprOf t).map .expr

/-- A statement (R173): guard slot, mnemonic and suffixes in capitals, operands, `&` and `!`. -/
structure Statement where
  guard : Nat
  words : List String
  operands : List Operand
  chain : Bool
  mark : Bool
deriving DecidableEq, Repr

/-- A line of the source (R173). -/
inductive Line where
  | blank
  | label (n : String)
  | statement (label : Option String) (st : Statement)
  | directive (n : String) (args : List Text)
deriving DecidableEq, Repr

/-- An optional `(gN)` in front of a statement, and the rest. -/
def guardedText (t : Text) : Option (Nat × Text) :=
  match t with
  | '(' :: r =>
    match cutAt ')' r with
    | some (a, b) =>
      match registerOf (trim a) with
      | some (.g, n) => some (n, trimLeft b)
      | _ => none
    | none => none
  | _ => some (0, t)

/-- A closing mark and the text before it. -/
def takeMark (c : Char) (t : Text) : Bool × Text := if t.getLast? = some c then (true, trim t.dropLast) else (false, t)

def statementOf (t : Text) : Option Statement :=
  match guardedText t with
  | none => none
  | some (g, t) =>
    let m := takeMark '!' (trim t)
    let c := takeMark '&' m.2
    let p := spanName c.2
    if p.1 = [] || !(p.2.head?.all isBlank) then none
    else
      ((fieldsOf p.2).mapM operandOf).map
        (fun os => ⟨g, (splitAt '.' 0 p.1).map capitals, os, c.1, m.1⟩)

/-- One line of the source (R173). -/
def sourceLine (raw : Text) : Option Line :=
  let t := trim (dropComment raw)
  if t = [] then some .blank
  else
    let p := spanName t
    match p.1.head?.any startsName, p.2 with
    | true, ':' :: r =>
      if trim r = [] then some (.label (String.ofList p.1))
      else (statementOf (trim r)).map (fun st => .statement (some (String.ofList p.1)) st)
    | _, _ =>
      if t.head? = some '.' then
        (if p.2.head?.all isBlank then some (.directive (String.ofList p.1) (fieldsOf p.2)) else none)
      else (statementOf t).map (fun st => .statement none st)

end Sys2Proof.Machine
end

