-- ==== Sys2Proof/Machine/AsythForms.lean ====
section
/-! DEFINITION. From a statement to its word and literal: suffixes (07 R175), the form of each mnemonic (R167 to R177 and the
assembly forms of 08 to 11, 15 and 16), fields, immediates and displacements (R174, R177). -/

namespace Sys2Proof.Machine

/-! ### Suffixes (R175) -/

/-- The suffixes .SAT, .NB and .UNORD. -/
inductive AsythFlag where
  | sat
  | nb
  | unord
deriving DecidableEq, Repr

/-- The suffixes after a mnemonic's own (R175 items 2 to 7). -/
structure Suffixes where
  rg : Bool
  ord : Option Nat
  scope : Option Nat
  rnd : Option Nat
  flag : Option AsythFlag
  typ : Option Nat
deriving DecidableEq, Repr

/-- The codes of R168, Table 6-1, R90 and Table 7-5 by name. -/
def orderNames : List (String × Nat) := [("RLX", 0), ("ACQ", 1), ("REL", 2), ("AR", 3)]
def scopeNames : List (String × Nat) :=
  [("THREAD", 0), ("SHEAF", 1), ("TEAM", 2), ("CORE", 3), ("COHORT", 4), ("DIE", 5), ("PKG", 6), ("DOMAIN", 7), ("SYS", 8)]
def roundNames : List (String × Nat) := [("RZ", 1), ("RU", 2), ("RD", 3)]
def flagNames : List (String × AsythFlag) := [("SAT", .sat), ("NB", .nb), ("UNORD", .unord)]
def typeNames : List (String × Nat) :=
  [("I8", 0), ("I16", 1), ("I32", 2), ("I64", 3), ("W8", 4), ("W16", 5), ("W32", 6), ("W64", 7), ("B32", 8), ("B64", 9),
   ("F32", 10), ("F16", 11), ("BF16", 12), ("F16X2", 13), ("BF16X2", 14)]

/-- The value that a table gives to a name. -/
def tableAt {α : Type} (table : List (String × α)) (x : String) : Option α := (table.find? (fun e => e.1 == x)).map (fun e => e.2)

/-- An optional suffix of one class at the front of a list. -/
def takeSuffix {α : Type} (table : List (String × α)) : List String → Option α × List String
  | [] => (none, [])
  | x :: r =>
    match tableAt table x with
    | some a => (some a, r)
    | none => (none, x :: r)

/-- The suffixes in the order of R175; anything left over is out of order or unknown. -/
def suffixesOf (ws : List String) : Option Suffixes :=
  let rg := takeSuffix [("RG", ())] ws
  let o := takeSuffix orderNames rg.2
  let c := takeSuffix scopeNames o.2
  let r := takeSuffix roundNames c.2
  let f := takeSuffix flagNames r.2
  let t := takeSuffix typeNames f.2
  if t.2 = [] then some ⟨rg.1.isSome, o.1, c.1, r.1, f.1, t.1⟩ else none

def noSuffix : Suffixes := ⟨false, none, none, none, none, none⟩

/-! ### Names -/

/-- What names stand for: labels and entries, nodes (R291), and data offsets and buffer indexes (Table 7-9). -/
structure AsythNames where
  labels : List (String × Nat)
  nodes : List (String × Nat)
  others : List (String × Nat)
deriving DecidableEq, Repr

/-- The target of a branch, CALL, LEAVE or EXIT.NEXT: an entry or label (R291), or a code offset. -/
def AsythNames.target (ns : AsythNames) : Expr → Except AsythError Int
  | .const (.int _ n) => .ok n
  | .const _ => .error .badOperand
  | .name n k =>
    match tableAt ns.labels n with
    | some a => .ok (a + k)
    | none => .error .unknownName

/-- Any other expression (R174, R291). A float constant is encoded in the statement's type where that is a float type, and
as binary32 elsewhere. -/
def AsythNames.value (ns : AsythNames) (typ : Option Nat) : Expr → Except AsythError Int
  | .const (.int _ n) => .ok n
  | .const (.real neg m e) =>
    let t : BitVec 4 := BitVec.ofNat 4 (typ.getD 10)
    .ok (realBits (if isScalarFloat t then fmtOf t else f32) neg m e)
  | .name n k =>
    match tableAt ns.nodes n, (tableAt ns.labels n).or (tableAt ns.others n) with
    | some _, some _ => .error .ambiguousName
    | some a, none => .ok (a + k)
    | none, some a => .ok (a + k)
    | none, none => .error .unknownName

/-- Condition names of Table 3-3. -/
def condNames : List (String × Nat) :=
  [("EQ", 0), ("NE", 1), ("LT", 2), ("GE", 3), ("GT", 4), ("LE", 5), ("LTU", 6), ("GEU", 7), ("GTU", 8), ("LEU", 9),
   ("MI", 10), ("PL", 11), ("VS", 12), ("VC", 13), ("AL", 14), ("NV", 15)]

/-- Special registers of Table 3-4. -/
def specialNames : List (String × Nat) :=
  [("TID", 0), ("LANE", 1), ("HOMELANE", 2), ("SHEAF", 3), ("TEAM", 4), ("COHORT", 5), ("WID.F0", 6), ("WID.F1", 7),
   ("WID.F2", 8), ("WID.F3", 9), ("WID.F4", 10), ("WID.F5", 11), ("CORE", 12), ("VDIE", 13), ("PT", 14), ("CYC", 15)]

/-- System registers that R357 and Table 15-5 name by one name each. -/
def systemNames : List (String × Nat) :=
  [("FQHEAD", 3), ("FQTAIL", 4), ("INVDONE", 8), ("EV0", 0x10), ("EV1", 0x11), ("EV2", 0x12), ("EV3", 0x13),
   ("EVSET0", 0x14), ("EVSET1", 0x15), ("EVSET2", 0x16), ("EVSET3", 0x17), ("LCLR", 0x18)]

/-- A bare name operand, in capitals. -/
def nameOperand : Operand → Option String
  | .expr (.name n 0) => some (capitals n.toList)
  | _ => none

/-! ### Fields -/

def vField : Operand → Except AsythError (BitVec 6)
  | .reg .v n => .ok (BitVec.ofNat 6 n)
  | _ => .error .badOperand

def sField : Operand → Except AsythError (BitVec 7)
  | .reg .s n => .ok (BitVec.ofNat 7 n)
  | _ => .error .badOperand

/-- The b field of V3, VD and VC: v0 to v63, or s0 to s63 (R168). -/
def bField : Operand → Except AsythError (BitVec 7)
  | .reg .v n => .ok (BitVec.ofNat 7 n)
  | .reg .s n => if n < 64 then .ok (BitVec.ofNat 7 (64 + n)) else .error .badOperand
  | _ => .error .badOperand

def fileField (f : RegFile) (w : Nat) : Operand → Except AsythError (BitVec w)
  | .reg f' n => if f = f' then .ok (BitVec.ofNat w n) else .error .badOperand
  | _ => .error .badOperand

def nameField (table : List (String × Nat)) (w : Nat) (o : Operand) : Except AsythError (BitVec w) :=
  match (nameOperand o).bind (tableAt table) with
  | some n => .ok (BitVec.ofNat w n)
  | none => .error .badOperand

/-- A number in a field of w bits. -/
def numberField (ns : AsythNames) (w : Nat) : Operand → Except AsythError (BitVec w)
  | .expr e =>
    match ns.value none e with
    | .ok n => if 0 ≤ n ∧ n < 2 ^ w then .ok (BitVec.ofInt w n) else .error .outOfRange
    | .error x => .error x
  | _ => .error .badOperand

/-- The signed immediate of VI: the short field from −63 to 63, else a 32-bit literal where the major takes one (R166,
R177). -/
def immField (ns : AsythNames) (typ : Option Nat) (literal : Bool) : Operand → Except AsythError (BitVec 7 × Option Word)
  | .expr e =>
    match ns.value typ e with
    | .ok n =>
      if -63 ≤ n ∧ n ≤ 63 then .ok (BitVec.ofInt 7 n, none)
      else if literal = true ∧ -(2 ^ 31) ≤ n ∧ n < 2 ^ 32 then .ok (64, some (BitVec.ofInt 32 n))
      else .error .outOfRange
    | .error x => .error x
  | _ => .error .badOperand

/-- A source of UR: s0 to s95, or a constant as a sign-extended literal (R166); a float constant is its 32 bits (R174). -/
def urField (ns : AsythNames) : Operand → Except AsythError (BitVec 7 × Option Word)
  | .reg .s n => .ok (BitVec.ofNat 7 n, none)
  | .expr e =>
    match ns.value none e with
    | .ok n => if -(2 ^ 31) ≤ n ∧ n < (if e.isReal then 2 ^ 32 else 2 ^ 31) then .ok (127, some (BitVec.ofInt 32 n)) else .error .outOfRange
    | .error x => .error x
  | _ => .error .badOperand

/-- A signed word displacement of w bits from pc to a target (R169). -/
def dispField (ns : AsythNames) (pc w : Nat) : Operand → Except AsythError (BitVec w)
  | .expr e =>
    match ns.target e with
    | .ok t =>
      let d := t - pc
      if d % 4 = 0 ∧ -(2 ^ (w - 1)) ≤ d / 4 ∧ d / 4 < 2 ^ (w - 1) then .ok (BitVec.ofInt w (d / 4)) else .error .outOfRange
    | .error x => .error x
  | _ => .error .badOperand

/-- Pointer, mode, x field and literal of a memory operand (R169, R174). `scope` is the scope of an order and scope pair;
`size` is the access size, 0 for STB, which takes no mode 1. -/
def memField (ns : AsythNames) (size : Nat) (scope : Option Nat) (o : Operand) :
    Except AsythError (BitVec 6 × BitVec 2 × BitVec 5 × Option Word) :=
  let ptr (s : Nat) (mode : BitVec 2) (x : BitVec 5) (lit : Option Word) :
      Except AsythError (BitVec 6 × BitVec 2 × BitVec 5 × Option Word) :=
    if s < 64 then .ok (BitVec.ofNat 6 s, mode, x, lit) else .error .badOperand
  match scope, o with
  | some c, .mem s => ptr s 2 (BitVec.ofNat 5 (2 * c)) none
  | some _, _ => .error .badOperand
  | none, .mem s => if size = 0 then ptr s 3 0 (some 0) else ptr s 1 0 none
  | none, .memReg s v => if v < 32 then ptr s 0 (BitVec.ofNat 5 v) none else .error .badOperand
  | none, .memOff s e =>
    match ns.value none e with
    | .ok n =>
      if size ≠ 0 ∧ n % (size : Int) = 0 ∧ -16 ≤ n / (size : Int) ∧ n / (size : Int) ≤ 15 then
        ptr s 1 (BitVec.ofInt 5 (n / (size : Int))) none
      else if -(2 ^ 31) ≤ n ∧ n < (if e.isReal then 2 ^ 32 else 2 ^ 31) then ptr s 3 0 (some (BitVec.ofInt 32 n))
      else .error .outOfRange
    | .error x => .error x
  | none, _ => .error .badOperand

/-- The length of a record in bytes: a multiple of 4 from 4 to 256 (11 Table 11-4). -/
def lenField (ns : AsythNames) : Operand → Except AsythError (BitVec 6)
  | .expr e =>
    match ns.value none e with
    | .ok n => if n % 4 = 0 ∧ 4 ≤ n ∧ n ≤ 256 then .ok (BitVec.ofInt 6 (n / 4 - 1)) else .error .outOfRange
    | .error x => .error x
  | _ => .error .badOperand

/-! ### Forms -/

/-- How a mnemonic is written: its majors and its operands. -/
inductive AsythForm where
  /-- No operands. -/
  | bare (m : Nat)
  /-- V3 `vD, vA, B` of a fixed kind; `typed` admits .I32, .W32 and .B32 as spellings (R182). -/
  | three (m : Nat) (typed : Bool)
  /-- V3 `vD, vA, B` whose major follows the type. -/
  | threeBy (rows : List (Nat × Nat))
  /-- A mnemonic with V3 majors by type and a VD major (R177). -/
  | both (rows : List (Option Nat × Nat)) (vd : Nat)
  /-- VD `vD, vD, B`. -/
  | accum (vd : Nat)
  /-- VD `vD, B` (R168). -/
  | unary (vd : Nat)
  /-- CLZ `vD, vA`. -/
  | clz
  /-- MOV `vD, B`. -/
  | mov
  /-- MOVS[.B64] `vD, NAME` (R185). -/
  | movs
  /-- VC `cN, vA, B`. -/
  | compare (m : Nat)
  /-- VC `vD, cN, COND` (R197). -/
  | vote (m : Nat)
  /-- VI `vD, vA, imm`, with a literal where the major takes one. -/
  | imm (m : Nat) (literal : Bool)
  /-- SHRI.W32 and SHRI.I32. -/
  | shri
  /-- MOVI `vD, imm`. -/
  | movi
  /-- TRAP `n, vA` (R359). -/
  | trap
  /-- UR `sD, A, B`. -/
  | uniform (m : Nat)
  /-- UR `sD, A`. -/
  | uniform1 (m : Nat)
  /-- GSET `gK, cN, COND` (R194). -/
  | gset
  /-- M `vD, mem` by type: (type, major, access size); `ord` is the order of mode 2, where there is one (R212). LDF may leave
  out its one type (R170, R220). -/
  | memory (rows : List (Option Nat × Nat × Nat)) (ord : Option Nat)
  /-- STB `vD, mem, d` (R216). -/
  | stb
  /-- ATOM and RED with the operation's code (R221). -/
  | atom (op : Nat)
  | red (op : Nat)
  /-- S with a scope (R223, R224). -/
  | scoped (m : Nat)
  /-- B `target`, with the major of the .RG form where there is one. -/
  | branch (m : Nat) (rg : Option Nat)
  /-- EXIT.NEXT `[entry]` (R208). -/
  | exitNext
  /-- CALLI `vD, vA`. -/
  | calli
  /-- V3 `vA`. -/
  | jump (m : Nat) (rg : Option Nat)
  /-- J `jK`. -/
  | slot (m : Nat) (rg : Option Nat)
  /-- LEAVE[.RG] `jA-jB, target`. -/
  | leave
  /-- WAITC `class, n`. -/
  | waitc
  /-- A `.scope sT, sP`. -/
  | engine (m : Nat)
  /-- A `sP`, and A `sT`. -/
  | param (m : Nat)
  | token (m : Nat)
  /-- Q `qK, vD`, and the forms with .NB and a flag register (Table 9-10). -/
  | queue (m : Nat)
  | queueNb (m : Nat)
  /-- X of Table 11-4. -/
  | send (m : Nat)
  | recld
  | combine
  /-- Y of Table 15-8. -/
  | sysrd
  | syswr
  | inval
deriving DecidableEq, Repr

/-- The atomic operations of Table 7-6. -/
def atomicNames : List (String × Nat) :=
  [("ADD", 0), ("MIN", 1), ("MAX", 2), ("AND", 3), ("OR", 4), ("XOR", 5), ("EXCH", 6), ("CAS", 7)]

/-- Integer V3 majors by spelling: none, .I32, .W32 and .B32 (R177). -/
def intRows (m : Nat) : List (Option Nat × Nat) := [(none, m), (some 2, m), (some 6, m), (some 8, m)]
/-- SHR, IMIN and IMAX: .I32 signed, the rest unsigned (R177). -/
def signRows (i w : Nat) : List (Option Nat × Nat) := [(some 2, i), (none, w), (some 6, w), (some 8, w)]

/-- Mnemonics of integer and uniform instructions (Table 7-8). -/
def integerForms : List (List String × AsythForm) :=
  [(["NOP"], .bare 0x00),
   (["IADD"], .both (intRows 0x01) 0x0D), (["ISUB"], .both (intRows 0x02) 0x0E), (["IMUL"], .both (intRows 0x03) 0x0F),
   (["IMULH"], .threeBy [(2, 0x04), (6, 0x05)]), (["IDIV"], .threeBy [(2, 0x06), (6, 0x07)]),
   (["IMIN"], .both (signRows 0x08 0x09) 0x18), (["IMAX"], .both (signRows 0x0A 0x0B) 0x19), (["IMAC"], .three 0x0C true),
   (["AND"], .three 0x10 true), (["OR"], .three 0x11 true), (["XOR"], .three 0x12 true),
   (["SHL"], .both (intRows 0x13) 0x1A), (["SHR"], .both (signRows 0x15 0x14) 0x1B),
   (["POPC"], .three 0x16 true), (["CLZ"], .clz), (["ICVT"], .unary 0x1C),
   (["IADDI"], .imm 0x1D true), (["ANDI"], .imm 0x1E true), (["ORI"], .imm 0x1F true), (["XORI"], .imm 0x20 true),
   (["SHLI"], .imm 0x21 false), (["SHRI"], .shri), (["MOV"], .mov), (["MOVI"], .movi), (["MOVS"], .movs),
   (["PADD"], .three 0x27 true), (["ICMP"], .compare 0x28), (["GSET"], .gset),
   (["SADD"], .uniform 0x2A), (["SSUB"], .uniform 0x2B), (["SMUL"], .uniform 0x2C), (["SAND"], .uniform 0x2D),
   (["SOR"], .uniform 0x2E), (["SXOR"], .uniform 0x2F), (["SSHL"], .uniform 0x30), (["SSHR"], .uniform 0x31),
   (["SMOV"], .uniform1 0x32), (["VDIE"], .uniform1 0xD1), (["VHOP"], .uniform 0xD2)]

/-- Mnemonics of cross-lane and float instructions. -/
def floatForms : List (List String × AsythForm) :=
  [(["XSCAN", "EX", "ADD"], .accum 0x33), (["XSCAN", "ADD"], .accum 0x3F), (["XRED", "ADD"], .accum 0x3C),
   (["XRED", "MIN"], .accum 0x3D), (["XRED", "MAX"], .accum 0x3E), (["TOPK"], .three 0x34 false),
   (["XSEL", "IDX"], .three 0x35 false), (["XSEL", "UP"], .three 0x36 false), (["XSEL", "DOWN"], .three 0x37 false),
   (["XSEL", "XOR"], .three 0x38 false), (["XANY"], .vote 0x39), (["XALL"], .vote 0x3A), (["XMASK"], .vote 0x3B),
   (["FADD"], .both [(some 10, 0x40), (some 13, 0x46), (some 14, 0x49)] 0x4C), (["FSUB"], .both [(some 10, 0x41)] 0x4D),
   (["FMUL"], .both [(some 10, 0x42), (some 13, 0x47), (some 14, 0x4A)] 0x4E),
   (["FMAC"], .threeBy [(10, 0x43), (13, 0x48), (14, 0x4B)]), (["FDIV"], .accum 0x4F),
   (["FMIN"], .both [(some 10, 0x44)] 0x50), (["FMAX"], .both [(some 10, 0x45)] 0x51), (["FCMP"], .compare 0x52),
   (["FSQRT"], .unary 0x53), (["FRCP"], .unary 0x54), (["FRSQ"], .unary 0x55), (["FEXP2"], .unary 0x56),
   (["FLOG2"], .unary 0x57), (["FSIN"], .unary 0x58), (["FCOS"], .unary 0x59), (["FTANH"], .unary 0x5A),
   (["CVT", "F32"], .unary 0x5B), (["CVT", "F16"], .unary 0x5C), (["CVT", "BF16"], .unary 0x5D), (["CVT", "I32"], .unary 0x5E),
   (["CVT", "W32"], .unary 0x5F), (["CVT", "I64"], .unary 0x60), (["CVT", "W64"], .unary 0x61),
   (["DXENC"], .three 0x62 false), (["DXDEC"], .three 0x63 false), (["FRND"], .unary 0x64)]

/-- Mnemonics of memory instructions. -/
def memoryForms : List (List String × AsythForm) :=
  [(["LDG"], .memory [(some 4, 0x80, 1), (some 0, 0x81, 1), (some 5, 0x82, 2), (some 1, 0x83, 2), (some 8, 0x84, 4), (some 9, 0x85, 8)] (some 1)),
   (["STG"], .memory [(some 8, 0x89, 4), (some 9, 0x8A, 8)] (some 2)), (["STB"], .stb), (["LDF"], .memory [(none, 0x8D, 8), (some 9, 0x8D, 8)] (some 1)),
   (["LDS"], .memory [(some 8, 0x8E, 4), (some 9, 0x8F, 8)] none), (["STS"], .memory [(some 8, 0x90, 4), (some 9, 0x91, 8)] none),
   (["FENCE"], .scoped 0x92), (["BAR"], .scoped 0x93)]
  ++ atomicNames.map (fun e => (["ATOM", e.1], .atom e.2)) ++ atomicNames.map (fun e => (["RED", e.1], .red e.2))

/-- Mnemonics of control, engine, queue, record and privileged instructions. -/
def controlForms : List (List String × AsythForm) :=
  [(["BRA"], .branch 0xA0 (some 0xA1)), (["CALL"], .branch 0xA2 none), (["CALLI"], .calli),
   (["JMPI"], .jump 0xA4 (some 0xA5)), (["RET"], .jump 0xA6 none), (["LOOP"], .bare 0xA7), (["ENDLOOP"], .bare 0xA8),
   (["JSET"], .slot 0xA9 none), (["JOIN"], .slot 0xAA (some 0xAB)), (["LEAVE"], .leave), (["REGROUP"], .bare 0xAE),
   (["REORDER"], .jump 0xAF none), (["EXIT", "NEXT"], .exitNext), (["EXIT"], .bare 0xB0), (["YIELD"], .bare 0xB2),
   (["COPY"], .engine 0xC0), (["GATHER"], .engine 0xC1), (["WAITC"], .waitc), (["MMA", "ISSUE"], .param 0xC3),
   (["MMA", "COMMIT"], .token 0xC4), (["WAITB"], .param 0xC5), (["WLOAD"], .engine 0xC6), (["ACCZ"], .param 0xC7),
   (["LDACC"], .three 0xC8 false), (["STACC"], .three 0xC9 false), (["BATON", "TAKE"], .bare 0xCA),
   (["BATON", "PASS"], .bare 0xCB), (["QINIT"], .queue 0xCC), (["QPUSH"], .queueNb 0xCD), (["QPOP"], .queueNb 0xCE),
   (["QCRED"], .queue 0xCF), (["COLL"], .engine 0xD0), (["SPAWN"], .send 0xE0), (["EMIT"], .send 0xE1), (["ENQX"], .send 0xE2),
   (["STAGE", "PASS"], .bare 0xE3), (["STAGE", "DROP"], .bare 0xE4), (["RECLD"], .recld), (["COMBINE"], .combine),
   (["TRAP"], .trap), (["TRET"], .bare 0xF1), (["SYSRD"], .sysrd), (["SYSWR"], .syswr), (["INVAL"], .inval)]

def asythForms : List (List String × AsythForm) := integerForms ++ floatForms ++ memoryForms ++ controlForms

/-- What stands behind a list's front part. -/
def behind : List String → List String → Option (List String)
  | [], ws => some ws
  | _ :: _, [] => none
  | h :: hs, w :: ws => if h == w then behind hs ws else none

/-- The sizes that are no type of Table 7-5 but part of the mnemonic: LDG.B128, STG.B8, STG.B16, STG.B128. -/
def sizedForms : List (List String × AsythForm) :=
  [(["LDG", "B128"], .memory [(some 0, 0x86, 16)] (some 1)), (["STG", "B8"], .memory [(some 0, 0x87, 1)] (some 2)),
   (["STG", "B16"], .memory [(some 0, 0x88, 2)] (some 2)), (["STG", "B128"], .memory [(some 0, 0x8B, 16)] (some 2))]

/-- The form and the suffixes of a mnemonic. A size that is no type code stands last, as a type does. -/
def formOf (ws : List String) : Except AsythError (AsythForm × Suffixes) :=
  let sized := sizedForms.findSome? (fun e =>
    match ws.head? == e.1.head?, ws.getLast? == e.1.getLast? with
    | true, true => (suffixesOf (ws.drop 1).dropLast).map (fun s => (e.2, s))
    | _, _ => none)
  match sized with
  | some (f, s) => if s.typ.isNone then .ok (f, { s with typ := some 0 }) else .error .badSuffix
  | none =>
    match asythForms.findSome? (fun e => (behind e.1 ws).map (fun r => (e.2, r))) with
    | none => .error .badMnemonic
    | some (f, r) =>
      match suffixesOf r with
      | some s => .ok (f, s)
      | none => .error .badSuffix

/-- A name that an identifier may not be (R173). -/
def isMnemonic (n : String) : Bool :=
  let ws := (splitAt '.' 0 (n.toList)).map capitals
  asythForms.any (fun e => [e.1.headD ""] == ws || e.1 == ws) || (formOf ws).toBool

/-! ### Words -/

/-- The parts of a statement's word. -/
def Statement.part (st : Statement) (m : Nat) (ops : BitVec 22) (lit : Option Word) : Parts :=
  ⟨⟨st.chain, st.mark⟩, BitVec.ofNat 8 m, ops, lit⟩

def Statement.g (st : Statement) : BitVec 3 := BitVec.ofNat 3 st.guard

/-- An untyped spelling of an integer V3 or VI major: none, .I32, .W32 or .B32 (R170, R182). -/
def Suffixes.spellsWord (x : Suffixes) : Bool :=
  { x with typ := none } == noSuffix && (x.typ == none || x.typ == some 2 || x.typ == some 6 || x.typ == some 8)

/-- The mod field of VD (R168): a rounding modifier for a float type, and for every type in the conversions (R245); .SAT for
an integer type elsewhere. -/
def Suffixes.modField (x : Suffixes) (vd : Nat) : Except AsythError (BitVec 2) :=
  let cvt := decide (0x5B ≤ vd) && decide (vd ≤ 0x61)
  let float := decide (10 ≤ x.typ.getD 0)
  match x.rnd, x.flag with
  | some r, none => if cvt || float then .ok (BitVec.ofNat 2 r) else .error .badSuffix
  | none, some .sat => if cvt || float then .error .badSuffix else .ok 2
  | none, none => .ok 0
  | _, _ => .error .badSuffix

/-- The type code of a VD or VC word; these words need one, and a modifier at most. -/
def Suffixes.typeField (x : Suffixes) : Except AsythError (BitVec 4) :=
  match x.rg, x.ord, x.scope, x.typ with
  | false, none, none, some t => .ok (BitVec.ofNat 4 t)
  | _, _, _, _ => .error .badSuffix

/-- A condition on the suffixes. -/
def wants (b : Bool) : Except AsythError Unit := if b then .ok () else .error .badSuffix

/-- The major of a form with an optional .RG. -/
def rgMajor (x : Suffixes) (m : Nat) (rg : Option Nat) : Except AsythError Nat :=
  match { x with rg := false } == noSuffix, x.rg, rg with
  | true, false, _ => .ok m
  | true, true, some r => .ok r
  | _, _, _ => .error .badSuffix

/-- ATOM and RED majors by type (Table 7-8). -/
def atomMajors : List (Nat × Nat) := [(2, 0x94), (6, 0x95), (3, 0x96), (7, 0x97), (10, 0x98)]
def redMajors : List (Nat × Nat) := [(2, 0x99), (6, 0x9A), (3, 0x9B), (7, 0x9C), (10, 0x9D)]

def majorFor {α : Type} (rows : List (Nat × α)) (t : Option Nat) : Except AsythError α :=
  match rows.find? (fun e => t == some e.1) with
  | some e => .ok e.2
  | none => .error .badSuffix

/-- A row keyed by an optional type. -/
def rowFor {α : Type} (rows : List (Option Nat × α)) (t : Option Nat) : Except AsythError α :=
  match rows.find? (fun e => e.1 == t) with
  | some e => .ok e.2
  | none => .error .badSuffix

/-- The gap code of STB's d (R98, R216). -/
def gapField (ns : AsythNames) : Operand → Except AsythError (BitVec 2)
  | .expr e =>
    match ns.value none e with
    | .ok n => if n = 2 then .ok 0 else if n = 3 then .ok 1 else if n = 4 then .ok 2 else if n = 6 then .ok 3 else .error .badOperand
    | .error x => .error x
  | _ => .error .badOperand

/-- Integer, float and uniform words. -/
def computeWord (ns : AsythNames) (st : Statement) (x : Suffixes) : AsythForm → Except AsythError Parts
  | .bare m => do
    wants (x == noSuffix)
    match st.operands with
    | [] => .ok (st.part m (FN.bits ⟨st.g⟩) none)
    | _ => .error .badOperand
  | .three m typed => do
    wants (x == noSuffix || (typed && x.spellsWord))
    match st.operands with
    | [d, a, b] => .ok (st.part m (FV3.bits ⟨← vField d, ← vField a, ← bField b, st.g⟩) none)
    | _ => .error .badOperand
  | .threeBy rows => do
    wants ({ x with typ := none } == noSuffix)
    let m ← majorFor rows x.typ
    match st.operands with
    | [d, a, b] => .ok (st.part m (FV3.bits ⟨← vField d, ← vField a, ← bField b, st.g⟩) none)
    | _ => .error .badOperand
  | .both rows vd =>
    match { x with typ := none } == noSuffix, rows.find? (fun e => e.1 == x.typ), st.operands with
    | true, some e, [d, a, b] => do .ok (st.part e.2 (FV3.bits ⟨← vField d, ← vField a, ← bField b, st.g⟩) none)
    | _, _, [d, a, b] => do
      let t ← x.typeField
      let m ← x.modField vd
      if d = a then .ok (st.part vd (FVD.bits ⟨← vField d, ← bField b, t, m, st.g⟩) none) else .error .badOperand
    | _, _, _ => .error .badOperand
  | .accum vd => do
    let t ← x.typeField
    let m ← x.modField vd
    match st.operands with
    | [d, a, b] =>
      if d = a then .ok (st.part vd (FVD.bits ⟨← vField d, ← bField b, t, m, st.g⟩) none) else .error .badOperand
    | _ => .error .badOperand
  | .unary vd => do
    let t ← x.typeField
    let m ← x.modField vd
    match st.operands with
    | [d, b] => .ok (st.part vd (FVD.bits ⟨← vField d, ← bField b, t, m, st.g⟩) none)
    | _ => .error .badOperand
  | .clz => do
    wants x.spellsWord
    match st.operands with
    | [d, a] => .ok (st.part 0x17 (FV3.bits ⟨← vField d, ← vField a, 0, st.g⟩) none)
    | _ => .error .badOperand
  | .mov => do
    wants x.spellsWord
    match st.operands with
    | [d, b] => .ok (st.part 0x24 (FV3.bits ⟨← vField d, 0, ← bField b, st.g⟩) none)
    | _ => .error .badOperand
  | .movs => do
    wants (x.spellsWord || x == { noSuffix with typ := some 9 })
    match st.operands with
    | [d, n] =>
      .ok (st.part 0x26 (FV3.bits ⟨← vField d, if x.typ == some 9 then 1 else 0, ← nameField specialNames 7 n, st.g⟩) none)
    | _ => .error .badOperand
  | .compare m => do
    wants (x.rnd.isNone && x.flag.isNone)
    let t ← x.typeField
    match st.operands with
    | [c, a, b] => .ok (st.part m (FVC.bits ⟨← fileField .c 2 c, t, ← vField a, ← bField b, st.g⟩) none)
    | _ => .error .badOperand
  | .vote m => do
    wants (x == noSuffix)
    match st.operands with
    | [d, c, n] => .ok (st.part m (FVC.bits ⟨← fileField .c 2 c, ← nameField condNames 4 n, ← vField d, 0, st.g⟩) none)
    | _ => .error .badOperand
  | .imm m literal => do
    wants x.spellsWord
    match st.operands with
    | [d, a, n] =>
      let i ← immField ns x.typ literal n
      .ok (st.part m (FVI.bits ⟨← vField d, ← vField a, i.1, st.g, i.2⟩) i.2)
    | _ => .error .badOperand
  | .shri => do
    wants ({ x with typ := none } == noSuffix)
    let m ← majorFor [(6, 0x22), (2, 0x23)] x.typ
    match st.operands with
    | [d, a, n] =>
      let i ← immField ns x.typ false n
      .ok (st.part m (FVI.bits ⟨← vField d, ← vField a, i.1, st.g, i.2⟩) i.2)
    | _ => .error .badOperand
  | .movi => do
    wants x.spellsWord
    match st.operands with
    | [d, n] =>
      let i ← immField ns x.typ true n
      .ok (st.part 0x25 (FVI.bits ⟨← vField d, 0, i.1, st.g, i.2⟩) i.2)
    | _ => .error .badOperand
  | .trap => do
    wants (x == noSuffix)
    match st.operands with
    | [n, a] =>
      let i ← immField ns none false n
      .ok (st.part 0xF0 (FVI.bits ⟨0, ← vField a, i.1, st.g, none⟩) none)
    | _ => .error .badOperand
  | .uniform m => do
    wants (x == noSuffix)
    match st.guard, st.operands with
    | 0, [d, a, b] =>
      let a ← urField ns a
      let b ← urField ns b
      if a.2.isSome && b.2.isSome then .error .badOperand
      else .ok (st.part m (FUR.bits ⟨← sField d, a.1, b.1, a.2.or b.2⟩) (a.2.or b.2))
    | _, _ => .error .badOperand
  | .uniform1 m => do
    wants (x == noSuffix)
    match st.guard, st.operands with
    | 0, [d, a] =>
      let a ← urField ns a
      .ok (st.part m (FUR.bits ⟨← sField d, a.1, 0, a.2⟩) a.2)
    | _, _ => .error .badOperand
  | .gset => do
    wants (x == noSuffix)
    match st.guard, st.operands with
    | 0, [k, c, n] => .ok (st.part 0x29 (FG.bits ⟨← fileField .g 3 k, ← fileField .c 2 c, ← nameField condNames 4 n⟩) none)
    | _, _ => .error .badOperand
  | _ => .error .badMnemonic

/-- Memory and control words; pc is the address of the word. -/
def transferWord (ns : AsythNames) (pc : Nat) (st : Statement) (x : Suffixes) : AsythForm → Except AsythError Parts
  | .memory rows ord => do
    let row ← rowFor rows x.typ
    wants ({ x with typ := none, ord := none, scope := none } == noSuffix)
    wants (x.ord.isNone && x.scope.isNone || (ord.isSome && x.ord == ord && x.scope.isSome))
    match st.operands with
    | [d, a] =>
      let p ← memField ns row.2 x.scope a
      .ok (st.part row.1 (FM.bits ⟨← vField d, p.1, p.2.1, p.2.2.1, st.g, p.2.2.2⟩) p.2.2.2)
    | _ => .error .badOperand
  | .stb => do
    wants (x == noSuffix)
    match st.operands with
    | [.reg .v d, a, n] =>
      let p ← memField ns 0 none a
      let gap ← gapField ns n
      if d % 4 = 0 then
        .ok (st.part 0x8C (FM.bits ⟨BitVec.ofNat 4 (d / 4) ++ gap, p.1, p.2.1, p.2.2.1, st.g, p.2.2.2⟩) p.2.2.2)
      else .error .badOperand
    | _ => .error .badOperand
  | .atom op => do
    let m ← majorFor atomMajors x.typ
    wants (!x.rg && x.rnd.isNone && x.flag.isNone)
    match st.operands with
    | [d, .mem p] =>
      if p < 16 then
        .ok (st.part m (FMA.bits ⟨← vField d, BitVec.ofNat 4 p, BitVec.ofNat 3 op, BitVec.ofNat 2 (x.ord.getD 0),
          BitVec.ofNat 4 (x.scope.getD 0), st.g⟩) none)
      else .error .badOperand
    | _ => .error .badOperand
  | .red op => do
    let m ← if x.flag == some .unord then majorFor [(10, 0x9E)] x.typ else majorFor redMajors x.typ
    wants (!x.rg && x.rnd.isNone && (x.flag.isNone || x.flag == some .unord))
    match st.operands with
    | [d, .mem p] =>
      if p < 16 then
        .ok (st.part m (FMA.bits ⟨← vField d, BitVec.ofNat 4 p, BitVec.ofNat 3 op, BitVec.ofNat 2 (x.ord.getD 0),
          BitVec.ofNat 4 (x.scope.getD 0), st.g⟩) none)
      else .error .badOperand
    | _ => .error .badOperand
  | .scoped m =>
    match { x with scope := none } == noSuffix, x.scope, st.operands with
    | true, some c, [] => .ok (st.part m (FS.bits ⟨BitVec.ofNat 4 c, st.g⟩) none)
    | true, some _, _ => .error .badOperand
    | _, _, _ => .error .badSuffix
  | .branch m rg => do
    let m ← rgMajor x m rg
    match st.operands with
    | [t] => .ok (st.part m (FB.bits ⟨← dispField ns pc 19 t, st.g⟩) none)
    | _ => .error .badOperand
  | .exitNext => do
    wants (x == noSuffix)
    match st.operands with
    | [] => .ok (st.part 0xB1 (FB.bits ⟨0, st.g⟩) none)
    | [t] =>
      let d ← dispField ns pc 19 t
      if d = 0 then .error .badOperand else .ok (st.part 0xB1 (FB.bits ⟨d, st.g⟩) none)
    | _ => .error .badOperand
  | .calli => do
    wants (x == noSuffix)
    match st.operands with
    | [d, a] => .ok (st.part 0xA3 (FV3.bits ⟨← vField d, ← vField a, 0, st.g⟩) none)
    | _ => .error .badOperand
  | .jump m rg => do
    let m ← rgMajor x m rg
    match st.operands with
    | [a] => .ok (st.part m (FV3.bits ⟨0, ← vField a, 0, st.g⟩) none)
    | _ => .error .badOperand
  | .slot m rg => do
    let m ← rgMajor x m rg
    match st.operands with
    | [j] => .ok (st.part m (FJ.bits ⟨← fileField .j 4 j, 0, 0, st.g⟩) none)
    | _ => .error .badOperand
  | .leave => do
    let m ← rgMajor x 0xAC (some 0xAD)
    match st.operands with
    | [.range a b, t] => .ok (st.part m (FJ.bits ⟨BitVec.ofNat 4 a, BitVec.ofNat 4 b, ← dispField ns pc 11 t, st.g⟩) none)
    | _ => .error .badOperand
  | _ => .error .badMnemonic

/-- Engine, queue, record and privileged words. -/
def engineWord (ns : AsythNames) (st : Statement) (x : Suffixes) : AsythForm → Except AsythError Parts
  | .waitc => do
    wants (x == noSuffix)
    match st.operands with
    | [c, n] => .ok (st.part 0xC2 (FK.bits ⟨← numberField ns 2 c, ← numberField ns 6 n, st.g⟩) none)
    | _ => .error .badOperand
  | .engine m =>
    match { x with scope := none } == noSuffix, x.scope, st.operands with
    | true, some c, [t, p] => do .ok (st.part m (FA.bits ⟨← sField t, ← sField p, BitVec.ofNat 4 c, st.g⟩) none)
    | true, some _, _ => .error .badOperand
    | _, _, _ => .error .badSuffix
  | .param m => do
    wants (x == noSuffix)
    match st.operands with
    | [p] => .ok (st.part m (FA.bits ⟨0, ← sField p, 0, st.g⟩) none)
    | _ => .error .badOperand
  | .token m => do
    wants (x == noSuffix)
    match st.operands with
    | [t] => .ok (st.part m (FA.bits ⟨← sField t, 0, 0, st.g⟩) none)
    | _ => .error .badOperand
  | .queue m => do
    wants (x == noSuffix)
    match st.operands with
    | [q, v] => .ok (st.part m (FQ.bits ⟨← fileField .q 4 q, ← vField v, false, 0, st.g⟩) none)
    | _ => .error .badOperand
  | .queueNb m => do
    wants ({ x with flag := none } == noSuffix)
    match x.flag, st.operands with
    | none, [q, v] => .ok (st.part m (FQ.bits ⟨← fileField .q 4 q, ← vField v, false, 0, st.g⟩) none)
    | some .nb, [q, v, c] => .ok (st.part m (FQ.bits ⟨← fileField .q 4 q, ← vField v, true, ← fileField .c 2 c, st.g⟩) none)
    | none, _ => .error .badOperand
    | some .nb, _ => .error .badOperand
    | _, _ => .error .badSuffix
  | .send m => do
    wants (x == noSuffix)
    match st.operands with
    | [n, .record v, b] => .ok (st.part m (FX.bits ⟨← sField n, BitVec.ofNat 6 v, ← lenField ns b, st.g⟩) none)
    | _ => .error .badOperand
  | .recld => do
    wants (x == noSuffix)
    match st.operands with
    | [d, n, b] => .ok (st.part 0xE5 (FX.bits ⟨← sField n, ← vField d, ← lenField ns b, st.g⟩) none)
    | _ => .error .badOperand
  | .combine => do
    wants (x == noSuffix)
    match st.operands with
    | [.record v, b] => .ok (st.part 0xE6 (FX.bits ⟨0, BitVec.ofNat 6 v, ← lenField ns b, st.g⟩) none)
    | _ => .error .badOperand
  | .sysrd => do
    wants (x == noSuffix)
    match st.guard, st.operands with
    | 0, [d, n] => .ok (st.part 0xF2 (FY.bits ⟨← sField d, ← sysField n⟩) none)
    | _, _ => .error .badOperand
  | .syswr => do
    wants (x == noSuffix)
    match st.guard, st.operands with
    | 0, [n, d] => .ok (st.part 0xF3 (FY.bits ⟨← sField d, ← sysField n⟩) none)
    | _, _ => .error .badOperand
  | .inval => do
    wants (x == noSuffix)
    match st.guard, st.operands with
    | 0, [d, n] => .ok (st.part 0xF4 (FY.bits ⟨← sField d, ← numberField ns 12 n⟩) none)
    | _, _ => .error .badOperand
  | _ => .error .badMnemonic
where
  /-- A system register by name or number (R357). -/
  sysField (o : Operand) : Except AsythError (BitVec 12) :=
    match nameField systemNames 12 o with
    | .ok n => .ok n
    | .error _ => numberField ns 12 o

/-- The form belongs to `computeWord`. -/
def AsythForm.computes : AsythForm → Bool
  | .bare _ => true
  | .three _ _ => true
  | .threeBy _ => true
  | .both _ _ => true
  | .accum _ => true
  | .unary _ => true
  | .clz => true
  | .mov => true
  | .movs => true
  | .compare _ => true
  | .vote _ => true
  | .imm _ _ => true
  | .shri => true
  | .movi => true
  | .trap => true
  | .uniform _ => true
  | .uniform1 _ => true
  | .gset => true
  | _ => false

/-- The form belongs to `transferWord`. -/
def AsythForm.transfers : AsythForm → Bool
  | .memory _ _ => true
  | .stb => true
  | .atom _ => true
  | .red _ => true
  | .scoped _ => true
  | .branch _ _ => true
  | .exitNext => true
  | .calli => true
  | .jump _ _ => true
  | .slot _ _ => true
  | .leave => true
  | _ => false

/-- The parts that a statement at pc asks for. -/
def Statement.parts (ns : AsythNames) (pc : Nat) (st : Statement) : Except AsythError Parts :=
  match formOf st.words with
  | .error e => .error e
  | .ok (f, x) =>
    if f.computes then computeWord ns st x f
    else if f.transfers then transferWord ns pc st x f
    else engineWord ns st x f

/-- The word of a statement and its literal: never one that fails decoding (R176). -/
def Statement.assemble (ns : AsythNames) (pc : Nat) (st : Statement) : Except AsythError (Word × Option Word) :=
  match st.parts ns pc with
  | .error e => .error e
  | .ok p =>
    match decodeWord p.word p.lit with
    | .ok _ => .ok (p.word, p.lit)
    | .error e => .error (.undecodable e)

end Sys2Proof.Machine
end

