-- ==== Sys2Proof/Machine/AsythObject.lean ====
section
/-! DEFINITION. asyth: directives, packing, labels, the entry table and the checks on a code object (07 R164, R165, R176 to
R179, R400; 11 R291). -/

namespace Sys2Proof.Machine

/-! ### Declarations (Tables 7-9 and 11-5) -/

/-- The declarations in force at a place of the source: `.team`, `.cohort`, `.partition`, `.depth`, `.regs`, `.uregs`. -/
structure InForce where
  team : Option (Nat × Nat)
  teams : Nat
  scr : Nat
  acc : Nat
  depth : Nat
  regs : Nat
  uregs : Nat
deriving DecidableEq, Repr

/-- No declaration made: every name is allowed, and the partition word is 0 (Table 3-5). -/
def InForce.start : InForce := ⟨none, 1, 0, 0, 0, 64, 96⟩

/-- A row of the entry table (R179): name, offset, keep mask of EXIT.NEXT, and the declarations in force there. -/
structure EntryRow where
  name : String
  offset : Nat
  keep : Nat
  inForce : InForce
deriving DecidableEq, Repr

/-- A `.buffer` row: the code expects buffer-table entry `index` with these rights (R, W, X, ATOM). -/
structure BufferRow where
  name : String
  index : Nat
  r : Bool
  w : Bool
  x : Bool
  atom : Bool
deriving DecidableEq, Repr

/-- The kinds of Table 11-1 that directives declare. -/
inductive NodeKind where
  | plain
  | stageSet
  | stage
  | expert
deriving DecidableEq, Repr

/-- A node as its directive gives it (Table 11-5). `count` and `timer` hold an expert's fill threshold and age limit, and
its `next` is port 0. -/
structure NodeDecl where
  name : String
  kind : NodeKind
  number : Option Nat
  entry : Option String
  width : Nat
  threads : Nat
  count : Nat
  timer : Nat
  pass : Nat
  cost : Nat
  vdie : Nat
  ordered : Bool
  auto : Bool
  effectful : Bool
  ports : List (Option String)
  stages : List String
deriving DecidableEq, Repr

/-- A node of the entry table: the declaration with its numbers, its entry's offset and the declarations in force there. -/
structure NodeRow where
  decl : NodeDecl
  number : Nat
  offset : Nat
  inForce : InForce
  ports : List (Option Nat)
  stages : List Nat
deriving DecidableEq, Repr

/-- What asyth writes: the code, the entry table and the data section (R179). -/
structure CodeObject where
  words : List Word
  entries : List EntryRow
  nodes : List NodeRow
  buffers : List BufferRow
  data : List Byte
deriving DecidableEq, Repr

/-! ### Arguments -/

/-- `key=value`, or a bare word. -/
def argOf (t : Text) : String × Option Text :=
  match cutAt '=' t with
  | some (a, b) => (String.ofList (trim a), some (trim b))
  | none => (String.ofList t, none)

/-- The arguments with a key among these, each once. -/
def argsOf (keys : List String) (args : List Text) : Except AsythError (List (String × Option Text)) :=
  let l := args.map argOf
  if l.all (fun e => keys.contains e.1) && !hasRepeat (l.map (fun e => e.1)) then .ok l else .error .badDirective

/-- A number argument below a bound. -/
def natArg (l : List (String × Option Text)) (key : String) (below : Nat) : Except AsythError Nat :=
  match (tableAt l key).bind (fun v => v.bind naturalOf) with
  | some n => if n < below then .ok n else .error .badDirective
  | none => .error .badDirective

/-- A number argument that may be missing. -/
def natArg? (l : List (String × Option Text)) (key : String) (below : Nat) : Except AsythError (Option Nat) :=
  match tableAt l key with
  | none => .ok none
  | some _ => (natArg l key below).map some

/-- A bare word that may stand among the arguments. -/
def wordArg (l : List (String × Option Text)) (key : String) : Except AsythError Bool :=
  match tableAt l key with
  | none => .ok false
  | some none => .ok true
  | some (some _) => .error .badDirective

/-- A declared identifier: well formed, and no register and no mnemonic (R173). -/
def identOf (t : Text) : Except AsythError String :=
  let p := spanName t
  if p.2 = [] ∧ p.1.head?.any startsName = true then
    (if (registerOf t).isSome || isMnemonic (String.ofList t) then .error .badIdentifier else .ok (String.ofList t))
  else .error .badIdentifier

/-- A name argument. -/
def nameArg (l : List (String × Option Text)) (key : String) : Except AsythError String :=
  match tableAt l key with
  | some (some v) => identOf v
  | _ => .error .badDirective

/-- A name argument that may be missing. -/
def nameArg? (l : List (String × Option Text)) (key : String) : Except AsythError (Option String) :=
  match tableAt l key with
  | none => .ok none
  | some _ => (nameArg l key).map some

/-- W and N of `.team`, `.node` and `.expert`: W a sheaf width of R11, N a power of two with W ≤ N ≤ 2,048. -/
def shapeArg (l : List (String × Option Text)) : Except AsythError (Nat × Nat) := do
  let w ← natArg l "width" 65
  let n ← natArg l "threads" 2049
  if (w = 8 ∨ w = 16 ∨ w = 32 ∨ w = 64) ∧ w ≤ n ∧ 2 ^ n.log2 = n then .ok (w, n) else .error .badDirective

/-- A value in `.data` of a type code (R400): for a float type raw bits in hexadecimal, else a number rounded under RN; for
the others an integer that fits the type. A packed pair has no decimal spelling. -/
def dataValue (t : Nat) (v : Text) : Except AsythError (List Byte) :=
  let bytes := if t % 4 = 0 ∧ t < 8 then 1 else if t % 4 = 1 ∧ t < 8 ∨ t = 11 ∨ t = 12 then 2 else if is64 (BitVec.ofNat 4 t) then 8 else 4
  let bits := 8 * bytes
  let put (n : Int) : Except AsythError (List Byte) :=
    .ok ((List.range bytes).map (fun k => BitVec.ofInt 8 (n / 2 ^ (8 * k))))
  let lo : Int := if t < 4 ∨ 8 ≤ t then -(2 ^ (bits - 1)) else 0
  let hi : Int := if t < 4 then 2 ^ (bits - 1) else 2 ^ bits
  match constantOf v with
  | none => .error .badDirective
  | some (.int hex n) =>
    if 10 ≤ t then
      if hex then (if 0 ≤ n ∧ n < 2 ^ bits then put n else .error .outOfRange)
      else if t ≤ 12 then put (realBits (fmtOf (BitVec.ofNat 4 t)) (v.head? == some '-') n.natAbs 0 : Nat)
      else .error .badDirective
    else if lo ≤ n ∧ n < hi then put n
    else .error .outOfRange
  | some (.real neg m e) =>
    if 10 ≤ t ∧ t ≤ 12 then put (realBits (fmtOf (BitVec.ofNat 4 t)) neg m e : Nat) else .error .badDirective

/-- A type name of Table 7-5, with or without its dot. -/
def typeArg (t : Text) : Except AsythError Nat :=
  match tableAt typeNames (capitals (match t with | '.' :: r => r | r => r)) with
  | some n => .ok n
  | none => .error .badDirective

/-- The rights of a `.buffer`. -/
def rightsOf (b : BufferRow) : Text → Except AsythError BufferRow
  | [] => .ok b
  | 'R' :: r => rightsOf { b with r := true } r
  | 'W' :: r => rightsOf { b with w := true } r
  | 'X' :: r => rightsOf { b with x := true } r
  | 'A' :: 'T' :: 'O' :: 'M' :: r => rightsOf { b with atom := true } r
  | _ => .error .badDirective

/-! ### Record directives (R291) -/

/-- The ports port0 to port3 of a directive. -/
def portArgs (l : List (String × Option Text)) : Except AsythError (List (Option String)) :=
  ["port0", "port1", "port2", "port3"].mapM (nameArg? l)

/-- The names in `stages=(…)`, one to eight. -/
def stageArgs (l : List (String × Option Text)) : Except AsythError (List String) :=
  match tableAt l "stages" with
  | some (some ('(' :: r)) =>
    if r.getLast? = some ')' then do
      let ns ← (fieldsOf r.dropLast).mapM identOf
      if 1 ≤ ns.length ∧ ns.length ≤ 8 then .ok ns else .error .badDirective
    else .error .badDirective
  | _ => .error .badDirective

/-- A plain or stage node. Numbers must fit the fields of Table 11-1. -/
def nodeDecl (name : String) (args : List Text) : Except AsythError NodeDecl := do
  let stage := args.any (fun a => a == "stage".toList)
  let keys := if stage then ["stage", "entry", "width", "threads", "count", "timer", "pass", "cost", "effectful", "number"]
    else ["entry", "width", "threads", "count", "timer", "number", "vdie", "ordered", "port0", "port1", "port2", "port3"]
  let l ← argsOf keys args
  let shape ← shapeArg l
  let base : NodeDecl :=
    { name := name, kind := if stage then .stage else .plain, number := ← natArg? l "number" 4096,
      entry := some (← nameArg l "entry"), width := shape.1, threads := shape.2, count := ← natArg l "count" 4096,
      timer := ← natArg l "timer" 65536, pass := 0, cost := 0, vdie := 0, ordered := ← wordArg l "ordered", auto := false,
      effectful := ← wordArg l "effectful", ports := [none, none, none, none], stages := [] }
  if stage then .ok { base with pass := ← natArg l "pass" 2048, cost := ← natArg l "cost" 65536 }
  else .ok { base with vdie := (← natArg? l "vdie" 4).getD 0, ports := ← portArgs l }

def stageSetDecl (name : String) (args : List Text) : Except AsythError NodeDecl := do
  let l ← argsOf ["stages", "ordered", "auto", "port0", "port1", "port2", "port3", "number"] args
  .ok { name := name, kind := .stageSet, number := ← natArg? l "number" 4096, entry := none, width := 0, threads := 0, count := 0,
        timer := 0, pass := 0, cost := 0, vdie := 0, ordered := ← wordArg l "ordered", auto := ← wordArg l "auto",
        effectful := false, ports := ← portArgs l, stages := ← stageArgs l }

def expertDecl (name : String) (args : List Text) : Except AsythError NodeDecl := do
  let l ← argsOf ["number", "entry", "width", "threads", "fill", "age", "next", "port1", "port2", "port3"] args
  let shape ← shapeArg l
  .ok { name := name, kind := .expert, number := some (← natArg l "number" 4096), entry := some (← nameArg l "entry"),
        width := shape.1, threads := shape.2, count := ← natArg l "fill" 4096, timer := ← natArg l "age" 65536, pass := 0,
        cost := 0, vdie := 0, ordered := false, auto := false, effectful := false,
        ports := some (← nameArg l "next") :: (← ["port1", "port2", "port3"].mapM (nameArg? l)), stages := [] }

/-- The lowest number not in a list. -/
def lowestFree (used : List Nat) : Nat := ((List.range (used.length + 1)).find? (fun n => !used.contains n)).getD 0

/-- Node numbers in source order: the given ones, and the lowest free ones for the rest (R291). -/
def numberNodes : List Nat → List NodeDecl → List (NodeDecl × Nat)
  | _, [] => []
  | used, d :: ds =>
    match d.number with
    | some n => (d, n) :: numberNodes used ds
    | none => (d, lowestFree used) :: numberNodes (lowestFree used :: used) ds

/-! ### The declarations of a source that do not depend on the layout -/

/-- Nodes, data, buffers, and the names that data and buffers declare. -/
structure Fixed where
  nodes : List NodeDecl
  data : List Byte
  buffers : List BufferRow
  others : List (String × Nat)
deriving DecidableEq, Repr

/-- What a directive of this kind adds. -/
def Fixed.add (f : Fixed) (dir : String) (args : List Text) : Except AsythError Fixed :=
  match args with
  | [] => .error .badDirective
  | n :: rest => do
    let name ← identOf n
    if dir == ".data" then
      match rest with
      | t :: v :: vs => do
        let t ← typeArg t
        let bs ← (v :: vs).mapM (dataValue t)
        .ok { f with data := f.data ++ bs.flatten, others := f.others ++ [(name, f.data.length)] }
      | _ => .error .badDirective
    else if dir == ".buffer" then
      match rest with
      | [i, r] => do
        let i ← match naturalOf i with | some i => .ok i | none => .error .badDirective
        let b ← rightsOf ⟨name, i, false, false, false, false⟩ (r.map Char.toUpper)
        if r = [] then .error .badDirective
        else .ok { f with buffers := f.buffers ++ [b], others := f.others ++ [(name, i)] }
      | _ => .error .badDirective
    else do
      let d ← if dir == ".node" then nodeDecl name rest else if dir == ".stageset" then stageSetDecl name rest else expertDecl name rest
      if f.nodes.any (fun e => e.name == name) then .error .duplicateName else .ok { f with nodes := f.nodes ++ [d] }

/-- The directives that `Fixed.add` reads. -/
def fixedDirectives : List String := [".data", ".buffer", ".node", ".stageset", ".expert"]

/-- A line of the source with its number. -/
abbrev Numbered := Nat × Line

def fixedOf : List Numbered → Fixed → Except (Nat × AsythError) Fixed
  | [], f => .ok f
  | (k, .directive d args) :: r, f =>
    if fixedDirectives.contains d then
      match f.add d args with
      | .ok f => fixedOf r f
      | .error e => .error (k, e)
    else fixedOf r f
  | _ :: r, f => fixedOf r f

/-! ### Layout (R178) -/

/-- A place in the code: a filling NOP, a statement with its source line, or the literal of the statement before it. -/
inductive Slot where
  | fill
  | code (line : Nat) (st : Statement)
  | lit
deriving DecidableEq, Repr

/-- Where the layout stands: slots and labels last first; labels that wait for the next instruction word; the open chained
group with the labels of each statement, last first. -/
structure Layout where
  pc : Nat
  slots : List Slot
  labels : List (String × Nat × InForce)
  waiting : List String
  group : List (Nat × Statement × List String)
  entries : List EntryRow
  inForce : InForce
deriving DecidableEq, Repr

def Layout.start : Layout := ⟨0, [], [], [], [], [], InForce.start⟩

/-- Fill with NOP to a multiple of n words. -/
def Layout.fillTo (l : Layout) (n : Nat) : Layout :=
  let k := (n - l.pc / 4 % n) % n
  { l with pc := l.pc + 4 * k, slots := List.replicate k .fill ++ l.slots }

/-- The words a statement takes, as far as names are known. -/
def statementWords (ns : AsythNames) (pc : Nat) (st : Statement) : Nat :=
  match st.assemble ns pc with
  | .ok (_, some _) => 2
  | _ => 1

/-- Place one statement; its labels take its address (R178 rule 4). -/
def Layout.place (ns : AsythNames) (l : Layout) (x : Nat × Statement × List String) : Layout :=
  let n := statementWords ns l.pc x.2.1
  { l with
    pc := l.pc + 4 * n
    slots := (if n = 2 then [.lit] else []) ++ .code x.1 x.2.1 :: l.slots
    labels := x.2.2.map (fun n => (n, l.pc, l.inForce)) ++ l.labels }

/-- Close the open group: keep it in one packet (R178 rules 2 and 3). -/
def Layout.close (ns : AsythNames) (l : Layout) : Except AsythError Layout :=
  let g := l.group.reverse
  let n := (g.map (fun x => statementWords ns l.pc x.2.1)).sum
  if 3 < n then .error .groupTooLong
  else
    let l := if 3 < l.pc / 4 % 3 + n then l.fillTo 3 else l
    .ok (g.foldl (Layout.place ns) { l with group := [] })

/-- A label, an entry, a datum or a buffer has this name already. -/
def Layout.taken (ns : AsythNames) (l : Layout) (n : String) : Bool :=
  l.labels.any (fun e => e.1 == n) || l.waiting.contains n || l.group.any (fun x => x.2.2.contains n)
    || ns.others.any (fun e => e.1 == n)

/-- A label waits for the next instruction word. -/
def Layout.label (ns : AsythNames) (l : Layout) (n : String) : Except AsythError Layout := do
  let n ← identOf n.toList
  if l.taken ns n then .error .duplicateName else .ok { l with waiting := n :: l.waiting }

/-- An operand names no register at or above the limits of `.regs` and `.uregs` (Table 7-9). -/
def InForce.admits (f : InForce) : Operand → Bool
  | .reg .v n => decide (n < f.regs)
  | .reg .s n => decide (n < f.uregs)
  | .mem s => decide (s < f.uregs)
  | .memReg s v => decide (s < f.uregs) && decide (v < f.regs)
  | .memOff s _ => decide (s < f.uregs)
  | .record v => decide (v < f.regs)
  | _ => true

def Layout.statement (ns : AsythNames) (l : Layout) (k : Nat) (st : Statement) : Except AsythError Layout :=
  if st.operands.all l.inForce.admits then
    let l := { l with group := (k, st, l.waiting) :: l.group, waiting := [] }
    if st.chain then .ok l else l.close ns
  else .error .badOperand

/-- One number below a bound. -/
def oneNumber (below : Nat) (args : List Text) : Except AsythError Nat :=
  match args.map naturalOf with
  | [some n] => if n < below then .ok n else .error .badDirective
  | _ => .error .badDirective

/-- The directives of Table 7-9 that act on the layout. -/
def Layout.directive (ns : AsythNames) (l : Layout) (d : String) (args : List Text) : Except AsythError Layout :=
  let f := l.inForce
  if fixedDirectives.contains d then .ok l
  else if d == ".team" then do
    let a ← argsOf ["width", "threads"] args
    .ok { l with inForce := { f with team := some (← shapeArg a) } }
  else if d == ".cohort" then do
    let n ← natArg (← argsOf ["teams"] args) "teams" 17
    if 1 ≤ n ∧ 2 ^ n.log2 = n then .ok { l with inForce := { f with teams := n } } else .error .badDirective
  else if d == ".partition" then do
    let a ← argsOf ["scr", "acc"] args
    .ok { l with inForce := { f with scr := ← natArg a "scr" 129, acc := ← natArg a "acc" 9 } }
  else if d == ".depth" then do .ok { l with inForce := { f with depth := ← oneNumber 4 args } }
  else if d == ".regs" then do .ok { l with inForce := { f with regs := ← oneNumber 65 args } }
  else if d == ".uregs" then do .ok { l with inForce := { f with uregs := ← oneNumber 97 args } }
  else if d == ".packet" then (if args = [] then .ok (l.fillTo 3) else .error .badDirective)
  else if d == ".align" then do
    let n ← oneNumber 193 args
    if n = 12 ∨ n = 48 ∨ n = 192 then .ok (l.fillTo (n / 4)) else .error .badDirective
  else if d == ".entry" then
    match args with
    | n :: rest => do
      let n ← identOf n
      let keep ← natArg? (← argsOf ["keep"] rest) "keep" (2 ^ 64)
      if l.taken ns n then .error .duplicateName
      else
        let l := l.fillTo 3
        .ok { l with labels := (n, l.pc, f) :: l.labels, entries := l.entries ++ [⟨n, l.pc, keep.getD 0, f⟩] }
    | [] => .error .badDirective
  else .error .badDirective

/-- One line. A directive may not follow a chain mark (R178 rule 2). -/
def Layout.line (ns : AsythNames) (l : Layout) (k : Nat) : Line → Except AsythError Layout
  | .blank => .ok l
  | .label n => l.label ns n
  | .statement none st => l.statement ns k st
  | .statement (some n) st => do (← l.label ns n).statement ns k st
  | .directive d args => if l.group = [] then l.directive ns d args else .error .danglingChain

/-- The end of the object: labels that still wait take the address of the end, and NOP fills 192 bytes (R178 rule 5). -/
def Layout.finish (l : Layout) : Except AsythError Layout :=
  if l.group = [] then
    .ok ({ l with labels := l.waiting.map (fun n => (n, l.pc, l.inForce)) ++ l.labels, waiting := [] }.fillTo 48)
  else .error .danglingChain

def layoutOf (ns : AsythNames) (last : Nat) : List Numbered → Layout → Except (Nat × AsythError) Layout
  | [], l => l.finish.mapError (fun e => (last, e))
  | (k, x) :: r, l =>
    match l.line ns k x with
    | .ok l => layoutOf ns last r l
    | .error e => .error (k, e)

/-- Lay out until the labels agree with those that the forms were chosen by (R177). -/
def settleLayout (lines : List Numbered) (last : Nat) (ns : AsythNames) : Nat → Except (Nat × AsythError) (AsythNames × Layout)
  | 0 => .error (last, .unsettled)
  | fuel + 1 =>
    match layoutOf ns last lines Layout.start with
    | .error e => .error e
    | .ok l =>
      let labels := l.labels.map (fun e => (e.1, e.2.1))
      if labels = ns.labels then .ok (ns, l) else settleLayout lines last { ns with labels := labels } fuel

/-! ### Words and checks -/

/-- The words of slots from an address on, each statement assembled with the final names (R176). -/
def emit (ns : AsythNames) : Nat → List Slot → Except (Nat × AsythError) (List Word)
  | _, [] => .ok []
  | pc, .fill :: r => do .ok (0 :: (← emit ns (pc + 4) r))
  | pc, .lit :: r => emit ns (pc + 4) r
  | pc, .code k st :: r =>
    match st.assemble ns pc with
    | .error e => .error (k, e)
    | .ok (w, lit) => do .ok (w :: lit.toList ++ (← emit ns (pc + 4) r))

/-- The source line of the word at an address. -/
def lineAt (slots : List Slot) (pc : Nat) : Nat :=
  match slots[pc / 4]? with
  | some (.code k _) => k
  | _ => 0

/-- Every group of the object decodes (R155, R157, R176). -/
def groupsOk (ws : List Word) (slots : List Slot) : Except (Nat × AsythError) Unit :=
  match (codeAddresses ws).find? (fun pc => !(groupAt ws pc).toBool) with
  | some pc => .error (lineAt slots pc, .undecodable .illegalEncoding)
  | none => .ok ()

/-- No LOOP stands deeper than the DEPTH in force at an entry whose paths reach it (R400). -/
def depthOk (ws : List Word) (slots : List Slot) (entries : List EntryRow) : Except (Nat × AsythError) Unit :=
  match entries.findSome? (fun e => tooDeep ws e.offset e.inForce.depth) with
  | some pc => .error (lineAt slots pc, .loopDepth)
  | none => .ok ()

/-- A node with its numbers and its entry resolved (R291). -/
def nodeRow (l : Layout) (numbers : List (String × Nat)) (d : NodeDecl) (n : Nat) : Except AsythError NodeRow := do
  let at? ← match d.entry with
    | none => .ok (0, InForce.start)
    | some e => match tableAt l.labels e with | some p => .ok p | none => .error .unknownName
  let num (x : String) : Except AsythError Nat := match tableAt numbers x with | some k => .ok k | none => .error .unknownName
  let ports ← d.ports.mapM (fun p => match p with | some x => (num x).map some | none => .ok none)
  .ok ⟨d, n, at?.1, at?.2, ports, ← d.stages.mapM num⟩

/-- Assemble the lines of one code object, without its `.end` (R176 to R179, R291, R400). -/
def assembleObject (lines : List Numbered) (last : Nat) : Except (Nat × AsythError) CodeObject := do
  let f ← fixedOf lines ⟨[], [], [], []⟩
  let given := f.nodes.filterMap (fun d => d.number)
  if hasRepeat given then .error (last, .duplicateNumber)
  else if hasRepeat (f.others.map (fun e => e.1)) then .error (last, .duplicateName)
  else
    let nodes := numberNodes given f.nodes
    let numbers := nodes.map (fun p => (p.1.name, p.2))
    let (ns, l) ← settleLayout lines last ⟨[], numbers, f.others⟩ (lines.length + 3)
    let slots := l.slots.reverse
    let ws ← emit ns 0 slots
    groupsOk ws slots
    depthOk ws slots l.entries
    let rows ← (nodes.mapM (fun p => nodeRow l numbers p.1 p.2)).mapError (fun e => (last, e))
    .ok ⟨ws, l.entries, rows, f.buffers, f.data⟩

/-! ### Sources -/

/-- Number the lines of a source and read them. -/
def readLines (k : Nat) : List Text → Except (Nat × AsythError) (List Numbered)
  | [] => .ok []
  | t :: r =>
    match sourceLine t with
    | none => .error (k, .badLine)
    | some x => do .ok ((k, x) :: (← readLines (k + 1) r))

/-- The objects of a source: the lines up to each `.end`, with the line of the `.end`. After the last one only blank lines
may stand. -/
def objectsOf : List Numbered → List Numbered → Except (Nat × AsythError) (List (List Numbered × Nat))
  | [], acc => match acc.reverse.find? (fun x => x.2 != .blank) with | some x => .error (x.1, .noEnd) | none => .ok []
  | (k, .directive ".end" args) :: r, acc =>
    if args = [] then do .ok ((acc.reverse, k) :: (← objectsOf r [])) else .error (k, .badDirective)
  | x :: r, acc => objectsOf r (x :: acc)

/-- Why no object is written. -/
inductive AsythFailure where
  | refused (line : Nat) (e : AsythError)
  | breaches (l : List Breach)
deriving DecidableEq, Repr

/-- The sheaf width that the check takes for STB's registers: that of `.team`, else 8, which takes the most. -/
def CodeObject.width (o : CodeObject) : Nat := ((o.entries.findSome? (fun e => e.inForce.team)).map (fun t => t.1)).getD 8

/-- The breaches that `--check` reports for an object (R165). -/
def CodeObject.breaches (o : CodeObject) : List Breach :=
  Sys2Proof.Machine.breaches o.words (o.entries.map (fun e => e.offset)) o.width

/-- Every code object of a source. -/
def assembleAll (source : List Text) : Except (Nat × AsythError) (List CodeObject) := do
  let lines ← readLines 1 source
  let objects ← objectsOf lines []
  objects.mapM (fun p => assembleObject p.1 p.2)

/-- asyth on the lines of a source. With `check` it writes no object whose marker discipline is breached, and reports every
breach; without, it writes the objects unchecked (R165). -/
def asyth (check : Bool) (source : List Text) : Except AsythFailure (List CodeObject) :=
  match assembleAll source with
  | .error (k, e) => .error (.refused k e)
  | .ok os =>
    let bs := os.flatMap CodeObject.breaches
    if check && bs != [] then .error (.breaches bs) else .ok os

/-- The bytes of an object's code, each word least significant byte first (R153). -/
def CodeObject.bytes (o : CodeObject) : List Byte :=
  o.words.flatMap (fun w => [w.extractLsb' 0 8, w.extractLsb' 8 8, w.extractLsb' 16 8, w.extractLsb' 24 8])

end Sys2Proof.Machine
end

