-- ==== Sys2Proof/Laws/Asyth.lean ====
section
/-! SUPPORT. What asyth promises of every source (07 R165, R176): its words decode, and a checked object keeps marker
discipline. -/

namespace Sys2Proof.Laws

open Sys2Proof.Machine

/-- asyth never writes a word that fails decoding (R176). -/
theorem assemble_decodes {st : Statement} {ns : AsythNames} {pc : Nat} {w : Word} {lit : Option Word}
    (h : st.assemble ns pc = .ok (w, lit)) : ∃ i, decodeWord w lit = .ok i := by
  unfold Statement.assemble at h
  split at h
  · simp at h
  · rename_i p _
    split at h
    · rename_i i hi
      simp only [Except.ok.injEq, Prod.mk.injEq] at h
      exact ⟨i, by rw [← h.1, ← h.2]; exact hi⟩
    · simp at h

/-- With `--check`, no object is written whose marker discipline is breached (R165). -/
theorem asyth_checked {source : List Text} {os : List CodeObject} (h : asyth true source = .ok os) :
    ∀ o ∈ os, MarkerDiscipline o.words (o.entries.map (fun e => e.offset)) o.width := by
  unfold asyth at h
  split at h
  · simp at h
  · rename_i os' _
    by_cases hb : os'.flatMap CodeObject.breaches = []
    · simp only [hb, Bool.true_and, bne_self_eq_false, Bool.false_eq_true, if_false, Except.ok.injEq] at h
      subst h
      exact fun o ho => List.flatMap_eq_nil_iff.mp hb o ho
    · simp [hb] at h

/-- `--check` decides only whether an object is written, not what is in it (R165). -/
theorem asyth_check_same {source : List Text} {os : List CodeObject} (h : asyth true source = .ok os) :
    asyth false source = .ok os := by
  unfold asyth at h ⊢
  cases hs : assembleAll source with
  | error e => rw [hs] at h; simp at h
  | ok os' =>
    rw [hs] at h
    by_cases hb : os'.flatMap CodeObject.breaches = []
    · simpa [hb] using h
    · simp [hb] at h

end Sys2Proof.Laws
end

