-- ==== Sys2Proof/Laws/State.lean ====
section
/-! SUPPORT. Field by field, what the named updates of the state leave: each changes one field, or a field and the serial number. -/

namespace Sys2Proof.Machine

/-! ### `mapTeam` -/

@[simp] theorem State.mapTeam_cycle (s : State) (n : Nat) (f : Team → Team) : (s.mapTeam n f).cycle = s.cycle := rfl
@[simp] theorem State.mapTeam_serial (s : State) (n : Nat) (f : Team → Team) : (s.mapTeam n f).serial = s.serial := rfl
@[simp] theorem State.mapTeam_freeCtr (s : State) (n : Nat) (f : Team → Team) : (s.mapTeam n f).freeCtr = s.freeCtr := rfl
@[simp] theorem State.mapTeam_inputs (s : State) (n : Nat) (f : Team → Team) : (s.mapTeam n f).inputs = s.inputs := rfl
@[simp] theorem State.mapTeam_plan (s : State) (n : Nat) (f : Team → Team) : (s.mapTeam n f).plan = s.plan := rfl
@[simp] theorem State.mapTeam_made (s : State) (n : Nat) (f : Team → Team) : (s.mapTeam n f).made = s.made := rfl
@[simp] theorem State.mapTeam_view (s : State) (n : Nat) (f : Team → Team) : (s.mapTeam n f).view = s.view := rfl
@[simp] theorem State.mapTeam_issue (s : State) (n : Nat) (f : Team → Team) : (s.mapTeam n f).issue = s.issue := rfl
@[simp] theorem State.mapTeam_teams (s : State) (n : Nat) (f : Team → Team) : (s.mapTeam n f).teams = s.teams.map (fun t => if t.id = n then f t else t) := rfl
@[simp] theorem State.mapTeam_launches (s : State) (n : Nat) (f : Team → Team) : (s.mapTeam n f).launches = s.launches := rfl
@[simp] theorem State.mapTeam_ctxs (s : State) (n : Nat) (f : Team → Team) : (s.mapTeam n f).ctxs = s.ctxs := rfl
@[simp] theorem State.mapTeam_dies (s : State) (n : Nat) (f : Team → Team) : (s.mapTeam n f).dies = s.dies := rfl
@[simp] theorem State.mapTeam_accs (s : State) (n : Nat) (f : Team → Team) : (s.mapTeam n f).accs = s.accs := rfl
@[simp] theorem State.mapTeam_ops (s : State) (n : Nat) (f : Team → Team) : (s.mapTeam n f).ops = s.ops := rfl
@[simp] theorem State.mapTeam_fills (s : State) (n : Nat) (f : Team → Team) : (s.mapTeam n f).fills = s.fills := rfl
@[simp] theorem State.mapTeam_records (s : State) (n : Nat) (f : Team → Team) : (s.mapTeam n f).records = s.records := rfl
@[simp] theorem State.mapTeam_units (s : State) (n : Nat) (f : Team → Team) : (s.mapTeam n f).units = s.units := rfl
@[simp] theorem State.mapTeam_invals (s : State) (n : Nat) (f : Team → Team) : (s.mapTeam n f).invals = s.invals := rfl
@[simp] theorem State.mapTeam_stale (s : State) (n : Nat) (f : Team → Team) : (s.mapTeam n f).stale = s.stale := rfl
@[simp] theorem State.mapTeam_hostSums (s : State) (n : Nat) (f : Team → Team) : (s.mapTeam n f).hostSums = s.hostSums := rfl
@[simp] theorem State.mapTeam_collSets (s : State) (n : Nat) (f : Team → Team) : (s.mapTeam n f).collSets = s.collSets := rfl
@[simp] theorem State.mapTeam_collAnswers (s : State) (n : Nat) (f : Team → Team) : (s.mapTeam n f).collAnswers = s.collAnswers := rfl
@[simp] theorem State.mapTeam_mem (s : State) (n : Nat) (f : Team → Team) : (s.mapTeam n f).mem = s.mem := rfl
@[simp] theorem State.mapTeam_lost (s : State) (n : Nat) (f : Team → Team) : (s.mapTeam n f).lost = s.lost := rfl
@[simp] theorem State.mapTeam_poison (s : State) (n : Nat) (f : Team → Team) : (s.mapTeam n f).poison = s.poison := rfl
@[simp] theorem State.mapTeam_ktag (s : State) (n : Nat) (f : Team → Team) : (s.mapTeam n f).ktag = s.ktag := rfl
@[simp] theorem State.mapTeam_strm (s : State) (n : Nat) (f : Team → Team) : (s.mapTeam n f).strm = s.strm := rfl
@[simp] theorem State.mapTeam_stored (s : State) (n : Nat) (f : Team → Team) : (s.mapTeam n f).stored = s.stored := rfl
@[simp] theorem State.mapTeam_domain0 (s : State) (n : Nat) (f : Team → Team) : (s.mapTeam n f).domain0 = s.domain0 := rfl
@[simp] theorem State.mapTeam_expBase (s : State) (n : Nat) (f : Team → Team) : (s.mapTeam n f).expBase = s.expBase := rfl
@[simp] theorem State.mapTeam_expN (s : State) (n : Nat) (f : Team → Team) : (s.mapTeam n f).expN = s.expN := rfl
@[simp] theorem State.mapTeam_lostDevices (s : State) (n : Nat) (f : Team → Team) : (s.mapTeam n f).lostDevices = s.lostDevices := rfl
@[simp] theorem State.mapTeam_hostIde (s : State) (n : Nat) (f : Team → Team) : (s.mapTeam n f).hostIde = s.hostIde := rfl
@[simp] theorem State.mapTeam_ports (s : State) (n : Nat) (f : Team → Team) : (s.mapTeam n f).ports = s.ports := rfl
@[simp] theorem State.mapTeam_fwState (s : State) (n : Nat) (f : Team → Team) : (s.mapTeam n f).fwState = s.fwState := rfl
@[simp] theorem State.mapTeam_fwErr (s : State) (n : Nat) (f : Team → Team) : (s.mapTeam n f).fwErr = s.fwErr := rfl
@[simp] theorem State.mapTeam_fwSvn (s : State) (n : Nat) (f : Team → Team) : (s.mapTeam n f).fwSvn = s.fwSvn := rfl
@[simp] theorem State.mapTeam_lmsLeft (s : State) (n : Nat) (f : Team → Team) : (s.mapTeam n f).lmsLeft = s.lmsLeft := rfl
@[simp] theorem State.mapTeam_attStat (s : State) (n : Nat) (f : Team → Team) : (s.mapTeam n f).attStat = s.attStat := rfl
@[simp] theorem State.mapTeam_attCtx (s : State) (n : Nat) (f : Team → Team) : (s.mapTeam n f).attCtx = s.attCtx := rfl
@[simp] theorem State.mapTeam_attNonce (s : State) (n : Nat) (f : Team → Team) : (s.mapTeam n f).attNonce = s.attNonce := rfl
@[simp] theorem State.mapTeam_attReport (s : State) (n : Nat) (f : Team → Team) : (s.mapTeam n f).attReport = s.attReport := rfl
@[simp] theorem State.mapTeam_moduleImage (s : State) (n : Nat) (f : Team → Team) : (s.mapTeam n f).moduleImage = s.moduleImage := rfl
@[simp] theorem State.mapTeam_fwImage (s : State) (n : Nat) (f : Team → Team) : (s.mapTeam n f).fwImage = s.fwImage := rfl
@[simp] theorem State.mapTeam_verifying (s : State) (n : Nat) (f : Team → Team) : (s.mapTeam n f).verifying = s.verifying := rfl
@[simp] theorem State.mapTeam_rcvWindow (s : State) (n : Nat) (f : Team → Team) : (s.mapTeam n f).rcvWindow = s.rcvWindow := rfl
@[simp] theorem State.mapTeam_clock (s : State) (n : Nat) (f : Team → Team) : (s.mapTeam n f).clock = s.clock := rfl

/-! ### `mapThread` -/

@[simp] theorem State.mapThread_cycle (s : State) (n k : Nat) (f : Thread → Thread) : (s.mapThread n k f).cycle = s.cycle := rfl
@[simp] theorem State.mapThread_serial (s : State) (n k : Nat) (f : Thread → Thread) : (s.mapThread n k f).serial = s.serial := rfl
@[simp] theorem State.mapThread_freeCtr (s : State) (n k : Nat) (f : Thread → Thread) : (s.mapThread n k f).freeCtr = s.freeCtr := rfl
@[simp] theorem State.mapThread_inputs (s : State) (n k : Nat) (f : Thread → Thread) : (s.mapThread n k f).inputs = s.inputs := rfl
@[simp] theorem State.mapThread_plan (s : State) (n k : Nat) (f : Thread → Thread) : (s.mapThread n k f).plan = s.plan := rfl
@[simp] theorem State.mapThread_made (s : State) (n k : Nat) (f : Thread → Thread) : (s.mapThread n k f).made = s.made := rfl
@[simp] theorem State.mapThread_view (s : State) (n k : Nat) (f : Thread → Thread) : (s.mapThread n k f).view = s.view := rfl
@[simp] theorem State.mapThread_issue (s : State) (n k : Nat) (f : Thread → Thread) : (s.mapThread n k f).issue = s.issue := rfl
@[simp] theorem State.mapThread_teams (s : State) (n k : Nat) (f : Thread → Thread) : (s.mapThread n k f).teams = s.teams.map (fun t => if t.id = n then t.mapThread k f else t) := rfl
@[simp] theorem State.mapThread_launches (s : State) (n k : Nat) (f : Thread → Thread) : (s.mapThread n k f).launches = s.launches := rfl
@[simp] theorem State.mapThread_ctxs (s : State) (n k : Nat) (f : Thread → Thread) : (s.mapThread n k f).ctxs = s.ctxs := rfl
@[simp] theorem State.mapThread_dies (s : State) (n k : Nat) (f : Thread → Thread) : (s.mapThread n k f).dies = s.dies := rfl
@[simp] theorem State.mapThread_accs (s : State) (n k : Nat) (f : Thread → Thread) : (s.mapThread n k f).accs = s.accs := rfl
@[simp] theorem State.mapThread_ops (s : State) (n k : Nat) (f : Thread → Thread) : (s.mapThread n k f).ops = s.ops := rfl
@[simp] theorem State.mapThread_fills (s : State) (n k : Nat) (f : Thread → Thread) : (s.mapThread n k f).fills = s.fills := rfl
@[simp] theorem State.mapThread_records (s : State) (n k : Nat) (f : Thread → Thread) : (s.mapThread n k f).records = s.records := rfl
@[simp] theorem State.mapThread_units (s : State) (n k : Nat) (f : Thread → Thread) : (s.mapThread n k f).units = s.units := rfl
@[simp] theorem State.mapThread_invals (s : State) (n k : Nat) (f : Thread → Thread) : (s.mapThread n k f).invals = s.invals := rfl
@[simp] theorem State.mapThread_stale (s : State) (n k : Nat) (f : Thread → Thread) : (s.mapThread n k f).stale = s.stale := rfl
@[simp] theorem State.mapThread_hostSums (s : State) (n k : Nat) (f : Thread → Thread) : (s.mapThread n k f).hostSums = s.hostSums := rfl
@[simp] theorem State.mapThread_collSets (s : State) (n k : Nat) (f : Thread → Thread) : (s.mapThread n k f).collSets = s.collSets := rfl
@[simp] theorem State.mapThread_collAnswers (s : State) (n k : Nat) (f : Thread → Thread) : (s.mapThread n k f).collAnswers = s.collAnswers := rfl
@[simp] theorem State.mapThread_mem (s : State) (n k : Nat) (f : Thread → Thread) : (s.mapThread n k f).mem = s.mem := rfl
@[simp] theorem State.mapThread_lost (s : State) (n k : Nat) (f : Thread → Thread) : (s.mapThread n k f).lost = s.lost := rfl
@[simp] theorem State.mapThread_poison (s : State) (n k : Nat) (f : Thread → Thread) : (s.mapThread n k f).poison = s.poison := rfl
@[simp] theorem State.mapThread_ktag (s : State) (n k : Nat) (f : Thread → Thread) : (s.mapThread n k f).ktag = s.ktag := rfl
@[simp] theorem State.mapThread_strm (s : State) (n k : Nat) (f : Thread → Thread) : (s.mapThread n k f).strm = s.strm := rfl
@[simp] theorem State.mapThread_stored (s : State) (n k : Nat) (f : Thread → Thread) : (s.mapThread n k f).stored = s.stored := rfl
@[simp] theorem State.mapThread_domain0 (s : State) (n k : Nat) (f : Thread → Thread) : (s.mapThread n k f).domain0 = s.domain0 := rfl
@[simp] theorem State.mapThread_expBase (s : State) (n k : Nat) (f : Thread → Thread) : (s.mapThread n k f).expBase = s.expBase := rfl
@[simp] theorem State.mapThread_expN (s : State) (n k : Nat) (f : Thread → Thread) : (s.mapThread n k f).expN = s.expN := rfl
@[simp] theorem State.mapThread_lostDevices (s : State) (n k : Nat) (f : Thread → Thread) : (s.mapThread n k f).lostDevices = s.lostDevices := rfl
@[simp] theorem State.mapThread_hostIde (s : State) (n k : Nat) (f : Thread → Thread) : (s.mapThread n k f).hostIde = s.hostIde := rfl
@[simp] theorem State.mapThread_ports (s : State) (n k : Nat) (f : Thread → Thread) : (s.mapThread n k f).ports = s.ports := rfl
@[simp] theorem State.mapThread_fwState (s : State) (n k : Nat) (f : Thread → Thread) : (s.mapThread n k f).fwState = s.fwState := rfl
@[simp] theorem State.mapThread_fwErr (s : State) (n k : Nat) (f : Thread → Thread) : (s.mapThread n k f).fwErr = s.fwErr := rfl
@[simp] theorem State.mapThread_fwSvn (s : State) (n k : Nat) (f : Thread → Thread) : (s.mapThread n k f).fwSvn = s.fwSvn := rfl
@[simp] theorem State.mapThread_lmsLeft (s : State) (n k : Nat) (f : Thread → Thread) : (s.mapThread n k f).lmsLeft = s.lmsLeft := rfl
@[simp] theorem State.mapThread_attStat (s : State) (n k : Nat) (f : Thread → Thread) : (s.mapThread n k f).attStat = s.attStat := rfl
@[simp] theorem State.mapThread_attCtx (s : State) (n k : Nat) (f : Thread → Thread) : (s.mapThread n k f).attCtx = s.attCtx := rfl
@[simp] theorem State.mapThread_attNonce (s : State) (n k : Nat) (f : Thread → Thread) : (s.mapThread n k f).attNonce = s.attNonce := rfl
@[simp] theorem State.mapThread_attReport (s : State) (n k : Nat) (f : Thread → Thread) : (s.mapThread n k f).attReport = s.attReport := rfl
@[simp] theorem State.mapThread_moduleImage (s : State) (n k : Nat) (f : Thread → Thread) : (s.mapThread n k f).moduleImage = s.moduleImage := rfl
@[simp] theorem State.mapThread_fwImage (s : State) (n k : Nat) (f : Thread → Thread) : (s.mapThread n k f).fwImage = s.fwImage := rfl
@[simp] theorem State.mapThread_verifying (s : State) (n k : Nat) (f : Thread → Thread) : (s.mapThread n k f).verifying = s.verifying := rfl
@[simp] theorem State.mapThread_rcvWindow (s : State) (n k : Nat) (f : Thread → Thread) : (s.mapThread n k f).rcvWindow = s.rcvWindow := rfl
@[simp] theorem State.mapThread_clock (s : State) (n k : Nat) (f : Thread → Thread) : (s.mapThread n k f).clock = s.clock := rfl

/-! ### `mapSheaf` -/

@[simp] theorem State.mapSheaf_cycle (s : State) (n h : Nat) (f : Sheaf → Sheaf) : (s.mapSheaf n h f).cycle = s.cycle := rfl
@[simp] theorem State.mapSheaf_serial (s : State) (n h : Nat) (f : Sheaf → Sheaf) : (s.mapSheaf n h f).serial = s.serial := rfl
@[simp] theorem State.mapSheaf_freeCtr (s : State) (n h : Nat) (f : Sheaf → Sheaf) : (s.mapSheaf n h f).freeCtr = s.freeCtr := rfl
@[simp] theorem State.mapSheaf_inputs (s : State) (n h : Nat) (f : Sheaf → Sheaf) : (s.mapSheaf n h f).inputs = s.inputs := rfl
@[simp] theorem State.mapSheaf_plan (s : State) (n h : Nat) (f : Sheaf → Sheaf) : (s.mapSheaf n h f).plan = s.plan := rfl
@[simp] theorem State.mapSheaf_made (s : State) (n h : Nat) (f : Sheaf → Sheaf) : (s.mapSheaf n h f).made = s.made := rfl
@[simp] theorem State.mapSheaf_view (s : State) (n h : Nat) (f : Sheaf → Sheaf) : (s.mapSheaf n h f).view = s.view := rfl
@[simp] theorem State.mapSheaf_issue (s : State) (n h : Nat) (f : Sheaf → Sheaf) : (s.mapSheaf n h f).issue = s.issue := rfl
@[simp] theorem State.mapSheaf_teams (s : State) (n h : Nat) (f : Sheaf → Sheaf) : (s.mapSheaf n h f).teams = s.teams.map (fun t => if t.id = n then t.mapSheaf h f else t) := rfl
@[simp] theorem State.mapSheaf_launches (s : State) (n h : Nat) (f : Sheaf → Sheaf) : (s.mapSheaf n h f).launches = s.launches := rfl
@[simp] theorem State.mapSheaf_ctxs (s : State) (n h : Nat) (f : Sheaf → Sheaf) : (s.mapSheaf n h f).ctxs = s.ctxs := rfl
@[simp] theorem State.mapSheaf_dies (s : State) (n h : Nat) (f : Sheaf → Sheaf) : (s.mapSheaf n h f).dies = s.dies := rfl
@[simp] theorem State.mapSheaf_accs (s : State) (n h : Nat) (f : Sheaf → Sheaf) : (s.mapSheaf n h f).accs = s.accs := rfl
@[simp] theorem State.mapSheaf_ops (s : State) (n h : Nat) (f : Sheaf → Sheaf) : (s.mapSheaf n h f).ops = s.ops := rfl
@[simp] theorem State.mapSheaf_fills (s : State) (n h : Nat) (f : Sheaf → Sheaf) : (s.mapSheaf n h f).fills = s.fills := rfl
@[simp] theorem State.mapSheaf_records (s : State) (n h : Nat) (f : Sheaf → Sheaf) : (s.mapSheaf n h f).records = s.records := rfl
@[simp] theorem State.mapSheaf_units (s : State) (n h : Nat) (f : Sheaf → Sheaf) : (s.mapSheaf n h f).units = s.units := rfl
@[simp] theorem State.mapSheaf_invals (s : State) (n h : Nat) (f : Sheaf → Sheaf) : (s.mapSheaf n h f).invals = s.invals := rfl
@[simp] theorem State.mapSheaf_stale (s : State) (n h : Nat) (f : Sheaf → Sheaf) : (s.mapSheaf n h f).stale = s.stale := rfl
@[simp] theorem State.mapSheaf_hostSums (s : State) (n h : Nat) (f : Sheaf → Sheaf) : (s.mapSheaf n h f).hostSums = s.hostSums := rfl
@[simp] theorem State.mapSheaf_collSets (s : State) (n h : Nat) (f : Sheaf → Sheaf) : (s.mapSheaf n h f).collSets = s.collSets := rfl
@[simp] theorem State.mapSheaf_collAnswers (s : State) (n h : Nat) (f : Sheaf → Sheaf) : (s.mapSheaf n h f).collAnswers = s.collAnswers := rfl
@[simp] theorem State.mapSheaf_mem (s : State) (n h : Nat) (f : Sheaf → Sheaf) : (s.mapSheaf n h f).mem = s.mem := rfl
@[simp] theorem State.mapSheaf_lost (s : State) (n h : Nat) (f : Sheaf → Sheaf) : (s.mapSheaf n h f).lost = s.lost := rfl
@[simp] theorem State.mapSheaf_poison (s : State) (n h : Nat) (f : Sheaf → Sheaf) : (s.mapSheaf n h f).poison = s.poison := rfl
@[simp] theorem State.mapSheaf_ktag (s : State) (n h : Nat) (f : Sheaf → Sheaf) : (s.mapSheaf n h f).ktag = s.ktag := rfl
@[simp] theorem State.mapSheaf_strm (s : State) (n h : Nat) (f : Sheaf → Sheaf) : (s.mapSheaf n h f).strm = s.strm := rfl
@[simp] theorem State.mapSheaf_stored (s : State) (n h : Nat) (f : Sheaf → Sheaf) : (s.mapSheaf n h f).stored = s.stored := rfl
@[simp] theorem State.mapSheaf_domain0 (s : State) (n h : Nat) (f : Sheaf → Sheaf) : (s.mapSheaf n h f).domain0 = s.domain0 := rfl
@[simp] theorem State.mapSheaf_expBase (s : State) (n h : Nat) (f : Sheaf → Sheaf) : (s.mapSheaf n h f).expBase = s.expBase := rfl
@[simp] theorem State.mapSheaf_expN (s : State) (n h : Nat) (f : Sheaf → Sheaf) : (s.mapSheaf n h f).expN = s.expN := rfl
@[simp] theorem State.mapSheaf_lostDevices (s : State) (n h : Nat) (f : Sheaf → Sheaf) : (s.mapSheaf n h f).lostDevices = s.lostDevices := rfl
@[simp] theorem State.mapSheaf_hostIde (s : State) (n h : Nat) (f : Sheaf → Sheaf) : (s.mapSheaf n h f).hostIde = s.hostIde := rfl
@[simp] theorem State.mapSheaf_ports (s : State) (n h : Nat) (f : Sheaf → Sheaf) : (s.mapSheaf n h f).ports = s.ports := rfl
@[simp] theorem State.mapSheaf_fwState (s : State) (n h : Nat) (f : Sheaf → Sheaf) : (s.mapSheaf n h f).fwState = s.fwState := rfl
@[simp] theorem State.mapSheaf_fwErr (s : State) (n h : Nat) (f : Sheaf → Sheaf) : (s.mapSheaf n h f).fwErr = s.fwErr := rfl
@[simp] theorem State.mapSheaf_fwSvn (s : State) (n h : Nat) (f : Sheaf → Sheaf) : (s.mapSheaf n h f).fwSvn = s.fwSvn := rfl
@[simp] theorem State.mapSheaf_lmsLeft (s : State) (n h : Nat) (f : Sheaf → Sheaf) : (s.mapSheaf n h f).lmsLeft = s.lmsLeft := rfl
@[simp] theorem State.mapSheaf_attStat (s : State) (n h : Nat) (f : Sheaf → Sheaf) : (s.mapSheaf n h f).attStat = s.attStat := rfl
@[simp] theorem State.mapSheaf_attCtx (s : State) (n h : Nat) (f : Sheaf → Sheaf) : (s.mapSheaf n h f).attCtx = s.attCtx := rfl
@[simp] theorem State.mapSheaf_attNonce (s : State) (n h : Nat) (f : Sheaf → Sheaf) : (s.mapSheaf n h f).attNonce = s.attNonce := rfl
@[simp] theorem State.mapSheaf_attReport (s : State) (n h : Nat) (f : Sheaf → Sheaf) : (s.mapSheaf n h f).attReport = s.attReport := rfl
@[simp] theorem State.mapSheaf_moduleImage (s : State) (n h : Nat) (f : Sheaf → Sheaf) : (s.mapSheaf n h f).moduleImage = s.moduleImage := rfl
@[simp] theorem State.mapSheaf_fwImage (s : State) (n h : Nat) (f : Sheaf → Sheaf) : (s.mapSheaf n h f).fwImage = s.fwImage := rfl
@[simp] theorem State.mapSheaf_verifying (s : State) (n h : Nat) (f : Sheaf → Sheaf) : (s.mapSheaf n h f).verifying = s.verifying := rfl
@[simp] theorem State.mapSheaf_rcvWindow (s : State) (n h : Nat) (f : Sheaf → Sheaf) : (s.mapSheaf n h f).rcvWindow = s.rcvWindow := rfl
@[simp] theorem State.mapSheaf_clock (s : State) (n h : Nat) (f : Sheaf → Sheaf) : (s.mapSheaf n h f).clock = s.clock := rfl

/-! ### `mapRegs` -/

@[simp] theorem State.mapRegs_cycle (s : State) (n k : Nat) (f : Regs → Regs) : (s.mapRegs n k f).cycle = s.cycle := rfl
@[simp] theorem State.mapRegs_serial (s : State) (n k : Nat) (f : Regs → Regs) : (s.mapRegs n k f).serial = s.serial := rfl
@[simp] theorem State.mapRegs_freeCtr (s : State) (n k : Nat) (f : Regs → Regs) : (s.mapRegs n k f).freeCtr = s.freeCtr := rfl
@[simp] theorem State.mapRegs_inputs (s : State) (n k : Nat) (f : Regs → Regs) : (s.mapRegs n k f).inputs = s.inputs := rfl
@[simp] theorem State.mapRegs_plan (s : State) (n k : Nat) (f : Regs → Regs) : (s.mapRegs n k f).plan = s.plan := rfl
@[simp] theorem State.mapRegs_made (s : State) (n k : Nat) (f : Regs → Regs) : (s.mapRegs n k f).made = s.made := rfl
@[simp] theorem State.mapRegs_view (s : State) (n k : Nat) (f : Regs → Regs) : (s.mapRegs n k f).view = s.view := rfl
@[simp] theorem State.mapRegs_issue (s : State) (n k : Nat) (f : Regs → Regs) : (s.mapRegs n k f).issue = s.issue := rfl
@[simp] theorem State.mapRegs_teams (s : State) (n k : Nat) (f : Regs → Regs) : (s.mapRegs n k f).teams = s.teams.map (fun t => if t.id = n then t.mapThread k (fun x => { x with regs := f x.regs }) else t) := rfl
@[simp] theorem State.mapRegs_launches (s : State) (n k : Nat) (f : Regs → Regs) : (s.mapRegs n k f).launches = s.launches := rfl
@[simp] theorem State.mapRegs_ctxs (s : State) (n k : Nat) (f : Regs → Regs) : (s.mapRegs n k f).ctxs = s.ctxs := rfl
@[simp] theorem State.mapRegs_dies (s : State) (n k : Nat) (f : Regs → Regs) : (s.mapRegs n k f).dies = s.dies := rfl
@[simp] theorem State.mapRegs_accs (s : State) (n k : Nat) (f : Regs → Regs) : (s.mapRegs n k f).accs = s.accs := rfl
@[simp] theorem State.mapRegs_ops (s : State) (n k : Nat) (f : Regs → Regs) : (s.mapRegs n k f).ops = s.ops := rfl
@[simp] theorem State.mapRegs_fills (s : State) (n k : Nat) (f : Regs → Regs) : (s.mapRegs n k f).fills = s.fills := rfl
@[simp] theorem State.mapRegs_records (s : State) (n k : Nat) (f : Regs → Regs) : (s.mapRegs n k f).records = s.records := rfl
@[simp] theorem State.mapRegs_units (s : State) (n k : Nat) (f : Regs → Regs) : (s.mapRegs n k f).units = s.units := rfl
@[simp] theorem State.mapRegs_invals (s : State) (n k : Nat) (f : Regs → Regs) : (s.mapRegs n k f).invals = s.invals := rfl
@[simp] theorem State.mapRegs_stale (s : State) (n k : Nat) (f : Regs → Regs) : (s.mapRegs n k f).stale = s.stale := rfl
@[simp] theorem State.mapRegs_hostSums (s : State) (n k : Nat) (f : Regs → Regs) : (s.mapRegs n k f).hostSums = s.hostSums := rfl
@[simp] theorem State.mapRegs_collSets (s : State) (n k : Nat) (f : Regs → Regs) : (s.mapRegs n k f).collSets = s.collSets := rfl
@[simp] theorem State.mapRegs_collAnswers (s : State) (n k : Nat) (f : Regs → Regs) : (s.mapRegs n k f).collAnswers = s.collAnswers := rfl
@[simp] theorem State.mapRegs_mem (s : State) (n k : Nat) (f : Regs → Regs) : (s.mapRegs n k f).mem = s.mem := rfl
@[simp] theorem State.mapRegs_lost (s : State) (n k : Nat) (f : Regs → Regs) : (s.mapRegs n k f).lost = s.lost := rfl
@[simp] theorem State.mapRegs_poison (s : State) (n k : Nat) (f : Regs → Regs) : (s.mapRegs n k f).poison = s.poison := rfl
@[simp] theorem State.mapRegs_ktag (s : State) (n k : Nat) (f : Regs → Regs) : (s.mapRegs n k f).ktag = s.ktag := rfl
@[simp] theorem State.mapRegs_strm (s : State) (n k : Nat) (f : Regs → Regs) : (s.mapRegs n k f).strm = s.strm := rfl
@[simp] theorem State.mapRegs_stored (s : State) (n k : Nat) (f : Regs → Regs) : (s.mapRegs n k f).stored = s.stored := rfl
@[simp] theorem State.mapRegs_domain0 (s : State) (n k : Nat) (f : Regs → Regs) : (s.mapRegs n k f).domain0 = s.domain0 := rfl
@[simp] theorem State.mapRegs_expBase (s : State) (n k : Nat) (f : Regs → Regs) : (s.mapRegs n k f).expBase = s.expBase := rfl
@[simp] theorem State.mapRegs_expN (s : State) (n k : Nat) (f : Regs → Regs) : (s.mapRegs n k f).expN = s.expN := rfl
@[simp] theorem State.mapRegs_lostDevices (s : State) (n k : Nat) (f : Regs → Regs) : (s.mapRegs n k f).lostDevices = s.lostDevices := rfl
@[simp] theorem State.mapRegs_hostIde (s : State) (n k : Nat) (f : Regs → Regs) : (s.mapRegs n k f).hostIde = s.hostIde := rfl
@[simp] theorem State.mapRegs_ports (s : State) (n k : Nat) (f : Regs → Regs) : (s.mapRegs n k f).ports = s.ports := rfl
@[simp] theorem State.mapRegs_fwState (s : State) (n k : Nat) (f : Regs → Regs) : (s.mapRegs n k f).fwState = s.fwState := rfl
@[simp] theorem State.mapRegs_fwErr (s : State) (n k : Nat) (f : Regs → Regs) : (s.mapRegs n k f).fwErr = s.fwErr := rfl
@[simp] theorem State.mapRegs_fwSvn (s : State) (n k : Nat) (f : Regs → Regs) : (s.mapRegs n k f).fwSvn = s.fwSvn := rfl
@[simp] theorem State.mapRegs_lmsLeft (s : State) (n k : Nat) (f : Regs → Regs) : (s.mapRegs n k f).lmsLeft = s.lmsLeft := rfl
@[simp] theorem State.mapRegs_attStat (s : State) (n k : Nat) (f : Regs → Regs) : (s.mapRegs n k f).attStat = s.attStat := rfl
@[simp] theorem State.mapRegs_attCtx (s : State) (n k : Nat) (f : Regs → Regs) : (s.mapRegs n k f).attCtx = s.attCtx := rfl
@[simp] theorem State.mapRegs_attNonce (s : State) (n k : Nat) (f : Regs → Regs) : (s.mapRegs n k f).attNonce = s.attNonce := rfl
@[simp] theorem State.mapRegs_attReport (s : State) (n k : Nat) (f : Regs → Regs) : (s.mapRegs n k f).attReport = s.attReport := rfl
@[simp] theorem State.mapRegs_moduleImage (s : State) (n k : Nat) (f : Regs → Regs) : (s.mapRegs n k f).moduleImage = s.moduleImage := rfl
@[simp] theorem State.mapRegs_fwImage (s : State) (n k : Nat) (f : Regs → Regs) : (s.mapRegs n k f).fwImage = s.fwImage := rfl
@[simp] theorem State.mapRegs_verifying (s : State) (n k : Nat) (f : Regs → Regs) : (s.mapRegs n k f).verifying = s.verifying := rfl
@[simp] theorem State.mapRegs_rcvWindow (s : State) (n k : Nat) (f : Regs → Regs) : (s.mapRegs n k f).rcvWindow = s.rcvWindow := rfl
@[simp] theorem State.mapRegs_clock (s : State) (n k : Nat) (f : Regs → Regs) : (s.mapRegs n k f).clock = s.clock := rfl

/-! ### `mapIssue` -/

@[simp] theorem State.mapIssue_cycle (s : State) (f : Issue → Issue) : (s.mapIssue f).cycle = s.cycle := rfl
@[simp] theorem State.mapIssue_serial (s : State) (f : Issue → Issue) : (s.mapIssue f).serial = s.serial := rfl
@[simp] theorem State.mapIssue_freeCtr (s : State) (f : Issue → Issue) : (s.mapIssue f).freeCtr = s.freeCtr := rfl
@[simp] theorem State.mapIssue_inputs (s : State) (f : Issue → Issue) : (s.mapIssue f).inputs = s.inputs := rfl
@[simp] theorem State.mapIssue_plan (s : State) (f : Issue → Issue) : (s.mapIssue f).plan = s.plan := rfl
@[simp] theorem State.mapIssue_made (s : State) (f : Issue → Issue) : (s.mapIssue f).made = s.made := rfl
@[simp] theorem State.mapIssue_view (s : State) (f : Issue → Issue) : (s.mapIssue f).view = s.view := rfl
@[simp] theorem State.mapIssue_issue (s : State) (f : Issue → Issue) : (s.mapIssue f).issue = s.issue.map f := rfl
@[simp] theorem State.mapIssue_teams (s : State) (f : Issue → Issue) : (s.mapIssue f).teams = s.teams := rfl
@[simp] theorem State.mapIssue_launches (s : State) (f : Issue → Issue) : (s.mapIssue f).launches = s.launches := rfl
@[simp] theorem State.mapIssue_ctxs (s : State) (f : Issue → Issue) : (s.mapIssue f).ctxs = s.ctxs := rfl
@[simp] theorem State.mapIssue_dies (s : State) (f : Issue → Issue) : (s.mapIssue f).dies = s.dies := rfl
@[simp] theorem State.mapIssue_accs (s : State) (f : Issue → Issue) : (s.mapIssue f).accs = s.accs := rfl
@[simp] theorem State.mapIssue_ops (s : State) (f : Issue → Issue) : (s.mapIssue f).ops = s.ops := rfl
@[simp] theorem State.mapIssue_fills (s : State) (f : Issue → Issue) : (s.mapIssue f).fills = s.fills := rfl
@[simp] theorem State.mapIssue_records (s : State) (f : Issue → Issue) : (s.mapIssue f).records = s.records := rfl
@[simp] theorem State.mapIssue_units (s : State) (f : Issue → Issue) : (s.mapIssue f).units = s.units := rfl
@[simp] theorem State.mapIssue_invals (s : State) (f : Issue → Issue) : (s.mapIssue f).invals = s.invals := rfl
@[simp] theorem State.mapIssue_stale (s : State) (f : Issue → Issue) : (s.mapIssue f).stale = s.stale := rfl
@[simp] theorem State.mapIssue_hostSums (s : State) (f : Issue → Issue) : (s.mapIssue f).hostSums = s.hostSums := rfl
@[simp] theorem State.mapIssue_collSets (s : State) (f : Issue → Issue) : (s.mapIssue f).collSets = s.collSets := rfl
@[simp] theorem State.mapIssue_collAnswers (s : State) (f : Issue → Issue) : (s.mapIssue f).collAnswers = s.collAnswers := rfl
@[simp] theorem State.mapIssue_mem (s : State) (f : Issue → Issue) : (s.mapIssue f).mem = s.mem := rfl
@[simp] theorem State.mapIssue_lost (s : State) (f : Issue → Issue) : (s.mapIssue f).lost = s.lost := rfl
@[simp] theorem State.mapIssue_poison (s : State) (f : Issue → Issue) : (s.mapIssue f).poison = s.poison := rfl
@[simp] theorem State.mapIssue_ktag (s : State) (f : Issue → Issue) : (s.mapIssue f).ktag = s.ktag := rfl
@[simp] theorem State.mapIssue_strm (s : State) (f : Issue → Issue) : (s.mapIssue f).strm = s.strm := rfl
@[simp] theorem State.mapIssue_stored (s : State) (f : Issue → Issue) : (s.mapIssue f).stored = s.stored := rfl
@[simp] theorem State.mapIssue_domain0 (s : State) (f : Issue → Issue) : (s.mapIssue f).domain0 = s.domain0 := rfl
@[simp] theorem State.mapIssue_expBase (s : State) (f : Issue → Issue) : (s.mapIssue f).expBase = s.expBase := rfl
@[simp] theorem State.mapIssue_expN (s : State) (f : Issue → Issue) : (s.mapIssue f).expN = s.expN := rfl
@[simp] theorem State.mapIssue_lostDevices (s : State) (f : Issue → Issue) : (s.mapIssue f).lostDevices = s.lostDevices := rfl
@[simp] theorem State.mapIssue_hostIde (s : State) (f : Issue → Issue) : (s.mapIssue f).hostIde = s.hostIde := rfl
@[simp] theorem State.mapIssue_ports (s : State) (f : Issue → Issue) : (s.mapIssue f).ports = s.ports := rfl
@[simp] theorem State.mapIssue_fwState (s : State) (f : Issue → Issue) : (s.mapIssue f).fwState = s.fwState := rfl
@[simp] theorem State.mapIssue_fwErr (s : State) (f : Issue → Issue) : (s.mapIssue f).fwErr = s.fwErr := rfl
@[simp] theorem State.mapIssue_fwSvn (s : State) (f : Issue → Issue) : (s.mapIssue f).fwSvn = s.fwSvn := rfl
@[simp] theorem State.mapIssue_lmsLeft (s : State) (f : Issue → Issue) : (s.mapIssue f).lmsLeft = s.lmsLeft := rfl
@[simp] theorem State.mapIssue_attStat (s : State) (f : Issue → Issue) : (s.mapIssue f).attStat = s.attStat := rfl
@[simp] theorem State.mapIssue_attCtx (s : State) (f : Issue → Issue) : (s.mapIssue f).attCtx = s.attCtx := rfl
@[simp] theorem State.mapIssue_attNonce (s : State) (f : Issue → Issue) : (s.mapIssue f).attNonce = s.attNonce := rfl
@[simp] theorem State.mapIssue_attReport (s : State) (f : Issue → Issue) : (s.mapIssue f).attReport = s.attReport := rfl
@[simp] theorem State.mapIssue_moduleImage (s : State) (f : Issue → Issue) : (s.mapIssue f).moduleImage = s.moduleImage := rfl
@[simp] theorem State.mapIssue_fwImage (s : State) (f : Issue → Issue) : (s.mapIssue f).fwImage = s.fwImage := rfl
@[simp] theorem State.mapIssue_verifying (s : State) (f : Issue → Issue) : (s.mapIssue f).verifying = s.verifying := rfl
@[simp] theorem State.mapIssue_rcvWindow (s : State) (f : Issue → Issue) : (s.mapIssue f).rcvWindow = s.rcvWindow := rfl
@[simp] theorem State.mapIssue_clock (s : State) (f : Issue → Issue) : (s.mapIssue f).clock = s.clock := rfl

/-! ### `raise` -/

@[simp] theorem State.raise_cycle (s : State) (k code : Nat) (aux : DWord) : (s.raise k code aux).cycle = s.cycle := rfl
@[simp] theorem State.raise_serial (s : State) (k code : Nat) (aux : DWord) : (s.raise k code aux).serial = s.serial := rfl
@[simp] theorem State.raise_freeCtr (s : State) (k code : Nat) (aux : DWord) : (s.raise k code aux).freeCtr = s.freeCtr := rfl
@[simp] theorem State.raise_inputs (s : State) (k code : Nat) (aux : DWord) : (s.raise k code aux).inputs = s.inputs := rfl
@[simp] theorem State.raise_plan (s : State) (k code : Nat) (aux : DWord) : (s.raise k code aux).plan = s.plan := rfl
@[simp] theorem State.raise_made (s : State) (k code : Nat) (aux : DWord) : (s.raise k code aux).made = s.made := rfl
@[simp] theorem State.raise_view (s : State) (k code : Nat) (aux : DWord) : (s.raise k code aux).view = s.view := rfl
@[simp] theorem State.raise_issue (s : State) (k code : Nat) (aux : DWord) : (s.raise k code aux).issue = s.issue.map (fun i => { i with trapped := i.trapped ++ [⟨k, code, aux, i.pc, false⟩] }) := rfl
@[simp] theorem State.raise_teams (s : State) (k code : Nat) (aux : DWord) : (s.raise k code aux).teams = s.teams := rfl
@[simp] theorem State.raise_launches (s : State) (k code : Nat) (aux : DWord) : (s.raise k code aux).launches = s.launches := rfl
@[simp] theorem State.raise_ctxs (s : State) (k code : Nat) (aux : DWord) : (s.raise k code aux).ctxs = s.ctxs := rfl
@[simp] theorem State.raise_dies (s : State) (k code : Nat) (aux : DWord) : (s.raise k code aux).dies = s.dies := rfl
@[simp] theorem State.raise_accs (s : State) (k code : Nat) (aux : DWord) : (s.raise k code aux).accs = s.accs := rfl
@[simp] theorem State.raise_ops (s : State) (k code : Nat) (aux : DWord) : (s.raise k code aux).ops = s.ops := rfl
@[simp] theorem State.raise_fills (s : State) (k code : Nat) (aux : DWord) : (s.raise k code aux).fills = s.fills := rfl
@[simp] theorem State.raise_records (s : State) (k code : Nat) (aux : DWord) : (s.raise k code aux).records = s.records := rfl
@[simp] theorem State.raise_units (s : State) (k code : Nat) (aux : DWord) : (s.raise k code aux).units = s.units := rfl
@[simp] theorem State.raise_invals (s : State) (k code : Nat) (aux : DWord) : (s.raise k code aux).invals = s.invals := rfl
@[simp] theorem State.raise_stale (s : State) (k code : Nat) (aux : DWord) : (s.raise k code aux).stale = s.stale := rfl
@[simp] theorem State.raise_hostSums (s : State) (k code : Nat) (aux : DWord) : (s.raise k code aux).hostSums = s.hostSums := rfl
@[simp] theorem State.raise_collSets (s : State) (k code : Nat) (aux : DWord) : (s.raise k code aux).collSets = s.collSets := rfl
@[simp] theorem State.raise_collAnswers (s : State) (k code : Nat) (aux : DWord) : (s.raise k code aux).collAnswers = s.collAnswers := rfl
@[simp] theorem State.raise_mem (s : State) (k code : Nat) (aux : DWord) : (s.raise k code aux).mem = s.mem := rfl
@[simp] theorem State.raise_lost (s : State) (k code : Nat) (aux : DWord) : (s.raise k code aux).lost = s.lost := rfl
@[simp] theorem State.raise_poison (s : State) (k code : Nat) (aux : DWord) : (s.raise k code aux).poison = s.poison := rfl
@[simp] theorem State.raise_ktag (s : State) (k code : Nat) (aux : DWord) : (s.raise k code aux).ktag = s.ktag := rfl
@[simp] theorem State.raise_strm (s : State) (k code : Nat) (aux : DWord) : (s.raise k code aux).strm = s.strm := rfl
@[simp] theorem State.raise_stored (s : State) (k code : Nat) (aux : DWord) : (s.raise k code aux).stored = s.stored := rfl
@[simp] theorem State.raise_domain0 (s : State) (k code : Nat) (aux : DWord) : (s.raise k code aux).domain0 = s.domain0 := rfl
@[simp] theorem State.raise_expBase (s : State) (k code : Nat) (aux : DWord) : (s.raise k code aux).expBase = s.expBase := rfl
@[simp] theorem State.raise_expN (s : State) (k code : Nat) (aux : DWord) : (s.raise k code aux).expN = s.expN := rfl
@[simp] theorem State.raise_lostDevices (s : State) (k code : Nat) (aux : DWord) : (s.raise k code aux).lostDevices = s.lostDevices := rfl
@[simp] theorem State.raise_hostIde (s : State) (k code : Nat) (aux : DWord) : (s.raise k code aux).hostIde = s.hostIde := rfl
@[simp] theorem State.raise_ports (s : State) (k code : Nat) (aux : DWord) : (s.raise k code aux).ports = s.ports := rfl
@[simp] theorem State.raise_fwState (s : State) (k code : Nat) (aux : DWord) : (s.raise k code aux).fwState = s.fwState := rfl
@[simp] theorem State.raise_fwErr (s : State) (k code : Nat) (aux : DWord) : (s.raise k code aux).fwErr = s.fwErr := rfl
@[simp] theorem State.raise_fwSvn (s : State) (k code : Nat) (aux : DWord) : (s.raise k code aux).fwSvn = s.fwSvn := rfl
@[simp] theorem State.raise_lmsLeft (s : State) (k code : Nat) (aux : DWord) : (s.raise k code aux).lmsLeft = s.lmsLeft := rfl
@[simp] theorem State.raise_attStat (s : State) (k code : Nat) (aux : DWord) : (s.raise k code aux).attStat = s.attStat := rfl
@[simp] theorem State.raise_attCtx (s : State) (k code : Nat) (aux : DWord) : (s.raise k code aux).attCtx = s.attCtx := rfl
@[simp] theorem State.raise_attNonce (s : State) (k code : Nat) (aux : DWord) : (s.raise k code aux).attNonce = s.attNonce := rfl
@[simp] theorem State.raise_attReport (s : State) (k code : Nat) (aux : DWord) : (s.raise k code aux).attReport = s.attReport := rfl
@[simp] theorem State.raise_moduleImage (s : State) (k code : Nat) (aux : DWord) : (s.raise k code aux).moduleImage = s.moduleImage := rfl
@[simp] theorem State.raise_fwImage (s : State) (k code : Nat) (aux : DWord) : (s.raise k code aux).fwImage = s.fwImage := rfl
@[simp] theorem State.raise_verifying (s : State) (k code : Nat) (aux : DWord) : (s.raise k code aux).verifying = s.verifying := rfl
@[simp] theorem State.raise_rcvWindow (s : State) (k code : Nat) (aux : DWord) : (s.raise k code aux).rcvWindow = s.rcvWindow := rfl
@[simp] theorem State.raise_clock (s : State) (k code : Nat) (aux : DWord) : (s.raise k code aux).clock = s.clock := rfl

/-! ### `hold` -/

@[simp] theorem State.hold_cycle (s : State) (a : Acc) : (s.hold a).cycle = s.cycle := rfl
@[simp] theorem State.hold_serial (s : State) (a : Acc) : (s.hold a).serial = s.serial := rfl
@[simp] theorem State.hold_freeCtr (s : State) (a : Acc) : (s.hold a).freeCtr = s.freeCtr := rfl
@[simp] theorem State.hold_inputs (s : State) (a : Acc) : (s.hold a).inputs = s.inputs := rfl
@[simp] theorem State.hold_plan (s : State) (a : Acc) : (s.hold a).plan = s.plan := rfl
@[simp] theorem State.hold_made (s : State) (a : Acc) : (s.hold a).made = s.made := rfl
@[simp] theorem State.hold_view (s : State) (a : Acc) : (s.hold a).view = s.view := rfl
@[simp] theorem State.hold_issue (s : State) (a : Acc) : (s.hold a).issue = s.issue.map (fun i => { i with held := i.held ++ [a] }) := rfl
@[simp] theorem State.hold_teams (s : State) (a : Acc) : (s.hold a).teams = s.teams := rfl
@[simp] theorem State.hold_launches (s : State) (a : Acc) : (s.hold a).launches = s.launches := rfl
@[simp] theorem State.hold_ctxs (s : State) (a : Acc) : (s.hold a).ctxs = s.ctxs := rfl
@[simp] theorem State.hold_dies (s : State) (a : Acc) : (s.hold a).dies = s.dies := rfl
@[simp] theorem State.hold_accs (s : State) (a : Acc) : (s.hold a).accs = s.accs := rfl
@[simp] theorem State.hold_ops (s : State) (a : Acc) : (s.hold a).ops = s.ops := rfl
@[simp] theorem State.hold_fills (s : State) (a : Acc) : (s.hold a).fills = s.fills := rfl
@[simp] theorem State.hold_records (s : State) (a : Acc) : (s.hold a).records = s.records := rfl
@[simp] theorem State.hold_units (s : State) (a : Acc) : (s.hold a).units = s.units := rfl
@[simp] theorem State.hold_invals (s : State) (a : Acc) : (s.hold a).invals = s.invals := rfl
@[simp] theorem State.hold_stale (s : State) (a : Acc) : (s.hold a).stale = s.stale := rfl
@[simp] theorem State.hold_hostSums (s : State) (a : Acc) : (s.hold a).hostSums = s.hostSums := rfl
@[simp] theorem State.hold_collSets (s : State) (a : Acc) : (s.hold a).collSets = s.collSets := rfl
@[simp] theorem State.hold_collAnswers (s : State) (a : Acc) : (s.hold a).collAnswers = s.collAnswers := rfl
@[simp] theorem State.hold_mem (s : State) (a : Acc) : (s.hold a).mem = s.mem := rfl
@[simp] theorem State.hold_lost (s : State) (a : Acc) : (s.hold a).lost = s.lost := rfl
@[simp] theorem State.hold_poison (s : State) (a : Acc) : (s.hold a).poison = s.poison := rfl
@[simp] theorem State.hold_ktag (s : State) (a : Acc) : (s.hold a).ktag = s.ktag := rfl
@[simp] theorem State.hold_strm (s : State) (a : Acc) : (s.hold a).strm = s.strm := rfl
@[simp] theorem State.hold_stored (s : State) (a : Acc) : (s.hold a).stored = s.stored := rfl
@[simp] theorem State.hold_domain0 (s : State) (a : Acc) : (s.hold a).domain0 = s.domain0 := rfl
@[simp] theorem State.hold_expBase (s : State) (a : Acc) : (s.hold a).expBase = s.expBase := rfl
@[simp] theorem State.hold_expN (s : State) (a : Acc) : (s.hold a).expN = s.expN := rfl
@[simp] theorem State.hold_lostDevices (s : State) (a : Acc) : (s.hold a).lostDevices = s.lostDevices := rfl
@[simp] theorem State.hold_hostIde (s : State) (a : Acc) : (s.hold a).hostIde = s.hostIde := rfl
@[simp] theorem State.hold_ports (s : State) (a : Acc) : (s.hold a).ports = s.ports := rfl
@[simp] theorem State.hold_fwState (s : State) (a : Acc) : (s.hold a).fwState = s.fwState := rfl
@[simp] theorem State.hold_fwErr (s : State) (a : Acc) : (s.hold a).fwErr = s.fwErr := rfl
@[simp] theorem State.hold_fwSvn (s : State) (a : Acc) : (s.hold a).fwSvn = s.fwSvn := rfl
@[simp] theorem State.hold_lmsLeft (s : State) (a : Acc) : (s.hold a).lmsLeft = s.lmsLeft := rfl
@[simp] theorem State.hold_attStat (s : State) (a : Acc) : (s.hold a).attStat = s.attStat := rfl
@[simp] theorem State.hold_attCtx (s : State) (a : Acc) : (s.hold a).attCtx = s.attCtx := rfl
@[simp] theorem State.hold_attNonce (s : State) (a : Acc) : (s.hold a).attNonce = s.attNonce := rfl
@[simp] theorem State.hold_attReport (s : State) (a : Acc) : (s.hold a).attReport = s.attReport := rfl
@[simp] theorem State.hold_moduleImage (s : State) (a : Acc) : (s.hold a).moduleImage = s.moduleImage := rfl
@[simp] theorem State.hold_fwImage (s : State) (a : Acc) : (s.hold a).fwImage = s.fwImage := rfl
@[simp] theorem State.hold_verifying (s : State) (a : Acc) : (s.hold a).verifying = s.verifying := rfl
@[simp] theorem State.hold_rcvWindow (s : State) (a : Acc) : (s.hold a).rcvWindow = s.rcvWindow := rfl
@[simp] theorem State.hold_clock (s : State) (a : Acc) : (s.hold a).clock = s.clock := rfl

/-! ### `stall` -/

@[simp] theorem State.stall_cycle (s : State) : (s.stall).cycle = s.cycle := rfl
@[simp] theorem State.stall_serial (s : State) : (s.stall).serial = s.serial := rfl
@[simp] theorem State.stall_freeCtr (s : State) : (s.stall).freeCtr = s.freeCtr := rfl
@[simp] theorem State.stall_inputs (s : State) : (s.stall).inputs = s.inputs := rfl
@[simp] theorem State.stall_plan (s : State) : (s.stall).plan = s.plan := rfl
@[simp] theorem State.stall_made (s : State) : (s.stall).made = s.made := rfl
@[simp] theorem State.stall_view (s : State) : (s.stall).view = s.view := rfl
@[simp] theorem State.stall_issue (s : State) : (s.stall).issue = s.issue.map (fun i => { i with stalled := true }) := rfl
@[simp] theorem State.stall_teams (s : State) : (s.stall).teams = s.teams := rfl
@[simp] theorem State.stall_launches (s : State) : (s.stall).launches = s.launches := rfl
@[simp] theorem State.stall_ctxs (s : State) : (s.stall).ctxs = s.ctxs := rfl
@[simp] theorem State.stall_dies (s : State) : (s.stall).dies = s.dies := rfl
@[simp] theorem State.stall_accs (s : State) : (s.stall).accs = s.accs := rfl
@[simp] theorem State.stall_ops (s : State) : (s.stall).ops = s.ops := rfl
@[simp] theorem State.stall_fills (s : State) : (s.stall).fills = s.fills := rfl
@[simp] theorem State.stall_records (s : State) : (s.stall).records = s.records := rfl
@[simp] theorem State.stall_units (s : State) : (s.stall).units = s.units := rfl
@[simp] theorem State.stall_invals (s : State) : (s.stall).invals = s.invals := rfl
@[simp] theorem State.stall_stale (s : State) : (s.stall).stale = s.stale := rfl
@[simp] theorem State.stall_hostSums (s : State) : (s.stall).hostSums = s.hostSums := rfl
@[simp] theorem State.stall_collSets (s : State) : (s.stall).collSets = s.collSets := rfl
@[simp] theorem State.stall_collAnswers (s : State) : (s.stall).collAnswers = s.collAnswers := rfl
@[simp] theorem State.stall_mem (s : State) : (s.stall).mem = s.mem := rfl
@[simp] theorem State.stall_lost (s : State) : (s.stall).lost = s.lost := rfl
@[simp] theorem State.stall_poison (s : State) : (s.stall).poison = s.poison := rfl
@[simp] theorem State.stall_ktag (s : State) : (s.stall).ktag = s.ktag := rfl
@[simp] theorem State.stall_strm (s : State) : (s.stall).strm = s.strm := rfl
@[simp] theorem State.stall_stored (s : State) : (s.stall).stored = s.stored := rfl
@[simp] theorem State.stall_domain0 (s : State) : (s.stall).domain0 = s.domain0 := rfl
@[simp] theorem State.stall_expBase (s : State) : (s.stall).expBase = s.expBase := rfl
@[simp] theorem State.stall_expN (s : State) : (s.stall).expN = s.expN := rfl
@[simp] theorem State.stall_lostDevices (s : State) : (s.stall).lostDevices = s.lostDevices := rfl
@[simp] theorem State.stall_hostIde (s : State) : (s.stall).hostIde = s.hostIde := rfl
@[simp] theorem State.stall_ports (s : State) : (s.stall).ports = s.ports := rfl
@[simp] theorem State.stall_fwState (s : State) : (s.stall).fwState = s.fwState := rfl
@[simp] theorem State.stall_fwErr (s : State) : (s.stall).fwErr = s.fwErr := rfl
@[simp] theorem State.stall_fwSvn (s : State) : (s.stall).fwSvn = s.fwSvn := rfl
@[simp] theorem State.stall_lmsLeft (s : State) : (s.stall).lmsLeft = s.lmsLeft := rfl
@[simp] theorem State.stall_attStat (s : State) : (s.stall).attStat = s.attStat := rfl
@[simp] theorem State.stall_attCtx (s : State) : (s.stall).attCtx = s.attCtx := rfl
@[simp] theorem State.stall_attNonce (s : State) : (s.stall).attNonce = s.attNonce := rfl
@[simp] theorem State.stall_attReport (s : State) : (s.stall).attReport = s.attReport := rfl
@[simp] theorem State.stall_moduleImage (s : State) : (s.stall).moduleImage = s.moduleImage := rfl
@[simp] theorem State.stall_fwImage (s : State) : (s.stall).fwImage = s.fwImage := rfl
@[simp] theorem State.stall_verifying (s : State) : (s.stall).verifying = s.verifying := rfl
@[simp] theorem State.stall_rcvWindow (s : State) : (s.stall).rcvWindow = s.rcvWindow := rfl
@[simp] theorem State.stall_clock (s : State) : (s.stall).clock = s.clock := rfl

/-! ### `addPend` -/

@[simp] theorem State.addPend_cycle (s : State) (n k : Nat) (r : List (Nat × Word)) (b : Bool) (c : Nat) (l : Bool) : (s.addPend n k r b c l).cycle = s.cycle := rfl
@[simp] theorem State.addPend_serial (s : State) (n k : Nat) (r : List (Nat × Word)) (b : Bool) (c : Nat) (l : Bool) : (s.addPend n k r b c l).serial = s.serial + 1 := rfl
@[simp] theorem State.addPend_freeCtr (s : State) (n k : Nat) (r : List (Nat × Word)) (b : Bool) (c : Nat) (l : Bool) : (s.addPend n k r b c l).freeCtr = s.freeCtr := rfl
@[simp] theorem State.addPend_inputs (s : State) (n k : Nat) (r : List (Nat × Word)) (b : Bool) (c : Nat) (l : Bool) : (s.addPend n k r b c l).inputs = s.inputs := rfl
@[simp] theorem State.addPend_plan (s : State) (n k : Nat) (r : List (Nat × Word)) (b : Bool) (c : Nat) (l : Bool) : (s.addPend n k r b c l).plan = s.plan := rfl
@[simp] theorem State.addPend_made (s : State) (n k : Nat) (r : List (Nat × Word)) (b : Bool) (c : Nat) (l : Bool) : (s.addPend n k r b c l).made = s.made := rfl
@[simp] theorem State.addPend_view (s : State) (n k : Nat) (r : List (Nat × Word)) (b : Bool) (c : Nat) (l : Bool) : (s.addPend n k r b c l).view = s.view := rfl
@[simp] theorem State.addPend_issue (s : State) (n k : Nat) (r : List (Nat × Word)) (b : Bool) (c : Nat) (l : Bool) : (s.addPend n k r b c l).issue = s.issue := rfl
@[simp] theorem State.addPend_launches (s : State) (n k : Nat) (r : List (Nat × Word)) (b : Bool) (c : Nat) (l : Bool) : (s.addPend n k r b c l).launches = s.launches := rfl
@[simp] theorem State.addPend_ctxs (s : State) (n k : Nat) (r : List (Nat × Word)) (b : Bool) (c : Nat) (l : Bool) : (s.addPend n k r b c l).ctxs = s.ctxs := rfl
@[simp] theorem State.addPend_dies (s : State) (n k : Nat) (r : List (Nat × Word)) (b : Bool) (c : Nat) (l : Bool) : (s.addPend n k r b c l).dies = s.dies := rfl
@[simp] theorem State.addPend_accs (s : State) (n k : Nat) (r : List (Nat × Word)) (b : Bool) (c : Nat) (l : Bool) : (s.addPend n k r b c l).accs = s.accs := rfl
@[simp] theorem State.addPend_ops (s : State) (n k : Nat) (r : List (Nat × Word)) (b : Bool) (c : Nat) (l : Bool) : (s.addPend n k r b c l).ops = s.ops := rfl
@[simp] theorem State.addPend_fills (s : State) (n k : Nat) (r : List (Nat × Word)) (b : Bool) (c : Nat) (l : Bool) : (s.addPend n k r b c l).fills = s.fills := rfl
@[simp] theorem State.addPend_records (s : State) (n k : Nat) (r : List (Nat × Word)) (b : Bool) (c : Nat) (l : Bool) : (s.addPend n k r b c l).records = s.records := rfl
@[simp] theorem State.addPend_units (s : State) (n k : Nat) (r : List (Nat × Word)) (b : Bool) (c : Nat) (l : Bool) : (s.addPend n k r b c l).units = s.units := rfl
@[simp] theorem State.addPend_invals (s : State) (n k : Nat) (r : List (Nat × Word)) (b : Bool) (c : Nat) (l : Bool) : (s.addPend n k r b c l).invals = s.invals := rfl
@[simp] theorem State.addPend_stale (s : State) (n k : Nat) (r : List (Nat × Word)) (b : Bool) (c : Nat) (l : Bool) : (s.addPend n k r b c l).stale = s.stale := rfl
@[simp] theorem State.addPend_hostSums (s : State) (n k : Nat) (r : List (Nat × Word)) (b : Bool) (c : Nat) (l : Bool) : (s.addPend n k r b c l).hostSums = s.hostSums := rfl
@[simp] theorem State.addPend_collSets (s : State) (n k : Nat) (r : List (Nat × Word)) (b : Bool) (c : Nat) (l : Bool) : (s.addPend n k r b c l).collSets = s.collSets := rfl
@[simp] theorem State.addPend_collAnswers (s : State) (n k : Nat) (r : List (Nat × Word)) (b : Bool) (c : Nat) (l : Bool) : (s.addPend n k r b c l).collAnswers = s.collAnswers := rfl
@[simp] theorem State.addPend_mem (s : State) (n k : Nat) (r : List (Nat × Word)) (b : Bool) (c : Nat) (l : Bool) : (s.addPend n k r b c l).mem = s.mem := rfl
@[simp] theorem State.addPend_lost (s : State) (n k : Nat) (r : List (Nat × Word)) (b : Bool) (c : Nat) (l : Bool) : (s.addPend n k r b c l).lost = s.lost := rfl
@[simp] theorem State.addPend_poison (s : State) (n k : Nat) (r : List (Nat × Word)) (b : Bool) (c : Nat) (l : Bool) : (s.addPend n k r b c l).poison = s.poison := rfl
@[simp] theorem State.addPend_ktag (s : State) (n k : Nat) (r : List (Nat × Word)) (b : Bool) (c : Nat) (l : Bool) : (s.addPend n k r b c l).ktag = s.ktag := rfl
@[simp] theorem State.addPend_strm (s : State) (n k : Nat) (r : List (Nat × Word)) (b : Bool) (c : Nat) (l : Bool) : (s.addPend n k r b c l).strm = s.strm := rfl
@[simp] theorem State.addPend_stored (s : State) (n k : Nat) (r : List (Nat × Word)) (b : Bool) (c : Nat) (l : Bool) : (s.addPend n k r b c l).stored = s.stored := rfl
@[simp] theorem State.addPend_domain0 (s : State) (n k : Nat) (r : List (Nat × Word)) (b : Bool) (c : Nat) (l : Bool) : (s.addPend n k r b c l).domain0 = s.domain0 := rfl
@[simp] theorem State.addPend_expBase (s : State) (n k : Nat) (r : List (Nat × Word)) (b : Bool) (c : Nat) (l : Bool) : (s.addPend n k r b c l).expBase = s.expBase := rfl
@[simp] theorem State.addPend_expN (s : State) (n k : Nat) (r : List (Nat × Word)) (b : Bool) (c : Nat) (l : Bool) : (s.addPend n k r b c l).expN = s.expN := rfl
@[simp] theorem State.addPend_lostDevices (s : State) (n k : Nat) (r : List (Nat × Word)) (b : Bool) (c : Nat) (l : Bool) : (s.addPend n k r b c l).lostDevices = s.lostDevices := rfl
@[simp] theorem State.addPend_hostIde (s : State) (n k : Nat) (r : List (Nat × Word)) (b : Bool) (c : Nat) (l : Bool) : (s.addPend n k r b c l).hostIde = s.hostIde := rfl
@[simp] theorem State.addPend_ports (s : State) (n k : Nat) (r : List (Nat × Word)) (b : Bool) (c : Nat) (l : Bool) : (s.addPend n k r b c l).ports = s.ports := rfl
@[simp] theorem State.addPend_fwState (s : State) (n k : Nat) (r : List (Nat × Word)) (b : Bool) (c : Nat) (l : Bool) : (s.addPend n k r b c l).fwState = s.fwState := rfl
@[simp] theorem State.addPend_fwErr (s : State) (n k : Nat) (r : List (Nat × Word)) (b : Bool) (c : Nat) (l : Bool) : (s.addPend n k r b c l).fwErr = s.fwErr := rfl
@[simp] theorem State.addPend_fwSvn (s : State) (n k : Nat) (r : List (Nat × Word)) (b : Bool) (c : Nat) (l : Bool) : (s.addPend n k r b c l).fwSvn = s.fwSvn := rfl
@[simp] theorem State.addPend_lmsLeft (s : State) (n k : Nat) (r : List (Nat × Word)) (b : Bool) (c : Nat) (l : Bool) : (s.addPend n k r b c l).lmsLeft = s.lmsLeft := rfl
@[simp] theorem State.addPend_attStat (s : State) (n k : Nat) (r : List (Nat × Word)) (b : Bool) (c : Nat) (l : Bool) : (s.addPend n k r b c l).attStat = s.attStat := rfl
@[simp] theorem State.addPend_attCtx (s : State) (n k : Nat) (r : List (Nat × Word)) (b : Bool) (c : Nat) (l : Bool) : (s.addPend n k r b c l).attCtx = s.attCtx := rfl
@[simp] theorem State.addPend_attNonce (s : State) (n k : Nat) (r : List (Nat × Word)) (b : Bool) (c : Nat) (l : Bool) : (s.addPend n k r b c l).attNonce = s.attNonce := rfl
@[simp] theorem State.addPend_attReport (s : State) (n k : Nat) (r : List (Nat × Word)) (b : Bool) (c : Nat) (l : Bool) : (s.addPend n k r b c l).attReport = s.attReport := rfl
@[simp] theorem State.addPend_moduleImage (s : State) (n k : Nat) (r : List (Nat × Word)) (b : Bool) (c : Nat) (l : Bool) : (s.addPend n k r b c l).moduleImage = s.moduleImage := rfl
@[simp] theorem State.addPend_fwImage (s : State) (n k : Nat) (r : List (Nat × Word)) (b : Bool) (c : Nat) (l : Bool) : (s.addPend n k r b c l).fwImage = s.fwImage := rfl
@[simp] theorem State.addPend_verifying (s : State) (n k : Nat) (r : List (Nat × Word)) (b : Bool) (c : Nat) (l : Bool) : (s.addPend n k r b c l).verifying = s.verifying := rfl
@[simp] theorem State.addPend_rcvWindow (s : State) (n k : Nat) (r : List (Nat × Word)) (b : Bool) (c : Nat) (l : Bool) : (s.addPend n k r b c l).rcvWindow = s.rcvWindow := rfl
@[simp] theorem State.addPend_clock (s : State) (n k : Nat) (r : List (Nat × Word)) (b : Bool) (c : Nat) (l : Bool) : (s.addPend n k r b c l).clock = s.clock := rfl

/-! ### `addAcc` -/

@[simp] theorem State.addAcc_cycle (s : State) (a : Acc) : (s.addAcc a).cycle = s.cycle := rfl
@[simp] theorem State.addAcc_serial (s : State) (a : Acc) : (s.addAcc a).serial = s.serial + 1 := rfl
@[simp] theorem State.addAcc_freeCtr (s : State) (a : Acc) : (s.addAcc a).freeCtr = s.freeCtr := rfl
@[simp] theorem State.addAcc_inputs (s : State) (a : Acc) : (s.addAcc a).inputs = s.inputs := rfl
@[simp] theorem State.addAcc_plan (s : State) (a : Acc) : (s.addAcc a).plan = s.plan := rfl
@[simp] theorem State.addAcc_made (s : State) (a : Acc) : (s.addAcc a).made = s.made := rfl
@[simp] theorem State.addAcc_view (s : State) (a : Acc) : (s.addAcc a).view = s.view := rfl
@[simp] theorem State.addAcc_issue (s : State) (a : Acc) : (s.addAcc a).issue = s.issue := rfl
@[simp] theorem State.addAcc_teams (s : State) (a : Acc) : (s.addAcc a).teams = s.teams := rfl
@[simp] theorem State.addAcc_launches (s : State) (a : Acc) : (s.addAcc a).launches = s.launches := rfl
@[simp] theorem State.addAcc_ctxs (s : State) (a : Acc) : (s.addAcc a).ctxs = s.ctxs := rfl
@[simp] theorem State.addAcc_dies (s : State) (a : Acc) : (s.addAcc a).dies = s.dies := rfl
@[simp] theorem State.addAcc_accs (s : State) (a : Acc) : (s.addAcc a).accs = s.accs ++ [{ a with id := s.serial, entry := s.entryFor a }] := rfl
@[simp] theorem State.addAcc_ops (s : State) (a : Acc) : (s.addAcc a).ops = s.ops := rfl
@[simp] theorem State.addAcc_fills (s : State) (a : Acc) : (s.addAcc a).fills = s.fills := rfl
@[simp] theorem State.addAcc_records (s : State) (a : Acc) : (s.addAcc a).records = s.records := rfl
@[simp] theorem State.addAcc_units (s : State) (a : Acc) : (s.addAcc a).units = s.units := rfl
@[simp] theorem State.addAcc_invals (s : State) (a : Acc) : (s.addAcc a).invals = s.invals := rfl
@[simp] theorem State.addAcc_stale (s : State) (a : Acc) : (s.addAcc a).stale = s.stale := rfl
@[simp] theorem State.addAcc_hostSums (s : State) (a : Acc) : (s.addAcc a).hostSums = s.hostSums := rfl
@[simp] theorem State.addAcc_collSets (s : State) (a : Acc) : (s.addAcc a).collSets = s.collSets := rfl
@[simp] theorem State.addAcc_collAnswers (s : State) (a : Acc) : (s.addAcc a).collAnswers = s.collAnswers := rfl
@[simp] theorem State.addAcc_mem (s : State) (a : Acc) : (s.addAcc a).mem = s.mem := rfl
@[simp] theorem State.addAcc_lost (s : State) (a : Acc) : (s.addAcc a).lost = s.lost := rfl
@[simp] theorem State.addAcc_poison (s : State) (a : Acc) : (s.addAcc a).poison = s.poison := rfl
@[simp] theorem State.addAcc_ktag (s : State) (a : Acc) : (s.addAcc a).ktag = s.ktag := rfl
@[simp] theorem State.addAcc_strm (s : State) (a : Acc) : (s.addAcc a).strm = s.strm := rfl
@[simp] theorem State.addAcc_stored (s : State) (a : Acc) : (s.addAcc a).stored = s.stored := rfl
@[simp] theorem State.addAcc_domain0 (s : State) (a : Acc) : (s.addAcc a).domain0 = s.domain0 := rfl
@[simp] theorem State.addAcc_expBase (s : State) (a : Acc) : (s.addAcc a).expBase = s.expBase := rfl
@[simp] theorem State.addAcc_expN (s : State) (a : Acc) : (s.addAcc a).expN = s.expN := rfl
@[simp] theorem State.addAcc_lostDevices (s : State) (a : Acc) : (s.addAcc a).lostDevices = s.lostDevices := rfl
@[simp] theorem State.addAcc_hostIde (s : State) (a : Acc) : (s.addAcc a).hostIde = s.hostIde := rfl
@[simp] theorem State.addAcc_ports (s : State) (a : Acc) : (s.addAcc a).ports = s.ports := rfl
@[simp] theorem State.addAcc_fwState (s : State) (a : Acc) : (s.addAcc a).fwState = s.fwState := rfl
@[simp] theorem State.addAcc_fwErr (s : State) (a : Acc) : (s.addAcc a).fwErr = s.fwErr := rfl
@[simp] theorem State.addAcc_fwSvn (s : State) (a : Acc) : (s.addAcc a).fwSvn = s.fwSvn := rfl
@[simp] theorem State.addAcc_lmsLeft (s : State) (a : Acc) : (s.addAcc a).lmsLeft = s.lmsLeft := rfl
@[simp] theorem State.addAcc_attStat (s : State) (a : Acc) : (s.addAcc a).attStat = s.attStat := rfl
@[simp] theorem State.addAcc_attCtx (s : State) (a : Acc) : (s.addAcc a).attCtx = s.attCtx := rfl
@[simp] theorem State.addAcc_attNonce (s : State) (a : Acc) : (s.addAcc a).attNonce = s.attNonce := rfl
@[simp] theorem State.addAcc_attReport (s : State) (a : Acc) : (s.addAcc a).attReport = s.attReport := rfl
@[simp] theorem State.addAcc_moduleImage (s : State) (a : Acc) : (s.addAcc a).moduleImage = s.moduleImage := rfl
@[simp] theorem State.addAcc_fwImage (s : State) (a : Acc) : (s.addAcc a).fwImage = s.fwImage := rfl
@[simp] theorem State.addAcc_verifying (s : State) (a : Acc) : (s.addAcc a).verifying = s.verifying := rfl
@[simp] theorem State.addAcc_rcvWindow (s : State) (a : Acc) : (s.addAcc a).rcvWindow = s.rcvWindow := rfl
@[simp] theorem State.addAcc_clock (s : State) (a : Acc) : (s.addAcc a).clock = s.clock := rfl

/-! ### `mapLaunch` -/

@[simp] theorem State.mapLaunch_cycle (s : State) (n : Nat) (f : Launch → Launch) : (s.mapLaunch n f).cycle = s.cycle := rfl
@[simp] theorem State.mapLaunch_serial (s : State) (n : Nat) (f : Launch → Launch) : (s.mapLaunch n f).serial = s.serial := rfl
@[simp] theorem State.mapLaunch_freeCtr (s : State) (n : Nat) (f : Launch → Launch) : (s.mapLaunch n f).freeCtr = s.freeCtr := rfl
@[simp] theorem State.mapLaunch_inputs (s : State) (n : Nat) (f : Launch → Launch) : (s.mapLaunch n f).inputs = s.inputs := rfl
@[simp] theorem State.mapLaunch_plan (s : State) (n : Nat) (f : Launch → Launch) : (s.mapLaunch n f).plan = s.plan := rfl
@[simp] theorem State.mapLaunch_made (s : State) (n : Nat) (f : Launch → Launch) : (s.mapLaunch n f).made = s.made := rfl
@[simp] theorem State.mapLaunch_view (s : State) (n : Nat) (f : Launch → Launch) : (s.mapLaunch n f).view = s.view := rfl
@[simp] theorem State.mapLaunch_issue (s : State) (n : Nat) (f : Launch → Launch) : (s.mapLaunch n f).issue = s.issue := rfl
@[simp] theorem State.mapLaunch_teams (s : State) (n : Nat) (f : Launch → Launch) : (s.mapLaunch n f).teams = s.teams := rfl
@[simp] theorem State.mapLaunch_launches (s : State) (n : Nat) (f : Launch → Launch) : (s.mapLaunch n f).launches = s.launches.map (fun l => if l.id = n then f l else l) := rfl
@[simp] theorem State.mapLaunch_ctxs (s : State) (n : Nat) (f : Launch → Launch) : (s.mapLaunch n f).ctxs = s.ctxs := rfl
@[simp] theorem State.mapLaunch_dies (s : State) (n : Nat) (f : Launch → Launch) : (s.mapLaunch n f).dies = s.dies := rfl
@[simp] theorem State.mapLaunch_accs (s : State) (n : Nat) (f : Launch → Launch) : (s.mapLaunch n f).accs = s.accs := rfl
@[simp] theorem State.mapLaunch_ops (s : State) (n : Nat) (f : Launch → Launch) : (s.mapLaunch n f).ops = s.ops := rfl
@[simp] theorem State.mapLaunch_fills (s : State) (n : Nat) (f : Launch → Launch) : (s.mapLaunch n f).fills = s.fills := rfl
@[simp] theorem State.mapLaunch_records (s : State) (n : Nat) (f : Launch → Launch) : (s.mapLaunch n f).records = s.records := rfl
@[simp] theorem State.mapLaunch_units (s : State) (n : Nat) (f : Launch → Launch) : (s.mapLaunch n f).units = s.units := rfl
@[simp] theorem State.mapLaunch_invals (s : State) (n : Nat) (f : Launch → Launch) : (s.mapLaunch n f).invals = s.invals := rfl
@[simp] theorem State.mapLaunch_stale (s : State) (n : Nat) (f : Launch → Launch) : (s.mapLaunch n f).stale = s.stale := rfl
@[simp] theorem State.mapLaunch_hostSums (s : State) (n : Nat) (f : Launch → Launch) : (s.mapLaunch n f).hostSums = s.hostSums := rfl
@[simp] theorem State.mapLaunch_collSets (s : State) (n : Nat) (f : Launch → Launch) : (s.mapLaunch n f).collSets = s.collSets := rfl
@[simp] theorem State.mapLaunch_collAnswers (s : State) (n : Nat) (f : Launch → Launch) : (s.mapLaunch n f).collAnswers = s.collAnswers := rfl
@[simp] theorem State.mapLaunch_mem (s : State) (n : Nat) (f : Launch → Launch) : (s.mapLaunch n f).mem = s.mem := rfl
@[simp] theorem State.mapLaunch_lost (s : State) (n : Nat) (f : Launch → Launch) : (s.mapLaunch n f).lost = s.lost := rfl
@[simp] theorem State.mapLaunch_poison (s : State) (n : Nat) (f : Launch → Launch) : (s.mapLaunch n f).poison = s.poison := rfl
@[simp] theorem State.mapLaunch_ktag (s : State) (n : Nat) (f : Launch → Launch) : (s.mapLaunch n f).ktag = s.ktag := rfl
@[simp] theorem State.mapLaunch_strm (s : State) (n : Nat) (f : Launch → Launch) : (s.mapLaunch n f).strm = s.strm := rfl
@[simp] theorem State.mapLaunch_stored (s : State) (n : Nat) (f : Launch → Launch) : (s.mapLaunch n f).stored = s.stored := rfl
@[simp] theorem State.mapLaunch_domain0 (s : State) (n : Nat) (f : Launch → Launch) : (s.mapLaunch n f).domain0 = s.domain0 := rfl
@[simp] theorem State.mapLaunch_expBase (s : State) (n : Nat) (f : Launch → Launch) : (s.mapLaunch n f).expBase = s.expBase := rfl
@[simp] theorem State.mapLaunch_expN (s : State) (n : Nat) (f : Launch → Launch) : (s.mapLaunch n f).expN = s.expN := rfl
@[simp] theorem State.mapLaunch_lostDevices (s : State) (n : Nat) (f : Launch → Launch) : (s.mapLaunch n f).lostDevices = s.lostDevices := rfl
@[simp] theorem State.mapLaunch_hostIde (s : State) (n : Nat) (f : Launch → Launch) : (s.mapLaunch n f).hostIde = s.hostIde := rfl
@[simp] theorem State.mapLaunch_ports (s : State) (n : Nat) (f : Launch → Launch) : (s.mapLaunch n f).ports = s.ports := rfl
@[simp] theorem State.mapLaunch_fwState (s : State) (n : Nat) (f : Launch → Launch) : (s.mapLaunch n f).fwState = s.fwState := rfl
@[simp] theorem State.mapLaunch_fwErr (s : State) (n : Nat) (f : Launch → Launch) : (s.mapLaunch n f).fwErr = s.fwErr := rfl
@[simp] theorem State.mapLaunch_fwSvn (s : State) (n : Nat) (f : Launch → Launch) : (s.mapLaunch n f).fwSvn = s.fwSvn := rfl
@[simp] theorem State.mapLaunch_lmsLeft (s : State) (n : Nat) (f : Launch → Launch) : (s.mapLaunch n f).lmsLeft = s.lmsLeft := rfl
@[simp] theorem State.mapLaunch_attStat (s : State) (n : Nat) (f : Launch → Launch) : (s.mapLaunch n f).attStat = s.attStat := rfl
@[simp] theorem State.mapLaunch_attCtx (s : State) (n : Nat) (f : Launch → Launch) : (s.mapLaunch n f).attCtx = s.attCtx := rfl
@[simp] theorem State.mapLaunch_attNonce (s : State) (n : Nat) (f : Launch → Launch) : (s.mapLaunch n f).attNonce = s.attNonce := rfl
@[simp] theorem State.mapLaunch_attReport (s : State) (n : Nat) (f : Launch → Launch) : (s.mapLaunch n f).attReport = s.attReport := rfl
@[simp] theorem State.mapLaunch_moduleImage (s : State) (n : Nat) (f : Launch → Launch) : (s.mapLaunch n f).moduleImage = s.moduleImage := rfl
@[simp] theorem State.mapLaunch_fwImage (s : State) (n : Nat) (f : Launch → Launch) : (s.mapLaunch n f).fwImage = s.fwImage := rfl
@[simp] theorem State.mapLaunch_verifying (s : State) (n : Nat) (f : Launch → Launch) : (s.mapLaunch n f).verifying = s.verifying := rfl
@[simp] theorem State.mapLaunch_rcvWindow (s : State) (n : Nat) (f : Launch → Launch) : (s.mapLaunch n f).rcvWindow = s.rcvWindow := rfl
@[simp] theorem State.mapLaunch_clock (s : State) (n : Nat) (f : Launch → Launch) : (s.mapLaunch n f).clock = s.clock := rfl

/-! ### `mapCtx` -/

@[simp] theorem State.mapCtx_cycle (s : State) (k : Nat) (f : Ctx → Ctx) : (s.mapCtx k f).cycle = s.cycle := rfl
@[simp] theorem State.mapCtx_serial (s : State) (k : Nat) (f : Ctx → Ctx) : (s.mapCtx k f).serial = s.serial := rfl
@[simp] theorem State.mapCtx_freeCtr (s : State) (k : Nat) (f : Ctx → Ctx) : (s.mapCtx k f).freeCtr = s.freeCtr := rfl
@[simp] theorem State.mapCtx_inputs (s : State) (k : Nat) (f : Ctx → Ctx) : (s.mapCtx k f).inputs = s.inputs := rfl
@[simp] theorem State.mapCtx_plan (s : State) (k : Nat) (f : Ctx → Ctx) : (s.mapCtx k f).plan = s.plan := rfl
@[simp] theorem State.mapCtx_made (s : State) (k : Nat) (f : Ctx → Ctx) : (s.mapCtx k f).made = s.made := rfl
@[simp] theorem State.mapCtx_view (s : State) (k : Nat) (f : Ctx → Ctx) : (s.mapCtx k f).view = s.view := rfl
@[simp] theorem State.mapCtx_issue (s : State) (k : Nat) (f : Ctx → Ctx) : (s.mapCtx k f).issue = s.issue := rfl
@[simp] theorem State.mapCtx_teams (s : State) (k : Nat) (f : Ctx → Ctx) : (s.mapCtx k f).teams = s.teams := rfl
@[simp] theorem State.mapCtx_launches (s : State) (k : Nat) (f : Ctx → Ctx) : (s.mapCtx k f).launches = s.launches := rfl
@[simp] theorem State.mapCtx_ctxs (s : State) (k : Nat) (f : Ctx → Ctx) : (s.mapCtx k f).ctxs = modifyAt s.ctxs k f := rfl
@[simp] theorem State.mapCtx_dies (s : State) (k : Nat) (f : Ctx → Ctx) : (s.mapCtx k f).dies = s.dies := rfl
@[simp] theorem State.mapCtx_accs (s : State) (k : Nat) (f : Ctx → Ctx) : (s.mapCtx k f).accs = s.accs := rfl
@[simp] theorem State.mapCtx_ops (s : State) (k : Nat) (f : Ctx → Ctx) : (s.mapCtx k f).ops = s.ops := rfl
@[simp] theorem State.mapCtx_fills (s : State) (k : Nat) (f : Ctx → Ctx) : (s.mapCtx k f).fills = s.fills := rfl
@[simp] theorem State.mapCtx_records (s : State) (k : Nat) (f : Ctx → Ctx) : (s.mapCtx k f).records = s.records := rfl
@[simp] theorem State.mapCtx_units (s : State) (k : Nat) (f : Ctx → Ctx) : (s.mapCtx k f).units = s.units := rfl
@[simp] theorem State.mapCtx_invals (s : State) (k : Nat) (f : Ctx → Ctx) : (s.mapCtx k f).invals = s.invals := rfl
@[simp] theorem State.mapCtx_stale (s : State) (k : Nat) (f : Ctx → Ctx) : (s.mapCtx k f).stale = s.stale := rfl
@[simp] theorem State.mapCtx_hostSums (s : State) (k : Nat) (f : Ctx → Ctx) : (s.mapCtx k f).hostSums = s.hostSums := rfl
@[simp] theorem State.mapCtx_collSets (s : State) (k : Nat) (f : Ctx → Ctx) : (s.mapCtx k f).collSets = s.collSets := rfl
@[simp] theorem State.mapCtx_collAnswers (s : State) (k : Nat) (f : Ctx → Ctx) : (s.mapCtx k f).collAnswers = s.collAnswers := rfl
@[simp] theorem State.mapCtx_mem (s : State) (k : Nat) (f : Ctx → Ctx) : (s.mapCtx k f).mem = s.mem := rfl
@[simp] theorem State.mapCtx_lost (s : State) (k : Nat) (f : Ctx → Ctx) : (s.mapCtx k f).lost = s.lost := rfl
@[simp] theorem State.mapCtx_poison (s : State) (k : Nat) (f : Ctx → Ctx) : (s.mapCtx k f).poison = s.poison := rfl
@[simp] theorem State.mapCtx_ktag (s : State) (k : Nat) (f : Ctx → Ctx) : (s.mapCtx k f).ktag = s.ktag := rfl
@[simp] theorem State.mapCtx_strm (s : State) (k : Nat) (f : Ctx → Ctx) : (s.mapCtx k f).strm = s.strm := rfl
@[simp] theorem State.mapCtx_stored (s : State) (k : Nat) (f : Ctx → Ctx) : (s.mapCtx k f).stored = s.stored := rfl
@[simp] theorem State.mapCtx_domain0 (s : State) (k : Nat) (f : Ctx → Ctx) : (s.mapCtx k f).domain0 = s.domain0 := rfl
@[simp] theorem State.mapCtx_expBase (s : State) (k : Nat) (f : Ctx → Ctx) : (s.mapCtx k f).expBase = s.expBase := rfl
@[simp] theorem State.mapCtx_expN (s : State) (k : Nat) (f : Ctx → Ctx) : (s.mapCtx k f).expN = s.expN := rfl
@[simp] theorem State.mapCtx_lostDevices (s : State) (k : Nat) (f : Ctx → Ctx) : (s.mapCtx k f).lostDevices = s.lostDevices := rfl
@[simp] theorem State.mapCtx_hostIde (s : State) (k : Nat) (f : Ctx → Ctx) : (s.mapCtx k f).hostIde = s.hostIde := rfl
@[simp] theorem State.mapCtx_ports (s : State) (k : Nat) (f : Ctx → Ctx) : (s.mapCtx k f).ports = s.ports := rfl
@[simp] theorem State.mapCtx_fwState (s : State) (k : Nat) (f : Ctx → Ctx) : (s.mapCtx k f).fwState = s.fwState := rfl
@[simp] theorem State.mapCtx_fwErr (s : State) (k : Nat) (f : Ctx → Ctx) : (s.mapCtx k f).fwErr = s.fwErr := rfl
@[simp] theorem State.mapCtx_fwSvn (s : State) (k : Nat) (f : Ctx → Ctx) : (s.mapCtx k f).fwSvn = s.fwSvn := rfl
@[simp] theorem State.mapCtx_lmsLeft (s : State) (k : Nat) (f : Ctx → Ctx) : (s.mapCtx k f).lmsLeft = s.lmsLeft := rfl
@[simp] theorem State.mapCtx_attStat (s : State) (k : Nat) (f : Ctx → Ctx) : (s.mapCtx k f).attStat = s.attStat := rfl
@[simp] theorem State.mapCtx_attCtx (s : State) (k : Nat) (f : Ctx → Ctx) : (s.mapCtx k f).attCtx = s.attCtx := rfl
@[simp] theorem State.mapCtx_attNonce (s : State) (k : Nat) (f : Ctx → Ctx) : (s.mapCtx k f).attNonce = s.attNonce := rfl
@[simp] theorem State.mapCtx_attReport (s : State) (k : Nat) (f : Ctx → Ctx) : (s.mapCtx k f).attReport = s.attReport := rfl
@[simp] theorem State.mapCtx_moduleImage (s : State) (k : Nat) (f : Ctx → Ctx) : (s.mapCtx k f).moduleImage = s.moduleImage := rfl
@[simp] theorem State.mapCtx_fwImage (s : State) (k : Nat) (f : Ctx → Ctx) : (s.mapCtx k f).fwImage = s.fwImage := rfl
@[simp] theorem State.mapCtx_verifying (s : State) (k : Nat) (f : Ctx → Ctx) : (s.mapCtx k f).verifying = s.verifying := rfl
@[simp] theorem State.mapCtx_rcvWindow (s : State) (k : Nat) (f : Ctx → Ctx) : (s.mapCtx k f).rcvWindow = s.rcvWindow := rfl
@[simp] theorem State.mapCtx_clock (s : State) (k : Nat) (f : Ctx → Ctx) : (s.mapCtx k f).clock = s.clock := rfl

/-! ### `mapDie` -/

@[simp] theorem State.mapDie_cycle (s : State) (d : Nat) (f : Die → Die) : (s.mapDie d f).cycle = s.cycle := rfl
@[simp] theorem State.mapDie_serial (s : State) (d : Nat) (f : Die → Die) : (s.mapDie d f).serial = s.serial := rfl
@[simp] theorem State.mapDie_freeCtr (s : State) (d : Nat) (f : Die → Die) : (s.mapDie d f).freeCtr = s.freeCtr := rfl
@[simp] theorem State.mapDie_inputs (s : State) (d : Nat) (f : Die → Die) : (s.mapDie d f).inputs = s.inputs := rfl
@[simp] theorem State.mapDie_plan (s : State) (d : Nat) (f : Die → Die) : (s.mapDie d f).plan = s.plan := rfl
@[simp] theorem State.mapDie_made (s : State) (d : Nat) (f : Die → Die) : (s.mapDie d f).made = s.made := rfl
@[simp] theorem State.mapDie_view (s : State) (d : Nat) (f : Die → Die) : (s.mapDie d f).view = s.view := rfl
@[simp] theorem State.mapDie_issue (s : State) (d : Nat) (f : Die → Die) : (s.mapDie d f).issue = s.issue := rfl
@[simp] theorem State.mapDie_teams (s : State) (d : Nat) (f : Die → Die) : (s.mapDie d f).teams = s.teams := rfl
@[simp] theorem State.mapDie_launches (s : State) (d : Nat) (f : Die → Die) : (s.mapDie d f).launches = s.launches := rfl
@[simp] theorem State.mapDie_ctxs (s : State) (d : Nat) (f : Die → Die) : (s.mapDie d f).ctxs = s.ctxs := rfl
@[simp] theorem State.mapDie_dies (s : State) (d : Nat) (f : Die → Die) : (s.mapDie d f).dies = modifyAt s.dies d f := rfl
@[simp] theorem State.mapDie_accs (s : State) (d : Nat) (f : Die → Die) : (s.mapDie d f).accs = s.accs := rfl
@[simp] theorem State.mapDie_ops (s : State) (d : Nat) (f : Die → Die) : (s.mapDie d f).ops = s.ops := rfl
@[simp] theorem State.mapDie_fills (s : State) (d : Nat) (f : Die → Die) : (s.mapDie d f).fills = s.fills := rfl
@[simp] theorem State.mapDie_records (s : State) (d : Nat) (f : Die → Die) : (s.mapDie d f).records = s.records := rfl
@[simp] theorem State.mapDie_units (s : State) (d : Nat) (f : Die → Die) : (s.mapDie d f).units = s.units := rfl
@[simp] theorem State.mapDie_invals (s : State) (d : Nat) (f : Die → Die) : (s.mapDie d f).invals = s.invals := rfl
@[simp] theorem State.mapDie_stale (s : State) (d : Nat) (f : Die → Die) : (s.mapDie d f).stale = s.stale := rfl
@[simp] theorem State.mapDie_hostSums (s : State) (d : Nat) (f : Die → Die) : (s.mapDie d f).hostSums = s.hostSums := rfl
@[simp] theorem State.mapDie_collSets (s : State) (d : Nat) (f : Die → Die) : (s.mapDie d f).collSets = s.collSets := rfl
@[simp] theorem State.mapDie_collAnswers (s : State) (d : Nat) (f : Die → Die) : (s.mapDie d f).collAnswers = s.collAnswers := rfl
@[simp] theorem State.mapDie_mem (s : State) (d : Nat) (f : Die → Die) : (s.mapDie d f).mem = s.mem := rfl
@[simp] theorem State.mapDie_lost (s : State) (d : Nat) (f : Die → Die) : (s.mapDie d f).lost = s.lost := rfl
@[simp] theorem State.mapDie_poison (s : State) (d : Nat) (f : Die → Die) : (s.mapDie d f).poison = s.poison := rfl
@[simp] theorem State.mapDie_ktag (s : State) (d : Nat) (f : Die → Die) : (s.mapDie d f).ktag = s.ktag := rfl
@[simp] theorem State.mapDie_strm (s : State) (d : Nat) (f : Die → Die) : (s.mapDie d f).strm = s.strm := rfl
@[simp] theorem State.mapDie_stored (s : State) (d : Nat) (f : Die → Die) : (s.mapDie d f).stored = s.stored := rfl
@[simp] theorem State.mapDie_domain0 (s : State) (d : Nat) (f : Die → Die) : (s.mapDie d f).domain0 = s.domain0 := rfl
@[simp] theorem State.mapDie_expBase (s : State) (d : Nat) (f : Die → Die) : (s.mapDie d f).expBase = s.expBase := rfl
@[simp] theorem State.mapDie_expN (s : State) (d : Nat) (f : Die → Die) : (s.mapDie d f).expN = s.expN := rfl
@[simp] theorem State.mapDie_lostDevices (s : State) (d : Nat) (f : Die → Die) : (s.mapDie d f).lostDevices = s.lostDevices := rfl
@[simp] theorem State.mapDie_hostIde (s : State) (d : Nat) (f : Die → Die) : (s.mapDie d f).hostIde = s.hostIde := rfl
@[simp] theorem State.mapDie_ports (s : State) (d : Nat) (f : Die → Die) : (s.mapDie d f).ports = s.ports := rfl
@[simp] theorem State.mapDie_fwState (s : State) (d : Nat) (f : Die → Die) : (s.mapDie d f).fwState = s.fwState := rfl
@[simp] theorem State.mapDie_fwErr (s : State) (d : Nat) (f : Die → Die) : (s.mapDie d f).fwErr = s.fwErr := rfl
@[simp] theorem State.mapDie_fwSvn (s : State) (d : Nat) (f : Die → Die) : (s.mapDie d f).fwSvn = s.fwSvn := rfl
@[simp] theorem State.mapDie_lmsLeft (s : State) (d : Nat) (f : Die → Die) : (s.mapDie d f).lmsLeft = s.lmsLeft := rfl
@[simp] theorem State.mapDie_attStat (s : State) (d : Nat) (f : Die → Die) : (s.mapDie d f).attStat = s.attStat := rfl
@[simp] theorem State.mapDie_attCtx (s : State) (d : Nat) (f : Die → Die) : (s.mapDie d f).attCtx = s.attCtx := rfl
@[simp] theorem State.mapDie_attNonce (s : State) (d : Nat) (f : Die → Die) : (s.mapDie d f).attNonce = s.attNonce := rfl
@[simp] theorem State.mapDie_attReport (s : State) (d : Nat) (f : Die → Die) : (s.mapDie d f).attReport = s.attReport := rfl
@[simp] theorem State.mapDie_moduleImage (s : State) (d : Nat) (f : Die → Die) : (s.mapDie d f).moduleImage = s.moduleImage := rfl
@[simp] theorem State.mapDie_fwImage (s : State) (d : Nat) (f : Die → Die) : (s.mapDie d f).fwImage = s.fwImage := rfl
@[simp] theorem State.mapDie_verifying (s : State) (d : Nat) (f : Die → Die) : (s.mapDie d f).verifying = s.verifying := rfl
@[simp] theorem State.mapDie_rcvWindow (s : State) (d : Nat) (f : Die → Die) : (s.mapDie d f).rcvWindow = s.rcvWindow := rfl
@[simp] theorem State.mapDie_clock (s : State) (d : Nat) (f : Die → Die) : (s.mapDie d f).clock = s.clock := rfl

/-! ### `mapRecord` -/

@[simp] theorem State.mapRecord_cycle (s : State) (n : Nat) (f : Record → Record) : (s.mapRecord n f).cycle = s.cycle := rfl
@[simp] theorem State.mapRecord_serial (s : State) (n : Nat) (f : Record → Record) : (s.mapRecord n f).serial = s.serial := rfl
@[simp] theorem State.mapRecord_freeCtr (s : State) (n : Nat) (f : Record → Record) : (s.mapRecord n f).freeCtr = s.freeCtr := rfl
@[simp] theorem State.mapRecord_inputs (s : State) (n : Nat) (f : Record → Record) : (s.mapRecord n f).inputs = s.inputs := rfl
@[simp] theorem State.mapRecord_plan (s : State) (n : Nat) (f : Record → Record) : (s.mapRecord n f).plan = s.plan := rfl
@[simp] theorem State.mapRecord_made (s : State) (n : Nat) (f : Record → Record) : (s.mapRecord n f).made = s.made := rfl
@[simp] theorem State.mapRecord_view (s : State) (n : Nat) (f : Record → Record) : (s.mapRecord n f).view = s.view := rfl
@[simp] theorem State.mapRecord_issue (s : State) (n : Nat) (f : Record → Record) : (s.mapRecord n f).issue = s.issue := rfl
@[simp] theorem State.mapRecord_teams (s : State) (n : Nat) (f : Record → Record) : (s.mapRecord n f).teams = s.teams := rfl
@[simp] theorem State.mapRecord_launches (s : State) (n : Nat) (f : Record → Record) : (s.mapRecord n f).launches = s.launches := rfl
@[simp] theorem State.mapRecord_ctxs (s : State) (n : Nat) (f : Record → Record) : (s.mapRecord n f).ctxs = s.ctxs := rfl
@[simp] theorem State.mapRecord_dies (s : State) (n : Nat) (f : Record → Record) : (s.mapRecord n f).dies = s.dies := rfl
@[simp] theorem State.mapRecord_accs (s : State) (n : Nat) (f : Record → Record) : (s.mapRecord n f).accs = s.accs := rfl
@[simp] theorem State.mapRecord_ops (s : State) (n : Nat) (f : Record → Record) : (s.mapRecord n f).ops = s.ops := rfl
@[simp] theorem State.mapRecord_fills (s : State) (n : Nat) (f : Record → Record) : (s.mapRecord n f).fills = s.fills := rfl
@[simp] theorem State.mapRecord_records (s : State) (n : Nat) (f : Record → Record) : (s.mapRecord n f).records = s.records.map (fun r => if r.id = n then f r else r) := rfl
@[simp] theorem State.mapRecord_units (s : State) (n : Nat) (f : Record → Record) : (s.mapRecord n f).units = s.units := rfl
@[simp] theorem State.mapRecord_invals (s : State) (n : Nat) (f : Record → Record) : (s.mapRecord n f).invals = s.invals := rfl
@[simp] theorem State.mapRecord_stale (s : State) (n : Nat) (f : Record → Record) : (s.mapRecord n f).stale = s.stale := rfl
@[simp] theorem State.mapRecord_hostSums (s : State) (n : Nat) (f : Record → Record) : (s.mapRecord n f).hostSums = s.hostSums := rfl
@[simp] theorem State.mapRecord_collSets (s : State) (n : Nat) (f : Record → Record) : (s.mapRecord n f).collSets = s.collSets := rfl
@[simp] theorem State.mapRecord_collAnswers (s : State) (n : Nat) (f : Record → Record) : (s.mapRecord n f).collAnswers = s.collAnswers := rfl
@[simp] theorem State.mapRecord_mem (s : State) (n : Nat) (f : Record → Record) : (s.mapRecord n f).mem = s.mem := rfl
@[simp] theorem State.mapRecord_lost (s : State) (n : Nat) (f : Record → Record) : (s.mapRecord n f).lost = s.lost := rfl
@[simp] theorem State.mapRecord_poison (s : State) (n : Nat) (f : Record → Record) : (s.mapRecord n f).poison = s.poison := rfl
@[simp] theorem State.mapRecord_ktag (s : State) (n : Nat) (f : Record → Record) : (s.mapRecord n f).ktag = s.ktag := rfl
@[simp] theorem State.mapRecord_strm (s : State) (n : Nat) (f : Record → Record) : (s.mapRecord n f).strm = s.strm := rfl
@[simp] theorem State.mapRecord_stored (s : State) (n : Nat) (f : Record → Record) : (s.mapRecord n f).stored = s.stored := rfl
@[simp] theorem State.mapRecord_domain0 (s : State) (n : Nat) (f : Record → Record) : (s.mapRecord n f).domain0 = s.domain0 := rfl
@[simp] theorem State.mapRecord_expBase (s : State) (n : Nat) (f : Record → Record) : (s.mapRecord n f).expBase = s.expBase := rfl
@[simp] theorem State.mapRecord_expN (s : State) (n : Nat) (f : Record → Record) : (s.mapRecord n f).expN = s.expN := rfl
@[simp] theorem State.mapRecord_lostDevices (s : State) (n : Nat) (f : Record → Record) : (s.mapRecord n f).lostDevices = s.lostDevices := rfl
@[simp] theorem State.mapRecord_hostIde (s : State) (n : Nat) (f : Record → Record) : (s.mapRecord n f).hostIde = s.hostIde := rfl
@[simp] theorem State.mapRecord_ports (s : State) (n : Nat) (f : Record → Record) : (s.mapRecord n f).ports = s.ports := rfl
@[simp] theorem State.mapRecord_fwState (s : State) (n : Nat) (f : Record → Record) : (s.mapRecord n f).fwState = s.fwState := rfl
@[simp] theorem State.mapRecord_fwErr (s : State) (n : Nat) (f : Record → Record) : (s.mapRecord n f).fwErr = s.fwErr := rfl
@[simp] theorem State.mapRecord_fwSvn (s : State) (n : Nat) (f : Record → Record) : (s.mapRecord n f).fwSvn = s.fwSvn := rfl
@[simp] theorem State.mapRecord_lmsLeft (s : State) (n : Nat) (f : Record → Record) : (s.mapRecord n f).lmsLeft = s.lmsLeft := rfl
@[simp] theorem State.mapRecord_attStat (s : State) (n : Nat) (f : Record → Record) : (s.mapRecord n f).attStat = s.attStat := rfl
@[simp] theorem State.mapRecord_attCtx (s : State) (n : Nat) (f : Record → Record) : (s.mapRecord n f).attCtx = s.attCtx := rfl
@[simp] theorem State.mapRecord_attNonce (s : State) (n : Nat) (f : Record → Record) : (s.mapRecord n f).attNonce = s.attNonce := rfl
@[simp] theorem State.mapRecord_attReport (s : State) (n : Nat) (f : Record → Record) : (s.mapRecord n f).attReport = s.attReport := rfl
@[simp] theorem State.mapRecord_moduleImage (s : State) (n : Nat) (f : Record → Record) : (s.mapRecord n f).moduleImage = s.moduleImage := rfl
@[simp] theorem State.mapRecord_fwImage (s : State) (n : Nat) (f : Record → Record) : (s.mapRecord n f).fwImage = s.fwImage := rfl
@[simp] theorem State.mapRecord_verifying (s : State) (n : Nat) (f : Record → Record) : (s.mapRecord n f).verifying = s.verifying := rfl
@[simp] theorem State.mapRecord_rcvWindow (s : State) (n : Nat) (f : Record → Record) : (s.mapRecord n f).rcvWindow = s.rcvWindow := rfl
@[simp] theorem State.mapRecord_clock (s : State) (n : Nat) (f : Record → Record) : (s.mapRecord n f).clock = s.clock := rfl

/-! ### `mapAcc` -/

@[simp] theorem State.mapAcc_cycle (s : State) (n : Nat) (f : Acc → Acc) : (s.mapAcc n f).cycle = s.cycle := rfl
@[simp] theorem State.mapAcc_serial (s : State) (n : Nat) (f : Acc → Acc) : (s.mapAcc n f).serial = s.serial := rfl
@[simp] theorem State.mapAcc_freeCtr (s : State) (n : Nat) (f : Acc → Acc) : (s.mapAcc n f).freeCtr = s.freeCtr := rfl
@[simp] theorem State.mapAcc_inputs (s : State) (n : Nat) (f : Acc → Acc) : (s.mapAcc n f).inputs = s.inputs := rfl
@[simp] theorem State.mapAcc_plan (s : State) (n : Nat) (f : Acc → Acc) : (s.mapAcc n f).plan = s.plan := rfl
@[simp] theorem State.mapAcc_made (s : State) (n : Nat) (f : Acc → Acc) : (s.mapAcc n f).made = s.made := rfl
@[simp] theorem State.mapAcc_view (s : State) (n : Nat) (f : Acc → Acc) : (s.mapAcc n f).view = s.view := rfl
@[simp] theorem State.mapAcc_issue (s : State) (n : Nat) (f : Acc → Acc) : (s.mapAcc n f).issue = s.issue := rfl
@[simp] theorem State.mapAcc_teams (s : State) (n : Nat) (f : Acc → Acc) : (s.mapAcc n f).teams = s.teams := rfl
@[simp] theorem State.mapAcc_launches (s : State) (n : Nat) (f : Acc → Acc) : (s.mapAcc n f).launches = s.launches := rfl
@[simp] theorem State.mapAcc_ctxs (s : State) (n : Nat) (f : Acc → Acc) : (s.mapAcc n f).ctxs = s.ctxs := rfl
@[simp] theorem State.mapAcc_dies (s : State) (n : Nat) (f : Acc → Acc) : (s.mapAcc n f).dies = s.dies := rfl
@[simp] theorem State.mapAcc_accs (s : State) (n : Nat) (f : Acc → Acc) : (s.mapAcc n f).accs = s.accs.map (fun a => if a.id = n then f a else a) := rfl
@[simp] theorem State.mapAcc_ops (s : State) (n : Nat) (f : Acc → Acc) : (s.mapAcc n f).ops = s.ops := rfl
@[simp] theorem State.mapAcc_fills (s : State) (n : Nat) (f : Acc → Acc) : (s.mapAcc n f).fills = s.fills := rfl
@[simp] theorem State.mapAcc_records (s : State) (n : Nat) (f : Acc → Acc) : (s.mapAcc n f).records = s.records := rfl
@[simp] theorem State.mapAcc_units (s : State) (n : Nat) (f : Acc → Acc) : (s.mapAcc n f).units = s.units := rfl
@[simp] theorem State.mapAcc_invals (s : State) (n : Nat) (f : Acc → Acc) : (s.mapAcc n f).invals = s.invals := rfl
@[simp] theorem State.mapAcc_stale (s : State) (n : Nat) (f : Acc → Acc) : (s.mapAcc n f).stale = s.stale := rfl
@[simp] theorem State.mapAcc_hostSums (s : State) (n : Nat) (f : Acc → Acc) : (s.mapAcc n f).hostSums = s.hostSums := rfl
@[simp] theorem State.mapAcc_collSets (s : State) (n : Nat) (f : Acc → Acc) : (s.mapAcc n f).collSets = s.collSets := rfl
@[simp] theorem State.mapAcc_collAnswers (s : State) (n : Nat) (f : Acc → Acc) : (s.mapAcc n f).collAnswers = s.collAnswers := rfl
@[simp] theorem State.mapAcc_mem (s : State) (n : Nat) (f : Acc → Acc) : (s.mapAcc n f).mem = s.mem := rfl
@[simp] theorem State.mapAcc_lost (s : State) (n : Nat) (f : Acc → Acc) : (s.mapAcc n f).lost = s.lost := rfl
@[simp] theorem State.mapAcc_poison (s : State) (n : Nat) (f : Acc → Acc) : (s.mapAcc n f).poison = s.poison := rfl
@[simp] theorem State.mapAcc_ktag (s : State) (n : Nat) (f : Acc → Acc) : (s.mapAcc n f).ktag = s.ktag := rfl
@[simp] theorem State.mapAcc_strm (s : State) (n : Nat) (f : Acc → Acc) : (s.mapAcc n f).strm = s.strm := rfl
@[simp] theorem State.mapAcc_stored (s : State) (n : Nat) (f : Acc → Acc) : (s.mapAcc n f).stored = s.stored := rfl
@[simp] theorem State.mapAcc_domain0 (s : State) (n : Nat) (f : Acc → Acc) : (s.mapAcc n f).domain0 = s.domain0 := rfl
@[simp] theorem State.mapAcc_expBase (s : State) (n : Nat) (f : Acc → Acc) : (s.mapAcc n f).expBase = s.expBase := rfl
@[simp] theorem State.mapAcc_expN (s : State) (n : Nat) (f : Acc → Acc) : (s.mapAcc n f).expN = s.expN := rfl
@[simp] theorem State.mapAcc_lostDevices (s : State) (n : Nat) (f : Acc → Acc) : (s.mapAcc n f).lostDevices = s.lostDevices := rfl
@[simp] theorem State.mapAcc_hostIde (s : State) (n : Nat) (f : Acc → Acc) : (s.mapAcc n f).hostIde = s.hostIde := rfl
@[simp] theorem State.mapAcc_ports (s : State) (n : Nat) (f : Acc → Acc) : (s.mapAcc n f).ports = s.ports := rfl
@[simp] theorem State.mapAcc_fwState (s : State) (n : Nat) (f : Acc → Acc) : (s.mapAcc n f).fwState = s.fwState := rfl
@[simp] theorem State.mapAcc_fwErr (s : State) (n : Nat) (f : Acc → Acc) : (s.mapAcc n f).fwErr = s.fwErr := rfl
@[simp] theorem State.mapAcc_fwSvn (s : State) (n : Nat) (f : Acc → Acc) : (s.mapAcc n f).fwSvn = s.fwSvn := rfl
@[simp] theorem State.mapAcc_lmsLeft (s : State) (n : Nat) (f : Acc → Acc) : (s.mapAcc n f).lmsLeft = s.lmsLeft := rfl
@[simp] theorem State.mapAcc_attStat (s : State) (n : Nat) (f : Acc → Acc) : (s.mapAcc n f).attStat = s.attStat := rfl
@[simp] theorem State.mapAcc_attCtx (s : State) (n : Nat) (f : Acc → Acc) : (s.mapAcc n f).attCtx = s.attCtx := rfl
@[simp] theorem State.mapAcc_attNonce (s : State) (n : Nat) (f : Acc → Acc) : (s.mapAcc n f).attNonce = s.attNonce := rfl
@[simp] theorem State.mapAcc_attReport (s : State) (n : Nat) (f : Acc → Acc) : (s.mapAcc n f).attReport = s.attReport := rfl
@[simp] theorem State.mapAcc_moduleImage (s : State) (n : Nat) (f : Acc → Acc) : (s.mapAcc n f).moduleImage = s.moduleImage := rfl
@[simp] theorem State.mapAcc_fwImage (s : State) (n : Nat) (f : Acc → Acc) : (s.mapAcc n f).fwImage = s.fwImage := rfl
@[simp] theorem State.mapAcc_verifying (s : State) (n : Nat) (f : Acc → Acc) : (s.mapAcc n f).verifying = s.verifying := rfl
@[simp] theorem State.mapAcc_rcvWindow (s : State) (n : Nat) (f : Acc → Acc) : (s.mapAcc n f).rcvWindow = s.rcvWindow := rfl
@[simp] theorem State.mapAcc_clock (s : State) (n : Nat) (f : Acc → Acc) : (s.mapAcc n f).clock = s.clock := rfl

/-! ### `dropAcc` -/

@[simp] theorem State.dropAcc_cycle (s : State) (n : Nat) : (s.dropAcc n).cycle = s.cycle := rfl
@[simp] theorem State.dropAcc_serial (s : State) (n : Nat) : (s.dropAcc n).serial = s.serial := rfl
@[simp] theorem State.dropAcc_freeCtr (s : State) (n : Nat) : (s.dropAcc n).freeCtr = s.freeCtr := rfl
@[simp] theorem State.dropAcc_inputs (s : State) (n : Nat) : (s.dropAcc n).inputs = s.inputs := rfl
@[simp] theorem State.dropAcc_plan (s : State) (n : Nat) : (s.dropAcc n).plan = s.plan := rfl
@[simp] theorem State.dropAcc_made (s : State) (n : Nat) : (s.dropAcc n).made = s.made := rfl
@[simp] theorem State.dropAcc_view (s : State) (n : Nat) : (s.dropAcc n).view = s.view := rfl
@[simp] theorem State.dropAcc_issue (s : State) (n : Nat) : (s.dropAcc n).issue = s.issue := rfl
@[simp] theorem State.dropAcc_teams (s : State) (n : Nat) : (s.dropAcc n).teams = s.teams := rfl
@[simp] theorem State.dropAcc_launches (s : State) (n : Nat) : (s.dropAcc n).launches = s.launches := rfl
@[simp] theorem State.dropAcc_ctxs (s : State) (n : Nat) : (s.dropAcc n).ctxs = s.ctxs := rfl
@[simp] theorem State.dropAcc_dies (s : State) (n : Nat) : (s.dropAcc n).dies = s.dies := rfl
@[simp] theorem State.dropAcc_accs (s : State) (n : Nat) : (s.dropAcc n).accs = s.accs.filter (fun a => decide (a.id ≠ n)) := rfl
@[simp] theorem State.dropAcc_ops (s : State) (n : Nat) : (s.dropAcc n).ops = s.ops := rfl
@[simp] theorem State.dropAcc_fills (s : State) (n : Nat) : (s.dropAcc n).fills = s.fills := rfl
@[simp] theorem State.dropAcc_records (s : State) (n : Nat) : (s.dropAcc n).records = s.records := rfl
@[simp] theorem State.dropAcc_units (s : State) (n : Nat) : (s.dropAcc n).units = s.units := rfl
@[simp] theorem State.dropAcc_invals (s : State) (n : Nat) : (s.dropAcc n).invals = s.invals := rfl
@[simp] theorem State.dropAcc_stale (s : State) (n : Nat) : (s.dropAcc n).stale = s.stale := rfl
@[simp] theorem State.dropAcc_hostSums (s : State) (n : Nat) : (s.dropAcc n).hostSums = s.hostSums := rfl
@[simp] theorem State.dropAcc_collSets (s : State) (n : Nat) : (s.dropAcc n).collSets = s.collSets := rfl
@[simp] theorem State.dropAcc_collAnswers (s : State) (n : Nat) : (s.dropAcc n).collAnswers = s.collAnswers := rfl
@[simp] theorem State.dropAcc_mem (s : State) (n : Nat) : (s.dropAcc n).mem = s.mem := rfl
@[simp] theorem State.dropAcc_lost (s : State) (n : Nat) : (s.dropAcc n).lost = s.lost := rfl
@[simp] theorem State.dropAcc_poison (s : State) (n : Nat) : (s.dropAcc n).poison = s.poison := rfl
@[simp] theorem State.dropAcc_ktag (s : State) (n : Nat) : (s.dropAcc n).ktag = s.ktag := rfl
@[simp] theorem State.dropAcc_strm (s : State) (n : Nat) : (s.dropAcc n).strm = s.strm := rfl
@[simp] theorem State.dropAcc_stored (s : State) (n : Nat) : (s.dropAcc n).stored = s.stored := rfl
@[simp] theorem State.dropAcc_domain0 (s : State) (n : Nat) : (s.dropAcc n).domain0 = s.domain0 := rfl
@[simp] theorem State.dropAcc_expBase (s : State) (n : Nat) : (s.dropAcc n).expBase = s.expBase := rfl
@[simp] theorem State.dropAcc_expN (s : State) (n : Nat) : (s.dropAcc n).expN = s.expN := rfl
@[simp] theorem State.dropAcc_lostDevices (s : State) (n : Nat) : (s.dropAcc n).lostDevices = s.lostDevices := rfl
@[simp] theorem State.dropAcc_hostIde (s : State) (n : Nat) : (s.dropAcc n).hostIde = s.hostIde := rfl
@[simp] theorem State.dropAcc_ports (s : State) (n : Nat) : (s.dropAcc n).ports = s.ports := rfl
@[simp] theorem State.dropAcc_fwState (s : State) (n : Nat) : (s.dropAcc n).fwState = s.fwState := rfl
@[simp] theorem State.dropAcc_fwErr (s : State) (n : Nat) : (s.dropAcc n).fwErr = s.fwErr := rfl
@[simp] theorem State.dropAcc_fwSvn (s : State) (n : Nat) : (s.dropAcc n).fwSvn = s.fwSvn := rfl
@[simp] theorem State.dropAcc_lmsLeft (s : State) (n : Nat) : (s.dropAcc n).lmsLeft = s.lmsLeft := rfl
@[simp] theorem State.dropAcc_attStat (s : State) (n : Nat) : (s.dropAcc n).attStat = s.attStat := rfl
@[simp] theorem State.dropAcc_attCtx (s : State) (n : Nat) : (s.dropAcc n).attCtx = s.attCtx := rfl
@[simp] theorem State.dropAcc_attNonce (s : State) (n : Nat) : (s.dropAcc n).attNonce = s.attNonce := rfl
@[simp] theorem State.dropAcc_attReport (s : State) (n : Nat) : (s.dropAcc n).attReport = s.attReport := rfl
@[simp] theorem State.dropAcc_moduleImage (s : State) (n : Nat) : (s.dropAcc n).moduleImage = s.moduleImage := rfl
@[simp] theorem State.dropAcc_fwImage (s : State) (n : Nat) : (s.dropAcc n).fwImage = s.fwImage := rfl
@[simp] theorem State.dropAcc_verifying (s : State) (n : Nat) : (s.dropAcc n).verifying = s.verifying := rfl
@[simp] theorem State.dropAcc_rcvWindow (s : State) (n : Nat) : (s.dropAcc n).rcvWindow = s.rcvWindow := rfl
@[simp] theorem State.dropAcc_clock (s : State) (n : Nat) : (s.dropAcc n).clock = s.clock := rfl

/-! ### `mapOp` -/

@[simp] theorem State.mapOp_cycle (s : State) (n : Nat) (f : Op → Op) : (s.mapOp n f).cycle = s.cycle := rfl
@[simp] theorem State.mapOp_serial (s : State) (n : Nat) (f : Op → Op) : (s.mapOp n f).serial = s.serial := rfl
@[simp] theorem State.mapOp_freeCtr (s : State) (n : Nat) (f : Op → Op) : (s.mapOp n f).freeCtr = s.freeCtr := rfl
@[simp] theorem State.mapOp_inputs (s : State) (n : Nat) (f : Op → Op) : (s.mapOp n f).inputs = s.inputs := rfl
@[simp] theorem State.mapOp_plan (s : State) (n : Nat) (f : Op → Op) : (s.mapOp n f).plan = s.plan := rfl
@[simp] theorem State.mapOp_made (s : State) (n : Nat) (f : Op → Op) : (s.mapOp n f).made = s.made := rfl
@[simp] theorem State.mapOp_view (s : State) (n : Nat) (f : Op → Op) : (s.mapOp n f).view = s.view := rfl
@[simp] theorem State.mapOp_issue (s : State) (n : Nat) (f : Op → Op) : (s.mapOp n f).issue = s.issue := rfl
@[simp] theorem State.mapOp_teams (s : State) (n : Nat) (f : Op → Op) : (s.mapOp n f).teams = s.teams := rfl
@[simp] theorem State.mapOp_launches (s : State) (n : Nat) (f : Op → Op) : (s.mapOp n f).launches = s.launches := rfl
@[simp] theorem State.mapOp_ctxs (s : State) (n : Nat) (f : Op → Op) : (s.mapOp n f).ctxs = s.ctxs := rfl
@[simp] theorem State.mapOp_dies (s : State) (n : Nat) (f : Op → Op) : (s.mapOp n f).dies = s.dies := rfl
@[simp] theorem State.mapOp_accs (s : State) (n : Nat) (f : Op → Op) : (s.mapOp n f).accs = s.accs := rfl
@[simp] theorem State.mapOp_ops (s : State) (n : Nat) (f : Op → Op) : (s.mapOp n f).ops = s.ops.map (fun o => if o.serial = n then f o else o) := rfl
@[simp] theorem State.mapOp_fills (s : State) (n : Nat) (f : Op → Op) : (s.mapOp n f).fills = s.fills := rfl
@[simp] theorem State.mapOp_records (s : State) (n : Nat) (f : Op → Op) : (s.mapOp n f).records = s.records := rfl
@[simp] theorem State.mapOp_units (s : State) (n : Nat) (f : Op → Op) : (s.mapOp n f).units = s.units := rfl
@[simp] theorem State.mapOp_invals (s : State) (n : Nat) (f : Op → Op) : (s.mapOp n f).invals = s.invals := rfl
@[simp] theorem State.mapOp_stale (s : State) (n : Nat) (f : Op → Op) : (s.mapOp n f).stale = s.stale := rfl
@[simp] theorem State.mapOp_hostSums (s : State) (n : Nat) (f : Op → Op) : (s.mapOp n f).hostSums = s.hostSums := rfl
@[simp] theorem State.mapOp_collSets (s : State) (n : Nat) (f : Op → Op) : (s.mapOp n f).collSets = s.collSets := rfl
@[simp] theorem State.mapOp_collAnswers (s : State) (n : Nat) (f : Op → Op) : (s.mapOp n f).collAnswers = s.collAnswers := rfl
@[simp] theorem State.mapOp_mem (s : State) (n : Nat) (f : Op → Op) : (s.mapOp n f).mem = s.mem := rfl
@[simp] theorem State.mapOp_lost (s : State) (n : Nat) (f : Op → Op) : (s.mapOp n f).lost = s.lost := rfl
@[simp] theorem State.mapOp_poison (s : State) (n : Nat) (f : Op → Op) : (s.mapOp n f).poison = s.poison := rfl
@[simp] theorem State.mapOp_ktag (s : State) (n : Nat) (f : Op → Op) : (s.mapOp n f).ktag = s.ktag := rfl
@[simp] theorem State.mapOp_strm (s : State) (n : Nat) (f : Op → Op) : (s.mapOp n f).strm = s.strm := rfl
@[simp] theorem State.mapOp_stored (s : State) (n : Nat) (f : Op → Op) : (s.mapOp n f).stored = s.stored := rfl
@[simp] theorem State.mapOp_domain0 (s : State) (n : Nat) (f : Op → Op) : (s.mapOp n f).domain0 = s.domain0 := rfl
@[simp] theorem State.mapOp_expBase (s : State) (n : Nat) (f : Op → Op) : (s.mapOp n f).expBase = s.expBase := rfl
@[simp] theorem State.mapOp_expN (s : State) (n : Nat) (f : Op → Op) : (s.mapOp n f).expN = s.expN := rfl
@[simp] theorem State.mapOp_lostDevices (s : State) (n : Nat) (f : Op → Op) : (s.mapOp n f).lostDevices = s.lostDevices := rfl
@[simp] theorem State.mapOp_hostIde (s : State) (n : Nat) (f : Op → Op) : (s.mapOp n f).hostIde = s.hostIde := rfl
@[simp] theorem State.mapOp_ports (s : State) (n : Nat) (f : Op → Op) : (s.mapOp n f).ports = s.ports := rfl
@[simp] theorem State.mapOp_fwState (s : State) (n : Nat) (f : Op → Op) : (s.mapOp n f).fwState = s.fwState := rfl
@[simp] theorem State.mapOp_fwErr (s : State) (n : Nat) (f : Op → Op) : (s.mapOp n f).fwErr = s.fwErr := rfl
@[simp] theorem State.mapOp_fwSvn (s : State) (n : Nat) (f : Op → Op) : (s.mapOp n f).fwSvn = s.fwSvn := rfl
@[simp] theorem State.mapOp_lmsLeft (s : State) (n : Nat) (f : Op → Op) : (s.mapOp n f).lmsLeft = s.lmsLeft := rfl
@[simp] theorem State.mapOp_attStat (s : State) (n : Nat) (f : Op → Op) : (s.mapOp n f).attStat = s.attStat := rfl
@[simp] theorem State.mapOp_attCtx (s : State) (n : Nat) (f : Op → Op) : (s.mapOp n f).attCtx = s.attCtx := rfl
@[simp] theorem State.mapOp_attNonce (s : State) (n : Nat) (f : Op → Op) : (s.mapOp n f).attNonce = s.attNonce := rfl
@[simp] theorem State.mapOp_attReport (s : State) (n : Nat) (f : Op → Op) : (s.mapOp n f).attReport = s.attReport := rfl
@[simp] theorem State.mapOp_moduleImage (s : State) (n : Nat) (f : Op → Op) : (s.mapOp n f).moduleImage = s.moduleImage := rfl
@[simp] theorem State.mapOp_fwImage (s : State) (n : Nat) (f : Op → Op) : (s.mapOp n f).fwImage = s.fwImage := rfl
@[simp] theorem State.mapOp_verifying (s : State) (n : Nat) (f : Op → Op) : (s.mapOp n f).verifying = s.verifying := rfl
@[simp] theorem State.mapOp_rcvWindow (s : State) (n : Nat) (f : Op → Op) : (s.mapOp n f).rcvWindow = s.rcvWindow := rfl
@[simp] theorem State.mapOp_clock (s : State) (n : Nat) (f : Op → Op) : (s.mapOp n f).clock = s.clock := rfl

/-! ### A team with one thread or one home sheaf changed -/

@[simp] theorem Team.mapThread_id (t : Team) (k : Nat) (f : Thread → Thread) : (t.mapThread k f).id = t.id := rfl
@[simp] theorem Team.mapThread_launch (t : Team) (k : Nat) (f : Thread → Thread) : (t.mapThread k f).launch = t.launch := rfl
@[simp] theorem Team.mapThread_ctx (t : Team) (k : Nat) (f : Thread → Thread) : (t.mapThread k f).ctx = t.ctx := rfl
@[simp] theorem Team.mapThread_cohort (t : Team) (k : Nat) (f : Thread → Thread) : (t.mapThread k f).cohort = t.cohort := rfl
@[simp] theorem Team.mapThread_number (t : Team) (k : Nat) (f : Thread → Thread) : (t.mapThread k f).number = t.number := rfl
@[simp] theorem Team.mapThread_die (t : Team) (k : Nat) (f : Thread → Thread) : (t.mapThread k f).die = t.die := rfl
@[simp] theorem Team.mapThread_core (t : Team) (k : Nat) (f : Thread → Thread) : (t.mapThread k f).core = t.core := rfl
@[simp] theorem Team.mapThread_width (t : Team) (k : Nat) (f : Thread → Thread) : (t.mapThread k f).width = t.width := rfl
@[simp] theorem Team.mapThread_tbits (t : Team) (k : Nat) (f : Thread → Thread) : (t.mapThread k f).tbits = t.tbits := rfl
@[simp] theorem Team.mapThread_depth (t : Team) (k : Nat) (f : Thread → Thread) : (t.mapThread k f).depth = t.depth := rfl
@[simp] theorem Team.mapThread_scr (t : Team) (k : Nat) (f : Thread → Thread) : (t.mapThread k f).scr = t.scr := rfl
@[simp] theorem Team.mapThread_acc (t : Team) (k : Nat) (f : Thread → Thread) : (t.mapThread k f).acc = t.acc := rfl
@[simp] theorem Team.mapThread_run (t : Team) (k : Nat) (f : Thread → Thread) : (t.mapThread k f).run = t.run := rfl
@[simp] theorem Team.mapThread_granules (t : Team) (k : Nat) (f : Thread → Thread) : (t.mapThread k f).granules = t.granules := rfl
@[simp] theorem Team.mapThread_slots (t : Team) (k : Nat) (f : Thread → Thread) : (t.mapThread k f).slots = t.slots := rfl
@[simp] theorem Team.mapThread_lastIssue (t : Team) (k : Nat) (f : Thread → Thread) : (t.mapThread k f).lastIssue = t.lastIssue := rfl
@[simp] theorem Team.mapThread_threads (t : Team) (k : Nat) (f : Thread → Thread) : (t.mapThread k f).threads = modifyAt t.threads k f := rfl
@[simp] theorem Team.mapThread_sheaves (t : Team) (k : Nat) (f : Thread → Thread) : (t.mapThread k f).sheaves = t.sheaves := rfl
@[simp] theorem Team.mapThread_scratch (t : Team) (k : Nat) (f : Thread → Thread) : (t.mapThread k f).scratch = t.scratch := rfl
@[simp] theorem Team.mapThread_tiles (t : Team) (k : Nat) (f : Thread → Thread) : (t.mapThread k f).tiles = t.tiles := rfl
@[simp] theorem Team.mapThread_wslots (t : Team) (k : Nat) (f : Thread → Thread) : (t.mapThread k f).wslots = t.wslots := rfl
@[simp] theorem Team.mapThread_queues (t : Team) (k : Nat) (f : Thread → Thread) : (t.mapThread k f).queues = t.queues := rfl
@[simp] theorem Team.mapThread_baton (t : Team) (k : Nat) (f : Thread → Thread) : (t.mapThread k f).baton = t.baton := rfl
@[simp] theorem Team.mapThread_passing (t : Team) (k : Nat) (f : Thread → Thread) : (t.mapThread k f).passing = t.passing := rfl
@[simp] theorem Team.mapThread_batches (t : Team) (k : Nat) (f : Thread → Thread) : (t.mapThread k f).batches = t.batches := rfl
@[simp] theorem Team.mapThread_mops (t : Team) (k : Nat) (f : Thread → Thread) : (t.mapThread k f).mops = t.mops := rfl
@[simp] theorem Team.mapThread_node (t : Team) (k : Nat) (f : Thread → Thread) : (t.mapThread k f).node = t.node := rfl
@[simp] theorem Team.mapThread_bound (t : Team) (k : Nat) (f : Thread → Thread) : (t.mapThread k f).bound = t.bound := rfl
@[simp] theorem Team.mapThread_ended (t : Team) (k : Nat) (f : Thread → Thread) : (t.mapThread k f).ended = t.ended := rfl
@[simp] theorem Team.mapThread_vdie (t : Team) (k : Nat) (f : Thread → Thread) : (t.mapThread k f).vdie = t.vdie := rfl
@[simp] theorem Team.mapThread_res (t : Team) (k : Nat) (f : Thread → Thread) : (t.mapThread k f).res = t.res := rfl
@[simp] theorem Team.mapThread_tenure (t : Team) (k : Nat) (f : Thread → Thread) : (t.mapThread k f).tenure = t.tenure := rfl
@[simp] theorem Team.mapThread_overdue (t : Team) (k : Nat) (f : Thread → Thread) : (t.mapThread k f).overdue = t.overdue := rfl
@[simp] theorem Team.mapThread_eff (t : Team) (k : Nat) (f : Thread → Thread) : (t.mapThread k f).eff = t.eff := rfl
@[simp] theorem Team.mapThread_progT (t : Team) (k : Nat) (f : Thread → Thread) : (t.mapThread k f).progT = t.progT := rfl
@[simp] theorem Team.mapThread_progN (t : Team) (k : Nat) (f : Thread → Thread) : (t.mapThread k f).progN = t.progN := rfl
@[simp] theorem Team.mapThread_progE (t : Team) (k : Nat) (f : Thread → Thread) : (t.mapThread k f).progE = t.progE := rfl
@[simp] theorem Team.mapThread_written (t : Team) (k : Nat) (f : Thread → Thread) : (t.mapThread k f).written = t.written := rfl
@[simp] theorem Team.mapThread_startCycle (t : Team) (k : Nat) (f : Thread → Thread) : (t.mapThread k f).startCycle = t.startCycle := rfl
@[simp] theorem Team.mapThread_startOrder (t : Team) (k : Nat) (f : Thread → Thread) : (t.mapThread k f).startOrder = t.startOrder := rfl
@[simp] theorem Team.mapThread_since (t : Team) (k : Nat) (f : Thread → Thread) : (t.mapThread k f).since = t.since := rfl
@[simp] theorem Team.mapThread_saveUnits (t : Team) (k : Nat) (f : Thread → Thread) : (t.mapThread k f).saveUnits = t.saveUnits := rfl
@[simp] theorem Team.mapThread_regroups (t : Team) (k : Nat) (f : Thread → Thread) : (t.mapThread k f).regroups = t.regroups := rfl
@[simp] theorem Team.mapThread_wlog (t : Team) (k : Nat) (f : Thread → Thread) : (t.mapThread k f).wlog = t.wlog := rfl
@[simp] theorem Team.mapThread_pushed (t : Team) (k : Nat) (f : Thread → Thread) : (t.mapThread k f).pushed = t.pushed := rfl
@[simp] theorem Team.mapThread_sup (t : Team) (k : Nat) (f : Thread → Thread) : (t.mapThread k f).sup = t.sup := rfl
@[simp] theorem Team.mapSheaf_id (t : Team) (h : Nat) (f : Sheaf → Sheaf) : (t.mapSheaf h f).id = t.id := rfl
@[simp] theorem Team.mapSheaf_launch (t : Team) (h : Nat) (f : Sheaf → Sheaf) : (t.mapSheaf h f).launch = t.launch := rfl
@[simp] theorem Team.mapSheaf_ctx (t : Team) (h : Nat) (f : Sheaf → Sheaf) : (t.mapSheaf h f).ctx = t.ctx := rfl
@[simp] theorem Team.mapSheaf_cohort (t : Team) (h : Nat) (f : Sheaf → Sheaf) : (t.mapSheaf h f).cohort = t.cohort := rfl
@[simp] theorem Team.mapSheaf_number (t : Team) (h : Nat) (f : Sheaf → Sheaf) : (t.mapSheaf h f).number = t.number := rfl
@[simp] theorem Team.mapSheaf_die (t : Team) (h : Nat) (f : Sheaf → Sheaf) : (t.mapSheaf h f).die = t.die := rfl
@[simp] theorem Team.mapSheaf_core (t : Team) (h : Nat) (f : Sheaf → Sheaf) : (t.mapSheaf h f).core = t.core := rfl
@[simp] theorem Team.mapSheaf_width (t : Team) (h : Nat) (f : Sheaf → Sheaf) : (t.mapSheaf h f).width = t.width := rfl
@[simp] theorem Team.mapSheaf_tbits (t : Team) (h : Nat) (f : Sheaf → Sheaf) : (t.mapSheaf h f).tbits = t.tbits := rfl
@[simp] theorem Team.mapSheaf_depth (t : Team) (h : Nat) (f : Sheaf → Sheaf) : (t.mapSheaf h f).depth = t.depth := rfl
@[simp] theorem Team.mapSheaf_scr (t : Team) (h : Nat) (f : Sheaf → Sheaf) : (t.mapSheaf h f).scr = t.scr := rfl
@[simp] theorem Team.mapSheaf_acc (t : Team) (h : Nat) (f : Sheaf → Sheaf) : (t.mapSheaf h f).acc = t.acc := rfl
@[simp] theorem Team.mapSheaf_run (t : Team) (h : Nat) (f : Sheaf → Sheaf) : (t.mapSheaf h f).run = t.run := rfl
@[simp] theorem Team.mapSheaf_granules (t : Team) (h : Nat) (f : Sheaf → Sheaf) : (t.mapSheaf h f).granules = t.granules := rfl
@[simp] theorem Team.mapSheaf_slots (t : Team) (h : Nat) (f : Sheaf → Sheaf) : (t.mapSheaf h f).slots = t.slots := rfl
@[simp] theorem Team.mapSheaf_lastIssue (t : Team) (h : Nat) (f : Sheaf → Sheaf) : (t.mapSheaf h f).lastIssue = t.lastIssue := rfl
@[simp] theorem Team.mapSheaf_threads (t : Team) (h : Nat) (f : Sheaf → Sheaf) : (t.mapSheaf h f).threads = t.threads := rfl
@[simp] theorem Team.mapSheaf_sheaves (t : Team) (h : Nat) (f : Sheaf → Sheaf) : (t.mapSheaf h f).sheaves = modifyAt t.sheaves h f := rfl
@[simp] theorem Team.mapSheaf_scratch (t : Team) (h : Nat) (f : Sheaf → Sheaf) : (t.mapSheaf h f).scratch = t.scratch := rfl
@[simp] theorem Team.mapSheaf_tiles (t : Team) (h : Nat) (f : Sheaf → Sheaf) : (t.mapSheaf h f).tiles = t.tiles := rfl
@[simp] theorem Team.mapSheaf_wslots (t : Team) (h : Nat) (f : Sheaf → Sheaf) : (t.mapSheaf h f).wslots = t.wslots := rfl
@[simp] theorem Team.mapSheaf_queues (t : Team) (h : Nat) (f : Sheaf → Sheaf) : (t.mapSheaf h f).queues = t.queues := rfl
@[simp] theorem Team.mapSheaf_baton (t : Team) (h : Nat) (f : Sheaf → Sheaf) : (t.mapSheaf h f).baton = t.baton := rfl
@[simp] theorem Team.mapSheaf_passing (t : Team) (h : Nat) (f : Sheaf → Sheaf) : (t.mapSheaf h f).passing = t.passing := rfl
@[simp] theorem Team.mapSheaf_batches (t : Team) (h : Nat) (f : Sheaf → Sheaf) : (t.mapSheaf h f).batches = t.batches := rfl
@[simp] theorem Team.mapSheaf_mops (t : Team) (h : Nat) (f : Sheaf → Sheaf) : (t.mapSheaf h f).mops = t.mops := rfl
@[simp] theorem Team.mapSheaf_node (t : Team) (h : Nat) (f : Sheaf → Sheaf) : (t.mapSheaf h f).node = t.node := rfl
@[simp] theorem Team.mapSheaf_bound (t : Team) (h : Nat) (f : Sheaf → Sheaf) : (t.mapSheaf h f).bound = t.bound := rfl
@[simp] theorem Team.mapSheaf_ended (t : Team) (h : Nat) (f : Sheaf → Sheaf) : (t.mapSheaf h f).ended = t.ended := rfl
@[simp] theorem Team.mapSheaf_vdie (t : Team) (h : Nat) (f : Sheaf → Sheaf) : (t.mapSheaf h f).vdie = t.vdie := rfl
@[simp] theorem Team.mapSheaf_res (t : Team) (h : Nat) (f : Sheaf → Sheaf) : (t.mapSheaf h f).res = t.res := rfl
@[simp] theorem Team.mapSheaf_tenure (t : Team) (h : Nat) (f : Sheaf → Sheaf) : (t.mapSheaf h f).tenure = t.tenure := rfl
@[simp] theorem Team.mapSheaf_overdue (t : Team) (h : Nat) (f : Sheaf → Sheaf) : (t.mapSheaf h f).overdue = t.overdue := rfl
@[simp] theorem Team.mapSheaf_eff (t : Team) (h : Nat) (f : Sheaf → Sheaf) : (t.mapSheaf h f).eff = t.eff := rfl
@[simp] theorem Team.mapSheaf_progT (t : Team) (h : Nat) (f : Sheaf → Sheaf) : (t.mapSheaf h f).progT = t.progT := rfl
@[simp] theorem Team.mapSheaf_progN (t : Team) (h : Nat) (f : Sheaf → Sheaf) : (t.mapSheaf h f).progN = t.progN := rfl
@[simp] theorem Team.mapSheaf_progE (t : Team) (h : Nat) (f : Sheaf → Sheaf) : (t.mapSheaf h f).progE = t.progE := rfl
@[simp] theorem Team.mapSheaf_written (t : Team) (h : Nat) (f : Sheaf → Sheaf) : (t.mapSheaf h f).written = t.written := rfl
@[simp] theorem Team.mapSheaf_startCycle (t : Team) (h : Nat) (f : Sheaf → Sheaf) : (t.mapSheaf h f).startCycle = t.startCycle := rfl
@[simp] theorem Team.mapSheaf_startOrder (t : Team) (h : Nat) (f : Sheaf → Sheaf) : (t.mapSheaf h f).startOrder = t.startOrder := rfl
@[simp] theorem Team.mapSheaf_since (t : Team) (h : Nat) (f : Sheaf → Sheaf) : (t.mapSheaf h f).since = t.since := rfl
@[simp] theorem Team.mapSheaf_saveUnits (t : Team) (h : Nat) (f : Sheaf → Sheaf) : (t.mapSheaf h f).saveUnits = t.saveUnits := rfl
@[simp] theorem Team.mapSheaf_regroups (t : Team) (h : Nat) (f : Sheaf → Sheaf) : (t.mapSheaf h f).regroups = t.regroups := rfl
@[simp] theorem Team.mapSheaf_wlog (t : Team) (h : Nat) (f : Sheaf → Sheaf) : (t.mapSheaf h f).wlog = t.wlog := rfl
@[simp] theorem Team.mapSheaf_pushed (t : Team) (h : Nat) (f : Sheaf → Sheaf) : (t.mapSheaf h f).pushed = t.pushed := rfl
@[simp] theorem Team.mapSheaf_sup (t : Team) (h : Nat) (f : Sheaf → Sheaf) : (t.mapSheaf h f).sup = t.sup := rfl

end Sys2Proof.Machine
end

