-- ==== Sys2Proof/Laws/Lanes.lean ====
section
/-! SUPPORT. What the operations over the threads of an issue do, said once: each changes the threads in which the word takes
effect, one at a time, and nothing else. -/

namespace Sys2Proof.Machine

variable {α : Type}

/-! ### Lists -/

theorem modifyAt_eq_mapIdx (l : List α) (k : Nat) (f : α → α) :
    modifyAt l k f = l.mapIdx (fun i x => if i = k then f x else x) := by
  induction l generalizing k with
  | nil => rfl
  | cons x l ih =>
    cases k with
    | zero =>
      simp only [modifyAt, List.mapIdx_cons, if_true, Nat.add_one_ne_zero, if_false]
      congr 1
      exact (List.mapIdx_eq_iff.mpr (fun i => by cases h : l[i]? <;> simp)).symm
    | succ k => simp [modifyAt, List.mapIdx_cons, ih]

@[simp] theorem length_modifyAt (l : List α) (k : Nat) (f : α → α) : (modifyAt l k f).length = l.length := by
  simp [modifyAt_eq_mapIdx]

theorem getElem?_modifyAt (l : List α) (k : Nat) (f : α → α) (i : Nat) :
    (modifyAt l k f)[i]? = if i = k then l[i]?.map f else l[i]? := by
  rw [modifyAt_eq_mapIdx, List.getElem?_mapIdx]
  split <;> cases l[i]? <;> simp_all

/-! ### The threads of an issue -/

theorem Issue.nodup_laneTids (iss : Issue) (t : Team) (g : BitVec 3) : (iss.laneTids t g).Nodup :=
  (List.nodup_range.filter _).filter _

theorem Issue.mem_laneTids (iss : Issue) (t : Team) (g : BitVec 3) (k : Nat) :
    k ∈ iss.laneTids t g ↔ k < t.threads.length ∧ k ∈ iss.tids ∧ k ∉ iss.suppressed ∧
      (readsOf iss.completing t k).guard g = true := by
  simp only [Issue.laneTids, Issue.threads, upto, List.mem_filter, List.mem_range, Bool.and_eq_true, Bool.not_eq_true',
    List.contains_iff_mem, ← Bool.not_eq_true, and_assoc]

theorem State.lanes_eq {s : State} {iss : Issue} {t : Team} (hi : s.issue = some iss) (hv : s.viewTeam iss = some t)
    (g : BitVec 3) : s.lanes g = (iss.laneTids t g).map (readsOf iss.completing t) := by
  simp [State.lanes, hi, hv]

@[simp] theorem readsOf_tid (c : Bool) (t : Team) (k : Nat) : (readsOf c t k).tid = k := by
  unfold readsOf
  split
  · rfl
  · split <;> rfl

@[simp] theorem mapIdx_self (l : List α) : l.mapIdx (fun _ x => x) = l :=
  List.mapIdx_eq_iff.mpr (fun i => by cases h : l[i]? <;> simp)

theorem State.mapTeam_id (s : State) (team : Nat) (f : Team → Team) (h : ∀ u, f u = u) : s.mapTeam team f = s := by
  unfold State.mapTeam
  have : (fun t : Team => if t.id = team then f t else t) = id := by funext u; simp [h]
  rw [this, List.map_id]

theorem State.mapTeam_mapTeam (s : State) (team : Nat) (f g : Team → Team) (h : ∀ u, (f u).id = u.id) :
    (s.mapTeam team f).mapTeam team g = s.mapTeam team (fun u => g (f u)) := by
  simp only [State.mapTeam, List.map_map]
  congr 1
  apply List.map_congr_left
  intro u _
  by_cases hu : u.id = team <;> simp [Function.comp, hu, h]

/-- Every thread of a team changed by its number. -/
def Team.mapThreads (u : Team) (f : Nat → Thread → Thread) : Team := { u with threads := u.threads.mapIdx f }

@[simp] theorem Team.mapThreads_id (u : Team) (f : Nat → Thread → Thread) : (u.mapThreads f).id = u.id := rfl

theorem Team.mapThread_eq (u : Team) (k : Nat) (f : Thread → Thread) :
    u.mapThread k f = u.mapThreads (fun i x => if i = k then f x else x) := by
  simp only [Team.mapThread, Team.mapThreads, modifyAt_eq_mapIdx]

theorem Team.mapThreads_self (u : Team) : u.mapThreads (fun _ x => x) = u := by simp [Team.mapThreads]

theorem Team.mapThreads_mapThreads (u : Team) (f g : Nat → Thread → Thread) :
    (u.mapThreads f).mapThreads g = u.mapThreads (fun k x => g k (f k x)) := by
  simp [Team.mapThreads, List.mapIdx_mapIdx, Function.comp_def]

theorem State.mapThread_mapThreads (s : State) (team k : Nat) (f : Thread → Thread) (g : Nat → Thread → Thread) :
    (s.mapThread team k f).mapTeam team (fun u => u.mapThreads g) =
      s.mapTeam team (fun u => u.mapThreads (fun i x => g i (if i = k then f x else x))) := by
  rw [State.mapThread, State.mapTeam_mapTeam s team (fun t => t.mapThread k f) (fun u => u.mapThreads g) (fun _ => rfl)]
  simp only [Team.mapThread_eq, Team.mapThreads_mapThreads]

/-- Threads of a team changed one after another, each once. -/
theorem foldl_mapThread (s : State) (team : Nat) (ks : List Nat) (f : Nat → Thread → Thread) (h : ks.Nodup) :
    ks.foldl (fun s k => s.mapThread team k (f k)) s =
      s.mapTeam team (fun u => u.mapThreads (fun k x => if k ∈ ks then f k x else x)) := by
  induction ks generalizing s with
  | nil => simp [State.mapTeam_id, Team.mapThreads_self]
  | cons k ks ih =>
    rw [List.nodup_cons] at h
    rw [List.foldl_cons, ih _ h.2, State.mapThread_mapThreads]
    congr 1
    funext u
    congr 1
    funext i x
    by_cases hk : i = k
    · subst hk; simp [h.1]
    · simp [hk]

/-- A register effect in each lane. -/
theorem State.lanewise_eq {s : State} {iss : Issue} {t : Team} (hi : s.issue = some iss) (hv : s.viewTeam iss = some t)
    (g : BitVec 3) (f : Reads → Regs → Regs) :
    s.lanewise g f = s.mapTeam iss.team (fun u => u.mapThreads (fun k x => if k ∈ iss.laneTids t g then
            { x with regs := f (readsOf iss.completing t k) x.regs } else x)) := by
  rw [← foldl_mapThread s iss.team _ (fun k x => { x with regs := f (readsOf iss.completing t k) x.regs })
    (iss.nodup_laneTids t g)]
  simp [State.lanewise, State.lanes_eq hi hv, hi, List.foldl_map, State.mapRegs]

/-! ### The forms of a word's execution -/

/-- A word that acts in each lane: in the threads in which it takes effect, ascending, each on what the ones before it left. -/
theorem State.eachLane_eq {s : State} {iss : Issue} {t : Team} (hi : s.issue = some iss) (hv : s.viewTeam iss = some t)
    (g : BitVec 3) (f : Issue → Team → Reads → State → State) :
    s.eachLane g f = (iss.laneTids t g).foldl (fun u k => f iss t (readsOf iss.completing t k) u) s := by
  simp [State.eachLane, hi, hv, State.lanes_eq hi hv, List.foldl_map]

/-- A uniform word: once for each home sheaf with issuing threads none of which has stopped, with what its lowest one reads. -/
theorem State.eachSheaf_eq {s : State} {iss : Issue} {t : Team} (hi : s.issue = some iss) (hv : s.viewTeam iss = some t)
    (f : Issue → Team → Reads → State → State) :
    s.eachSheaf f = (iss.sheaves t).foldl (fun u h =>
      if ((iss.threads t).filter (fun x => x / t.width == h)).any (fun x => iss.suppressed.contains x) then u
      else match (iss.threads t).filter (fun x => x / t.width == h) with
        | [] => u
        | x :: _ => f iss t (readsOf iss.completing t x) u) s := by
  simp only [State.eachSheaf, hi, hv]
  all_goals rfl

/-- A word of one electing thread for each home sheaf (R227). -/
theorem State.eachElect_eq {s : State} {iss : Issue} {t : Team} (hi : s.issue = some iss) (hv : s.viewTeam iss = some t)
    (g : BitVec 3) (f : Issue → Team → Reads → State → State) :
    s.eachElect g f = (iss.sheaves t).foldl (fun u h =>
      match (((iss.threads t).filter (fun x => x / t.width == h)).map (readsOf iss.completing t)).filter (fun r => r.guard g) with
      | [] => u
      | r :: _ => if iss.suppressed.contains r.tid then u else f iss t r u) s := by
  simp only [State.eachElect, hi, hv]
  all_goals rfl

/-- A word without an issue does nothing. -/
theorem State.eachLane_none {s : State} (hi : s.issue = none) (g : BitVec 3) (f : Issue → Team → Reads → State → State) :
    s.eachLane g f = s := by simp [State.eachLane, hi]

/-- What every step of a fold keeps, the fold keeps. -/
theorem foldl_keeps {α β : Type} {P : α → Prop} {f : α → β → α} (hf : ∀ a b, P a → P (f a b)) (l : List β) :
    ∀ a, P a → P (l.foldl f a) := by
  induction l with
  | nil => exact fun _ h => h
  | cons b l ih => exact fun a h => ih _ (hf a b h)

/-- What each lane keeps, a word that acts in each lane keeps. -/
theorem State.eachLane_keeps {P : State → Prop} {s : State} {g : BitVec 3} {f : Issue → Team → Reads → State → State} (h : P s)
    (hf : ∀ iss t r u, P u → P (f iss t r u)) : P (s.eachLane g f) := by
  unfold State.eachLane
  split
  · exact h
  · split
    · exact h
    · exact foldl_keeps (fun u r hu => hf _ _ r u hu) _ _ h

/-- What a change of one thread's registers keeps, a lane-wise word keeps. -/
theorem State.lanewise_keeps {P : State → Prop} {s : State} {g : BitVec 3} {f : Reads → Regs → Regs} (h : P s)
    (hf : ∀ n k (q : Regs → Regs) u, P u → P (u.mapRegs n k q)) : P (s.lanewise g f) := by
  unfold State.lanewise
  split
  · exact h
  · exact foldl_keeps (fun u r hu => hf _ _ _ u hu) _ _ h

/-- What each home sheaf keeps, a uniform word keeps. -/
theorem State.eachSheaf_keeps {P : State → Prop} {s : State} {f : Issue → Team → Reads → State → State} (h : P s)
    (hf : ∀ iss t r u, P u → P (f iss t r u)) : P (s.eachSheaf f) := by
  unfold State.eachSheaf
  split
  · exact h
  · split
    · exact h
    · refine foldl_keeps (fun u k hu => ?_) _ _ h
      dsimp only
      split
      · exact hu
      · split
        · exact hu
        · exact hf _ _ _ _ hu

/-- What each electing thread keeps, a word of electing threads keeps. -/
theorem State.eachElect_keeps {P : State → Prop} {s : State} {g : BitVec 3} {f : Issue → Team → Reads → State → State} (h : P s)
    (hf : ∀ iss t r u, P u → P (f iss t r u)) : P (s.eachElect g f) := by
  unfold State.eachElect
  split
  · exact h
  · split
    · exact h
    · refine foldl_keeps (fun u k hu => ?_) _ _ h
      split
      · exact hu
      · split
        · exact hu
        · exact hf _ _ _ _ hu

end Sys2Proof.Machine
end

