-- ==== Sys2Proof/Laws/PerInstr.lean ====
section
/-! SUPPORT. Encoder and decoder, instruction by instruction: the parts the encoder gives an instruction are those from which the
decoder builds it. Events have no words. -/

namespace Sys2Proof.Laws

variable {n m : Nat}

theorem extract_high (x : BitVec n) (y : BitVec m) (i w : Nat) : (x ++ y).extractLsb' (m + i) w = x.extractLsb' i w := by
  apply BitVec.eq_of_getLsbD_eq
  intro j hj
  simp [BitVec.getLsbD_append, hj, Nat.add_assoc]

theorem extract_low (x : BitVec n) (y : BitVec m) : (x ++ y).extractLsb' 0 m = y := by
  apply BitVec.eq_of_getLsbD_eq
  intro j hj
  simp [BitVec.getLsbD_append, hj]

theorem extract_all (x : BitVec n) : x.extractLsb' 0 n = x := by simp

theorem bit_high (x : BitVec n) (y : BitVec m) (i : Nat) : (x ++ y).getLsbD (m + i) = x.getLsbD i := by
  simp [BitVec.getLsbD_append]

theorem bit_low (x : BitVec n) (b : Bool) : (x ++ BitVec.ofBool b).getLsbD 0 = b := by
  rw [BitVec.getLsbD_append]; simp

theorem FN.ofBits_bits (o : FN) : FN.ofBits o.bits = o := by
  exact congrArg FN.mk ((extract_low _ _))

theorem FV3.ofBits_bits (o : FV3) : FV3.ofBits o.bits = o := by
  refine FV3.mk.injEq .. ▸ ⟨(extract_high (m := 3) _ _ 13 6).trans ((extract_high (m := 7) _ _ 6 6).trans ((extract_high (m := 6) _ _ 0 6).trans (extract_all _))),
    (extract_high (m := 3) _ _ 7 6).trans ((extract_high (m := 7) _ _ 0 6).trans (extract_low _ _)),
    (extract_high (m := 3) _ _ 0 7).trans (extract_low _ _),
    (extract_low _ _)⟩

theorem FVD.ofBits_bits (o : FVD) : FVD.ofBits o.bits = o := by
  refine FVD.mk.injEq .. ▸ ⟨(extract_high (m := 3) _ _ 13 6).trans ((extract_high (m := 2) _ _ 11 6).trans ((extract_high (m := 4) _ _ 7 6).trans ((extract_high (m := 7) _ _ 0 6).trans (extract_all _)))),
    (extract_high (m := 3) _ _ 6 7).trans ((extract_high (m := 2) _ _ 4 7).trans ((extract_high (m := 4) _ _ 0 7).trans (extract_low _ _))),
    (extract_high (m := 3) _ _ 2 4).trans ((extract_high (m := 2) _ _ 0 4).trans (extract_low _ _)),
    (extract_high (m := 3) _ _ 0 2).trans (extract_low _ _),
    (extract_low _ _)⟩

theorem FVI.ofBits_bits (o : FVI) : FVI.ofBits o.bits o.lit = o := by
  refine FVI.mk.injEq .. ▸ ⟨(extract_high (m := 3) _ _ 13 6).trans ((extract_high (m := 7) _ _ 6 6).trans ((extract_high (m := 6) _ _ 0 6).trans (extract_all _))),
    (extract_high (m := 3) _ _ 7 6).trans ((extract_high (m := 7) _ _ 0 6).trans (extract_low _ _)),
    (extract_high (m := 3) _ _ 0 7).trans (extract_low _ _),
    (extract_low _ _),
    rfl⟩

theorem FVC.ofBits_bits (o : FVC) : FVC.ofBits o.bits = o := by
  refine FVC.mk.injEq .. ▸ ⟨(extract_high (m := 3) _ _ 17 2).trans ((extract_high (m := 7) _ _ 10 2).trans ((extract_high (m := 6) _ _ 4 2).trans ((extract_high (m := 4) _ _ 0 2).trans (extract_all _)))),
    (extract_high (m := 3) _ _ 13 4).trans ((extract_high (m := 7) _ _ 6 4).trans ((extract_high (m := 6) _ _ 0 4).trans (extract_low _ _))),
    (extract_high (m := 3) _ _ 7 6).trans ((extract_high (m := 7) _ _ 0 6).trans (extract_low _ _)),
    (extract_high (m := 3) _ _ 0 7).trans (extract_low _ _),
    (extract_low _ _)⟩

theorem FUR.ofBits_bits (o : FUR) : FUR.ofBits o.bits o.lit = o := by
  refine FUR.mk.injEq .. ▸ ⟨(extract_high (m := 1) _ _ 14 7).trans ((extract_high (m := 7) _ _ 7 7).trans ((extract_high (m := 7) _ _ 0 7).trans (extract_all _))),
    (extract_high (m := 1) _ _ 7 7).trans ((extract_high (m := 7) _ _ 0 7).trans (extract_low _ _)),
    (extract_high (m := 1) _ _ 0 7).trans (extract_low _ _),
    rfl⟩

theorem FG.ofBits_bits (o : FG) : FG.ofBits o.bits = o := by
  refine FG.mk.injEq .. ▸ ⟨(extract_high (m := 13) _ _ 6 3).trans ((extract_high (m := 4) _ _ 2 3).trans ((extract_high (m := 2) _ _ 0 3).trans (extract_all _))),
    (extract_high (m := 13) _ _ 4 2).trans ((extract_high (m := 4) _ _ 0 2).trans (extract_low _ _)),
    (extract_high (m := 13) _ _ 0 4).trans (extract_low _ _)⟩

theorem FM.ofBits_bits (o : FM) : FM.ofBits o.bits o.lit = o := by
  refine FM.mk.injEq .. ▸ ⟨(extract_high (m := 3) _ _ 13 6).trans ((extract_high (m := 5) _ _ 8 6).trans ((extract_high (m := 2) _ _ 6 6).trans ((extract_high (m := 6) _ _ 0 6).trans (extract_all _)))),
    (extract_high (m := 3) _ _ 7 6).trans ((extract_high (m := 5) _ _ 2 6).trans ((extract_high (m := 2) _ _ 0 6).trans (extract_low _ _))),
    (extract_high (m := 3) _ _ 5 2).trans ((extract_high (m := 5) _ _ 0 2).trans (extract_low _ _)),
    (extract_high (m := 3) _ _ 0 5).trans (extract_low _ _),
    (extract_low _ _),
    rfl⟩

theorem FMA.ofBits_bits (o : FMA) : FMA.ofBits o.bits = o := by
  refine FMA.mk.injEq .. ▸ ⟨(extract_high (m := 3) _ _ 13 6).trans ((extract_high (m := 4) _ _ 9 6).trans ((extract_high (m := 2) _ _ 7 6).trans ((extract_high (m := 3) _ _ 4 6).trans ((extract_high (m := 4) _ _ 0 6).trans (extract_all _))))),
    (extract_high (m := 3) _ _ 9 4).trans ((extract_high (m := 4) _ _ 5 4).trans ((extract_high (m := 2) _ _ 3 4).trans ((extract_high (m := 3) _ _ 0 4).trans (extract_low _ _)))),
    (extract_high (m := 3) _ _ 6 3).trans ((extract_high (m := 4) _ _ 2 3).trans ((extract_high (m := 2) _ _ 0 3).trans (extract_low _ _))),
    (extract_high (m := 3) _ _ 4 2).trans ((extract_high (m := 4) _ _ 0 2).trans (extract_low _ _)),
    (extract_high (m := 3) _ _ 0 4).trans (extract_low _ _),
    (extract_low _ _)⟩

theorem FS.ofBits_bits (o : FS) : FS.ofBits o.bits = o := by
  refine FS.mk.injEq .. ▸ ⟨(extract_high (m := 3) _ _ 0 4).trans (extract_low _ _),
    (extract_low _ _)⟩

theorem FB.ofBits_bits (o : FB) : FB.ofBits o.bits = o := by
  refine FB.mk.injEq .. ▸ ⟨(extract_high (m := 3) _ _ 0 19).trans (extract_all _),
    (extract_low _ _)⟩

theorem FJ.ofBits_bits (o : FJ) : FJ.ofBits o.bits = o := by
  refine FJ.mk.injEq .. ▸ ⟨(extract_high (m := 3) _ _ 15 4).trans ((extract_high (m := 11) _ _ 4 4).trans ((extract_high (m := 4) _ _ 0 4).trans (extract_all _))),
    (extract_high (m := 3) _ _ 11 4).trans ((extract_high (m := 11) _ _ 0 4).trans (extract_low _ _)),
    (extract_high (m := 3) _ _ 0 11).trans (extract_low _ _),
    (extract_low _ _)⟩

theorem FK.ofBits_bits (o : FK) : FK.ofBits o.bits = o := by
  refine FK.mk.injEq .. ▸ ⟨(extract_high (m := 3) _ _ 17 2).trans ((extract_high (m := 11) _ _ 6 2).trans ((extract_high (m := 6) _ _ 0 2).trans (extract_all _))),
    (extract_high (m := 3) _ _ 11 6).trans ((extract_high (m := 11) _ _ 0 6).trans (extract_low _ _)),
    (extract_low _ _)⟩

theorem FA.ofBits_bits (o : FA) : FA.ofBits o.bits = o := by
  refine FA.mk.injEq .. ▸ ⟨(extract_high (m := 3) _ _ 12 7).trans ((extract_high (m := 1) _ _ 11 7).trans ((extract_high (m := 4) _ _ 7 7).trans ((extract_high (m := 7) _ _ 0 7).trans (extract_all _)))),
    (extract_high (m := 3) _ _ 5 7).trans ((extract_high (m := 1) _ _ 4 7).trans ((extract_high (m := 4) _ _ 0 7).trans (extract_low _ _))),
    (extract_high (m := 3) _ _ 1 4).trans ((extract_high (m := 1) _ _ 0 4).trans (extract_low _ _)),
    (extract_low _ _)⟩

theorem FQ.ofBits_bits (o : FQ) : FQ.ofBits o.bits = o := by
  refine FQ.mk.injEq .. ▸ ⟨(extract_high (m := 3) _ _ 15 4).trans ((extract_high (m := 6) _ _ 9 4).trans ((extract_high (m := 2) _ _ 7 4).trans ((extract_high (m := 1) _ _ 6 4).trans ((extract_high (m := 6) _ _ 0 4).trans (extract_all _))))),
    (extract_high (m := 3) _ _ 9 6).trans ((extract_high (m := 6) _ _ 3 6).trans ((extract_high (m := 2) _ _ 1 6).trans ((extract_high (m := 1) _ _ 0 6).trans (extract_low _ _)))),
    (bit_high (m := 3) _ _ 8).trans ((bit_high (m := 6) _ _ 2).trans ((bit_high (m := 2) _ _ 0).trans (bit_low _ _))),
    (extract_high (m := 3) _ _ 6 2).trans ((extract_high (m := 6) _ _ 0 2).trans (extract_low _ _)),
    (extract_low _ _)⟩

theorem FX.ofBits_bits (o : FX) : FX.ofBits o.bits = o := by
  refine FX.mk.injEq .. ▸ ⟨(extract_high (m := 3) _ _ 12 7).trans ((extract_high (m := 6) _ _ 6 7).trans ((extract_high (m := 6) _ _ 0 7).trans (extract_all _))),
    (extract_high (m := 3) _ _ 6 6).trans ((extract_high (m := 6) _ _ 0 6).trans (extract_low _ _)),
    (extract_high (m := 3) _ _ 0 6).trans (extract_low _ _),
    (extract_low _ _)⟩

theorem FY.ofBits_bits (o : FY) : FY.ofBits o.bits = o := by
  refine FY.mk.injEq .. ▸ ⟨(extract_high (m := 3) _ _ 12 7).trans ((extract_high (m := 12) _ _ 0 7).trans (extract_all _)),
    (extract_high (m := 3) _ _ 0 12).trans (extract_low _ _)⟩


theorem splitWord_word (p : Parts) : splitWord p.word p.lit = p := by
  obtain ⟨⟨c, w⟩, major, ops, lit⟩ := p
  have h : (BitVec.ofBool c ++ BitVec.ofBool w ++ major ++ ops).getLsbD 31 = c :=
    (bit_high (m := 22) _ _ 9).trans ((bit_high (m := 8) _ _ 1).trans ((bit_high (m := 1) _ _ 0).trans (by simp)))
  have k : (BitVec.ofBool c ++ BitVec.ofBool w ++ major ++ ops).getLsbD 30 = w :=
    (bit_high (m := 22) _ _ 8).trans ((bit_high (m := 8) _ _ 0).trans (bit_low _ _))
  have a : (BitVec.ofBool c ++ BitVec.ofBool w ++ major ++ ops).extractLsb' 22 8 = major :=
    (extract_high (m := 22) _ _ 0 8).trans (extract_low _ _)
  have b : (BitVec.ofBool c ++ BitVec.ofBool w ++ major ++ ops).extractLsb' 0 22 = ops := extract_low _ _
  exact congr (congr (congr (congrArg Parts.mk (congr (congrArg Hdr.mk h) k)) a) b) rfl

/-- The decoder builds an instruction from the parts its encoder gives. -/
def Coding.Statement (i : Instr) : Prop := ∀ p, i.parts = some p → build p = some i

/-- A row of the opcode map, found by its major. -/
theorem Coding.row {p : Parts} {i j : Instr} (h : build p = some j) (e : j = i) : build p = some i := e ▸ h

theorem Coding.nop (h : Hdr) : Coding.Statement (.nop h) := by
  rintro p ⟨⟩; rfl
theorem Coding.iadd (h : Hdr) (o : FV3) : Coding.Statement (.iadd h o) := by
  rintro p ⟨⟩
  exact Coding.row (rfl : build ⟨h, 0x01, o.bits, none⟩ = some (.iadd h (FV3.ofBits o.bits))) (congrArg (Instr.iadd h) (FV3.ofBits_bits o))
theorem Coding.isub (h : Hdr) (o : FV3) : Coding.Statement (.isub h o) := by
  rintro p ⟨⟩
  exact Coding.row (rfl : build ⟨h, 0x02, o.bits, none⟩ = some (.isub h (FV3.ofBits o.bits))) (congrArg (Instr.isub h) (FV3.ofBits_bits o))
theorem Coding.imul (h : Hdr) (o : FV3) : Coding.Statement (.imul h o) := by
  rintro p ⟨⟩
  exact Coding.row (rfl : build ⟨h, 0x03, o.bits, none⟩ = some (.imul h (FV3.ofBits o.bits))) (congrArg (Instr.imul h) (FV3.ofBits_bits o))
theorem Coding.imulhI32 (h : Hdr) (o : FV3) : Coding.Statement (.imulhI32 h o) := by
  rintro p ⟨⟩
  exact Coding.row (rfl : build ⟨h, 0x04, o.bits, none⟩ = some (.imulhI32 h (FV3.ofBits o.bits))) (congrArg (Instr.imulhI32 h) (FV3.ofBits_bits o))
theorem Coding.imulhW32 (h : Hdr) (o : FV3) : Coding.Statement (.imulhW32 h o) := by
  rintro p ⟨⟩
  exact Coding.row (rfl : build ⟨h, 0x05, o.bits, none⟩ = some (.imulhW32 h (FV3.ofBits o.bits))) (congrArg (Instr.imulhW32 h) (FV3.ofBits_bits o))
theorem Coding.idivI32 (h : Hdr) (o : FV3) : Coding.Statement (.idivI32 h o) := by
  rintro p ⟨⟩
  exact Coding.row (rfl : build ⟨h, 0x06, o.bits, none⟩ = some (.idivI32 h (FV3.ofBits o.bits))) (congrArg (Instr.idivI32 h) (FV3.ofBits_bits o))
theorem Coding.idivW32 (h : Hdr) (o : FV3) : Coding.Statement (.idivW32 h o) := by
  rintro p ⟨⟩
  exact Coding.row (rfl : build ⟨h, 0x07, o.bits, none⟩ = some (.idivW32 h (FV3.ofBits o.bits))) (congrArg (Instr.idivW32 h) (FV3.ofBits_bits o))
theorem Coding.iminI32 (h : Hdr) (o : FV3) : Coding.Statement (.iminI32 h o) := by
  rintro p ⟨⟩
  exact Coding.row (rfl : build ⟨h, 0x08, o.bits, none⟩ = some (.iminI32 h (FV3.ofBits o.bits))) (congrArg (Instr.iminI32 h) (FV3.ofBits_bits o))
theorem Coding.iminW32 (h : Hdr) (o : FV3) : Coding.Statement (.iminW32 h o) := by
  rintro p ⟨⟩
  exact Coding.row (rfl : build ⟨h, 0x09, o.bits, none⟩ = some (.iminW32 h (FV3.ofBits o.bits))) (congrArg (Instr.iminW32 h) (FV3.ofBits_bits o))
theorem Coding.imaxI32 (h : Hdr) (o : FV3) : Coding.Statement (.imaxI32 h o) := by
  rintro p ⟨⟩
  exact Coding.row (rfl : build ⟨h, 0x0A, o.bits, none⟩ = some (.imaxI32 h (FV3.ofBits o.bits))) (congrArg (Instr.imaxI32 h) (FV3.ofBits_bits o))
theorem Coding.imaxW32 (h : Hdr) (o : FV3) : Coding.Statement (.imaxW32 h o) := by
  rintro p ⟨⟩
  exact Coding.row (rfl : build ⟨h, 0x0B, o.bits, none⟩ = some (.imaxW32 h (FV3.ofBits o.bits))) (congrArg (Instr.imaxW32 h) (FV3.ofBits_bits o))
theorem Coding.imac (h : Hdr) (o : FV3) : Coding.Statement (.imac h o) := by
  rintro p ⟨⟩
  exact Coding.row (rfl : build ⟨h, 0x0C, o.bits, none⟩ = some (.imac h (FV3.ofBits o.bits))) (congrArg (Instr.imac h) (FV3.ofBits_bits o))
theorem Coding.iaddVd (h : Hdr) (o : FVD) : Coding.Statement (.iaddVd h o) := by
  rintro p ⟨⟩
  exact Coding.row (rfl : build ⟨h, 0x0D, o.bits, none⟩ = some (.iaddVd h (FVD.ofBits o.bits))) (congrArg (Instr.iaddVd h) (FVD.ofBits_bits o))
theorem Coding.isubVd (h : Hdr) (o : FVD) : Coding.Statement (.isubVd h o) := by
  rintro p ⟨⟩
  exact Coding.row (rfl : build ⟨h, 0x0E, o.bits, none⟩ = some (.isubVd h (FVD.ofBits o.bits))) (congrArg (Instr.isubVd h) (FVD.ofBits_bits o))
theorem Coding.imulVd (h : Hdr) (o : FVD) : Coding.Statement (.imulVd h o) := by
  rintro p ⟨⟩
  exact Coding.row (rfl : build ⟨h, 0x0F, o.bits, none⟩ = some (.imulVd h (FVD.ofBits o.bits))) (congrArg (Instr.imulVd h) (FVD.ofBits_bits o))
theorem Coding.and (h : Hdr) (o : FV3) : Coding.Statement (.and h o) := by
  rintro p ⟨⟩
  exact Coding.row (rfl : build ⟨h, 0x10, o.bits, none⟩ = some (.and h (FV3.ofBits o.bits))) (congrArg (Instr.and h) (FV3.ofBits_bits o))
theorem Coding.or (h : Hdr) (o : FV3) : Coding.Statement (.or h o) := by
  rintro p ⟨⟩
  exact Coding.row (rfl : build ⟨h, 0x11, o.bits, none⟩ = some (.or h (FV3.ofBits o.bits))) (congrArg (Instr.or h) (FV3.ofBits_bits o))
theorem Coding.xor (h : Hdr) (o : FV3) : Coding.Statement (.xor h o) := by
  rintro p ⟨⟩
  exact Coding.row (rfl : build ⟨h, 0x12, o.bits, none⟩ = some (.xor h (FV3.ofBits o.bits))) (congrArg (Instr.xor h) (FV3.ofBits_bits o))
theorem Coding.shl (h : Hdr) (o : FV3) : Coding.Statement (.shl h o) := by
  rintro p ⟨⟩
  exact Coding.row (rfl : build ⟨h, 0x13, o.bits, none⟩ = some (.shl h (FV3.ofBits o.bits))) (congrArg (Instr.shl h) (FV3.ofBits_bits o))
theorem Coding.shrW32 (h : Hdr) (o : FV3) : Coding.Statement (.shrW32 h o) := by
  rintro p ⟨⟩
  exact Coding.row (rfl : build ⟨h, 0x14, o.bits, none⟩ = some (.shrW32 h (FV3.ofBits o.bits))) (congrArg (Instr.shrW32 h) (FV3.ofBits_bits o))
theorem Coding.shrI32 (h : Hdr) (o : FV3) : Coding.Statement (.shrI32 h o) := by
  rintro p ⟨⟩
  exact Coding.row (rfl : build ⟨h, 0x15, o.bits, none⟩ = some (.shrI32 h (FV3.ofBits o.bits))) (congrArg (Instr.shrI32 h) (FV3.ofBits_bits o))
theorem Coding.popc (h : Hdr) (o : FV3) : Coding.Statement (.popc h o) := by
  rintro p ⟨⟩
  exact Coding.row (rfl : build ⟨h, 0x16, o.bits, none⟩ = some (.popc h (FV3.ofBits o.bits))) (congrArg (Instr.popc h) (FV3.ofBits_bits o))
theorem Coding.clz (h : Hdr) (o : FV3) : Coding.Statement (.clz h o) := by
  rintro p ⟨⟩
  exact Coding.row (rfl : build ⟨h, 0x17, o.bits, none⟩ = some (.clz h (FV3.ofBits o.bits))) (congrArg (Instr.clz h) (FV3.ofBits_bits o))
theorem Coding.iminVd (h : Hdr) (o : FVD) : Coding.Statement (.iminVd h o) := by
  rintro p ⟨⟩
  exact Coding.row (rfl : build ⟨h, 0x18, o.bits, none⟩ = some (.iminVd h (FVD.ofBits o.bits))) (congrArg (Instr.iminVd h) (FVD.ofBits_bits o))
theorem Coding.imaxVd (h : Hdr) (o : FVD) : Coding.Statement (.imaxVd h o) := by
  rintro p ⟨⟩
  exact Coding.row (rfl : build ⟨h, 0x19, o.bits, none⟩ = some (.imaxVd h (FVD.ofBits o.bits))) (congrArg (Instr.imaxVd h) (FVD.ofBits_bits o))
theorem Coding.shlVd (h : Hdr) (o : FVD) : Coding.Statement (.shlVd h o) := by
  rintro p ⟨⟩
  exact Coding.row (rfl : build ⟨h, 0x1A, o.bits, none⟩ = some (.shlVd h (FVD.ofBits o.bits))) (congrArg (Instr.shlVd h) (FVD.ofBits_bits o))
theorem Coding.shrVd (h : Hdr) (o : FVD) : Coding.Statement (.shrVd h o) := by
  rintro p ⟨⟩
  exact Coding.row (rfl : build ⟨h, 0x1B, o.bits, none⟩ = some (.shrVd h (FVD.ofBits o.bits))) (congrArg (Instr.shrVd h) (FVD.ofBits_bits o))
theorem Coding.icvt (h : Hdr) (o : FVD) : Coding.Statement (.icvt h o) := by
  rintro p ⟨⟩
  exact Coding.row (rfl : build ⟨h, 0x1C, o.bits, none⟩ = some (.icvt h (FVD.ofBits o.bits))) (congrArg (Instr.icvt h) (FVD.ofBits_bits o))
theorem Coding.iaddi (h : Hdr) (o : FVI) : Coding.Statement (.iaddi h o) := by
  rintro p ⟨⟩
  exact Coding.row (rfl : build ⟨h, 0x1D, o.bits, o.lit⟩ = some (.iaddi h (FVI.ofBits o.bits o.lit))) (congrArg (Instr.iaddi h) (FVI.ofBits_bits o))
theorem Coding.andi (h : Hdr) (o : FVI) : Coding.Statement (.andi h o) := by
  rintro p ⟨⟩
  exact Coding.row (rfl : build ⟨h, 0x1E, o.bits, o.lit⟩ = some (.andi h (FVI.ofBits o.bits o.lit))) (congrArg (Instr.andi h) (FVI.ofBits_bits o))
theorem Coding.ori (h : Hdr) (o : FVI) : Coding.Statement (.ori h o) := by
  rintro p ⟨⟩
  exact Coding.row (rfl : build ⟨h, 0x1F, o.bits, o.lit⟩ = some (.ori h (FVI.ofBits o.bits o.lit))) (congrArg (Instr.ori h) (FVI.ofBits_bits o))
theorem Coding.xori (h : Hdr) (o : FVI) : Coding.Statement (.xori h o) := by
  rintro p ⟨⟩
  exact Coding.row (rfl : build ⟨h, 0x20, o.bits, o.lit⟩ = some (.xori h (FVI.ofBits o.bits o.lit))) (congrArg (Instr.xori h) (FVI.ofBits_bits o))
theorem Coding.shli (h : Hdr) (o : FVI) : Coding.Statement (.shli h o) := by
  rintro p ⟨⟩
  exact Coding.row (rfl : build ⟨h, 0x21, o.bits, o.lit⟩ = some (.shli h (FVI.ofBits o.bits o.lit))) (congrArg (Instr.shli h) (FVI.ofBits_bits o))
theorem Coding.shriW32 (h : Hdr) (o : FVI) : Coding.Statement (.shriW32 h o) := by
  rintro p ⟨⟩
  exact Coding.row (rfl : build ⟨h, 0x22, o.bits, o.lit⟩ = some (.shriW32 h (FVI.ofBits o.bits o.lit))) (congrArg (Instr.shriW32 h) (FVI.ofBits_bits o))
theorem Coding.shriI32 (h : Hdr) (o : FVI) : Coding.Statement (.shriI32 h o) := by
  rintro p ⟨⟩
  exact Coding.row (rfl : build ⟨h, 0x23, o.bits, o.lit⟩ = some (.shriI32 h (FVI.ofBits o.bits o.lit))) (congrArg (Instr.shriI32 h) (FVI.ofBits_bits o))
theorem Coding.mov (h : Hdr) (o : FV3) : Coding.Statement (.mov h o) := by
  rintro p ⟨⟩
  exact Coding.row (rfl : build ⟨h, 0x24, o.bits, none⟩ = some (.mov h (FV3.ofBits o.bits))) (congrArg (Instr.mov h) (FV3.ofBits_bits o))
theorem Coding.movi (h : Hdr) (o : FVI) : Coding.Statement (.movi h o) := by
  rintro p ⟨⟩
  exact Coding.row (rfl : build ⟨h, 0x25, o.bits, o.lit⟩ = some (.movi h (FVI.ofBits o.bits o.lit))) (congrArg (Instr.movi h) (FVI.ofBits_bits o))
theorem Coding.movs (h : Hdr) (o : FV3) : Coding.Statement (.movs h o) := by
  rintro p ⟨⟩
  exact Coding.row (rfl : build ⟨h, 0x26, o.bits, none⟩ = some (.movs h (FV3.ofBits o.bits))) (congrArg (Instr.movs h) (FV3.ofBits_bits o))
theorem Coding.padd (h : Hdr) (o : FV3) : Coding.Statement (.padd h o) := by
  rintro p ⟨⟩
  exact Coding.row (rfl : build ⟨h, 0x27, o.bits, none⟩ = some (.padd h (FV3.ofBits o.bits))) (congrArg (Instr.padd h) (FV3.ofBits_bits o))
theorem Coding.icmp (h : Hdr) (o : FVC) : Coding.Statement (.icmp h o) := by
  rintro p ⟨⟩
  exact Coding.row (rfl : build ⟨h, 0x28, o.bits, none⟩ = some (.icmp h (FVC.ofBits o.bits))) (congrArg (Instr.icmp h) (FVC.ofBits_bits o))
theorem Coding.gset (h : Hdr) (o : FG) : Coding.Statement (.gset h o) := by
  rintro p ⟨⟩
  exact Coding.row (rfl : build ⟨h, 0x29, o.bits, none⟩ = some (.gset h (FG.ofBits o.bits))) (congrArg (Instr.gset h) (FG.ofBits_bits o))
theorem Coding.sadd (h : Hdr) (o : FUR) : Coding.Statement (.sadd h o) := by
  rintro p ⟨⟩
  exact Coding.row (rfl : build ⟨h, 0x2A, o.bits, o.lit⟩ = some (.sadd h (FUR.ofBits o.bits o.lit))) (congrArg (Instr.sadd h) (FUR.ofBits_bits o))
theorem Coding.ssub (h : Hdr) (o : FUR) : Coding.Statement (.ssub h o) := by
  rintro p ⟨⟩
  exact Coding.row (rfl : build ⟨h, 0x2B, o.bits, o.lit⟩ = some (.ssub h (FUR.ofBits o.bits o.lit))) (congrArg (Instr.ssub h) (FUR.ofBits_bits o))
theorem Coding.smul (h : Hdr) (o : FUR) : Coding.Statement (.smul h o) := by
  rintro p ⟨⟩
  exact Coding.row (rfl : build ⟨h, 0x2C, o.bits, o.lit⟩ = some (.smul h (FUR.ofBits o.bits o.lit))) (congrArg (Instr.smul h) (FUR.ofBits_bits o))
theorem Coding.sand (h : Hdr) (o : FUR) : Coding.Statement (.sand h o) := by
  rintro p ⟨⟩
  exact Coding.row (rfl : build ⟨h, 0x2D, o.bits, o.lit⟩ = some (.sand h (FUR.ofBits o.bits o.lit))) (congrArg (Instr.sand h) (FUR.ofBits_bits o))
theorem Coding.sor (h : Hdr) (o : FUR) : Coding.Statement (.sor h o) := by
  rintro p ⟨⟩
  exact Coding.row (rfl : build ⟨h, 0x2E, o.bits, o.lit⟩ = some (.sor h (FUR.ofBits o.bits o.lit))) (congrArg (Instr.sor h) (FUR.ofBits_bits o))
theorem Coding.sxor (h : Hdr) (o : FUR) : Coding.Statement (.sxor h o) := by
  rintro p ⟨⟩
  exact Coding.row (rfl : build ⟨h, 0x2F, o.bits, o.lit⟩ = some (.sxor h (FUR.ofBits o.bits o.lit))) (congrArg (Instr.sxor h) (FUR.ofBits_bits o))
theorem Coding.sshl (h : Hdr) (o : FUR) : Coding.Statement (.sshl h o) := by
  rintro p ⟨⟩
  exact Coding.row (rfl : build ⟨h, 0x30, o.bits, o.lit⟩ = some (.sshl h (FUR.ofBits o.bits o.lit))) (congrArg (Instr.sshl h) (FUR.ofBits_bits o))
theorem Coding.sshr (h : Hdr) (o : FUR) : Coding.Statement (.sshr h o) := by
  rintro p ⟨⟩
  exact Coding.row (rfl : build ⟨h, 0x31, o.bits, o.lit⟩ = some (.sshr h (FUR.ofBits o.bits o.lit))) (congrArg (Instr.sshr h) (FUR.ofBits_bits o))
theorem Coding.smov (h : Hdr) (o : FUR) : Coding.Statement (.smov h o) := by
  rintro p ⟨⟩
  exact Coding.row (rfl : build ⟨h, 0x32, o.bits, o.lit⟩ = some (.smov h (FUR.ofBits o.bits o.lit))) (congrArg (Instr.smov h) (FUR.ofBits_bits o))
theorem Coding.xscanExAdd (h : Hdr) (o : FVD) : Coding.Statement (.xscanExAdd h o) := by
  rintro p ⟨⟩
  exact Coding.row (rfl : build ⟨h, 0x33, o.bits, none⟩ = some (.xscanExAdd h (FVD.ofBits o.bits))) (congrArg (Instr.xscanExAdd h) (FVD.ofBits_bits o))
theorem Coding.topk (h : Hdr) (o : FV3) : Coding.Statement (.topk h o) := by
  rintro p ⟨⟩
  exact Coding.row (rfl : build ⟨h, 0x34, o.bits, none⟩ = some (.topk h (FV3.ofBits o.bits))) (congrArg (Instr.topk h) (FV3.ofBits_bits o))
theorem Coding.xselIdx (h : Hdr) (o : FV3) : Coding.Statement (.xselIdx h o) := by
  rintro p ⟨⟩
  exact Coding.row (rfl : build ⟨h, 0x35, o.bits, none⟩ = some (.xselIdx h (FV3.ofBits o.bits))) (congrArg (Instr.xselIdx h) (FV3.ofBits_bits o))
theorem Coding.xselUp (h : Hdr) (o : FV3) : Coding.Statement (.xselUp h o) := by
  rintro p ⟨⟩
  exact Coding.row (rfl : build ⟨h, 0x36, o.bits, none⟩ = some (.xselUp h (FV3.ofBits o.bits))) (congrArg (Instr.xselUp h) (FV3.ofBits_bits o))
theorem Coding.xselDown (h : Hdr) (o : FV3) : Coding.Statement (.xselDown h o) := by
  rintro p ⟨⟩
  exact Coding.row (rfl : build ⟨h, 0x37, o.bits, none⟩ = some (.xselDown h (FV3.ofBits o.bits))) (congrArg (Instr.xselDown h) (FV3.ofBits_bits o))
theorem Coding.xselXor (h : Hdr) (o : FV3) : Coding.Statement (.xselXor h o) := by
  rintro p ⟨⟩
  exact Coding.row (rfl : build ⟨h, 0x38, o.bits, none⟩ = some (.xselXor h (FV3.ofBits o.bits))) (congrArg (Instr.xselXor h) (FV3.ofBits_bits o))
theorem Coding.xany (h : Hdr) (o : FVC) : Coding.Statement (.xany h o) := by
  rintro p ⟨⟩
  exact Coding.row (rfl : build ⟨h, 0x39, o.bits, none⟩ = some (.xany h (FVC.ofBits o.bits))) (congrArg (Instr.xany h) (FVC.ofBits_bits o))
theorem Coding.xall (h : Hdr) (o : FVC) : Coding.Statement (.xall h o) := by
  rintro p ⟨⟩
  exact Coding.row (rfl : build ⟨h, 0x3A, o.bits, none⟩ = some (.xall h (FVC.ofBits o.bits))) (congrArg (Instr.xall h) (FVC.ofBits_bits o))
theorem Coding.xmask (h : Hdr) (o : FVC) : Coding.Statement (.xmask h o) := by
  rintro p ⟨⟩
  exact Coding.row (rfl : build ⟨h, 0x3B, o.bits, none⟩ = some (.xmask h (FVC.ofBits o.bits))) (congrArg (Instr.xmask h) (FVC.ofBits_bits o))
theorem Coding.xredAdd (h : Hdr) (o : FVD) : Coding.Statement (.xredAdd h o) := by
  rintro p ⟨⟩
  exact Coding.row (rfl : build ⟨h, 0x3C, o.bits, none⟩ = some (.xredAdd h (FVD.ofBits o.bits))) (congrArg (Instr.xredAdd h) (FVD.ofBits_bits o))
theorem Coding.xredMin (h : Hdr) (o : FVD) : Coding.Statement (.xredMin h o) := by
  rintro p ⟨⟩
  exact Coding.row (rfl : build ⟨h, 0x3D, o.bits, none⟩ = some (.xredMin h (FVD.ofBits o.bits))) (congrArg (Instr.xredMin h) (FVD.ofBits_bits o))
theorem Coding.xredMax (h : Hdr) (o : FVD) : Coding.Statement (.xredMax h o) := by
  rintro p ⟨⟩
  exact Coding.row (rfl : build ⟨h, 0x3E, o.bits, none⟩ = some (.xredMax h (FVD.ofBits o.bits))) (congrArg (Instr.xredMax h) (FVD.ofBits_bits o))
theorem Coding.xscanAdd (h : Hdr) (o : FVD) : Coding.Statement (.xscanAdd h o) := by
  rintro p ⟨⟩
  exact Coding.row (rfl : build ⟨h, 0x3F, o.bits, none⟩ = some (.xscanAdd h (FVD.ofBits o.bits))) (congrArg (Instr.xscanAdd h) (FVD.ofBits_bits o))
theorem Coding.faddF32 (h : Hdr) (o : FV3) : Coding.Statement (.faddF32 h o) := by
  rintro p ⟨⟩
  exact Coding.row (rfl : build ⟨h, 0x40, o.bits, none⟩ = some (.faddF32 h (FV3.ofBits o.bits))) (congrArg (Instr.faddF32 h) (FV3.ofBits_bits o))
theorem Coding.fsubF32 (h : Hdr) (o : FV3) : Coding.Statement (.fsubF32 h o) := by
  rintro p ⟨⟩
  exact Coding.row (rfl : build ⟨h, 0x41, o.bits, none⟩ = some (.fsubF32 h (FV3.ofBits o.bits))) (congrArg (Instr.fsubF32 h) (FV3.ofBits_bits o))
theorem Coding.fmulF32 (h : Hdr) (o : FV3) : Coding.Statement (.fmulF32 h o) := by
  rintro p ⟨⟩
  exact Coding.row (rfl : build ⟨h, 0x42, o.bits, none⟩ = some (.fmulF32 h (FV3.ofBits o.bits))) (congrArg (Instr.fmulF32 h) (FV3.ofBits_bits o))
theorem Coding.fmacF32 (h : Hdr) (o : FV3) : Coding.Statement (.fmacF32 h o) := by
  rintro p ⟨⟩
  exact Coding.row (rfl : build ⟨h, 0x43, o.bits, none⟩ = some (.fmacF32 h (FV3.ofBits o.bits))) (congrArg (Instr.fmacF32 h) (FV3.ofBits_bits o))
theorem Coding.fminF32 (h : Hdr) (o : FV3) : Coding.Statement (.fminF32 h o) := by
  rintro p ⟨⟩
  exact Coding.row (rfl : build ⟨h, 0x44, o.bits, none⟩ = some (.fminF32 h (FV3.ofBits o.bits))) (congrArg (Instr.fminF32 h) (FV3.ofBits_bits o))
theorem Coding.fmaxF32 (h : Hdr) (o : FV3) : Coding.Statement (.fmaxF32 h o) := by
  rintro p ⟨⟩
  exact Coding.row (rfl : build ⟨h, 0x45, o.bits, none⟩ = some (.fmaxF32 h (FV3.ofBits o.bits))) (congrArg (Instr.fmaxF32 h) (FV3.ofBits_bits o))
theorem Coding.faddF16x2 (h : Hdr) (o : FV3) : Coding.Statement (.faddF16x2 h o) := by
  rintro p ⟨⟩
  exact Coding.row (rfl : build ⟨h, 0x46, o.bits, none⟩ = some (.faddF16x2 h (FV3.ofBits o.bits))) (congrArg (Instr.faddF16x2 h) (FV3.ofBits_bits o))
theorem Coding.fmulF16x2 (h : Hdr) (o : FV3) : Coding.Statement (.fmulF16x2 h o) := by
  rintro p ⟨⟩
  exact Coding.row (rfl : build ⟨h, 0x47, o.bits, none⟩ = some (.fmulF16x2 h (FV3.ofBits o.bits))) (congrArg (Instr.fmulF16x2 h) (FV3.ofBits_bits o))
theorem Coding.fmacF16x2 (h : Hdr) (o : FV3) : Coding.Statement (.fmacF16x2 h o) := by
  rintro p ⟨⟩
  exact Coding.row (rfl : build ⟨h, 0x48, o.bits, none⟩ = some (.fmacF16x2 h (FV3.ofBits o.bits))) (congrArg (Instr.fmacF16x2 h) (FV3.ofBits_bits o))
theorem Coding.faddBf16x2 (h : Hdr) (o : FV3) : Coding.Statement (.faddBf16x2 h o) := by
  rintro p ⟨⟩
  exact Coding.row (rfl : build ⟨h, 0x49, o.bits, none⟩ = some (.faddBf16x2 h (FV3.ofBits o.bits))) (congrArg (Instr.faddBf16x2 h) (FV3.ofBits_bits o))
theorem Coding.fmulBf16x2 (h : Hdr) (o : FV3) : Coding.Statement (.fmulBf16x2 h o) := by
  rintro p ⟨⟩
  exact Coding.row (rfl : build ⟨h, 0x4A, o.bits, none⟩ = some (.fmulBf16x2 h (FV3.ofBits o.bits))) (congrArg (Instr.fmulBf16x2 h) (FV3.ofBits_bits o))
theorem Coding.fmacBf16x2 (h : Hdr) (o : FV3) : Coding.Statement (.fmacBf16x2 h o) := by
  rintro p ⟨⟩
  exact Coding.row (rfl : build ⟨h, 0x4B, o.bits, none⟩ = some (.fmacBf16x2 h (FV3.ofBits o.bits))) (congrArg (Instr.fmacBf16x2 h) (FV3.ofBits_bits o))
theorem Coding.fadd (h : Hdr) (o : FVD) : Coding.Statement (.fadd h o) := by
  rintro p ⟨⟩
  exact Coding.row (rfl : build ⟨h, 0x4C, o.bits, none⟩ = some (.fadd h (FVD.ofBits o.bits))) (congrArg (Instr.fadd h) (FVD.ofBits_bits o))
theorem Coding.fsub (h : Hdr) (o : FVD) : Coding.Statement (.fsub h o) := by
  rintro p ⟨⟩
  exact Coding.row (rfl : build ⟨h, 0x4D, o.bits, none⟩ = some (.fsub h (FVD.ofBits o.bits))) (congrArg (Instr.fsub h) (FVD.ofBits_bits o))
theorem Coding.fmul (h : Hdr) (o : FVD) : Coding.Statement (.fmul h o) := by
  rintro p ⟨⟩
  exact Coding.row (rfl : build ⟨h, 0x4E, o.bits, none⟩ = some (.fmul h (FVD.ofBits o.bits))) (congrArg (Instr.fmul h) (FVD.ofBits_bits o))
theorem Coding.fdiv (h : Hdr) (o : FVD) : Coding.Statement (.fdiv h o) := by
  rintro p ⟨⟩
  exact Coding.row (rfl : build ⟨h, 0x4F, o.bits, none⟩ = some (.fdiv h (FVD.ofBits o.bits))) (congrArg (Instr.fdiv h) (FVD.ofBits_bits o))
theorem Coding.fmin (h : Hdr) (o : FVD) : Coding.Statement (.fmin h o) := by
  rintro p ⟨⟩
  exact Coding.row (rfl : build ⟨h, 0x50, o.bits, none⟩ = some (.fmin h (FVD.ofBits o.bits))) (congrArg (Instr.fmin h) (FVD.ofBits_bits o))
theorem Coding.fmax (h : Hdr) (o : FVD) : Coding.Statement (.fmax h o) := by
  rintro p ⟨⟩
  exact Coding.row (rfl : build ⟨h, 0x51, o.bits, none⟩ = some (.fmax h (FVD.ofBits o.bits))) (congrArg (Instr.fmax h) (FVD.ofBits_bits o))
theorem Coding.fcmp (h : Hdr) (o : FVC) : Coding.Statement (.fcmp h o) := by
  rintro p ⟨⟩
  exact Coding.row (rfl : build ⟨h, 0x52, o.bits, none⟩ = some (.fcmp h (FVC.ofBits o.bits))) (congrArg (Instr.fcmp h) (FVC.ofBits_bits o))
theorem Coding.fsqrt (h : Hdr) (o : FVD) : Coding.Statement (.fsqrt h o) := by
  rintro p ⟨⟩
  exact Coding.row (rfl : build ⟨h, 0x53, o.bits, none⟩ = some (.fsqrt h (FVD.ofBits o.bits))) (congrArg (Instr.fsqrt h) (FVD.ofBits_bits o))
theorem Coding.frcp (h : Hdr) (o : FVD) : Coding.Statement (.frcp h o) := by
  rintro p ⟨⟩
  exact Coding.row (rfl : build ⟨h, 0x54, o.bits, none⟩ = some (.frcp h (FVD.ofBits o.bits))) (congrArg (Instr.frcp h) (FVD.ofBits_bits o))
theorem Coding.frsq (h : Hdr) (o : FVD) : Coding.Statement (.frsq h o) := by
  rintro p ⟨⟩
  exact Coding.row (rfl : build ⟨h, 0x55, o.bits, none⟩ = some (.frsq h (FVD.ofBits o.bits))) (congrArg (Instr.frsq h) (FVD.ofBits_bits o))
theorem Coding.fexp2 (h : Hdr) (o : FVD) : Coding.Statement (.fexp2 h o) := by
  rintro p ⟨⟩
  exact Coding.row (rfl : build ⟨h, 0x56, o.bits, none⟩ = some (.fexp2 h (FVD.ofBits o.bits))) (congrArg (Instr.fexp2 h) (FVD.ofBits_bits o))
theorem Coding.flog2 (h : Hdr) (o : FVD) : Coding.Statement (.flog2 h o) := by
  rintro p ⟨⟩
  exact Coding.row (rfl : build ⟨h, 0x57, o.bits, none⟩ = some (.flog2 h (FVD.ofBits o.bits))) (congrArg (Instr.flog2 h) (FVD.ofBits_bits o))
theorem Coding.fsin (h : Hdr) (o : FVD) : Coding.Statement (.fsin h o) := by
  rintro p ⟨⟩
  exact Coding.row (rfl : build ⟨h, 0x58, o.bits, none⟩ = some (.fsin h (FVD.ofBits o.bits))) (congrArg (Instr.fsin h) (FVD.ofBits_bits o))
theorem Coding.fcos (h : Hdr) (o : FVD) : Coding.Statement (.fcos h o) := by
  rintro p ⟨⟩
  exact Coding.row (rfl : build ⟨h, 0x59, o.bits, none⟩ = some (.fcos h (FVD.ofBits o.bits))) (congrArg (Instr.fcos h) (FVD.ofBits_bits o))
theorem Coding.ftanh (h : Hdr) (o : FVD) : Coding.Statement (.ftanh h o) := by
  rintro p ⟨⟩
  exact Coding.row (rfl : build ⟨h, 0x5A, o.bits, none⟩ = some (.ftanh h (FVD.ofBits o.bits))) (congrArg (Instr.ftanh h) (FVD.ofBits_bits o))
theorem Coding.cvtF32 (h : Hdr) (o : FVD) : Coding.Statement (.cvtF32 h o) := by
  rintro p ⟨⟩
  exact Coding.row (rfl : build ⟨h, 0x5B, o.bits, none⟩ = some (.cvtF32 h (FVD.ofBits o.bits))) (congrArg (Instr.cvtF32 h) (FVD.ofBits_bits o))
theorem Coding.cvtF16 (h : Hdr) (o : FVD) : Coding.Statement (.cvtF16 h o) := by
  rintro p ⟨⟩
  exact Coding.row (rfl : build ⟨h, 0x5C, o.bits, none⟩ = some (.cvtF16 h (FVD.ofBits o.bits))) (congrArg (Instr.cvtF16 h) (FVD.ofBits_bits o))
theorem Coding.cvtBf16 (h : Hdr) (o : FVD) : Coding.Statement (.cvtBf16 h o) := by
  rintro p ⟨⟩
  exact Coding.row (rfl : build ⟨h, 0x5D, o.bits, none⟩ = some (.cvtBf16 h (FVD.ofBits o.bits))) (congrArg (Instr.cvtBf16 h) (FVD.ofBits_bits o))
theorem Coding.cvtI32 (h : Hdr) (o : FVD) : Coding.Statement (.cvtI32 h o) := by
  rintro p ⟨⟩
  exact Coding.row (rfl : build ⟨h, 0x5E, o.bits, none⟩ = some (.cvtI32 h (FVD.ofBits o.bits))) (congrArg (Instr.cvtI32 h) (FVD.ofBits_bits o))
theorem Coding.cvtW32 (h : Hdr) (o : FVD) : Coding.Statement (.cvtW32 h o) := by
  rintro p ⟨⟩
  exact Coding.row (rfl : build ⟨h, 0x5F, o.bits, none⟩ = some (.cvtW32 h (FVD.ofBits o.bits))) (congrArg (Instr.cvtW32 h) (FVD.ofBits_bits o))
theorem Coding.cvtI64 (h : Hdr) (o : FVD) : Coding.Statement (.cvtI64 h o) := by
  rintro p ⟨⟩
  exact Coding.row (rfl : build ⟨h, 0x60, o.bits, none⟩ = some (.cvtI64 h (FVD.ofBits o.bits))) (congrArg (Instr.cvtI64 h) (FVD.ofBits_bits o))
theorem Coding.cvtW64 (h : Hdr) (o : FVD) : Coding.Statement (.cvtW64 h o) := by
  rintro p ⟨⟩
  exact Coding.row (rfl : build ⟨h, 0x61, o.bits, none⟩ = some (.cvtW64 h (FVD.ofBits o.bits))) (congrArg (Instr.cvtW64 h) (FVD.ofBits_bits o))
theorem Coding.dxenc (h : Hdr) (o : FV3) : Coding.Statement (.dxenc h o) := by
  rintro p ⟨⟩
  exact Coding.row (rfl : build ⟨h, 0x62, o.bits, none⟩ = some (.dxenc h (FV3.ofBits o.bits))) (congrArg (Instr.dxenc h) (FV3.ofBits_bits o))
theorem Coding.dxdec (h : Hdr) (o : FV3) : Coding.Statement (.dxdec h o) := by
  rintro p ⟨⟩
  exact Coding.row (rfl : build ⟨h, 0x63, o.bits, none⟩ = some (.dxdec h (FV3.ofBits o.bits))) (congrArg (Instr.dxdec h) (FV3.ofBits_bits o))
theorem Coding.frnd (h : Hdr) (o : FVD) : Coding.Statement (.frnd h o) := by
  rintro p ⟨⟩
  exact Coding.row (rfl : build ⟨h, 0x64, o.bits, none⟩ = some (.frnd h (FVD.ofBits o.bits))) (congrArg (Instr.frnd h) (FVD.ofBits_bits o))
theorem Coding.ldgW8 (h : Hdr) (o : FM) : Coding.Statement (.ldgW8 h o) := by
  rintro p ⟨⟩
  exact Coding.row (rfl : build ⟨h, 0x80, o.bits, o.lit⟩ = some (.ldgW8 h (FM.ofBits o.bits o.lit))) (congrArg (Instr.ldgW8 h) (FM.ofBits_bits o))
theorem Coding.ldgI8 (h : Hdr) (o : FM) : Coding.Statement (.ldgI8 h o) := by
  rintro p ⟨⟩
  exact Coding.row (rfl : build ⟨h, 0x81, o.bits, o.lit⟩ = some (.ldgI8 h (FM.ofBits o.bits o.lit))) (congrArg (Instr.ldgI8 h) (FM.ofBits_bits o))
theorem Coding.ldgW16 (h : Hdr) (o : FM) : Coding.Statement (.ldgW16 h o) := by
  rintro p ⟨⟩
  exact Coding.row (rfl : build ⟨h, 0x82, o.bits, o.lit⟩ = some (.ldgW16 h (FM.ofBits o.bits o.lit))) (congrArg (Instr.ldgW16 h) (FM.ofBits_bits o))
theorem Coding.ldgI16 (h : Hdr) (o : FM) : Coding.Statement (.ldgI16 h o) := by
  rintro p ⟨⟩
  exact Coding.row (rfl : build ⟨h, 0x83, o.bits, o.lit⟩ = some (.ldgI16 h (FM.ofBits o.bits o.lit))) (congrArg (Instr.ldgI16 h) (FM.ofBits_bits o))
theorem Coding.ldgB32 (h : Hdr) (o : FM) : Coding.Statement (.ldgB32 h o) := by
  rintro p ⟨⟩
  exact Coding.row (rfl : build ⟨h, 0x84, o.bits, o.lit⟩ = some (.ldgB32 h (FM.ofBits o.bits o.lit))) (congrArg (Instr.ldgB32 h) (FM.ofBits_bits o))
theorem Coding.ldgB64 (h : Hdr) (o : FM) : Coding.Statement (.ldgB64 h o) := by
  rintro p ⟨⟩
  exact Coding.row (rfl : build ⟨h, 0x85, o.bits, o.lit⟩ = some (.ldgB64 h (FM.ofBits o.bits o.lit))) (congrArg (Instr.ldgB64 h) (FM.ofBits_bits o))
theorem Coding.ldgB128 (h : Hdr) (o : FM) : Coding.Statement (.ldgB128 h o) := by
  rintro p ⟨⟩
  exact Coding.row (rfl : build ⟨h, 0x86, o.bits, o.lit⟩ = some (.ldgB128 h (FM.ofBits o.bits o.lit))) (congrArg (Instr.ldgB128 h) (FM.ofBits_bits o))
theorem Coding.stgB8 (h : Hdr) (o : FM) : Coding.Statement (.stgB8 h o) := by
  rintro p ⟨⟩
  exact Coding.row (rfl : build ⟨h, 0x87, o.bits, o.lit⟩ = some (.stgB8 h (FM.ofBits o.bits o.lit))) (congrArg (Instr.stgB8 h) (FM.ofBits_bits o))
theorem Coding.stgB16 (h : Hdr) (o : FM) : Coding.Statement (.stgB16 h o) := by
  rintro p ⟨⟩
  exact Coding.row (rfl : build ⟨h, 0x88, o.bits, o.lit⟩ = some (.stgB16 h (FM.ofBits o.bits o.lit))) (congrArg (Instr.stgB16 h) (FM.ofBits_bits o))
theorem Coding.stgB32 (h : Hdr) (o : FM) : Coding.Statement (.stgB32 h o) := by
  rintro p ⟨⟩
  exact Coding.row (rfl : build ⟨h, 0x89, o.bits, o.lit⟩ = some (.stgB32 h (FM.ofBits o.bits o.lit))) (congrArg (Instr.stgB32 h) (FM.ofBits_bits o))
theorem Coding.stgB64 (h : Hdr) (o : FM) : Coding.Statement (.stgB64 h o) := by
  rintro p ⟨⟩
  exact Coding.row (rfl : build ⟨h, 0x8A, o.bits, o.lit⟩ = some (.stgB64 h (FM.ofBits o.bits o.lit))) (congrArg (Instr.stgB64 h) (FM.ofBits_bits o))
theorem Coding.stgB128 (h : Hdr) (o : FM) : Coding.Statement (.stgB128 h o) := by
  rintro p ⟨⟩
  exact Coding.row (rfl : build ⟨h, 0x8B, o.bits, o.lit⟩ = some (.stgB128 h (FM.ofBits o.bits o.lit))) (congrArg (Instr.stgB128 h) (FM.ofBits_bits o))
theorem Coding.stb (h : Hdr) (o : FM) : Coding.Statement (.stb h o) := by
  rintro p ⟨⟩
  exact Coding.row (rfl : build ⟨h, 0x8C, o.bits, o.lit⟩ = some (.stb h (FM.ofBits o.bits o.lit))) (congrArg (Instr.stb h) (FM.ofBits_bits o))
theorem Coding.ldf (h : Hdr) (o : FM) : Coding.Statement (.ldf h o) := by
  rintro p ⟨⟩
  exact Coding.row (rfl : build ⟨h, 0x8D, o.bits, o.lit⟩ = some (.ldf h (FM.ofBits o.bits o.lit))) (congrArg (Instr.ldf h) (FM.ofBits_bits o))
theorem Coding.ldsB32 (h : Hdr) (o : FM) : Coding.Statement (.ldsB32 h o) := by
  rintro p ⟨⟩
  exact Coding.row (rfl : build ⟨h, 0x8E, o.bits, o.lit⟩ = some (.ldsB32 h (FM.ofBits o.bits o.lit))) (congrArg (Instr.ldsB32 h) (FM.ofBits_bits o))
theorem Coding.ldsB64 (h : Hdr) (o : FM) : Coding.Statement (.ldsB64 h o) := by
  rintro p ⟨⟩
  exact Coding.row (rfl : build ⟨h, 0x8F, o.bits, o.lit⟩ = some (.ldsB64 h (FM.ofBits o.bits o.lit))) (congrArg (Instr.ldsB64 h) (FM.ofBits_bits o))
theorem Coding.stsB32 (h : Hdr) (o : FM) : Coding.Statement (.stsB32 h o) := by
  rintro p ⟨⟩
  exact Coding.row (rfl : build ⟨h, 0x90, o.bits, o.lit⟩ = some (.stsB32 h (FM.ofBits o.bits o.lit))) (congrArg (Instr.stsB32 h) (FM.ofBits_bits o))
theorem Coding.stsB64 (h : Hdr) (o : FM) : Coding.Statement (.stsB64 h o) := by
  rintro p ⟨⟩
  exact Coding.row (rfl : build ⟨h, 0x91, o.bits, o.lit⟩ = some (.stsB64 h (FM.ofBits o.bits o.lit))) (congrArg (Instr.stsB64 h) (FM.ofBits_bits o))
theorem Coding.fence (h : Hdr) (o : FS) : Coding.Statement (.fence h o) := by
  rintro p ⟨⟩
  exact Coding.row (rfl : build ⟨h, 0x92, o.bits, none⟩ = some (.fence h (FS.ofBits o.bits))) (congrArg (Instr.fence h) (FS.ofBits_bits o))
theorem Coding.bar (h : Hdr) (o : FS) : Coding.Statement (.bar h o) := by
  rintro p ⟨⟩
  exact Coding.row (rfl : build ⟨h, 0x93, o.bits, none⟩ = some (.bar h (FS.ofBits o.bits))) (congrArg (Instr.bar h) (FS.ofBits_bits o))
theorem Coding.atomI32 (h : Hdr) (o : FMA) : Coding.Statement (.atomI32 h o) := by
  rintro p ⟨⟩
  exact Coding.row (rfl : build ⟨h, 0x94, o.bits, none⟩ = some (.atomI32 h (FMA.ofBits o.bits))) (congrArg (Instr.atomI32 h) (FMA.ofBits_bits o))
theorem Coding.atomW32 (h : Hdr) (o : FMA) : Coding.Statement (.atomW32 h o) := by
  rintro p ⟨⟩
  exact Coding.row (rfl : build ⟨h, 0x95, o.bits, none⟩ = some (.atomW32 h (FMA.ofBits o.bits))) (congrArg (Instr.atomW32 h) (FMA.ofBits_bits o))
theorem Coding.atomI64 (h : Hdr) (o : FMA) : Coding.Statement (.atomI64 h o) := by
  rintro p ⟨⟩
  exact Coding.row (rfl : build ⟨h, 0x96, o.bits, none⟩ = some (.atomI64 h (FMA.ofBits o.bits))) (congrArg (Instr.atomI64 h) (FMA.ofBits_bits o))
theorem Coding.atomW64 (h : Hdr) (o : FMA) : Coding.Statement (.atomW64 h o) := by
  rintro p ⟨⟩
  exact Coding.row (rfl : build ⟨h, 0x97, o.bits, none⟩ = some (.atomW64 h (FMA.ofBits o.bits))) (congrArg (Instr.atomW64 h) (FMA.ofBits_bits o))
theorem Coding.atomF32 (h : Hdr) (o : FMA) : Coding.Statement (.atomF32 h o) := by
  rintro p ⟨⟩
  exact Coding.row (rfl : build ⟨h, 0x98, o.bits, none⟩ = some (.atomF32 h (FMA.ofBits o.bits))) (congrArg (Instr.atomF32 h) (FMA.ofBits_bits o))
theorem Coding.redI32 (h : Hdr) (o : FMA) : Coding.Statement (.redI32 h o) := by
  rintro p ⟨⟩
  exact Coding.row (rfl : build ⟨h, 0x99, o.bits, none⟩ = some (.redI32 h (FMA.ofBits o.bits))) (congrArg (Instr.redI32 h) (FMA.ofBits_bits o))
theorem Coding.redW32 (h : Hdr) (o : FMA) : Coding.Statement (.redW32 h o) := by
  rintro p ⟨⟩
  exact Coding.row (rfl : build ⟨h, 0x9A, o.bits, none⟩ = some (.redW32 h (FMA.ofBits o.bits))) (congrArg (Instr.redW32 h) (FMA.ofBits_bits o))
theorem Coding.redI64 (h : Hdr) (o : FMA) : Coding.Statement (.redI64 h o) := by
  rintro p ⟨⟩
  exact Coding.row (rfl : build ⟨h, 0x9B, o.bits, none⟩ = some (.redI64 h (FMA.ofBits o.bits))) (congrArg (Instr.redI64 h) (FMA.ofBits_bits o))
theorem Coding.redW64 (h : Hdr) (o : FMA) : Coding.Statement (.redW64 h o) := by
  rintro p ⟨⟩
  exact Coding.row (rfl : build ⟨h, 0x9C, o.bits, none⟩ = some (.redW64 h (FMA.ofBits o.bits))) (congrArg (Instr.redW64 h) (FMA.ofBits_bits o))
theorem Coding.redF32 (h : Hdr) (o : FMA) : Coding.Statement (.redF32 h o) := by
  rintro p ⟨⟩
  exact Coding.row (rfl : build ⟨h, 0x9D, o.bits, none⟩ = some (.redF32 h (FMA.ofBits o.bits))) (congrArg (Instr.redF32 h) (FMA.ofBits_bits o))
theorem Coding.redF32Unord (h : Hdr) (o : FMA) : Coding.Statement (.redF32Unord h o) := by
  rintro p ⟨⟩
  exact Coding.row (rfl : build ⟨h, 0x9E, o.bits, none⟩ = some (.redF32Unord h (FMA.ofBits o.bits))) (congrArg (Instr.redF32Unord h) (FMA.ofBits_bits o))
theorem Coding.bra (h : Hdr) (o : FB) : Coding.Statement (.bra h o) := by
  rintro p ⟨⟩
  exact Coding.row (rfl : build ⟨h, 0xA0, o.bits, none⟩ = some (.bra h (FB.ofBits o.bits))) (congrArg (Instr.bra h) (FB.ofBits_bits o))
theorem Coding.braRg (h : Hdr) (o : FB) : Coding.Statement (.braRg h o) := by
  rintro p ⟨⟩
  exact Coding.row (rfl : build ⟨h, 0xA1, o.bits, none⟩ = some (.braRg h (FB.ofBits o.bits))) (congrArg (Instr.braRg h) (FB.ofBits_bits o))
theorem Coding.call (h : Hdr) (o : FB) : Coding.Statement (.call h o) := by
  rintro p ⟨⟩
  exact Coding.row (rfl : build ⟨h, 0xA2, o.bits, none⟩ = some (.call h (FB.ofBits o.bits))) (congrArg (Instr.call h) (FB.ofBits_bits o))
theorem Coding.calli (h : Hdr) (o : FV3) : Coding.Statement (.calli h o) := by
  rintro p ⟨⟩
  exact Coding.row (rfl : build ⟨h, 0xA3, o.bits, none⟩ = some (.calli h (FV3.ofBits o.bits))) (congrArg (Instr.calli h) (FV3.ofBits_bits o))
theorem Coding.jmpi (h : Hdr) (o : FV3) : Coding.Statement (.jmpi h o) := by
  rintro p ⟨⟩
  exact Coding.row (rfl : build ⟨h, 0xA4, o.bits, none⟩ = some (.jmpi h (FV3.ofBits o.bits))) (congrArg (Instr.jmpi h) (FV3.ofBits_bits o))
theorem Coding.jmpiRg (h : Hdr) (o : FV3) : Coding.Statement (.jmpiRg h o) := by
  rintro p ⟨⟩
  exact Coding.row (rfl : build ⟨h, 0xA5, o.bits, none⟩ = some (.jmpiRg h (FV3.ofBits o.bits))) (congrArg (Instr.jmpiRg h) (FV3.ofBits_bits o))
theorem Coding.ret (h : Hdr) (o : FV3) : Coding.Statement (.ret h o) := by
  rintro p ⟨⟩
  exact Coding.row (rfl : build ⟨h, 0xA6, o.bits, none⟩ = some (.ret h (FV3.ofBits o.bits))) (congrArg (Instr.ret h) (FV3.ofBits_bits o))
theorem Coding.loop (h : Hdr) (o : FN) : Coding.Statement (.loop h o) := by
  rintro p ⟨⟩
  exact Coding.row (rfl : build ⟨h, 0xA7, o.bits, none⟩ = some (.loop h (FN.ofBits o.bits))) (congrArg (Instr.loop h) (FN.ofBits_bits o))
theorem Coding.endloop (h : Hdr) (o : FN) : Coding.Statement (.endloop h o) := by
  rintro p ⟨⟩
  exact Coding.row (rfl : build ⟨h, 0xA8, o.bits, none⟩ = some (.endloop h (FN.ofBits o.bits))) (congrArg (Instr.endloop h) (FN.ofBits_bits o))
theorem Coding.jset (h : Hdr) (o : FJ) : Coding.Statement (.jset h o) := by
  rintro p ⟨⟩
  exact Coding.row (rfl : build ⟨h, 0xA9, o.bits, none⟩ = some (.jset h (FJ.ofBits o.bits))) (congrArg (Instr.jset h) (FJ.ofBits_bits o))
theorem Coding.join (h : Hdr) (o : FJ) : Coding.Statement (.join h o) := by
  rintro p ⟨⟩
  exact Coding.row (rfl : build ⟨h, 0xAA, o.bits, none⟩ = some (.join h (FJ.ofBits o.bits))) (congrArg (Instr.join h) (FJ.ofBits_bits o))
theorem Coding.joinRg (h : Hdr) (o : FJ) : Coding.Statement (.joinRg h o) := by
  rintro p ⟨⟩
  exact Coding.row (rfl : build ⟨h, 0xAB, o.bits, none⟩ = some (.joinRg h (FJ.ofBits o.bits))) (congrArg (Instr.joinRg h) (FJ.ofBits_bits o))
theorem Coding.leave (h : Hdr) (o : FJ) : Coding.Statement (.leave h o) := by
  rintro p ⟨⟩
  exact Coding.row (rfl : build ⟨h, 0xAC, o.bits, none⟩ = some (.leave h (FJ.ofBits o.bits))) (congrArg (Instr.leave h) (FJ.ofBits_bits o))
theorem Coding.leaveRg (h : Hdr) (o : FJ) : Coding.Statement (.leaveRg h o) := by
  rintro p ⟨⟩
  exact Coding.row (rfl : build ⟨h, 0xAD, o.bits, none⟩ = some (.leaveRg h (FJ.ofBits o.bits))) (congrArg (Instr.leaveRg h) (FJ.ofBits_bits o))
theorem Coding.regroup (h : Hdr) (o : FN) : Coding.Statement (.regroup h o) := by
  rintro p ⟨⟩
  exact Coding.row (rfl : build ⟨h, 0xAE, o.bits, none⟩ = some (.regroup h (FN.ofBits o.bits))) (congrArg (Instr.regroup h) (FN.ofBits_bits o))
theorem Coding.reorder (h : Hdr) (o : FV3) : Coding.Statement (.reorder h o) := by
  rintro p ⟨⟩
  exact Coding.row (rfl : build ⟨h, 0xAF, o.bits, none⟩ = some (.reorder h (FV3.ofBits o.bits))) (congrArg (Instr.reorder h) (FV3.ofBits_bits o))
theorem Coding.exit (h : Hdr) (o : FN) : Coding.Statement (.exit h o) := by
  rintro p ⟨⟩
  exact Coding.row (rfl : build ⟨h, 0xB0, o.bits, none⟩ = some (.exit h (FN.ofBits o.bits))) (congrArg (Instr.exit h) (FN.ofBits_bits o))
theorem Coding.exitNext (h : Hdr) (o : FB) : Coding.Statement (.exitNext h o) := by
  rintro p ⟨⟩
  exact Coding.row (rfl : build ⟨h, 0xB1, o.bits, none⟩ = some (.exitNext h (FB.ofBits o.bits))) (congrArg (Instr.exitNext h) (FB.ofBits_bits o))
theorem Coding.yield (h : Hdr) (o : FN) : Coding.Statement (.yield h o) := by
  rintro p ⟨⟩
  exact Coding.row (rfl : build ⟨h, 0xB2, o.bits, none⟩ = some (.yield h (FN.ofBits o.bits))) (congrArg (Instr.yield h) (FN.ofBits_bits o))
theorem Coding.copy (h : Hdr) (o : FA) : Coding.Statement (.copy h o) := by
  rintro p ⟨⟩
  exact Coding.row (rfl : build ⟨h, 0xC0, o.bits, none⟩ = some (.copy h (FA.ofBits o.bits))) (congrArg (Instr.copy h) (FA.ofBits_bits o))
theorem Coding.gather (h : Hdr) (o : FA) : Coding.Statement (.gather h o) := by
  rintro p ⟨⟩
  exact Coding.row (rfl : build ⟨h, 0xC1, o.bits, none⟩ = some (.gather h (FA.ofBits o.bits))) (congrArg (Instr.gather h) (FA.ofBits_bits o))
theorem Coding.waitc (h : Hdr) (o : FK) : Coding.Statement (.waitc h o) := by
  rintro p ⟨⟩
  exact Coding.row (rfl : build ⟨h, 0xC2, o.bits, none⟩ = some (.waitc h (FK.ofBits o.bits))) (congrArg (Instr.waitc h) (FK.ofBits_bits o))
theorem Coding.mmaIssue (h : Hdr) (o : FA) : Coding.Statement (.mmaIssue h o) := by
  rintro p ⟨⟩
  exact Coding.row (rfl : build ⟨h, 0xC3, o.bits, none⟩ = some (.mmaIssue h (FA.ofBits o.bits))) (congrArg (Instr.mmaIssue h) (FA.ofBits_bits o))
theorem Coding.mmaCommit (h : Hdr) (o : FA) : Coding.Statement (.mmaCommit h o) := by
  rintro p ⟨⟩
  exact Coding.row (rfl : build ⟨h, 0xC4, o.bits, none⟩ = some (.mmaCommit h (FA.ofBits o.bits))) (congrArg (Instr.mmaCommit h) (FA.ofBits_bits o))
theorem Coding.waitb (h : Hdr) (o : FA) : Coding.Statement (.waitb h o) := by
  rintro p ⟨⟩
  exact Coding.row (rfl : build ⟨h, 0xC5, o.bits, none⟩ = some (.waitb h (FA.ofBits o.bits))) (congrArg (Instr.waitb h) (FA.ofBits_bits o))
theorem Coding.wload (h : Hdr) (o : FA) : Coding.Statement (.wload h o) := by
  rintro p ⟨⟩
  exact Coding.row (rfl : build ⟨h, 0xC6, o.bits, none⟩ = some (.wload h (FA.ofBits o.bits))) (congrArg (Instr.wload h) (FA.ofBits_bits o))
theorem Coding.accz (h : Hdr) (o : FA) : Coding.Statement (.accz h o) := by
  rintro p ⟨⟩
  exact Coding.row (rfl : build ⟨h, 0xC7, o.bits, none⟩ = some (.accz h (FA.ofBits o.bits))) (congrArg (Instr.accz h) (FA.ofBits_bits o))
theorem Coding.ldacc (h : Hdr) (o : FV3) : Coding.Statement (.ldacc h o) := by
  rintro p ⟨⟩
  exact Coding.row (rfl : build ⟨h, 0xC8, o.bits, none⟩ = some (.ldacc h (FV3.ofBits o.bits))) (congrArg (Instr.ldacc h) (FV3.ofBits_bits o))
theorem Coding.stacc (h : Hdr) (o : FV3) : Coding.Statement (.stacc h o) := by
  rintro p ⟨⟩
  exact Coding.row (rfl : build ⟨h, 0xC9, o.bits, none⟩ = some (.stacc h (FV3.ofBits o.bits))) (congrArg (Instr.stacc h) (FV3.ofBits_bits o))
theorem Coding.batonTake (h : Hdr) (o : FN) : Coding.Statement (.batonTake h o) := by
  rintro p ⟨⟩
  exact Coding.row (rfl : build ⟨h, 0xCA, o.bits, none⟩ = some (.batonTake h (FN.ofBits o.bits))) (congrArg (Instr.batonTake h) (FN.ofBits_bits o))
theorem Coding.batonPass (h : Hdr) (o : FN) : Coding.Statement (.batonPass h o) := by
  rintro p ⟨⟩
  exact Coding.row (rfl : build ⟨h, 0xCB, o.bits, none⟩ = some (.batonPass h (FN.ofBits o.bits))) (congrArg (Instr.batonPass h) (FN.ofBits_bits o))
theorem Coding.qinit (h : Hdr) (o : FQ) : Coding.Statement (.qinit h o) := by
  rintro p ⟨⟩
  exact Coding.row (rfl : build ⟨h, 0xCC, o.bits, none⟩ = some (.qinit h (FQ.ofBits o.bits))) (congrArg (Instr.qinit h) (FQ.ofBits_bits o))
theorem Coding.qpush (h : Hdr) (o : FQ) : Coding.Statement (.qpush h o) := by
  rintro p ⟨⟩
  exact Coding.row (rfl : build ⟨h, 0xCD, o.bits, none⟩ = some (.qpush h (FQ.ofBits o.bits))) (congrArg (Instr.qpush h) (FQ.ofBits_bits o))
theorem Coding.qpop (h : Hdr) (o : FQ) : Coding.Statement (.qpop h o) := by
  rintro p ⟨⟩
  exact Coding.row (rfl : build ⟨h, 0xCE, o.bits, none⟩ = some (.qpop h (FQ.ofBits o.bits))) (congrArg (Instr.qpop h) (FQ.ofBits_bits o))
theorem Coding.qcred (h : Hdr) (o : FQ) : Coding.Statement (.qcred h o) := by
  rintro p ⟨⟩
  exact Coding.row (rfl : build ⟨h, 0xCF, o.bits, none⟩ = some (.qcred h (FQ.ofBits o.bits))) (congrArg (Instr.qcred h) (FQ.ofBits_bits o))
theorem Coding.coll (h : Hdr) (o : FA) : Coding.Statement (.coll h o) := by
  rintro p ⟨⟩
  exact Coding.row (rfl : build ⟨h, 0xD0, o.bits, none⟩ = some (.coll h (FA.ofBits o.bits))) (congrArg (Instr.coll h) (FA.ofBits_bits o))
theorem Coding.vdie (h : Hdr) (o : FUR) : Coding.Statement (.vdie h o) := by
  rintro p ⟨⟩
  exact Coding.row (rfl : build ⟨h, 0xD1, o.bits, o.lit⟩ = some (.vdie h (FUR.ofBits o.bits o.lit))) (congrArg (Instr.vdie h) (FUR.ofBits_bits o))
theorem Coding.vhop (h : Hdr) (o : FUR) : Coding.Statement (.vhop h o) := by
  rintro p ⟨⟩
  exact Coding.row (rfl : build ⟨h, 0xD2, o.bits, o.lit⟩ = some (.vhop h (FUR.ofBits o.bits o.lit))) (congrArg (Instr.vhop h) (FUR.ofBits_bits o))
theorem Coding.spawn (h : Hdr) (o : FX) : Coding.Statement (.spawn h o) := by
  rintro p ⟨⟩
  exact Coding.row (rfl : build ⟨h, 0xE0, o.bits, none⟩ = some (.spawn h (FX.ofBits o.bits))) (congrArg (Instr.spawn h) (FX.ofBits_bits o))
theorem Coding.emit (h : Hdr) (o : FX) : Coding.Statement (.emit h o) := by
  rintro p ⟨⟩
  exact Coding.row (rfl : build ⟨h, 0xE1, o.bits, none⟩ = some (.emit h (FX.ofBits o.bits))) (congrArg (Instr.emit h) (FX.ofBits_bits o))
theorem Coding.enqx (h : Hdr) (o : FX) : Coding.Statement (.enqx h o) := by
  rintro p ⟨⟩
  exact Coding.row (rfl : build ⟨h, 0xE2, o.bits, none⟩ = some (.enqx h (FX.ofBits o.bits))) (congrArg (Instr.enqx h) (FX.ofBits_bits o))
theorem Coding.stagePass (h : Hdr) (o : FX) : Coding.Statement (.stagePass h o) := by
  rintro p ⟨⟩
  exact Coding.row (rfl : build ⟨h, 0xE3, o.bits, none⟩ = some (.stagePass h (FX.ofBits o.bits))) (congrArg (Instr.stagePass h) (FX.ofBits_bits o))
theorem Coding.stageDrop (h : Hdr) (o : FX) : Coding.Statement (.stageDrop h o) := by
  rintro p ⟨⟩
  exact Coding.row (rfl : build ⟨h, 0xE4, o.bits, none⟩ = some (.stageDrop h (FX.ofBits o.bits))) (congrArg (Instr.stageDrop h) (FX.ofBits_bits o))
theorem Coding.recld (h : Hdr) (o : FX) : Coding.Statement (.recld h o) := by
  rintro p ⟨⟩
  exact Coding.row (rfl : build ⟨h, 0xE5, o.bits, none⟩ = some (.recld h (FX.ofBits o.bits))) (congrArg (Instr.recld h) (FX.ofBits_bits o))
theorem Coding.combine (h : Hdr) (o : FX) : Coding.Statement (.combine h o) := by
  rintro p ⟨⟩
  exact Coding.row (rfl : build ⟨h, 0xE6, o.bits, none⟩ = some (.combine h (FX.ofBits o.bits))) (congrArg (Instr.combine h) (FX.ofBits_bits o))
theorem Coding.trap (h : Hdr) (o : FVI) : Coding.Statement (.trap h o) := by
  rintro p ⟨⟩
  exact Coding.row (rfl : build ⟨h, 0xF0, o.bits, o.lit⟩ = some (.trap h (FVI.ofBits o.bits o.lit))) (congrArg (Instr.trap h) (FVI.ofBits_bits o))
theorem Coding.tret (h : Hdr) (o : FN) : Coding.Statement (.tret h o) := by
  rintro p ⟨⟩
  exact Coding.row (rfl : build ⟨h, 0xF1, o.bits, none⟩ = some (.tret h (FN.ofBits o.bits))) (congrArg (Instr.tret h) (FN.ofBits_bits o))
theorem Coding.sysrd (h : Hdr) (o : FY) : Coding.Statement (.sysrd h o) := by
  rintro p ⟨⟩
  exact Coding.row (rfl : build ⟨h, 0xF2, o.bits, none⟩ = some (.sysrd h (FY.ofBits o.bits))) (congrArg (Instr.sysrd h) (FY.ofBits_bits o))
theorem Coding.syswr (h : Hdr) (o : FY) : Coding.Statement (.syswr h o) := by
  rintro p ⟨⟩
  exact Coding.row (rfl : build ⟨h, 0xF3, o.bits, none⟩ = some (.syswr h (FY.ofBits o.bits))) (congrArg (Instr.syswr h) (FY.ofBits_bits o))
theorem Coding.inval (h : Hdr) (o : FY) : Coding.Statement (.inval h o) := by
  rintro p ⟨⟩
  exact Coding.row (rfl : build ⟨h, 0xF4, o.bits, none⟩ = some (.inval h (FY.ofBits o.bits))) (congrArg (Instr.inval h) (FY.ofBits_bits o))
theorem Coding.sheafFormation (team : Nat) : Coding.Statement (.sheafFormation team) := nofun
theorem Coding.loopBufferRefill (team tid : Nat) : Coding.Statement (.loopBufferRefill team tid) := nofun
theorem Coding.variableLatencyReturn (team tid serial : Nat) : Coding.Statement (.variableLatencyReturn team tid serial) := nofun
theorem Coding.queueRetry (team tid : Nat) : Coding.Statement (.queueRetry team tid) := nofun
theorem Coding.ldfRetry (acc : Nat) : Coding.Statement (.ldfRetry acc) := nofun
theorem Coding.backlogDrain (die : Nat) : Coding.Statement (.backlogDrain die) := nofun
theorem Coding.storeApply (acc : Nat) : Coding.Statement (.storeApply acc) := nofun
theorem Coding.loadRenew (acc : Nat) : Coding.Statement (.loadRenew acc) := nofun
theorem Coding.writeOwnershipGrant (die line : Nat) : Coding.Statement (.writeOwnershipGrant die line) := nofun
theorem Coding.dirReadMiss (die line : Nat) : Coding.Statement (.dirReadMiss die line) := nofun
theorem Coding.dirWriteOwnership (die line : Nat) : Coding.Statement (.dirWriteOwnership die line) := nofun
theorem Coding.dirHomeAccess (line : Nat) : Coding.Statement (.dirHomeAccess line) := nofun
theorem Coding.dirEviction (die line : Nat) : Coding.Statement (.dirEviction die line) := nofun
theorem Coding.lineDataReceive (die line : Nat) : Coding.Statement (.lineDataReceive die line) := nofun
theorem Coding.l2Eviction (die line : Nat) : Coding.Statement (.l2Eviction die line) := nofun
theorem Coding.atomicApply (acc : Nat) : Coding.Statement (.atomicApply acc) := nofun
theorem Coding.reductionAccept (acc : Nat) : Coding.Statement (.reductionAccept acc) := nofun
theorem Coding.exactSumClaim (acc : Nat) : Coding.Statement (.exactSumClaim acc) := nofun
theorem Coding.timeRebase (die : Nat) : Coding.Statement (.timeRebase die) := nofun
theorem Coding.copyComplete (op : Nat) : Coding.Statement (.copyComplete op) := nofun
theorem Coding.gatherComplete (op : Nat) : Coding.Statement (.gatherComplete op) := nofun
theorem Coding.wloadComplete (op : Nat) : Coding.Statement (.wloadComplete op) := nofun
theorem Coding.engineFaultPause (op : Nat) : Coding.Statement (.engineFaultPause op) := nofun
theorem Coding.mmaOperationStart (team : Nat) : Coding.Statement (.mmaOperationStart team) := nofun
theorem Coding.segmentRead (team : Nat) : Coding.Statement (.segmentRead team) := nofun
theorem Coding.mmaOperationFinish (team : Nat) : Coding.Statement (.mmaOperationFinish team) := nofun
theorem Coding.collContribution (c : Contribution) : Coding.Statement (.collContribution c) := nofun
theorem Coding.collResult (op : Nat) (reply : CollReply) : Coding.Statement (.collResult op reply) := nofun
theorem Coding.remoteResponse (acc : Nat) (reply : RemoteReply) : Coding.Statement (.remoteResponse acc reply) := nofun
theorem Coding.duetteRouteTimeout (acc : Nat) : Coding.Statement (.duetteRouteTimeout acc) := nofun
theorem Coding.recordArrival (record : Nat) : Coding.Statement (.recordArrival record) := nofun
theorem Coding.binAgeEligible (launch node : Nat) : Coding.Statement (.binAgeEligible launch node) := nofun
theorem Coding.binFiring (die : Nat) : Coding.Statement (.binFiring die) := nofun
theorem Coding.recordUnspill (record : Nat) : Coding.Statement (.recordUnspill record) := nofun
theorem Coding.heldRecordPlace (record : Nat) : Coding.Statement (.heldRecordPlace record) := nofun
theorem Coding.cohortStart (unit : Nat) : Coding.Statement (.cohortStart unit) := nofun
theorem Coding.fabricTeamStart (unit : Nat) : Coding.Statement (.fabricTeamStart unit) := nofun
theorem Coding.teamRestore (unit : Nat) : Coding.Statement (.teamRestore unit) := nofun
theorem Coding.discardedTeamRestart (unit : Nat) : Coding.Statement (.discardedTeamRestart unit) := nofun
theorem Coding.teamRetire (team : Nat) : Coding.Statement (.teamRetire team) := nofun
theorem Coding.applySetMask (launch : Nat) : Coding.Statement (.applySetMask launch) := nofun
theorem Coding.preemptionStart (die : Nat) : Coding.Statement (.preemptionStart die) := nofun
theorem Coding.saveComplete (team : Nat) : Coding.Statement (.saveComplete team) := nofun
theorem Coding.drainBudgetExpiry (team : Nat) : Coding.Statement (.drainBudgetExpiry team) := nofun
theorem Coding.drainForFit (unit : Nat) : Coding.Statement (.drainForFit unit) := nofun
theorem Coding.priorityAging (team : Nat) : Coding.Statement (.priorityAging team) := nofun
theorem Coding.teamOverdue (team : Nat) : Coding.Statement (.teamOverdue team) := nofun
theorem Coding.tenureEnd (team : Nat) : Coding.Statement (.tenureEnd team) := nofun
theorem Coding.launchParse (ctx slot : Nat) : Coding.Statement (.launchParse ctx slot) := nofun
theorem Coding.cancelComplete (launch : Nat) : Coding.Statement (.cancelComplete launch) := nofun
theorem Coding.invalidateComplete (serial : Nat) : Coding.Statement (.invalidateComplete serial) := nofun
theorem Coding.dieResetComplete (die : Nat) : Coding.Statement (.dieResetComplete die) := nofun
theorem Coding.migrationComplete (ctx : Nat) : Coding.Statement (.migrationComplete ctx) := nofun
theorem Coding.attestationComplete : Coding.Statement (.attestationComplete) := nofun
theorem Coding.powerOn : Coding.Statement (.powerOn) := nofun
theorem Coding.backInvalidateResponse (line : Nat) (data : Option (List Byte)) : Coding.Statement (.backInvalidateResponse line data) := nofun
theorem Coding.hostWrite (at_ : HostPlace) (bytes : List Byte) : Coding.Statement (.hostWrite at_ bytes) := nofun
theorem Coding.hostRead (at_ : HostPlace) (count : Nat) : Coding.Statement (.hostRead at_ count) := nofun
theorem Coding.remoteAccessRequest (r : RemoteRequest) : Coding.Statement (.remoteAccessRequest r) := nofun
theorem Coding.launchTrigger (ctx slot : Nat) (value : Byte) : Coding.Statement (.launchTrigger ctx slot value) := nofun
theorem Coding.contextCreate (ctx : Nat) (value : DWord) : Coding.Statement (.contextCreate ctx value) := nofun
theorem Coding.contextDestroy (ctx : Nat) : Coding.Statement (.contextDestroy ctx) := nofun
theorem Coding.evset (ctx word : Nat) (value : DWord) : Coding.Statement (.evset ctx word value) := nofun
theorem Coding.evclr (ctx word : Nat) (value : DWord) : Coding.Statement (.evclr ctx word value) := nofun
theorem Coding.slotCancel (ctx slot : Nat) : Coding.Statement (.slotCancel ctx slot) := nofun
theorem Coding.jtailWrite (ctx : Nat) (value : DWord) : Coding.Statement (.jtailWrite ctx value) := nofun
theorem Coding.fqtailWrite (ctx : Nat) (value : DWord) : Coding.Statement (.fqtailWrite ctx value) := nofun
theorem Coding.resumeReplay (ctx fseq : Nat) : Coding.Statement (.resumeReplay ctx fseq) := nofun
theorem Coding.resumeAbort (ctx fseq : Nat) : Coding.Statement (.resumeAbort ctx fseq) := nofun
theorem Coding.invalidateTranslations (ctx : Nat) : Coding.Statement (.invalidateTranslations ctx) := nofun
theorem Coding.invalidatePage (ctx va : Nat) : Coding.Statement (.invalidatePage ctx va) := nofun
theorem Coding.invalidateDescriptor (ctx index : Nat) : Coding.Statement (.invalidateDescriptor ctx index) := nofun
theorem Coding.invalidateAllDescriptors (ctx : Nat) : Coding.Statement (.invalidateAllDescriptors ctx) := nofun
theorem Coding.dieResetOrderly (die : Nat) : Coding.Statement (.dieResetOrderly die) := nofun
theorem Coding.dieResetAbrupt (die : Nat) : Coding.Statement (.dieResetAbrupt die) := nofun
theorem Coding.fatalDieError (die : Nat) : Coding.Statement (.fatalDieError die) := nofun
theorem Coding.lostclr (die : Nat) (value : DWord) : Coding.Statement (.lostclr die value) := nofun
theorem Coding.migrationStart (ctx : Nat) (value : DWord) : Coding.Statement (.migrationStart ctx value) := nofun
theorem Coding.hotRowThreshold (die channel row : Nat) : Coding.Statement (.hotRowThreshold die channel row) := nofun
theorem Coding.gddr7HotRowThreshold (die channel : Nat) : Coding.Statement (.gddr7HotRowThreshold die channel) := nofun
theorem Coding.refreshWindowEnd (die : Nat) : Coding.Statement (.refreshWindowEnd die) := nofun
theorem Coding.softError (e : SoftError) : Coding.Statement (.softError e) := nofun
theorem Coding.pclr (die : Nat) (value : DWord) : Coding.Statement (.pclr die value) := nofun
theorem Coding.attestationRequest (value : DWord) : Coding.Statement (.attestationRequest value) := nofun
theorem Coding.recoveryImageLoad (value : DWord) (image : Image) : Coding.Statement (.recoveryImageLoad value image) := nofun
theorem Coding.clockThrottle (limitsHold : Bool) : Coding.Statement (.clockThrottle limitsHold) := nofun
theorem Coding.registerWrite (offset : Nat) (value : DWord) : Coding.Statement (.registerWrite offset value) := nofun
theorem Coding.hostCacheRequest (die dpa : Nat) (own : Bool) : Coding.Statement (.hostCacheRequest die dpa own) := nofun
theorem Coding.hostCacheEviction (die dpa : Nat) (data : Option (List Byte)) : Coding.Statement (.hostCacheEviction die dpa data) := nofun
theorem Coding.duetteLinkLoss (device : Nat) : Coding.Statement (.duetteLinkLoss device) := nofun
theorem Coding.linkBringUp (port : Nat) (encrypted : Bool) : Coding.Statement (.linkBringUp port encrypted) := nofun

end Sys2Proof.Laws
end

