-- ==== Sys2Proof/Laws/Sparse.lean ====
section
/-! SUPPORT. Canonical stores: reading after writing, and every write keeps the form. Memory is such a store (log 6). -/

namespace Sys2Proof.Machine

variable {α : Type}

theorem sget_sinsert (d : α) (m : Sparse α) (key : Nat) (v : α) (k : Nat) :
    sget d (sinsert m key v) k = if k = key then v else sget d m k := by
  induction m with
  | nil => simp [sinsert, sget, eq_comm]
  | cons r m ih =>
    obtain ⟨j, x⟩ := r
    simp only [sinsert]
    split
    · by_cases hk : key = k
      · simp [sget, hk]
      · simp [sget, hk, Ne.symm hk]
    · split
      · next hj => subst hj; by_cases hk : k = j <;> simp [sget, hk, eq_comm]
      · next hj => simp only [sget, ih]; split <;> split <;> simp_all

theorem sget_serase_other (d : α) (m : Sparse α) (key k : Nat) (h : k ≠ key) :
    sget d (serase m key) k = sget d m k := by
  induction m with
  | nil => rfl
  | cons r m ih =>
    obtain ⟨j, x⟩ := r
    simp only [serase]
    split
    · next hj => subst hj; simp [sget, Ne.symm h, ih]
    · simp [sget, ih]

theorem sget_serase_same (d : α) (m : Sparse α) (key : Nat) : sget d (serase m key) key = d := by
  induction m with
  | nil => rfl
  | cons r m ih =>
    obtain ⟨j, x⟩ := r
    simp only [serase]
    split
    · exact ih
    · next hj => simp [sget, hj, ih]

/-- Keys of an insertion still rise. -/
theorem keysFrom_sinsert (m : Sparse α) (lo key : Nat) (v : α) (h : keysFrom lo m = true) (hk : lo ≤ key) :
    keysFrom lo (sinsert m key v) = true := by
  induction m generalizing lo with
  | nil => simp [sinsert, keysFrom, hk]
  | cons r m ih =>
    obtain ⟨j, x⟩ := r
    simp only [keysFrom, Bool.and_eq_true, decide_eq_true_eq] at h
    simp only [sinsert]
    split
    · simp only [keysFrom, Bool.and_eq_true, decide_eq_true_eq]; exact ⟨hk, by omega, h.2⟩
    · split
      · next hj => subst hj; simp [keysFrom, hk, h.2]
      · simp only [keysFrom, Bool.and_eq_true, decide_eq_true_eq]; exact ⟨h.1, ih _ h.2 (by omega)⟩

theorem keysFrom_mono (m : Sparse α) (lo lo' : Nat) (h : keysFrom lo m = true) (hl : lo' ≤ lo) : keysFrom lo' m = true := by
  cases m with
  | nil => rfl
  | cons r m =>
    simp only [keysFrom, Bool.and_eq_true, decide_eq_true_eq] at h ⊢
    exact ⟨by omega, h.2⟩

theorem keysFrom_serase (m : Sparse α) (lo key : Nat) (h : keysFrom lo m = true) : keysFrom lo (serase m key) = true := by
  induction m generalizing lo with
  | nil => rfl
  | cons r m ih =>
    obtain ⟨j, x⟩ := r
    simp only [keysFrom, Bool.and_eq_true, decide_eq_true_eq] at h
    simp only [serase]
    split
    · exact keysFrom_mono _ _ _ (ih (j + 1) h.2) (by omega)
    · simp only [keysFrom, Bool.and_eq_true, decide_eq_true_eq]; exact ⟨h.1, ih _ h.2⟩

theorem mem_sinsert (m : Sparse α) (key : Nat) (v : α) (r : Nat × α) (h : r ∈ sinsert m key v) : r = (key, v) ∨ r ∈ m := by
  induction m with
  | nil => simpa [sinsert] using h
  | cons q m ih =>
    obtain ⟨j, x⟩ := q
    simp only [sinsert] at h
    split at h
    · simpa using h
    · split at h
      · exact (List.mem_cons.mp h).imp id (List.mem_cons_of_mem _)
      · rcases List.mem_cons.mp h with rfl | h
        · exact .inr List.mem_cons_self
        · exact (ih h).imp id (List.mem_cons_of_mem _)

theorem mem_serase (m : Sparse α) (key : Nat) (r : Nat × α) (h : r ∈ serase m key) : r ∈ m := by
  induction m with
  | nil => simp [serase] at h
  | cons q m ih =>
    obtain ⟨j, x⟩ := q
    simp only [serase] at h
    split at h
    · exact List.mem_cons_of_mem _ (ih h)
    · rcases List.mem_cons.mp h with rfl | h
      · exact List.mem_cons_self
      · exact List.mem_cons_of_mem _ (ih h)

theorem sfind_sinsert (m : Sparse α) (key : Nat) (v : α) (k : Nat) :
    sfind (sinsert m key v) k = if k = key then some v else sfind m k := by
  induction m with
  | nil => simp [sinsert, sfind, eq_comm]
  | cons r m ih =>
    obtain ⟨j, x⟩ := r
    simp only [sinsert]
    split
    · by_cases hk : key = k
      · simp [sfind, hk]
      · simp [sfind, hk, Ne.symm hk]
    · split
      · next hj => subst hj; by_cases hk : k = j <;> simp [sfind, hk, eq_comm]
      · next hj => simp only [sfind, ih]; split <;> split <;> simp_all

theorem sfind_serase (m : Sparse α) (key k : Nat) : sfind (serase m key) k = if k = key then none else sfind m k := by
  induction m with
  | nil => simp [serase, sfind]
  | cons r m ih =>
    obtain ⟨j, x⟩ := r
    simp only [serase]
    split
    · next hj =>
      subst hj
      rw [ih]
      by_cases hk : k = j
      · simp [hk]
      · simp [sfind, hk, Ne.symm hk]
    · next hj => simp only [sfind, ih]; split <;> split <;> simp_all

variable [DecidableEq α]

theorem swf_iff (d : α) (m : Sparse α) : swf d m = true ↔ keysFrom 0 m = true ∧ ∀ r ∈ m, r.2 ≠ d := by
  simp [swf, List.all_eq_true]

/-- A write keeps the canonical form. -/
theorem swf_sset (d : α) (m : Sparse α) (key : Nat) (v : α) (h : swf d m = true) : swf d (sset d m key v) = true := by
  rw [swf_iff] at h ⊢
  unfold sset
  split
  · exact ⟨keysFrom_serase m 0 key h.1, fun r hr => h.2 r (mem_serase m key r hr)⟩
  · next hv =>
    refine ⟨keysFrom_sinsert m 0 key v h.1 (by omega), fun r hr => ?_⟩
    rcases mem_sinsert m key v r hr with rfl | hr
    · exact hv
    · exact h.2 r hr

/-- Reading after a write. -/
theorem sget_sset (d : α) (m : Sparse α) (key : Nat) (v : α) (k : Nat) :
    sget d (sset d m key v) k = if k = key then v else sget d m k := by
  unfold sset
  split
  · next hv =>
    split
    · next hk => subst hk; rw [hv]; exact sget_serase_same d m k
    · next hk => exact sget_serase_other d m key k hk
  · exact sget_sinsert d m key v k

/-- A write leaves every other key alone. -/
theorem sget_sset_other (d : α) (m : Sparse α) (key : Nat) (v : α) (k : Nat) (h : k ≠ key) :
    sget d (sset d m key v) k = sget d m k := by
  unfold sset
  split
  · exact sget_serase_other d m key k h
  · simp [sget_sinsert, h]

/-! ### Memory -/

theorem Memory.wf_putByte (m : List Host.Cell) (loc : Nat) (b : Byte) (h : Memory.wf m = true) :
    Memory.wf (putByte m loc b) = true := swf_sset _ m loc b h

theorem byteAt_putByte (m : List Host.Cell) (loc : Nat) (b : Byte) (k : Nat) :
    byteAt (putByte m loc b) k = if k = loc then b else byteAt m k := sget_sset _ m loc b k

theorem byteAt_putByte_other (m : List Host.Cell) (loc : Nat) (b : Byte) (k : Nat) (h : k ≠ loc) :
    byteAt (putByte m loc b) k = byteAt m k := sget_sset_other _ m loc b k h

theorem Memory.wf_putBytes (m : List Host.Cell) (loc : Nat) (bs : List Byte) (h : Memory.wf m = true) :
    Memory.wf (putBytes m loc bs) = true := by
  induction bs generalizing m loc with
  | nil => exact h
  | cons b bs ih => exact ih _ _ (Memory.wf_putByte m loc b h)

/-- Bytes outside the range written read as before. -/
theorem byteAt_putBytes_other (m : List Host.Cell) (loc : Nat) (bs : List Byte) (k : Nat)
    (h : k < loc ∨ loc + bs.length ≤ k) : byteAt (putBytes m loc bs) k = byteAt m k := by
  induction bs generalizing m loc with
  | nil => rfl
  | cons b bs ih =>
    simp only [List.length_cons] at h
    rw [putBytes, ih _ _ (by omega), byteAt_putByte_other m loc b k (by omega)]

/-- Bytes of the range written read as written. -/
theorem byteAt_putBytes (m : List Host.Cell) (loc : Nat) (bs : List Byte) (k : Nat) (hk : k < bs.length) :
    byteAt (putBytes m loc bs) (loc + k) = bs[k] := by
  induction bs generalizing m loc k with
  | nil => simp at hk
  | cons b bs ih =>
    cases k with
    | zero =>
      rw [putBytes, byteAt_putBytes_other _ _ _ _ (by omega)]
      simp [byteAt_putByte m loc b loc]
    | succ k =>
      have := ih (putByte m loc b) (loc + 1) k (by simpa using hk)
      rw [putBytes, show loc + (k + 1) = loc + 1 + k by omega, this]
      simp

end Sys2Proof.Machine
end

