-- ==== Sys2Proof/Laws/Sane.lean ====
section
/-! SUPPORT. How updates keep a state sane: a state is sane by seven of its fields, so an update of the others keeps it so; and one
lemma for each way in which the shared operations change those seven. -/

namespace Sys2Proof.Laws

open Sys2Proof.Machine

/-- Sanity depends on seven fields only. -/
theorem sane_congr {s t : State} (hm : t.mem = s.mem) (hk : t.ktag = s.ktag) (hd : t.dies = s.dies) (hc : t.ctxs = s.ctxs)
    (hz : t.clock = s.clock) (hf : t.fwState = s.fwState) (ha : t.attStat = s.attStat) : t.Sane ↔ s.Sane := by
  simp only [State.Sane, hm, hk, hd, hc, hz, hf, ha]

/-- An element of a list changed in one place is an old element or a changed one. -/
theorem mem_modifyAt {α : Type} {l : List α} {k : Nat} {f : α → α} {y : α} (h : y ∈ modifyAt l k f) :
    y ∈ l ∨ ∃ x ∈ l, y = f x := by
  induction l generalizing k with
  | nil => simp [modifyAt] at h
  | cons x r ih =>
    cases k with
    | zero =>
      simp only [modifyAt, List.mem_cons] at h
      rcases h with h | h
      · exact .inr ⟨x, by simp, h⟩
      · exact .inl (by simp [h])
    | succ k =>
      simp only [modifyAt, List.mem_cons] at h
      rcases h with h | h
      · exact .inl (by simp [h])
      · rcases ih h with h | ⟨z, hz, h⟩
        · exact .inl (by simp [h])
        · exact .inr ⟨z, by simp [hz], h⟩

/-- A change of one die that keeps every die legal. -/
theorem sane_mapDie {s : State} (h : s.Sane) (d : Nat) {f : Die → Die} (hf : ∀ D, D.Legal → (f D).Legal) :
    (s.mapDie d f).Sane := by
  obtain ⟨hm, hk, hd, hc, h1, h2, h3, h4, hl⟩ := h
  refine ⟨hm, hk, by simpa [State.mapDie, length_modifyAt] using hd, hc, h1, h2, h3, h4, fun D hD => ?_⟩
  rcases mem_modifyAt hD with hD | ⟨E, hE, rfl⟩
  · exact hl D hD
  · exact hf E (hl E hE)

/-- A change of every die that keeps every die legal. -/
theorem sane_mapDies {s : State} (h : s.Sane) {f : Die → Die} (hf : ∀ D, D.Legal → (f D).Legal) :
    ({ s with dies := s.dies.map f } : State).Sane := by
  obtain ⟨hm, hk, hd, hc, h1, h2, h3, h4, hl⟩ := h
  refine ⟨hm, hk, by simpa using hd, hc, h1, h2, h3, h4, fun D hD => ?_⟩
  obtain ⟨E, hE, rfl⟩ := List.mem_map.mp hD
  exact hf E (hl E hE)

theorem sane_mapCtx {s : State} (h : s.Sane) (k : Nat) (f : Ctx → Ctx) : (s.mapCtx k f).Sane := by
  obtain ⟨hm, hk, hd, hc, hr⟩ := h
  exact ⟨hm, hk, hd, by simpa [State.mapCtx, length_modifyAt] using hc, hr⟩

/-- Memory changed by an operation that keeps the canonical form. -/
theorem sane_mem {s : State} (h : s.Sane) {m : List Host.Cell} (hm : Memory.wf m = true) : ({ s with mem := m } : State).Sane := by
  obtain ⟨-, hr⟩ := h
  exact ⟨hm, hr⟩

theorem sane_putByte {s : State} (h : s.Sane) (loc : Nat) (b : Byte) : ({ s with mem := putByte s.mem loc b } : State).Sane :=
  sane_mem h (Memory.wf_putByte s.mem loc b h.1)

/-- Any run of byte writes keeps the canonical form. -/
theorem wf_foldl_putByte {α : Type} (f : List Host.Cell → α → Nat × Byte) (l : List α) (m : List Host.Cell) (h : Memory.wf m = true) :
    Memory.wf (l.foldl (fun m x => putByte m (f m x).1 (f m x).2) m) = true := by
  induction l generalizing m with
  | nil => exact h
  | cons x r ih => exact ih _ (Memory.wf_putByte _ _ _ h)

theorem keysFrom_filter {α : Type} (p : Nat × α → Bool) (m : Sparse α) (lo : Nat) (h : keysFrom lo m = true) :
    keysFrom lo (m.filter p) = true := by
  induction m generalizing lo with
  | nil => simpa using h
  | cons r m ih =>
    obtain ⟨k, v⟩ := r
    simp only [keysFrom, Bool.and_eq_true, decide_eq_true_eq] at h
    by_cases hp : p (k, v) = true
    · simp [hp, keysFrom, h.1, ih _ h.2]
    · simp only [hp, Bool.false_eq_true, not_false_eq_true, List.filter_cons_of_neg]
      exact ih lo (keysFrom_mono m (k + 1) lo h.2 (by omega))

/-- Taking rows out of a canonical store leaves it canonical. -/
theorem swf_filter {α : Type} [DecidableEq α] (d : α) (p : Nat × α → Bool) (m : Sparse α) (h : swf d m = true) : swf d (m.filter p) = true := by
  rw [swf_iff] at h ⊢
  exact ⟨keysFrom_filter p m 0 h.1, fun r hr => h.2 r (List.mem_filter.mp hr).1⟩

theorem sane_ktag {s : State} (h : s.Sane) (sec key : Nat) : ({ s with ktag := sset 0 s.ktag sec key } : State).Sane := by
  obtain ⟨hm, hk, hr⟩ := h
  exact ⟨hm, swf_sset 0 s.ktag sec key hk, hr⟩

/-- A left fold of steps that keep sanity keeps it. -/
theorem sane_foldl {α : Type} {f : State → α → State} (hf : ∀ s x, s.Sane → (f s x).Sane) (l : List α) {s : State} (h : s.Sane) :
    (l.foldl f s).Sane := by
  induction l generalizing s with
  | nil => exact h
  | cons x r ih => exact ih (hf s x h)

/-- A choice between two sane states is sane. -/
theorem sane_ite {c : Prop} [Decidable c] {s t : State} (hs : s.Sane) (ht : t.Sane) : (if c then s else t).Sane := by
  split <;> assumption

/-- A counter that saturates at 32 bits stays below 2^32. -/
theorem sat32_lt (n : Nat) : sat32 n < 2 ^ 32 := by
  unfold sat32
  omega

end Sys2Proof.Laws
end

