-- ==== Sys2Proof/Tests/Slice0.lean ====
section
/-! SUPPORT. The model's own tests: ill-formed terms that each check of WellFormed refuses, words written out from Tables 7-1,
7-4 and 7-8, results worked by hand from the spec's rules and examples, and a witness for the hypotheses of every statement. -/

namespace Sys2Proof.Tests

open Sys2Proof.Machine Sys2Proof.Claims

set_option maxRecDepth 20000

def hd : Hdr := ⟨false, false⟩

/-! ### Ill-formed terms (R166 to R169, R172 item 2) -/

theorem test_wf_clz_b : (Instr.clz hd ⟨1, 2, 3, 0⟩).wf = false := by decide
theorem test_wf_vd_type : (Instr.iaddVd hd ⟨1, 2, 8, 0, 0⟩).wf = false := by decide
theorem test_wf_vd_reserved_mod : (Instr.iaddVd hd ⟨1, 2, 2, 1, 0⟩).wf = false := by decide
theorem test_wf_vd_sat_refused : (Instr.iminVd hd ⟨1, 2, 2, 2, 0⟩).wf = false := by decide
theorem test_wf_vd_odd_pair : (Instr.imulVd hd ⟨1, 2, 3, 0, 0⟩).wf = false := by decide
theorem test_wf_vd_odd_source : (Instr.imulVd hd ⟨2, 3, 3, 0, 0⟩).wf = false := by decide
theorem test_wf_icvt_sat_b32 : (Instr.icvt hd ⟨2, 4, 8, 2, 0⟩).wf = false := by decide
theorem test_wf_icvt_odd : (Instr.icvt hd ⟨3, 4, 7, 0, 0⟩).wf = false := by decide
theorem test_wf_vi_literal_missing : (Instr.iaddi hd ⟨1, 2, 64, 0, none⟩).wf = false := by decide
theorem test_wf_vi_literal_unasked : (Instr.iaddi hd ⟨1, 2, 5, 0, some 7⟩).wf = false := by decide
theorem test_wf_vi_shift_32 : (Instr.shli hd ⟨1, 2, 32, 0, none⟩).wf = false := by decide
theorem test_wf_mov_a : (Instr.mov hd ⟨1, 1, 2, 0⟩).wf = false := by decide
theorem test_wf_movi_a : (Instr.movi hd ⟨1, 1, 2, 0, none⟩).wf = false := by decide
theorem test_wf_movs_number : (Instr.movs hd ⟨1, 0, 16, 0⟩).wf = false := by decide
theorem test_wf_movs_odd_pair : (Instr.movs hd ⟨1, 1, 0, 0⟩).wf = false := by decide
theorem test_wf_icmp_type : (Instr.icmp hd ⟨0, 10, 2, 4, 0⟩).wf = false := by decide
theorem test_wf_icmp_odd : (Instr.icmp hd ⟨0, 9, 3, 4, 0⟩).wf = false := by decide
theorem test_wf_gset_slot : (Instr.gset hd ⟨0, 1, 2⟩).wf = false := by decide
theorem test_wf_ur_register : (Instr.sadd hd ⟨96, 1, 2, none⟩).wf = false := by decide
theorem test_wf_ur_source : (Instr.sadd hd ⟨1, 96, 2, none⟩).wf = false := by decide
theorem test_wf_ur_two_literals : (Instr.sadd hd ⟨1, 127, 127, some 5⟩).wf = false := by decide
theorem test_wf_ur_literal_missing : (Instr.sadd hd ⟨1, 127, 2, none⟩).wf = false := by decide
theorem test_wf_smov_b : (Instr.smov hd ⟨1, 2, 3, none⟩).wf = false := by decide
theorem test_wf_xred_type : (Instr.xredAdd hd ⟨1, 2, 0, 0, 0⟩).wf = false := by decide
theorem test_wf_xred_sat : (Instr.xredAdd hd ⟨1, 2, 2, 2, 0⟩).wf = false := by decide
theorem test_wf_xmask_odd : (Instr.xmask hd ⟨0, 6, 3, 0, 0⟩).wf = false := by decide
theorem test_wf_xany_b : (Instr.xany hd ⟨0, 6, 3, 1, 0⟩).wf = false := by decide
theorem test_wf_float_type : (Instr.fadd hd ⟨1, 2, 9, 0, 0⟩).wf = false := by decide
theorem test_wf_float_mode : (Instr.fmin hd ⟨1, 2, 10, 1, 0⟩).wf = false := by decide
theorem test_wf_float_packed : (Instr.fdiv hd ⟨1, 2, 13, 0, 0⟩).wf = false := by decide
theorem test_wf_fcmp_packed : (Instr.fcmp hd ⟨0, 13, 2, 4, 0⟩).wf = false := by decide
theorem test_wf_cvt_source : (Instr.cvtF32 hd ⟨1, 2, 8, 0, 0⟩).wf = false := by decide
theorem test_wf_cvt_pair : (Instr.cvtI64 hd ⟨1, 2, 10, 0, 0⟩).wf = false := by decide
theorem test_wf_m_reserved_bit : (Instr.ldgB32 hd ⟨1, 2, 2, 1, 0, none⟩).wf = false := by decide
theorem test_wf_m_scope : (Instr.ldgB32 hd ⟨1, 2, 2, 18, 0, none⟩).wf = false := by decide
theorem test_wf_m_literal_x : (Instr.ldgB32 hd ⟨1, 2, 3, 1, 0, some 4⟩).wf = false := by decide
theorem test_wf_m_literal_missing : (Instr.ldgB32 hd ⟨1, 2, 3, 0, 0, none⟩).wf = false := by decide
theorem test_wf_m_quad : (Instr.ldgB128 hd ⟨2, 2, 0, 0, 0, none⟩).wf = false := by decide
theorem test_wf_m_pair : (Instr.stgB64 hd ⟨1, 2, 0, 0, 0, none⟩).wf = false := by decide
theorem test_wf_scratch_mode : (Instr.ldsB32 hd ⟨1, 2, 2, 0, 0, none⟩).wf = false := by decide
theorem test_wf_stb_mode : (Instr.stb hd ⟨1, 2, 1, 0, 0, none⟩).wf = false := by decide
theorem test_wf_fence_scope : (Instr.fence hd ⟨9, 0⟩).wf = false := by decide
theorem test_wf_bar_scope : (Instr.bar hd ⟨3, 0⟩).wf = false := by decide
theorem test_wf_cas_odd : (Instr.atomI32 hd ⟨1, 0, 7, 0, 2, 0⟩).wf = false := by decide
theorem test_wf_cas_quad : (Instr.atomI64 hd ⟨2, 0, 7, 0, 2, 0⟩).wf = false := by decide
theorem test_wf_atom_float_op : (Instr.atomF32 hd ⟨1, 0, 3, 0, 2, 0⟩).wf = false := by decide
theorem test_wf_red_acquire : (Instr.redI32 hd ⟨1, 0, 0, 1, 2, 0⟩).wf = false := by decide
theorem test_wf_red_exch : (Instr.redI32 hd ⟨1, 0, 6, 0, 2, 0⟩).wf = false := by decide
theorem test_wf_unord_min : (Instr.redF32Unord hd ⟨1, 0, 1, 0, 2, 0⟩).wf = false := by decide
theorem test_wf_jump_d : (Instr.ret hd ⟨1, 2, 0, 0⟩).wf = false := by decide
theorem test_wf_calli_b : (Instr.calli hd ⟨1, 2, 1, 0⟩).wf = false := by decide
theorem test_wf_join_range : (Instr.join hd ⟨1, 2, 0, 0⟩).wf = false := by decide
theorem test_wf_leave_order : (Instr.leave hd ⟨2, 1, 0, 0⟩).wf = false := by decide
theorem test_wf_reorder_d : (Instr.reorder hd ⟨1, 2, 0, 0⟩).wf = false := by decide
theorem test_wf_async_scope : (Instr.copy hd ⟨1, 2, 1, 0⟩).wf = false := by decide
theorem test_wf_async_run : (Instr.copy hd ⟨1, 94, 2, 0⟩).wf = false := by decide
theorem test_wf_coll_scope : (Instr.coll hd ⟨1, 2, 4, 0⟩).wf = false := by decide
theorem test_wf_mma_token : (Instr.mmaIssue hd ⟨1, 2, 0, 0⟩).wf = false := by decide
theorem test_wf_commit_p : (Instr.mmaCommit hd ⟨1, 2, 0, 0⟩).wf = false := by decide
theorem test_wf_queue_nb : (Instr.qinit hd ⟨1, 2, true, 0, 0⟩).wf = false := by decide
theorem test_wf_queue_cn : (Instr.qpush hd ⟨1, 2, false, 1, 0⟩).wf = false := by decide
theorem test_wf_record_node : (Instr.spawn hd ⟨96, 2, 1, 0⟩).wf = false := by decide
theorem test_wf_stage_fields : (Instr.stagePass hd ⟨0, 0, 1, 0⟩).wf = false := by decide
theorem test_wf_recld_run : (Instr.recld hd ⟨1, 60, 4, 0⟩).wf = false := by decide
theorem test_wf_combine_s : (Instr.combine hd ⟨1, 2, 3, 0⟩).wf = false := by decide
theorem test_wf_trap_number : (Instr.trap hd ⟨0, 1, 64, 0, some 1⟩).wf = false := by decide
theorem test_wf_sysreg_number : (Instr.sysrd hd ⟨1, 9⟩).wf = false := by decide
theorem test_wf_inval_kind : (Instr.inval hd ⟨1, 4⟩).wf = false := by decide

/-! ### Words written out field by field (Tables 7-1, 7-4, 7-8): C, W, MAJOR, then the fields of the format -/

/-- What a word, with a literal word or none, decodes to. -/
def reads? (w : Word) (lit : Option Word) : Option Instr := match decodeWord w lit with | .ok i => some i | .error _ => none

theorem test_word_nop : reads? (0#1 ++ 1#1 ++ 0x00#8 ++ 0#19 ++ 0#3) none = some (.nop ⟨false, true⟩) := by decide
theorem test_word_iadd :
    reads? (1#1 ++ 0#1 ++ 0x01#8 ++ 5#6 ++ 6#6 ++ 71#7 ++ 2#3) none = some (.iadd ⟨true, false⟩ ⟨5, 6, 71, 2⟩) := by decide
theorem test_word_imulVd :
    reads? (0#1 ++ 0#1 ++ 0x0F#8 ++ 4#6 ++ 8#7 ++ 7#4 ++ 2#2 ++ 1#3) none = some (.imulVd hd ⟨4, 8, 7, 2, 1⟩) := by decide
theorem test_word_iaddi_literal :
    reads? (0#1 ++ 0#1 ++ 0x1D#8 ++ 4#6 ++ 8#6 ++ 64#7 ++ 0#3) (some 0x12345678) =
      some (.iaddi hd ⟨4, 8, 64, 0, some 0x12345678⟩) := by decide
theorem test_word_icmp :
    reads? (0#1 ++ 0#1 ++ 0x28#8 ++ 3#2 ++ 6#4 ++ 9#6 ++ 68#7 ++ 2#3) none = some (.icmp hd ⟨3, 6, 9, 68, 2⟩) := by decide
theorem test_word_gset : reads? (0#1 ++ 0#1 ++ 0x29#8 ++ 7#3 ++ 2#2 ++ 13#4 ++ 0#13) none = some (.gset hd ⟨7, 2, 13⟩) := by decide
theorem test_word_sadd :
    reads? (0#1 ++ 0#1 ++ 0x2A#8 ++ 10#7 ++ 4#7 ++ 127#7 ++ 0#1) (some 1000) = some (.sadd hd ⟨10, 4, 127, some 1000⟩) := by decide
theorem test_word_topk :
    reads? (0#1 ++ 0#1 ++ 0x34#8 ++ 3#6 ++ 2#6 ++ 68#7 ++ 2#3) none = some (.topk hd ⟨3, 2, 68, 2⟩) := by decide
theorem test_word_xmask :
    reads? (0#1 ++ 0#1 ++ 0x3B#8 ++ 0#2 ++ 6#4 ++ 6#6 ++ 0#7 ++ 2#3) none = some (.xmask hd ⟨0, 6, 6, 0, 2⟩) := by decide
theorem test_word_fmac :
    reads? (0#1 ++ 0#1 ++ 0x43#8 ++ 1#6 ++ 2#6 ++ 3#7 ++ 0#3) none = some (.fmacF32 hd ⟨1, 2, 3, 0⟩) := by decide
theorem test_word_fdiv :
    reads? (0#1 ++ 0#1 ++ 0x4F#8 ++ 1#6 ++ 2#7 ++ 12#4 ++ 3#2 ++ 0#3) none = some (.fdiv hd ⟨1, 2, 12, 3, 0⟩) := by decide
theorem test_word_ldg :
    reads? (0#1 ++ 0#1 ++ 0x84#8 ++ 1#6 ++ 2#6 ++ 2#2 ++ 12#5 ++ 0#3) none = some (.ldgB32 hd ⟨1, 2, 2, 12, 0, none⟩) := by decide
theorem test_word_stg_literal :
    reads? (0#1 ++ 0#1 ++ 0x8B#8 ++ 4#6 ++ 2#6 ++ 3#2 ++ 0#5 ++ 7#3) (some 16) = some (.stgB128 hd ⟨4, 2, 3, 0, 7, some 16⟩) := by
  decide
theorem test_word_atom :
    reads? (0#1 ++ 0#1 ++ 0x97#8 ++ 4#6 ++ 15#4 ++ 7#3 ++ 3#2 ++ 6#4 ++ 1#3) none = some (.atomW64 hd ⟨4, 15, 7, 3, 6, 1⟩) := by
  decide
theorem test_word_fence : reads? (0#1 ++ 0#1 ++ 0x92#8 ++ 0#15 ++ 5#4 ++ 0#3) none = some (.fence hd ⟨5, 0⟩) := by decide
theorem test_word_bra : reads? (0#1 ++ 0#1 ++ 0xA1#8 ++ (-2 : BitVec 19) ++ 1#3) none = some (.braRg hd ⟨-2, 1⟩) := by decide
theorem test_word_leave :
    reads? (0#1 ++ 0#1 ++ 0xAC#8 ++ 1#4 ++ 2#4 ++ 7#11 ++ 2#3) none = some (.leave hd ⟨1, 2, 7, 2⟩) := by decide
theorem test_word_ret : reads? (0#1 ++ 0#1 ++ 0xA6#8 ++ 0#6 ++ 63#6 ++ 0#7 ++ 0#3) none = some (.ret hd ⟨0, 63, 0, 0⟩) := by decide
theorem test_word_waitc : reads? (0#1 ++ 0#1 ++ 0xC2#8 ++ 2#2 ++ 5#6 ++ 0#11 ++ 0#3) none = some (.waitc hd ⟨2, 5, 0⟩) := by decide
theorem test_word_copy :
    reads? (0#1 ++ 0#1 ++ 0xC0#8 ++ 20#7 ++ 30#7 ++ 6#4 ++ 0#1 ++ 0#3) none = some (.copy hd ⟨20, 30, 6, 0⟩) := by decide
theorem test_word_qpop :
    reads? (0#1 ++ 0#1 ++ 0xCE#8 ++ 3#4 ++ 9#6 ++ 1#1 ++ 2#2 ++ 0#6 ++ 0#3) none = some (.qpop hd ⟨3, 9, true, 2, 0⟩) := by decide
theorem test_word_spawn :
    reads? (0#1 ++ 0#1 ++ 0xE0#8 ++ 5#7 ++ 9#6 ++ 15#6 ++ 1#3) none = some (.spawn hd ⟨5, 9, 15, 1⟩) := by decide
theorem test_word_trap :
    reads? (0#1 ++ 0#1 ++ 0xF0#8 ++ 0#6 ++ 7#6 ++ 5#7 ++ 1#3) none = some (.trap hd ⟨0, 7, 5, 1, none⟩) := by decide
theorem test_word_syswr : reads? (0#1 ++ 0#1 ++ 0xF3#8 ++ 7#7 ++ 6#12 ++ 0#3) none = some (.syswr hd ⟨7, 6⟩) := by decide
/-- Reserved majors, and a bit set in NOP's operands, do not decode (R170). -/
theorem test_word_reserved : reads? (0#1 ++ 0#1 ++ 0xE7#8 ++ 0#22) none = none ∧ reads? (0#1 ++ 0#1 ++ 0x00#8 ++ 1#22) none = none := by
  decide
/-- A literal where the instruction takes none, or none where it takes one, does not decode (R166). -/
theorem test_word_literal :
    reads? (0#1 ++ 0#1 ++ 0x01#8 ++ 0#22) (some 0) = none ∧ reads? (0#1 ++ 0#1 ++ 0x1D#8 ++ 4#6 ++ 8#6 ++ 64#7 ++ 0#3) none = none := by
  decide

/-! Words of the manual's own examples: 8-2, 8-3, 9-3, 10-4, 11-3, 15-1. -/

theorem test_words_8 :
    reads? 0x0D030A22 none = some (.topk hd ⟨3, 2, 68, 2⟩) ∧ reads? 0x0A060E22 none = some (.icmp hd ⟨0, 6, 3, 68, 2⟩)
    ∧ reads? 0x0EC61802 none = some (.xmask hd ⟨0, 6, 6, 0, 2⟩) ∧ reads? 0x2A440000 none = some (.jset hd ⟨1, 0, 0, 0⟩)
    ∧ reads? 0x28800058 none = some (.call hd ⟨11, 0⟩) ∧ reads? 0x2B04803A none = some (.leave hd ⟨1, 2, 7, 2⟩)
    ∧ reads? 0x287FFFF1 none = some (.braRg hd ⟨-2, 1⟩) ∧ reads? 0x2AC80000 none = some (.joinRg hd ⟨2, 0, 0, 0⟩)
    ∧ reads? 0x098A0478 none = some (.movs hd ⟨10, 1, 15, 0⟩) ∧ reads? 0x2A840000 none = some (.join hd ⟨1, 0, 0, 0⟩)
    ∧ reads? 0x0A8504FE (some 0x3E8) = some (.sadd hd ⟨10, 4, 127, some 1000⟩)
    ∧ reads? 0x2980FC00 none = some (.ret hd ⟨0, 63, 0, 0⟩) := by decide
theorem test_words_9 :
    reads? 0x21062650 none = some (.ldgB32 hd ⟨6, 9, 2, 10, 0, none⟩) ∧ reads? 0x228A2110 none = some (.stgB64 hd ⟨10, 8, 1, 2, 0, none⟩)
    ∧ reads? 0x230A1808 none = some (.stb hd ⟨10, 6, 0, 1, 0, none⟩) ∧ reads? 0x25442FA8 none = some (.atomW32 hd ⟨4, 2, 7, 3, 5, 0⟩)
    ∧ reads? 0x27873030 none = some (.redF32Unord hd ⟨7, 3, 0, 0, 6, 0⟩) ∧ reads? 0x24800028 none = some (.fence hd ⟨5, 0⟩)
    ∧ reads? 0x24C00010 none = some (.bar hd ⟨2, 0⟩) ∧ reads? 0x30808000 none = some (.waitc hd ⟨0, 2, 0⟩)
    ∧ reads? 0x300A1850 none = some (.copy hd ⟨20, 24, 5, 0⟩) := by decide
theorem test_words_10 :
    reads? 0x10C80818 none = some (.fmacF32 hd ⟨8, 2, 3, 0⟩) ∧ reads? 0x13050D68 none = some (.fadd hd ⟨5, 6, 11, 1, 0⟩)
    ∧ reads? 0x14AA1238 none = some (.fcmp hd ⟨2, 10, 4, 71, 0⟩) ∧ reads? 0x14C91340 none = some (.fsqrt hd ⟨9, 9, 10, 0, 0⟩)
    ∧ reads? 0x17830F58 none = some (.cvtI32 hd ⟨3, 7, 10, 3, 0⟩) ∧ reads? 0x188C1248 none = some (.dxenc hd ⟨12, 4, 73, 0⟩)
    ∧ reads? 0x30C00C00 none = some (.mmaIssue hd ⟨0, 12, 0, 0⟩) ∧ reads? 0x31068000 none = some (.mmaCommit hd ⟨13, 0, 0, 0⟩)
    ∧ reads? 0x31400D00 none = some (.waitb hd ⟨0, 13, 0, 0⟩) ∧ reads? 0x318A1850 none = some (.wload hd ⟨20, 24, 5, 0⟩)
    ∧ reads? 0x31C01E00 none = some (.accz hd ⟨0, 30, 0, 0⟩) ∧ reads? 0x32060A28 none = some (.ldacc hd ⟨6, 2, 69, 0⟩)
    ∧ reads? 0x72060A28 none = some (.ldacc ⟨false, true⟩ ⟨6, 2, 69, 0⟩) ∧ reads? 0x32800000 none = some (.batonTake hd ⟨0⟩)
    ∧ reads? 0x32C00000 none = some (.batonPass hd ⟨0⟩) := by decide
theorem test_words_11_15 :
    reads? 0x38050828 none = some (.spawn hd ⟨10, 4, 5, 0⟩) ∧ reads? 0x38410808 none = some (.emit hd ⟨2, 4, 1, 0⟩)
    ∧ reads? 0x38860C49 none = some (.enqx hd ⟨12, 6, 9, 1⟩) ∧ reads? 0x38C00000 none = some (.stagePass hd ⟨0, 0, 0, 0⟩)
    ∧ reads? 0x39000000 none = some (.stageDrop hd ⟨0, 0, 0, 0⟩) ∧ reads? 0x39419018 none = some (.recld hd ⟨3, 8, 3, 0⟩)
    ∧ reads? 0x39800A38 none = some (.combine hd ⟨0, 5, 7, 0⟩) ∧ reads? 0x3C001C29 none = some (.trap hd ⟨0, 7, 5, 1, none⟩)
    ∧ reads? 0x3C400000 none = some (.tret hd ⟨0⟩) ∧ reads? 0x3C830018 none = some (.sysrd hd ⟨6, 3⟩)
    ∧ reads? 0x3CC38030 none = some (.syswr hd ⟨7, 6⟩) ∧ reads? 0x3D048008 none = some (.inval hd ⟨9, 1⟩) := by decide

/-- Example 7-2: groups that ILLEGAL_ENCODING refuses, and one that is legal. -/
def groupOk (w0 w1 w2 : Word) (k : Nat) : Bool := match groupFrom (packetWords w0 w1 w2) k with | .ok _ => true | .error _ => false
theorem test_groups :
    groupOk (1#1 ++ 0#1 ++ 0x40#8 ++ 0#22) (0#1 ++ 0#1 ++ 0x42#8 ++ 0#22) 0 0 = false
    ∧ groupOk (1#1 ++ 0#1 ++ 0x01#8 ++ 0#22) (1#1 ++ 0#1 ++ 0x40#8 ++ 0#22) (1#1 ++ 0#1 ++ 0x84#8 ++ 0#22) 0 = false
    ∧ groupOk (1#1 ++ 0#1 ++ 0x1D#8 ++ 0#12 ++ 64#7 ++ 0#3) 0xFFFFFFFF (0#1 ++ 0#1 ++ 0xA0#8 ++ 0#22) 0 = true
    ∧ groupOk 0 0 (0#1 ++ 0#1 ++ 0x1D#8 ++ 0#12 ++ 64#7 ++ 0#3) 2 = false := by decide

/-! ### Results -/

/-- A team of eight threads in one home sheaf of width 8, its registers given for thread 0, and an issue of some threads at 0. -/
def teamWith (regs : Nat → List (Nat × Word)) (uni : List (Nat × DWord)) : Team :=
  let t := loadedTeam State.reset (loadedLaunch 1 []) 2
  { t with threads := t.threads.map (fun x => { x with regs := { x.regs with v := regs x.tid } }),
           sheaves := t.sheaves.map (fun f => { f with uni := { f.uni with s := uni } }) }
def issueOf (tids : List Nat) (completing : Bool) : Issue :=
  { team := 2, slot := 0, tids := tids, pc := 0, replay := 0, fall := 4, words := [], lone := false, completing := completing,
    suppressed := [], trapped := [], held := [], waiting := [], stalled := false }
def stateWith (t : Team) (iss : Issue) : State :=
  { State.reset with fwState := 2, launches := [loadedLaunch 1 []], teams := [t], view := [t], issue := some iss, serial := 10 }

/-- Registers of thread 0 alone. -/
def alone (regs : List (Nat × Word)) : State := stateWith (teamWith (fun k => if k = 0 then regs else []) []) (issueOf [0] false)

/-- Thread k of the first team after an instruction. -/
def after (i : Instr) (s : State) (k : Nat) : Option Thread :=
  match exec i s with | .next u => (u.teams.head?).bind (fun t => t.thread? k) | _ => none
def regAfter (i : Instr) (regs : List (Nat × Word)) (d : Nat) : Option Word := (after i (alone regs) 0).map (fun x => x.regs.get d)
/-- The result on its way to a register. -/
def comingAfter (i : Instr) (regs : List (Nat × Word)) (d : Nat) : Option Word :=
  (after i (alone regs) 0).bind (fun x => ((x.pend.flatMap Pend.regs).find? (fun r => r.1 == d)).map Prod.snd)

/-- Example 8-1. -/
theorem test_idiv :
    comingAfter (.idivI32 hd ⟨3, 1, 2, 0⟩) [(1, -7), (2, 2)] 3 = some 0xFFFFFFFD
    ∧ comingAfter (.idivI32 hd ⟨3, 1, 2, 0⟩) [(1, 5)] 3 = some 0xFFFFFFFF
    ∧ comingAfter (.idivI32 hd ⟨3, 1, 2, 0⟩) [(1, 0x80000000), (2, -1)] 3 = some 0x80000000
    ∧ comingAfter (.idivW32 hd ⟨3, 1, 2, 0⟩) [(1, 7)] 3 = some 0xFFFFFFFF := by decide
theorem test_iaddVd :
    regAfter (.iaddVd hd ⟨3, 2, 0, 2, 0⟩) [(2, 0x50), (3, 0x64)] 3 = some 0x7F
    ∧ regAfter (.iaddVd hd ⟨3, 2, 0, 0, 0⟩) [(2, 0x50), (3, 0x64)] 3 = some 0xFFFFFFB4
    ∧ regAfter (.iaddVd hd ⟨3, 2, 4, 0, 0⟩) [(2, 0x50), (3, 0x64)] 3 = some 0xB4 := by decide
theorem test_shr :
    regAfter (.shrI32 hd ⟨3, 1, 2, 0⟩) [(1, 0x80000010), (2, 40)] 3 = some 0xFFFFFFFF
    ∧ regAfter (.shrW32 hd ⟨3, 1, 2, 0⟩) [(1, 0x80000010), (2, 40)] 3 = some 0 := by decide
theorem test_icvt :
    regAfter (.icvt hd ⟨3, 2, 4, 2, 0⟩) [(2, -5)] 3 = some 0 ∧ regAfter (.icvt hd ⟨3, 2, 2, 2, 0⟩) [(2, 0x80000000)] 3 = some 0x7FFFFFFF := by
  decide
theorem test_padd : regAfter (.padd hd ⟨3, 1, 2, 0⟩) [(1, 0x7FFFFFF0), (2, 0x20)] 3 = some 0x7FFFFFFF := by decide
theorem test_icmp :
    (after (.icmp hd ⟨1, 2, 1, 2, 0⟩) (alone [(1, 0x7FFFFFFF), (2, 0xFFFFFFFF)]) 0).map (fun x => x.regs.flags 1) =
      some ⟨true, false, false, true⟩
    ∧ condHolds 4 ⟨true, false, false, true⟩ = true ∧ condHolds 8 ⟨true, false, false, true⟩ = false := by decide
/-- A register source above 63 is a uniform register; a guard-false thread is left alone (R40, R168). -/
theorem test_iadd_uniform :
    ((after (.iadd hd ⟨1, 1, 67, 0⟩) (stateWith (teamWith (fun _ => [(1, 0xFFFFFFFF)]) [(3, 2)]) (issueOf [0] false)) 0).map
      (fun x => x.regs.get 1)) = some 1
    ∧ ((after (.iadd hd ⟨1, 1, 67, 1⟩) (stateWith (teamWith (fun _ => [(1, 5)]) [(3, 2)]) (issueOf [0] false)) 0).map
      (fun x => x.regs.get 1)) = some 5 := by decide

/-- Example 10-1. -/
theorem test_fadd :
    regAfter (.faddF32 hd ⟨3, 1, 2, 0⟩) [(1, 0x3F800000), (2, 0x33800000)] 3 = some 0x3F800000
    ∧ regAfter (.fadd hd ⟨3, 2, 10, 2, 0⟩) [(2, 0x33800000), (3, 0x3F800000)] 3 = some 0x3F800001 := by decide
theorem test_fmac :
    regAfter (.fmacF32 hd ⟨3, 1, 2, 0⟩) [(1, 0x3F800800), (2, 0x3F800800), (3, 0xBF801000)] 3 = some 0x33800000 := by decide
theorem test_fminmax :
    regAfter (.fminF32 hd ⟨3, 1, 2, 0⟩) [(2, 0x80000000)] 3 = some 0x80000000
    ∧ regAfter (.fmaxF32 hd ⟨3, 1, 2, 0⟩) [(1, 0x7FC01234), (2, 0x3F800000)] 3 = some 0x3F800000 := by decide
theorem test_fadd16 : regAfter (.faddF16x2 hd ⟨3, 1, 2, 0⟩) [(1, 0x3C007BFF), (2, 0x3C003C00)] 3 = some 0x40007BFF := by decide
theorem test_fdiv : comingAfter (.fdiv hd ⟨3, 2, 10, 0, 0⟩) [] 3 = some 0x7FC00000 := by decide
theorem test_frnd : regAfter (.frnd hd ⟨3, 2, 10, 0, 0⟩) [(2, 0xBF000000)] 3 = some 0x80000000 := by decide
theorem test_cvtI32 :
    regAfter (.cvtI32 hd ⟨3, 2, 10, 0, 0⟩) [(2, 0x7FC00000)] 3 = some 0
    ∧ regAfter (.cvtI32 hd ⟨3, 2, 10, 0, 0⟩) [(2, 0x4F32D05E)] 3 = some 0x7FFFFFFF
    ∧ regAfter (.cvtI32 hd ⟨3, 2, 10, 0, 0⟩) [(2, 0xC0200000)] 3 = some 0xFFFFFFFE := by decide
theorem test_cvtF16 :
    regAfter (.cvtF16 hd ⟨3, 2, 10, 1, 0⟩) [(2, 0x4788B800)] 3 = some 0x7BFF
    ∧ regAfter (.cvtF16 hd ⟨3, 2, 10, 0, 0⟩) [(2, 0x4788B800)] 3 = some 0x7C00 := by decide

/-- Example 10-2. -/
theorem test_dx :
    regAfter (.dxenc hd ⟨3, 1, 2, 0⟩) [(1, 0x40A00000)] 3 = some 0x7F81
    ∧ regAfter (.dxenc hd ⟨3, 1, 2, 0⟩) [(1, 0xBFA66666), (2, 0x7F810008)] 3 = some 0xEA
    ∧ regAfter (.dxenc hd ⟨3, 1, 2, 0⟩) [(1, 0x7FC00000)] 3 = some 0xFFFF := by decide
theorem test_dxdec :
    regAfter (.dxdec hd ⟨3, 1, 2, 0⟩) [(1, 0xEA), (2, 0x7F810000)] 3 = some 0xBFA80000
    ∧ regAfter (.dxdec hd ⟨3, 1, 2, 0⟩) [(1, 0xEA), (2, 0x7F810008)] 3 = some 0xBD40
    ∧ regAfter (.dxdec hd ⟨3, 1, 2, 0⟩) [(1, 0xEA), (2, 0xFF810000)] 3 = some 0x7FC00000 := by decide
/-- Example 4-1. -/
theorem test_dx_elements :
    dxHalf 1 0x7C80 0x2A = 0x4140 ∧ dxHalf 1 0x7C80 0xE5 = 0xB0A0 ∧ dxHalf 1 0x7C80 0x40 = 0 ∧ dxHalf 1 0x7C80 0xBF = 0x33E0
    ∧ dxHalf 1 0xFF80 0xE5 = 0x7E00 ∧ dxHalf 1 0xFF80 0x2A = 0x4140 ∧ dxHalf 2 0x7F81 7 = 0xC600 ∧ dxHalf 2 0x7F81 10 = 0x3C00 := by
  decide

/-- Example 8-2: lane 5 is guard-false; s4 holds 3. -/
def gating : State :=
  let score : List Word := [0x3F000000, 0x40000000, 0xBF800000, 0x40000000, 0x7FC00000, 0x3F400000, 0x40400000, 0x80000000]
  let t := teamWith (fun k => [(2, score.getD k 0), (3, 7), (6, 9)]) [(4, 3)]
  let t : Team := { t with
    threads := t.threads.map (fun x =>
      { x with regs := { x.regs with c := [⟨false, decide (x.tid ≠ 5), false, false⟩, Flags.zero, Flags.zero, Flags.zero] } }),
    sheaves := t.sheaves.map (fun f => { f with uni := { f.uni with g := modifyAt f.uni.g 1 (fun _ => ⟨0, 0⟩) } }) }
  let t : Team := { t with threads := t.threads.map (fun x =>
    { x with wait := .rendezvous (Arrival.mk 0 0 4 0 [] x.regs ((t.sheaves.headD Sheaf.reset).uni) 0 0 x.pt 0 0) }) }
  stateWith t (issueOf [0, 1, 2, 3, 4, 5, 6, 7] true)
def gated (i : Instr) (d : Nat) : List Word :=
  match exec i gating with | .next u => (u.teams.flatMap Team.threads).map (fun x => x.regs.get d) | _ => []
theorem test_topk : gated (.topk hd ⟨3, 2, 68, 2⟩) 3 =
    [0xFFFFFFFF, 1, 0xFFFFFFFF, 2, 0xFFFFFFFF, 7, 0, 0xFFFFFFFF] := by decide
theorem test_xmask : gated (.xmask hd ⟨0, 0, 6, 0, 2⟩) 6 = [0xDF, 0xDF, 0xDF, 0xDF, 0xDF, 9, 0xDF, 0xDF] := by decide
/-- R196: lane 0 has no lane 3 below it; lane 0 exclusive-or 7 is lane 7; lane 2 names the inactive lane 5. -/
theorem test_xsel_up : (gated (.xselUp hd ⟨10, 2, 68, 2⟩) 10).take 5 =
    [0x3F000000, 0x40000000, 0xBF800000, 0x3F000000, 0x40000000] := by decide
theorem test_xsel_xor : (gated (.xselXor hd ⟨10, 2, 3, 2⟩) 10).take 3 = [0x80000000, 0x40400000, 0xBF800000] := by decide

/-- Example 5-1. -/
theorem test_placement : placeDpa 0 2 4 6 0x12345 = locOf 0 4 13125 ∧ placeDpa 0 2 4 6 (0x12345 + 1024) / 2 ^ 54 % 256 = 5 := by decide
/-- Example 3-1. -/
theorem test_names : phys 1 48 = 0 ∧ phys 1 20 = 84 ∧ phys 1 63 = 15 ∧ phys 2 48 = 64 ∧ phys 2 50 = 66 ∧ phys 2 47 = 159 := by decide
/-- Example 1-1. -/
theorem test_wid : (List.range 6).map (widField [4, 3, 1, 2, 10, 0] 0x5D3A9) = [9, 2, 1, 3, 372, 0] := by decide
/-- Example 16-1. -/
theorem test_vhop : (List.range 4).map ({ Ctx.reset with ctl := 0x0BA80000 }).vdie = [some 0, some 2, some 3, none]
    ∧ Config.hop 0 3 = 2 ∧ Config.hop 2 3 = 1 ∧ Config.hop 3 3 = 0 := by decide
/-- Example 4-2, its first six elements with the +0 that follow. -/
theorem test_dx_block :
    dxEncode 1 2 [.fin false 5 0, .fin true 5452595 (-22), .fin false 3 (-2), .fin false 1 (-4), .fin false 2 0, .fin true 0 0] =
      (0x7F81, [0x28, 0xEA, 0x06, 0x82, 0x10, 0x00]) := by decide

/-! ### Witnesses: states and operands that meet the hypotheses of the statements -/

/-- An issue of threads 0 and 5 of the team of `teamWith`, and one that completes a rendezvous. -/
def baseTeam : Team := teamWith (fun k => [(1, BitVec.ofNat 32 k)]) [(2, 5)]
def issuing : State := stateWith baseTeam (issueOf [0, 5] false)
def completing : State := stateWith baseTeam (issueOf [0, 5] true)

/-- The one hypothesis of V3IntegerResults, ImmediateResults, MoveResults, UniformResults, FenceAndBarrierResults, TransferResults,
LevelAndRegroupResults, JoinRecords, QueueResults, BoundRecordResults, TrapAndReturn and SystemRegisterResults, and of first clauses of others:
an issue is under way. -/
theorem witness_issuing : Issuing issuing (issueOf [0, 5] false) baseTeam := ⟨rfl, by decide⟩
/-- The hypotheses of ShuffleAndVoteResults and of the first clause of TopkResults. -/
theorem witness_completing : Issuing completing (issueOf [0, 5] true) baseTeam ∧ (issueOf [0, 5] true).completing = true :=
  ⟨⟨rfl, by decide⟩, rfl⟩
/-- Both threads take effect under g0, neither under a slot never set (NV). -/
theorem witness_effective : effective (issueOf [0, 5] false) baseTeam 0 = [0, 5] ∧ effective (issueOf [0, 5] false) baseTeam 7 = [] := by
  decide
/-- The lists the statements range over are not empty. -/
theorem witness_lists : v3Integer.length = 18 ∧ viInteger.length = 8 ∧ vdIntegers.length = 5 ∧ v3Float.length = 12 ∧
    vdFloat.length = 6 ∧ vdFloatSlow.length = 9 ∧ uniformOps.length = 9 ∧ globalLoads.length = 7 ∧ globalStores.length = 5 ∧
    atomics.length = 11 ∧ engineWords.length = 4 := by decide

/-- Type codes at both ends of each range (TypedIntegerResults, CompareFlags, FloatResults, SlowResults, FloatConversionResults). -/
theorem witness_TypedIntegerResults : Issuing issuing (issueOf [0, 5] false) baseTeam ∧
    (∀ c ∈ [0, 7], (FVD.mk 2 4 c 2 0).t.toNat ≤ 7) ∧ (Instr.icvt hd ⟨2, 4, 0, 0, 0⟩).wf = true ∧
    (Instr.icvt hd ⟨2, 4, 9, 0, 0⟩).wf = true := ⟨witness_issuing, by decide, by decide, by decide⟩
theorem witness_CompareFlags : Issuing issuing (issueOf [0, 5] false) baseTeam ∧
    (∀ c ∈ [0, 9], (FVC.mk 1 c 2 4 0).code.toNat ≤ 9) ∧
    (∀ c ∈ [10, 12], 10 ≤ (FVC.mk 1 c 2 4 0).code.toNat ∧ (FVC.mk 1 c 2 4 0).code.toNat ≤ 12) :=
  ⟨witness_issuing, by decide, by decide⟩
theorem witness_FloatResults : Issuing issuing (issueOf [0, 5] false) baseTeam ∧
    (∀ c ∈ [10, 14], 10 ≤ (FVD.mk 2 4 c 3 0).t.toNat ∧ (FVD.mk 2 4 c 3 0).t.toNat ≤ 14) := ⟨witness_issuing, by decide⟩
theorem witness_FloatResults_choice : ∀ f ∈ [f32, f16, bf16], 2 ^ f.width - 1 < 2 ^ f.width ∧ 0 < 2 ^ f.width := by decide
theorem witness_SlowResults : Issuing issuing (issueOf [0, 5] false) baseTeam ∧
    (∀ c ∈ [10, 14], 10 ≤ (FVD.mk 2 4 c 3 0).t.toNat ∧ (FVD.mk 2 4 c 3 0).t.toNat ≤ 14) := ⟨witness_issuing, by decide⟩
theorem witness_FloatConversionResults : Issuing issuing (issueOf [0, 5] false) baseTeam ∧
    (∀ c ∈ [0, 7, 10, 12], (FVD.mk 2 4 c 1 0).t.toNat ≤ 12 ∧ (FVD.mk 2 4 c 1 0).t.toNat ≠ 8 ∧ (FVD.mk 2 4 c 1 0).t.toNat ≠ 9) ∧
    (∀ c ∈ [10, 12], 10 ≤ (FVD.mk 2 4 c 1 0).t.toNat ∧ (FVD.mk 2 4 c 1 0).t.toNat ≤ 12) := ⟨witness_issuing, by decide, by decide⟩
theorem witness_UniformStateResults : Issuing issuing (issueOf [0, 5] false) baseTeam ∧ (FG.mk 1 2 3).slot ≠ 0 ∧
    (FG.mk 7 2 3).slot ≠ 0 := ⟨witness_issuing, by decide, by decide⟩
theorem witness_CrossLaneArrival : Issuing issuing (issueOf [0, 5] false) baseTeam ∧ crossLane (.stb hd ⟨4, 2, 0, 0, 0, none⟩) = true ∧
    crossLane (.topk hd ⟨3, 2, 68, 2⟩) = true ∧ (issueOf [0, 5] false).completing = false := ⟨witness_issuing, rfl, rfl, rfl⟩
theorem witness_SheafReductionResults : Issuing completing (issueOf [0, 5] true) baseTeam ∧ (issueOf [0, 5] true).completing = true ∧
    (∀ c ∈ [2, 6, 7, 10, 12], xredOk ⟨2, 4, c, 0, 0⟩ = true) := ⟨witness_completing.1, rfl, by decide⟩
theorem witness_TopkResults : topkBefore ⟨0, 0, ⟨[(2, 5)], 0, []⟩, Uniform.reset⟩ ⟨1, 0, ⟨[(2, 4)], 0, []⟩, Uniform.reset⟩ 2 = true ∧
    topkBefore ⟨1, 0, ⟨[(2, 4)], 0, []⟩, Uniform.reset⟩ ⟨2, 0, ⟨[(2, 4)], 0, []⟩, Uniform.reset⟩ 2 = true := by decide
theorem witness_ElementConversionResults : (0xFF80 : Nat) < 65536 ∧ (1 : Nat) < 2 ∧ (63 : Nat) < 64 ∧ (3 : Nat) < 4 := by decide
/-- 1/3, which is not exact, and 2^128, above every finite number of .F32, with the largest finite pattern no larger than each. -/
theorem witness_RoundingIsCorrect : floorPattern f32 1 3 0 0x3EAAAAAA ∧ floorPattern f32 1 1 128 0x7F7FFFFF ∧
    ¬ atLeast (magnitude f32 0x3EAAAAAA).1 (magnitude f32 0x3EAAAAAA).2 1 3 0 ∧ floorPattern f16 3 1 (-25) 1 ∧
    atLeast (magnitude f32 0x3F800000).1 (magnitude f32 0x3F800000).2 1 1 0 := by
  unfold floorPattern atLeast atMost magnitude; decide

/-- The team of `withFetchWord` with its first word under way in threads 0 and 5; s0 is a pointer to buffer 0. -/
def loadedState : State := { State.reset.withFetchWord 32 0 with plan := [], issue := some (issueOf [0, 5] false) }
def loadedView : Team := (loadedState.view.head?).getD baseTeam
def targetOf (s : State) (t : Team) (disp : Int) (size : Nat) (k : AKind) : Target :=
  match s.target t.ctx (s.slotOf t) 0 disp size size k with
  | .ok x => x
  | .error _ => ⟨0, [], 0, 0, none, .host, 0, 0⟩
def reaches (s : State) (t : Team) (disp : Int) (size : Nat) (k : AKind) : Bool :=
  match s.target t.ctx (s.slotOf t) 0 disp size size k with
  | .ok x => onDevice x.route && x.format.isNone && (s.errorAt x.loc size []).isNone
  | .error _ => false
theorem witness_loaded : Issuing loadedState (issueOf [0, 5] false) loadedView := ⟨rfl, by decide⟩
theorem witness_targets : reaches loadedState loadedView 0 4 .load = true ∧ reaches loadedState loadedView 16 16 .store = true ∧
    reaches loadedState loadedView 0xFFFF8 8 .load = true ∧ reaches loadedState loadedView 0 4 .atom = true := by decide

/-- Checks that can be evaluated of the hypotheses of loads and stores. -/
def isOk {α : Type} [DecidableEq α] (e : Except Cond α) (v : α) : Bool := match e with | .ok x => decide (x = v) | .error _ => false
def isError {α : Type} (e : Except Cond α) (c : Cond) : Bool := match e with | .ok _ => false | .error x => decide (x = c)
theorem eq_ok {α : Type} [DecidableEq α] {e : Except Cond α} {v : α} (h : isOk e v = true) : e = .ok v := by
  cases e <;> simp_all [isOk]
theorem eq_error {α : Type} {e : Except Cond α} {c : Cond} (h : isError e c = true) : e = .error c := by
  cases e <;> simp_all [isError]
def storesReach (s : State) (iss : Issue) (t : Team) (g : BitVec 3) (kind : AKind) (ptr : Nat) (disp : Reads → Int) (size : Nat)
    (x : Nat → Target) : Bool :=
  (effective iss t g).all (fun k =>
    isOk (s.target t.ctx (s.slotOf t) ((reads iss t k).s ptr) (disp (reads iss t k)) size size kind) (x k)
    && onDevice (x k).route && decide ((x k).format = none)
    && decide (s.errorAt (x k).loc size [] = none))
theorem storesReach_spec {s : State} {iss : Issue} {t : Team} {g : BitVec 3} {kind : AKind} {ptr : Nat} {disp : Reads → Int} {size : Nat}
    {x : Nat → Target} (h : storesReach s iss t g kind ptr disp size x = true) : StoresReach s iss t g kind ptr disp size x := by
  intro k hk
  have q := List.all_eq_true.mp h k hk
  simp only [Bool.and_eq_true, decide_eq_true_eq] at q
  exact ⟨eq_ok q.1.1.1, q.1.1.2, q.1.2, q.2⟩
def loadsReach (s : State) (iss : Issue) (t : Team) (o : FM) (size : Nat) (plain : Shape) (x : Nat → Target) (sh : Nat → Shape × Nat) :
    Bool :=
  (effective iss t o.g).all (fun k =>
    isOk (s.target t.ctx (s.slotOf t) ((reads iss t k).s o.p.toNat) (mDisp o size (reads iss t k)) size size .load) (x k)
    && onDevice (x k).route && isOk (loadShape (x k) size plain o.d ((reads iss t k).s o.p.toNat)) (sh k)
    && decide (s.errorAt (x k).loc size (shapeLocs (sh k).1) = none))
theorem loadsReach_spec {s : State} {iss : Issue} {t : Team} {o : FM} {size : Nat} {plain : Shape} {x : Nat → Target}
    {sh : Nat → Shape × Nat} (h : loadsReach s iss t o size plain x sh = true) : LoadsReach s iss t o size plain x sh := by
  intro k hk
  have q := List.all_eq_true.mp h k hk
  simp only [Bool.and_eq_true, decide_eq_true_eq] at q
  exact ⟨eq_ok q.1.1.1, q.1.1.2, eq_ok q.1.2, q.2⟩

def iss2 : Issue := issueOf [0, 5] false
theorem witness_LoadResults : Issuing loadedState iss2 loadedView ∧
    LoadsReach loadedState iss2 loadedView ⟨1, 0, 2, 12, 0, none⟩ 4 .words (fun _ => targetOf loadedState loadedView 0 4 .load)
      (fun _ => (.words, 1))
    ∧ LoadsReach loadedState iss2 loadedView ⟨4, 0, 1, 8, 0, none⟩ 16 .words (fun _ => targetOf loadedState loadedView 128 16 .load)
      (fun _ => (.words, 4))
    ∧ StoresReach loadedState iss2 loadedView 0 .load 0 (mDisp ⟨2, 0, 1, 1, 0, none⟩ 8) 8
      (fun _ => targetOf loadedState loadedView 8 8 .load) :=
  ⟨witness_loaded, loadsReach_spec (by decide), loadsReach_spec (by decide), storesReach_spec (by decide)⟩
theorem witness_GlobalStoreResults : Issuing loadedState iss2 loadedView ∧
    StoresReach loadedState iss2 loadedView 0 .store 0 (mDisp ⟨1, 0, 3, 0, 0, some 0xFFFFF⟩ 1) 1
      (fun _ => targetOf loadedState loadedView 0xFFFFF 1 .store)
    ∧ StoresReach loadedState iss2 loadedView 0 .store 0 (mDisp ⟨4, 0, 1, 1, 0, none⟩ 16) 16
      (fun _ => targetOf loadedState loadedView 16 16 .store) :=
  ⟨witness_loaded, storesReach_spec (by decide), storesReach_spec (by decide)⟩
/-- RED.F32.UNORD where an exact sum stands. -/
def summing : State := { loadedState with
  dies := modifyAt loadedState.dies 0 (fun D => { D with sums := [⟨(targetOf loadedState loadedView 0 4 .red).loc, true, 0, none, 1, 0⟩] }) }
theorem witness_AtomicResults : Issuing summing iss2 loadedView ∧
    StoresReach summing iss2 loadedView 0 .atom 0 (fun _ => 0) 8 (fun _ => targetOf summing loadedView 0 8 .atom)
    ∧ StoresReach summing iss2 loadedView 0 .red 0 (fun _ => 0) 4 (fun _ => targetOf summing loadedView 0 4 .red)
    ∧ (summing.die (homeOf (targetOf summing loadedView 0 4 .red).loc)).sums.any
      (fun e => e.loc == (targetOf summing loadedView 0 4 .red).loc) = true :=
  ⟨⟨rfl, by decide⟩, storesReach_spec (by decide), storesReach_spec (by decide), by decide⟩
/-- The checks that fail: an offset at LIMIT, one misaligned. -/
theorem witness_GlobalAccessConditions : Issuing loadedState iss2 loadedView ∧
    (∀ k ∈ effective iss2 loadedView 0, loadedState.target loadedView.ctx (loadedState.slotOf loadedView) ((reads iss2 loadedView k).s 0)
      (mDisp ⟨1, 0, 3, 0, 0, some 0x100000⟩ 4 (reads iss2 loadedView k)) 4 4 .load = .error ⟨0x13, 0⟩)
    ∧ (∀ k ∈ effective iss2 loadedView 0, loadedState.target loadedView.ctx (loadedState.slotOf loadedView) ((reads iss2 loadedView k).s 0)
      (mDisp ⟨1, 0, 3, 0, 0, some 2⟩ 4 (reads iss2 loadedView k)) 4 4 .store = .error ⟨0x14, 0⟩) := by
  refine ⟨witness_loaded, fun k hk => ?_, fun k hk => ?_⟩
  all_goals
    have e : effective iss2 loadedView 0 = [0, 5] := by decide
    rw [e] at hk
    rcases List.mem_cons.mp hk with rfl | hk
    · exact eq_error (by decide)
    · rw [List.mem_singleton.mp hk]; exact eq_error (by decide)

/-- Another device's buffer under pointer 0: owner kind 3, device 7; the threads have asked nothing yet, or hold an answer. -/
def remoteState (ans : Option Answer) : State :=
  { loadedState.mapTeam 2 (fun t => { t with threads := t.threads.map (fun x => { x with answer := ans }) }) with
    mem := placeBytes loadedState.mem 0x8010 (toBytes (0xF + 3 * 2 ^ 8 + 7 * 2 ^ 10) 8) }
def remoteReach (s : State) (iss : Issue) (t : Team) (g : BitVec 3) (kind : AKind) (ptr : Nat) (disp : Reads → Int) (size : Nat)
    (x : Nat → Target) (w : Nat → Option Answer) : Bool :=
  (effective iss t g).all (fun k =>
    isOk (s.target t.ctx (s.slotOf t) ((reads iss t k).s ptr) (disp (reads iss t k)) size size kind) (x k)
    && !onDevice (x k).route && decide (s.answerFor iss k = w k))
theorem remoteReach_spec {s : State} {iss : Issue} {t : Team} {g : BitVec 3} {kind : AKind} {ptr : Nat} {disp : Reads → Int} {size : Nat}
    {x : Nat → Target} {w : Nat → Option Answer} (h : remoteReach s iss t g kind ptr disp size x w = true) :
    RemoteReach s iss t g kind ptr disp size x w := by
  intro k hk
  have q := List.all_eq_true.mp h k hk
  simp only [Bool.and_eq_true, decide_eq_true_eq, Bool.not_eq_true'] at q
  exact ⟨eq_ok q.1.1, q.1.2, q.2⟩
/-- The remote clauses of LoadResults, GlobalStoreResults, AtomicResults and GlobalAccessConditions: nothing asked, an answer of 4
bytes, an answer with BUFFER_RIGHTS. -/
theorem witness_RemoteAccesses :
    (∀ a ∈ [none, some (⟨0, 0, [1, 2, 3, 4], false, 0⟩ : Answer), some ⟨0, 0x12, [], true, 0⟩],
      RemoteReach (remoteState a) iss2 loadedView 0 .load 0 (mDisp ⟨1, 0, 3, 0, 0, some 0xFFFFC⟩ 4) 4
        (fun _ => targetOf (remoteState a) loadedView 0xFFFFC 4 .load) (fun _ => a)
      ∧ RemoteReach (remoteState a) iss2 loadedView 0 .store 0 (mDisp ⟨1, 0, 3, 0, 0, some 0⟩ 4) 4
        (fun _ => targetOf (remoteState a) loadedView 0 4 .store) (fun _ => a)
      ∧ RemoteReach (remoteState a) iss2 loadedView 0 .red 0 (fun _ => 0) 4
        (fun _ => targetOf (remoteState a) loadedView 0 4 .red) (fun _ => a))
    ∧ ∀ a, Issuing (remoteState a) iss2 loadedView := by
  refine ⟨fun a ha => ?_, fun a => ⟨rfl, rfl⟩⟩
  simp only [List.mem_cons, List.not_mem_nil, or_false] at ha
  rcases ha with rfl | rfl | rfl <;>
    exact ⟨remoteReach_spec (by decide), remoteReach_spec (by decide), remoteReach_spec (by decide)⟩

/-- A page of 1 GiB in a format under buffer 0, with a LIMIT and a BASE. -/
def formatState (fmt base limit : Nat) : State :=
  { loadedState with
    issue := some (issueOf [0, 5] true)
    mem := placeBytes (placeBytes loadedState.mem 0x12000 (toBytes (2 ^ 63 + 2 ^ 62 + fmt * 2 ^ 57) 8)) 0x8000
      (toBytes (2 ^ 63 + base) 8 ++ toBytes limit 8) }
def iss2c : Issue := issueOf [0, 5] true
def dxState : State := formatState 1 0 0x40000000
def dxWord : FM := ⟨4, 0, 3, 0, 0, some (BitVec.ofNat 32 (pageData false 0x40000000))⟩
def stbOf (s : State) (o : FM) (q : Nat × Nat × Nat) : Except Cond (Target × List (Nat × Byte × Byte)) :=
  s.stbWrites loadedView.ctx (s.slotOf loadedView) ((reads iss2c loadedView q.2.2).s o.p.toNat) (mDisp o 1 (reads iss2c loadedView q.2.2))
    (o.d.toNat % 4) ((blockValues o iss2c loadedView q.1 q.2.1).map (fun v => unpack f32 v.toNat))
def stbResult (s : State) (o : FM) : Target × List (Nat × Byte × Byte) :=
  match stbOf s o (0, 0, 0) with | .ok x => x | .error _ => (targetOf loadedState loadedView 0 4 .load, [])
theorem witness_BlockStoreResults :
    Issuing dxState iss2c loadedView ∧ iss2c.completing = true ∧ stbGroups iss2c loadedView 0 = [(0, 0, 0)]
    ∧ stbOf dxState dxWord (0, 0, 0) = .ok (stbResult dxState dxWord) ∧ (stbResult dxState dxWord).2.length = 34
    ∧ onDevice (stbResult dxState dxWord).1.route = true
    ∧ dxState.pathFree loadedView.ctx ((reads iss2c loadedView 0).s 0) (mDisp dxWord 1 (reads iss2c loadedView 0)) = true
    ∧ (Issuing (formatState 0 0 64) iss2c loadedView ∧ stbOf (formatState 0 0 64) dxWord (0, 0, 0) = .error ⟨0x13, 0⟩) :=
  ⟨⟨rfl, by decide⟩, rfl, by decide, eq_ok (by decide), by decide, by decide, by decide, ⟨rfl, by decide⟩, eq_error (by decide)⟩
/-- Where the clauses of R217 part: the format, the address against the scale plane and the buffer, and the lines. -/
def blockCase (s : State) (disp : Int) (fmt : Nat) : Bool :=
  (match s.checked 0 (s.slotOf loadedView) disp 2 2 .store 0 with | .ok va => decide (va = disp.toNat) | .error _ => false)
  && (match s.target 0 (s.slotOf loadedView) 0 disp 2 2 .store with
    | .ok x => (x.page.map Page.fmt == some fmt) && (s.memError x.loc 4).isNone
    | .error _ => false)
theorem witness_BlockStoreResults_checks :
    blockCase (formatState 0 0 2) 0 0 = true ∧ blockCase (formatState 3 0 4) 0 3 = true ∧ blockCase (formatState 3 0 4) 2 3 = true
    ∧ blockCase (formatState 3 0 6) 4 3 = true ∧ blockCase (formatState 1 0 0x40000000) (pageData false 0x40000000 - 2) 1 = true
    ∧ blockCase (formatState 1 0 0x40000000) (pageData false 0x40000000) 1 = true
    ∧ blockCase (formatState 2 0 0x40000000) (pageData true 0x40000000) 2 = true
    ∧ blockCase (formatState 1 0 0x40000000) (pageData false 0x40000000 + 2 * pageBlocks false 0x40000000 - 2) 1 = true
    ∧ blockCase (formatState 2 0 0x40000000) (pageData true 0x40000000 + 2 * pageBlocks true 0x40000000) 2 = true
    ∧ ((formatState 3 0 4).memError (targetOf (formatState 3 0 4) loadedView 0 2 .store).loc 4 = none
      ∧ ({ formatState 3 0 4 with poison := [0] } : State).memError 0 4 = some 0x31) := by decide

/-- A write of the same word later in the cycle, and none. -/
def written2 : Team := { loadedView with wlog := [(8, 1, 3), (12, 0, 2)] }
theorem witness_ScratchpadResults : (8 % 4 = 0 ∧ ∃ e ∈ written2.wlog, e.1 = 8 ∧ (1 < e.2.1 ∨ (1 = e.2.1 ∧ 2 < e.2.2))) ∧
    ¬ (∃ e ∈ written2.wlog, e.1 = 12 ∧ (0 < e.2.1 ∨ (0 = e.2.1 ∧ 2 < e.2.2))) ∧
    ¬ (∃ e ∈ written2.wlog, e.1 = 16 ∧ (0 < e.2.1 ∨ (0 = e.2.1 ∧ 2 < e.2.2))) := by decide

theorem witness_ThreadEnds : Issuing loadedState iss2 loadedView ∧ loadedState.launch? loadedView.launch = some (loadedLaunch 1 loadedState.mem) ∧
    (FB.mk 0 0).disp = 0 ∧ (FB.mk (-1) 0).disp ≠ 0 ∧ (FB.mk 262143 0).disp ≠ 0 ∧
    loadedState.team? loadedView.id = some loadedView ∧ (loadedView.threads[7]?).isSome = true ∧ loadedView.boundRec 7 = none := by
  refine ⟨witness_loaded, by decide, by decide, by decide, by decide, by decide, by decide, by decide⟩

/-- COPY of no bytes by one electing thread: its token is free, its counter empty. -/
def iss1 : Issue := issueOf [5] false
def oneState : State := { loadedState with issue := some iss1 }
theorem witness_EngineIssues : Issuing oneState iss1 loadedView ∧ electing iss1 loadedView 0 = [5] ∧ oneState.team? iss1.team = some loadedView ∧
    (loadedView.sheaves[5 / loadedView.width]?) = some Sheaf.reset ∧ Sheaf.reset.tokens.all (fun q => q.1 != 9) = true ∧
    (Sheaf.reset.out.filter (fun q => q.cls == 0)).length < 63 ∧
    (copyPtrs [0, 0, 0]).all (fun i => !oneState.bufferHeld loadedView.ctx ((([0, 0, 0] : List DWord).getD i 0).extractLsb' 54 10).toNat) = true ∧
    (List.range 3).map (fun i => (reads iss1 loadedView 5).s (20 + i)) = [0, 0, 0] ∧
    copyCheck loadedView oneState [0, 0, 0] = .ok none ∧ gatherCheck loadedView oneState [0, 0, 0, 0] = .ok none ∧
    wloadLocked loadedView oneState [0, 0, 0] = false := by
  have ok : ∀ {e : Except Cond (Option (Nat × Nat × Nat × Nat))}, isOk e none = true → e = .ok none := fun h => eq_ok h
  exact ⟨⟨rfl, by decide⟩, by decide, by decide, by decide, by decide, by decide, by decide, by decide, ok (by decide), ok (by decide), by decide⟩

/-- Two home sheaves' threads wait for the baton since cycles 3 and 5. -/
def waitingTeam : Team := { loadedView with width := 4, threads := loadedView.threads.map (fun x =>
  { x with wait := if x.tid = 1 then .baton 5 else if x.tid = 6 then .baton 3 else .none }) }
theorem witness_WaitsAndBaton : (∀ x ∈ loadedView.threads, ∀ c, x.wait ≠ .baton c) ∧
    (∃ x ∈ waitingTeam.threads, x.wait = .baton 3 ∧ x.tid / waitingTeam.width = 1 ∧
      ∀ y ∈ waitingTeam.threads, ∀ d, y.wait = .baton d → 3 < d ∨ (3 = d ∧ x.tid / waitingTeam.width ≤ y.tid / waitingTeam.width)) := by
  have e : loadedView.threads.all (fun x => match x.wait with | .baton _ => false | _ => true) = true := by decide
  have w : waitingTeam.threads.all (fun y => match y.wait with | .baton d => decide (3 < d ∨ (3 = d ∧ 1 ≤ y.tid / 4)) | _ => true) = true := by decide
  refine ⟨fun x hx c hc => ?_, waitingTeam.threads.getD 6 (Thread.reset 0 0 0 none 0 0), by decide, by decide, by decide, fun y hy d hd => ?_⟩
  · have q := List.all_eq_true.mp e x hx
    rw [hc] at q; exact nomatch q
  · have q := List.all_eq_true.mp w y hy
    rw [hd] at q; exact of_decide_eq_true q

theorem witness_MatrixResults : Issuing oneState iss1 loadedView ∧ electing iss1 loadedView 0 = [5] ∧ oneState.team? iss1.team = some loadedView ∧
    5 / loadedView.width < loadedView.sheaves.length ∧
    (((loadedView.sheaves[5 / loadedView.width]?).getD Sheaf.reset).out.filter (fun q => q.cls == 1)).length < 63 ∧
    loadedView.mops.length < 64 ∧ loadedView.openBatches < 8 := ⟨⟨rfl, by decide⟩, by decide, by decide, by decide, by decide, by decide, by decide⟩

/-- A launch with one plain node, width 8, teams of 8, COAL 8, TIMER 100, whose store is die 0's; and records of it. -/
def nodeWords : List DWord := [BitVec.ofNat 64 (2 ^ 39), BitVec.ofNat 64 (3 * 16 + 0xC401 * 2 ^ 32), 0, BitVec.ofNat 64 (8 + 100 * 2 ^ 16), 0, 0, 0, 0]
def fabricLaunch : Launch := { loadedLaunch 1 [] with nodes := [nodeWords] }
def record (id : Nat) (place : RecAt) : Record := ⟨id, 1, 0, List.replicate 16 7, 3, place, 0, 0, none, true, false, 77, id⟩
def fabricState (rs : List Record) (cycle : Nat) : State :=
  { oneState with launches := [fabricLaunch], records := rs, cycle := cycle }
theorem witness_RecordSends : Issuing (fabricState [] 5) iss1 loadedView ∧ (fabricState [] 5).launch? loadedView.launch = some fabricLaunch ∧
    (fabricState [] 5).launch? 1 = some fabricLaunch ∧ (fabricState [] 5).nodeDie 1 0 = some 0 ∧ 0 < (fabricState [] 5).dies.length ∧
    ((fabricState [] 5).die 0).used + (48 + 16 + 63) / 64 ≤ Config.storeUnits ∧
    (∀ r ∈ (fabricState [record 9 .moving] 5).records, r.place = .heldBack → r.sender ≠ 77) := by
  refine ⟨⟨rfl, by decide⟩, by decide, by decide, by decide, by decide, by decide, by decide⟩
theorem witness_TrapBlockWrites : 63 < State.reset.ctxs.length ∧ (State.reset.ctx 63).fqtail < 2 ^ 32 ∧ (State.reset.ctx 63).fqhead < 2 ^ 32 := by decide

/-! Events. -/

def quiet : State := { loadedState with issue := none }
def withThread5 (s : State) (f : Thread → Thread) : State := s.mapThread 2 5 f
def thread5 (s : State) : Thread := (s.thread? 2 5).getD (Thread.reset 0 0 0 none 0 0)

/-- Eight pooled threads; a refill due; a result of two registers due; queue operations blocked. -/
def pooled8 : State := { quiet with
  teams := quiet.teams.map (fun t => { t with threads := t.threads.map (fun x => { x with wait := .pooled 0, place := none }) }), cycle := 10 }
def refilling : State := withThread5 { quiet with cycle := 24 } (fun x => { x with
  refill := some (4, 24), blocks := [(0, 1), (1, 2), (2, 3), (3, 4)],
  pend := [⟨6, [(1, 11), (2, 12)], true, 24, false, false⟩, ⟨7, [], true, 0, false, false⟩, ⟨8, [(3, 1)], true, 3, false, false⟩] })
def pushing : State := withThread5 quiet (fun x => { x with block := .push 3 17 4 })
def popping : State := withThread5 quiet (fun x => { x with block := .pop 15 8 4, pend := [⟨8, [(3, 0)], false, 0, false, false⟩] })
theorem witness_PipelineEvents :
    (∃ t, pooled8.team? 2 = some t ∧ t.forms = true ∧ pooled8.formation t = some 0)
    ∧ (∃ x, refilling.thread? 2 5 = some x ∧ x.refill = some (4, 24) ∧ 24 ≤ refilling.cycle ∧ 24 ≤ ({ refilling with cycle := 23 } : State).cycle + 1
      ∧ x.pend.find? (fun q => q.serial == 6) = some ⟨6, [(1, 11), (2, 12)], true, 24, false, false⟩
      ∧ x.pend.find? (fun q => q.serial == 7) = some ⟨7, [], true, 0, false, false⟩)
    ∧ (∃ t x, pushing.team? 2 = some t ∧ pushing.thread? 2 5 = some x ∧ x.block = .push 3 17 4)
    ∧ (∃ t x, popping.team? 2 = some t ∧ popping.thread? 2 5 = some x ∧ x.block = .pop 15 8 4) := by
  refine ⟨⟨(pooled8.team? 2).getD loadedView, by decide⟩, ⟨thread5 refilling, by decide⟩,
    ⟨(pushing.team? 2).getD loadedView, thread5 pushing, by decide⟩, ⟨(popping.team? 2).getD loadedView, thread5 popping, by decide⟩⟩

/-- Accesses in flight. -/
def acc (id : Nat) (kind : AccKind) (die : Nat) : Acc :=
  { loadedState.accOf iss2 loadedView 5 kind (targetOf loadedState loadedView 64 4 .load) 4 with id := id, die := die }
def accState (as : List Acc) : State := { quiet with accs := as }
def spot : Nat := (targetOf loadedState loadedView 64 4 .load).loc
def clean : Sector := ⟨true, noMask, List.replicate 64 3, 4, 9⟩
def dirty : Sector := { clean with mask := List.replicate 64 0xFF }
def holding (s : State) (d : Nat) (x : Sector) : State :=
  { s with dies := modifyAt s.dies d (fun D => { D with l2 := [(secOf spot, x)], hwm := 12 }) }
/-- The line of `spot` with die d in a state. -/
def ownedBy (s : State) (d : Nat) (st : DirState) : State :=
  { s with dies := modifyAt s.dies 0 (fun D => { D with dir := [(lineOf spot, ⟨modifyAt [.i, .i, .i, .i] d (fun _ => st), .hi, 1⟩)] }) }

/-- What the statements ask of the places of an access, by what a state lists. -/
theorem sector_listed {m : Sparse Sector} {k : Nat} {x : Sector} (h : sfind m k = some x) : ∃ r ∈ m, r.2 = x := by
  induction m with
  | nil => exact nomatch h
  | cons r m ih =>
    unfold sfind at h
    split at h
    · exact ⟨r, List.mem_cons_self, Option.some.inj h⟩
    · obtain ⟨q, hq, e⟩ := ih h; exact ⟨q, List.mem_cons_of_mem _ hq, e⟩
def wholeB (s : State) (d : Nat) : Bool := (s.die d).l2.all (fun r => r.2.data.length == 64 && r.2.mask.length == 64)
theorem whole_of {s : State} {d : Nat} (h : wholeB s d = true) : wholeSectors s d := by
  intro sec x e
  obtain ⟨r, hr, rfl⟩ := sector_listed e
  have q := List.all_eq_true.mp h r hr
  simpa using q
def plainB (s : State) (key : Nat) (locs : List Nat) : Bool :=
  (s.sumsAt locs).isEmpty && s.launches.all (fun l => l.phase == .retiring || decide (l.combSize < 2048))
  && locs.all (fun l => decide (l < hostBase) && decide (homeOf l < s.dies.length) && decide (sget 0 s.ktag (secOf l) = key)
    && decide ((s.dirOf (lineOf l)).owner = none) && wholeB s (homeOf l))
theorem noCombine_of {s : State} (h : s.launches.all (fun l => l.phase == .retiring || decide (l.combSize < 2048)) = true) : noCombine s := by
  intro l hl ne
  have q := List.all_eq_true.mp h l hl
  simp only [Bool.or_eq_true, beq_iff_eq, decide_eq_true_eq] at q
  exact q.resolve_left ne
theorem plain_of {s : State} {key : Nat} {locs : List Nat} (h : plainB s key locs = true) : Plain s key locs := by
  simp only [plainB, Bool.and_eq_true] at h
  refine ⟨List.isEmpty_iff.mp h.1.1, noCombine_of h.1.2, fun l hl => ?_⟩
  have q := List.all_eq_true.mp h.2 l hl
  simp only [Bool.and_eq_true, decide_eq_true_eq] at q
  exact ⟨q.1.1.1.1, q.1.1.1.2, q.1.1.2, q.1.2, whole_of q.2⟩
def aloneB (s : State) (n : Nat) (a : Acc) : Bool :=
  decide (s.acc? n = some a) && s.accs.all (fun b => b.id != n || b == a) && decide (s.mates a = [a]) && (s.sumsAt a.locs).isEmpty
  && s.launches.all (fun l => l.phase == .retiring || decide (l.combSize < 2048))
  && a.locs.all (fun l => decide (sget 0 s.ktag (secOf l) = s.keyOf a.ctx a.route))
theorem alone_of {s : State} {n : Nat} {a : Acc} (h : aloneB s n a = true) : Alone s n a := by
  simp only [aloneB, Bool.and_eq_true, decide_eq_true_eq] at h
  refine ⟨h.1.1.1.1.1, fun b hb e => ?_, h.1.1.1.2, List.isEmpty_iff.mp h.1.1.2, noCombine_of h.1.2, fun l hl => ?_⟩
  · have q := List.all_eq_true.mp h.1.1.1.1.2 b hb
    simpa [e] using q
  · simpa using List.all_eq_true.mp h.2 l hl

/-- A store of two bytes, one of them half written, and a load of four; future loads whose word is at `spot` or was elsewhere. -/
def putAcc (die : Nat) (route : Route) (loc : Nat) : Acc :=
  { acc 4 .store die with route := route, loc := loc, wrote := [(loc, 0x11, 0xFF), (loc + 3, 0x22, 0x0F)] }
def futureAcc (loc : Nat) : Acc := { acc 4 .ldf 0 with size := 8, loc := loc }
def fullWord (s : State) : State := { s with mem := putByte s.mem (spot + 7) 0x80 }
def l1State : State := { accState [acc 4 (.load .words) 0] with
  dies := modifyAt quiet.dies 0 (fun D => { D with l1 := [(loadedView.core * 2 ^ 80 + secOf spot, ⟨List.replicate 64 5, 0, 100⟩)] }) }
theorem witness_StoreAndLoadEvents_stores :
    (∀ q ∈ [(0, Route.host, 2 ^ 70 + 64), (1, .strm, spot), (0, .coherent, spot), (1, .coherent, spot)],
      Alone (accState [putAcc q.1 q.2.1 q.2.2]) 4 (putAcc q.1 q.2.1 q.2.2)
      ∧ (accState [putAcc q.1 q.2.1 q.2.2]).canStores (putAcc q.1 q.2.1 q.2.2) = true
      ∧ (∀ w ∈ (putAcc q.1 q.2.1 q.2.2).wrote, secOf w.1 = secOf (putAcc q.1 q.2.1 q.2.2).loc))
    ∧ (quiet.dirOf (lineOf spot)).owner = none ∧ spot < hostBase ∧ homeOf spot = 0 ∧ 1 < quiet.dies.length
    ∧ wholeSectors (accState [putAcc 1 .strm spot]) 0 ∧ wholeSectors (accState [putAcc 1 .coherent spot]) 1
    ∧ (∃ a ∈ (ownedBy (accState [{ putAcc 1 .coherent spot with stage := .applied }]) 1 .m).accs,
      a.stage = .applied ∧ a.die = 1 ∧ a.pkg = false ∧ lineOf a.loc = lineOf spot)
    ∧ ((ownedBy quiet 1 .m).dirOf (lineOf spot)).of 1 = .m ∧ quiet.fills = [] := by
  refine ⟨fun q hq => ?_, by decide, by decide, by decide, by decide, whole_of (by decide), whole_of (by decide), by decide, by decide, rfl⟩
  simp only [List.mem_cons, List.not_mem_nil, or_false] at hq
  rcases hq with rfl | rfl | rfl | rfl <;> exact ⟨alone_of (by decide), by decide, by decide⟩
theorem witness_StoreAndLoadEvents_loads :
    (Alone (accState [acc 4 (.load .words) 0]) 4 (acc 4 (.load .words) 0) ∧ (accState [acc 4 (.load .words) 0]).canLoads (acc 4 (.load .words) 0) = true
      ∧ ∀ l ∈ (acc 4 (.load .words) 0).locs, sfind ((accState [acc 4 (.load .words) 0]).die 0).l1 ((acc 4 (.load .words) 0).core * 2 ^ 80 + secOf l) = none)
    ∧ (Alone l1State 4 (acc 4 (.load .words) 0) ∧ l1State.canLoads (acc 4 (.load .words) 0) = true
      ∧ sfind (l1State.die 0).l1 ((acc 4 (.load .words) 0).core * 2 ^ 80 + secOf spot) = some ⟨List.replicate 64 5, 0, 100⟩
      ∧ (∀ l ∈ (acc 4 (.load .words) 0).locs, secOf l = secOf (acc 4 (.load .words) 0).loc) ∧ (thread5 l1State).pt ≤ 100)
    ∧ (∀ loc ∈ [spot, spot + 8], Alone (accState [futureAcc loc]) 4 (futureAcc loc) ∧ (accState [futureAcc loc]).canLoads (futureAcc loc) = true)
    ∧ (accState [futureAcc spot]).refind (futureAcc spot) = .ok (futureAcc spot)
    ∧ (accState [futureAcc (spot + 8)]).refind (futureAcc (spot + 8)) = .ok (futureAcc spot)
    ∧ 2 ^ 63 ≤ ofBytes (there (fullWord (accState [futureAcc spot])) (futureAcc spot) spot 8)
    ∧ ofBytes (there (accState [futureAcc spot]) (futureAcc spot) spot 8) < 2 ^ 63
    ∧ ((acc 4 .ldf 0).kind = .ldf ∧ ({ acc 4 .ldf 0 with parked := true, since := 0 }).since + 128 ≤ ({ quiet with cycle := 128 } : State).cycle) := by
  refine ⟨⟨alone_of (by decide), by decide, by decide⟩, ⟨alone_of (by decide), by decide, by decide, by decide, by decide⟩, fun loc h => ?_,
    eq_ok (by decide), eq_ok (by decide), by decide, by decide, by decide⟩
  simp only [List.mem_cons, List.not_mem_nil, or_false] at h
  rcases h with rfl | rfl <;> exact ⟨alone_of (by decide), by decide⟩
theorem witness_TimesAtSlices :
    (∃ D, (holding quiet 0 clean).dies[0]? = some D ∧ sfind D.l2 (secOf spot) = some clean)
    ∧ ({ quiet with poison := [secOf spot] } : State).poison.contains (secOf spot) = true
    ∧ (2 ^ 47 ≤ (({ quiet with dies := modifyAt quiet.dies 3 (fun D => { D with hwm := 2 ^ 47 }) } : State).die 3).hwm
      ∧ ({ quiet with dies := modifyAt quiet.dies 3 (fun D => { D with hwm := 2 ^ 47 }) } : State).storesQuiet 3 = true) := by
  refine ⟨⟨(holding quiet 0 clean).die 0, by decide⟩, by decide, by decide, by decide⟩
/-- Die 2's load misses; die 2's L2 holds written bytes of the line. -/
def missing : State := accState [acc 4 (.load .words) 2]
def owning : State := holding quiet 2 dirty
def filling : State := { quiet with fills := [⟨2, lineOf spot, List.replicate 256 1, false⟩] }
theorem of_of {s : State} {line : Nat} {p : DirState → Prop} {y : Nat}
    (h : ∀ e, e < 4 → p ((s.dirOf line).of e) → e = y) (hn : ¬ p .i) (hl : (s.dirOf line).dies.length = 4) :
    ∀ e, p ((s.dirOf line).of e) → e = y := by
  intro e he
  by_cases q : e < 4
  · exact h e q he
  · have : (s.dirOf line).of e = .i := by unfold DirEntry.of; simp [List.getD, hl, Nat.not_lt.mp q]
    rw [this] at he; exact absurd he hn
theorem witness_DirectoryEvents :
    (missing.canReadMiss 2 (lineOf spot) = true ∧ missing.victim (lineOf spot) = none ∧ (missing.dirOf (lineOf spot)).dies.length = 4
      ∧ (missing.dirOf (lineOf spot)).owner = none)
    ∧ ((ownedBy missing 1 .e).canReadMiss 2 (lineOf spot) = true ∧ (ownedBy missing 1 .e).victim (lineOf spot) = none
      ∧ ((ownedBy missing 1 .e).dirOf (lineOf spot)).owner = some 1)
    ∧ (owning.canOwn 2 (lineOf spot) = true ∧ owning.victim (lineOf spot) = none ∧ (owning.dirOf (lineOf spot)).owner = none)
    ∧ ((ownedBy owning 3 .m).canOwn 2 (lineOf spot) = true ∧ ((ownedBy owning 3 .m).dirOf (lineOf spot)).owner = some 3
      ∧ ∀ e, (((ownedBy owning 3 .m).dirOf (lineOf spot)).of e = .e ∨ ((ownedBy owning 3 .m).dirOf (lineOf spot)).of e = .m) → e = 3)
    ∧ ((ownedBy (accState [acc 4 (.load .words) 0]) 2 .m).canRecall (lineOf spot) = true
      ∧ ((ownedBy (accState [acc 4 (.load .words) 0]) 2 .m).dirOf (lineOf spot)).owner = some 2)
    ∧ ((ownedBy quiet 3 .s).canNotice 3 (lineOf spot) = true ∧ 3 < ((ownedBy quiet 3 .s).dirOf (lineOf spot)).dies.length)
    ∧ (filling.fillFor 2 (lineOf spot) = some ⟨2, lineOf spot, List.replicate 256 1, false⟩ ∧ 2 < filling.dies.length
      ∧ filling.sector 2 (lineOf spot * 4 + 3) = none
      ∧ (holding (ownedBy filling 2 .e) 2 dirty).sector 2 (secOf spot) = some dirty ∧ dirty.dirty = true
      ∧ ((holding (ownedBy filling 2 .e) 2 dirty).dirOf (lineOf spot)).of 2 = .e)
    ∧ ((holding quiet 0 dirty).canEvict 0 (lineOf spot) = true ∧ (holding quiet 0 dirty).sector 0 (lineOf spot * 4 + secOf spot % 4) = some dirty
      ∧ lineHome (lineOf spot) = 0 ∧ (holding quiet 0 dirty).fills = [] ∧ (holding quiet 1 clean).canEvict 1 (lineOf spot) = true) := by
  refine ⟨by decide, by decide, by decide, ⟨by decide, by decide, ?_⟩, by decide, by decide, by decide, by decide⟩
  exact of_of (p := fun x => x = .e ∨ x = .m) (by decide) (by decide) (by decide)
def homeAcc (kind : AccKind) (route : Route) (loc : Nat) : Acc := { acc 4 kind 0 with route := route, loc := loc }
theorem witness_AtomicEvents :
    (∀ q ∈ [(AccKind.atomic 7 3 5 6, Route.coherent, spot), (.atomic 0 4 5 6, .host, 2 ^ 70 + 64), (.reduce 0 4 5, .strm, spot)],
      (let a := homeAcc q.1 q.2.1 q.2.2
       (accState [a]).acc? 4 = some a ∧ (accState [a]).canHome a = true ∧ (accState [a]).sumsAt a.locs = [] ∧ a.size = 4 ∧ a.loc % a.size = 0
       ∧ ∀ l ∈ a.locs, sget 0 (accState [a]).ktag (secOf l) = (accState [a]).keyOf a.ctx a.route))
    ∧ noCombine quiet ∧ (quiet.dirOf (lineOf spot)).owner = none ∧ wholeSectors quiet (homeOf spot) ∧ spot < hostBase
    ∧ (let a := homeAcc (.unord 5) .strm spot
       (accState [a]).acc? 4 = some a ∧ (accState [a]).canHome a = true ∧ (accState [a]).sumAt a.loc = none
       ∧ (accState [a]).die (homeOf a.loc) = quiet.die 0 ∧ (quiet.die 0).sums = []
       ∧ (({ accState [a] with dies := modifyAt quiet.dies 0 (fun D => { D with sums := [⟨spot, true, 0, none, 1, 0⟩] }) } : State).sumAt
         spot).map ExactSum.held = some true)
    ∧ ((accState [acc 4 .claim 0]).acc? 4 = some (acc 4 .claim 0) ∧ ((accState [acc 4 .claim 0]).die (homeOf spot)).state = 1
      ∧ (acc 4 .claim 0).loc = spot ∧ (accState [acc 4 .claim 0]).sumRoom spot = true) := by
  refine ⟨by decide, noCombine_of (by decide), by decide, whole_of (by decide), by decide, by decide, by decide⟩

/-- Operations of the engines: a copy of four bytes inside buffer 0, a gather of none, a panel of one element, a copy whose source has no page. -/
def op (kind : Nat) (params : List DWord) : Op :=
  { serial := 6, kind := kind, team := 2, sheaf := 0, tid := 5, ctx := 0, launch := 1, die := 0, core := 0, pc := 0, token := 9, scope := 6,
    params := params, descs := [(0, loadedState.descOf 0 0), (1, loadedState.descOf 0 0)], p := 1, after := 6, since := 0, paused := none,
    coll := none, sent := false, result := none, final := none, taken := [], landed := [], wts := 0 }
def opState (o : Op) : State := { quiet with ops := [o] }
def copyOp : Op := op 0 [64, 128, 4]
/-- Scratchpad to scratchpad: 16 bytes from 0 to 16. -/
def scratchOp : Op := { op 0 [0, 16, BitVec.ofNat 64 (16 + 3 * 2 ^ 32)] with descs := [] }
def gatherOp : Op := op 2 [64, 0, 1, 64]
def panelOp : Op := op 1 [64, 1, BitVec.ofNat 64 (1 + 2 ^ 16 + 2 ^ 40)]
/-- The third-level table says nothing is mapped; the launch of the same state has ended early. -/
def unmapped : State := { opState copyOp with mem := placeBytes quiet.mem 0x12000 (toBytes 0 8) }
def unmappedEnded : State := { unmapped with launches := unmapped.launches.map (fun l => { l with phase := .ending true 1 }) }
def mop (started : Bool) (segs : List (Nat × List Byte)) : MOp := ⟨7, 0, 5, [BitVec.ofNat 64 (2 ^ 27 + 2 ^ 32 + 2 ^ 48), 0, 0, 0, 0, 0, 0, 0], some 1, started, segs⟩
def mopState (m : MOp) : State := quiet.mapTeam 2 (fun t => { t with mops := [m] })
theorem witness_EngineEvents :
    ((opState copyOp).op? 6 = some copyOp ∧ (opState copyOp).opMay copyOp ((opState copyOp).copyUnits copyOp) = true
      ∧ (opState copyOp).meetsSum ((opState copyOp).copyUnits copyOp) = false ∧ ((opState copyOp).copyUnits copyOp).length = 4)
    ∧ ((opState gatherOp).opMay gatherOp ((opState gatherOp).gatherUnits gatherOp) = true
      ∧ (opState gatherOp).meetsSum ((opState gatherOp).gatherUnits gatherOp) = false ∧ ((opState gatherOp).gatherUnits gatherOp).length = 4)
    ∧ (unmapped.op? 6 = some copyOp ∧ unmapped.opPause copyOp = some (0x18, 64) ∧ (unmapped.noteWalks copyOp).stopped copyOp = false)
    ∧ (unmappedEnded.opPause copyOp = some (0x18, 64) ∧ (unmappedEnded.noteWalks copyOp).stopped copyOp = true) := by
  refine ⟨by decide, by decide, by decide, by decide⟩
theorem witness_EngineEvents_scratch : (opState scratchOp).op? 6 = some scratchOp ∧ scratchOp.kind = 0 ∧ scratchOp.sent = false ∧ scratchOp.descs = []
    ∧ scratchOp.taken = [] ∧ scratchOp.landed = [] ∧ scratchOp.wts = 0 ∧ (opState scratchOp).opReady scratchOp = true
    ∧ (dword scratchOp.params 2).extractLsb' 32 2 = 3 ∧ (dword scratchOp.params 2).extractLsb' 34 2 = 0
    ∧ (dword scratchOp.params 0).toNat + ((dword scratchOp.params 2).extractLsb' 0 32).toNat ≤ (dword scratchOp.params 1).toNat
    ∧ (opState scratchOp).team? 2 = some loadedView ∧ loadedView.sheaves[0]? = some Sheaf.reset := by decide
theorem witness_EngineEvents_wload : (opState panelOp).op? 6 = some panelOp ∧
    (opState panelOp).opMay panelOp ((opState panelOp).wloadUnits panelOp) = true
      ∧ (opState panelOp).meetsSum ((opState panelOp).wloadUnits panelOp) = false := by decide
theorem witness_EngineEvents_matrix :
    ((∃ t, (mopState (mop false [])).team? 2 = some t ∧ t.mops = [mop false []] ∧ (mop false []).started = false)
      ∧ (opState { panelOp with serial := 8 }).ops.any (fun o => o.kind == 1 && o.team == 2 && decide (o.serial < 7)) = false)
    ∧ ((∃ t, (mopState (mop true [])).team? 2 = some t ∧ t.mops = [mop true []]) ∧ (aSegments (mop true []).block)[0]?.isSome = true
      ∧ (aSegments (mop true []).block).length ≤ ((aSegments (mop true []).block).map (fun k => (k, ([] : List Byte)))).length) := by
  refine ⟨⟨⟨((mopState (mop false [])).team? 2).getD loadedView, by decide⟩, by decide⟩,
    ⟨⟨((mopState (mop true [])).team? 2).getD loadedView, by decide⟩, by decide, by decide⟩⟩

/-- Messages of the domain. -/
def rankOne : Contribution := ⟨5, 0, 0, 2, 0, 0, 0, 1, [0, 0, 128, 63], none⟩
def collOp : Op := { (op 3 [64, 128, 1, 0]) with coll := some (5, 0, 1, 0), sent := true }
def collState : State := { opState collOp with collAnswers := [(6, 0, [1, 2, 3, 4])] }
def remoteAccOf (device since : Nat) : Acc := { (acc 4 (.load .words) 0) with route := .remote device 64, since := since }
/-- One exported buffer of context 0, admitted to device 3, on a page of host memory or of the device. -/
def exported (host : Bool) : State :=
  { quiet with
    domain0 := BitVec.ofNat 64 (2 ^ 63 + 2), expBase := 0x20000, expN := 1,
    mem := placeBytes (placeBytes quiet.mem 0x20000 (toBytes (2 ^ 63 + 3 * 2 ^ 32 + 2 ^ 48 + 2 ^ 49) 8)) 0x12000
      (toBytes (2 ^ 63 + 2 ^ 62 + (if host then 2 ^ 59 else 0)) 8) }
def storeRequest : RemoteRequest := ⟨3, 64, 4, .store [1, 2, 3, 4]⟩
def served (s : State) (r : RemoteRequest) : Served :=
  match s.exptabCheck r with | .ok x => x | .error _ => ⟨99, targetOf loadedState loadedView 0 4 .load, .words, []⟩
theorem exptab_ok {s : State} {r : RemoteRequest} (h : (match s.exptabCheck r with | .ok _ => true | .error _ => false) = true) :
    s.exptabCheck r = .ok (served s r) := by
  unfold served
  split at h <;> simp_all
theorem exptab_error {s : State} {r : RemoteRequest} {c : Nat}
    (h : (match s.exptabCheck r with | .ok _ => false | .error x => decide (x = c)) = true) : s.exptabCheck r = .error c := by
  split at h <;> simp_all
theorem witness_DomainEvents_requests :
    (∀ host ∈ [true, false],
      remoteForm storeRequest = true ∧ (exported host).exptabCheck storeRequest = .ok (served (exported host) storeRequest)
      ∧ (exported host).remoteReady storeRequest = true
      ∧ (exported host).sumsAt (remoteAcc (exported host) storeRequest (served (exported host) storeRequest)).locs = []
      ∧ (served (exported host) storeRequest).place.route = (if host then .host else .coherent)
      ∧ (served (exported host) storeRequest).writes.length = 4)
    ∧ noCombine (exported false)
    ∧ (∀ w ∈ (served (exported false) storeRequest).writes, w.1 < hostBase
      ∧ sget 0 (exported false).ktag (secOf w.1) = (exported false).keyOf (served (exported false) storeRequest).ctx .coherent
      ∧ ((exported false).dirOf (lineOf w.1)).owner = none ∧ wholeSectors (exported false) (homeOf w.1))
    ∧ quiet.exptabCheck storeRequest = .error 0x11
    ∧ (exported true).exptabCheck { storeRequest with device := 2 } = .error 0x11
    ∧ (exported true).exptabCheck { storeRequest with kind := .unord 0 } = .error 0x12 := by
  refine ⟨fun host h => ?_, noCombine_of (by decide), fun w hw => ⟨?_, ?_, ?_, whole_of ?_⟩, exptab_error (by decide), exptab_error (by decide),
    exptab_error (by decide)⟩
  · simp only [List.mem_cons, List.not_mem_nil, or_false] at h
    rcases h with rfl | rfl <;> exact ⟨by decide, exptab_ok (by decide), by decide, by decide, by decide, by decide⟩
  · revert w; decide
  · revert w; decide
  · revert w; decide
  · revert w; decide
theorem witness_DomainEvents :
    (rankOne.sender = none)
    ∧ (collState.op? 6 = some collOp ∧ collOp.kind = 3 ∧ collOp.sent = true ∧ collOp.paused = none ∧ collOp.final = none
      ∧ collState.collAnswer collOp .fromHere = some (0, [1, 2, 3, 4]) ∧ collOp.remote 1 = false
      ∧ pauseOf (collState.collDestUnits collOp [1, 2, 3, 4]) = none ∧ collState.walksFree collOp = true
      ∧ collState.engineMay collOp (collState.collDestUnits collOp [1, 2, 3, 4]) = true
      ∧ collState.meetsSum (collState.collDestUnits collOp [1, 2, 3, 4]) = false
      ∧ (opState collOp).collAnswer collOp .disagree = some (9, []))
    ∧ ((accState [remoteAccOf 7 8]).asks (remoteAccOf 7 8) = true ∧ (accState [remoteAccOf 7 8]).ownDevice 7 = false
      ∧ (remoteAccOf 7 8).fits (.value [1, 2, 3, 4]) = true
      ∧ ((([(7, 3)] : List (Nat × Nat)).find? (fun d => d.1 == (remoteAccOf 7 8).device)).map Prod.snd = some 3)
      ∧ max 3 (remoteAccOf 7 8).since + 2 ^ 20 ≤ 8 + 2 ^ 20)
    ∧ ({ exported true with accs := [remoteAccOf 2 8] }.asks (remoteAccOf 2 8) = true
      ∧ { exported true with accs := [remoteAccOf 2 8] }.ownDevice 2 = true
      ∧ { exported true with accs := [remoteAccOf 2 8] }.remoteReady (remoteAccOf 2 8).request = true)
    ∧ (withThread5 quiet (fun x => { x with asked := some 4 })).isAsked (remoteAccOf 7 8) = true := by
  refine ⟨rfl, by decide, by decide, by decide, by decide⟩

/-- Records: one on its way, one that spilled, one held back; a bin that has waited TIMER; a full bin in the second cycle of a
dispatcher cycle; the same with the node a set, ordered (kind 2) or not. -/
def spilledRecord : Record := { (record 9 .binned) with stored := false, spilled := true }
def setLaunch (ordered : Bool) : Launch :=
  { fabricLaunch with nodes := [BitVec.ofNat 64 (2 * 2 ^ 39 + if ordered then 2 ^ 46 else 0) :: nodeWords.drop 1] }
/-- The plain node of kind 1, ordered. -/
def orderedLaunch : Launch := { fabricLaunch with nodes := [BitVec.ofNat 64 (2 ^ 39 + 2 ^ 46) :: nodeWords.drop 1] }
def withLaunch (s : State) (l : Launch) : State := { s with launches := [l] }
def fullBin (cycle : Nat) : State := fabricState ((upto 8).map (fun k => record k .binned)) cycle
theorem witness_FabricEvents :
    ((fabricState [record 9 .moving] 6).record? 9 = some (record 9 .moving) ∧ (fabricState [record 9 .moving] 6).launch? 1 = some fabricLaunch
      ∧ (fabricState [record 9 .moving] 6).nodeDie 1 0 = some 0 ∧ ((fabricState [record 9 .moving] 6).die 0).state = 1
      ∧ ¬(((fabricState [record 9 .moving] 6).die 0).fired.1 = (fabricState [record 9 .moving] 6).dispatch 0
        ∧ 0 < ((fabricState [record 9 .moving] 6).die 0).fired.2)
      ∧ (∀ q ∈ (fabricState [record 9 .moving] 6).records, ¬arrivesBefore q (record 9 .moving))
      ∧ (((fabricLaunch.nodes.getD 0 []).getD 0 0).extractLsb' 39 3).toNat ≠ 2)
    ∧ (∀ o ∈ [true, false], (withLaunch (fabricState [record 9 .moving, record 8 .atInput] 6) (setLaunch o)).launch? 1 = some (setLaunch o)
      ∧ (((setLaunch o).nodes.getD 0 []).getD 0 0).getLsbD 46 = o ∧ ((((setLaunch o).nodes.getD 0 []).getD 0 0).extractLsb' 39 3).toNat = 2
      ∧ (withLaunch (fabricState [record 9 .moving, record 8 .atInput] 6) (setLaunch o)).nodeDie 1 0 = some 0
      ∧ (∀ q ∈ [record 9 .moving, record 8 .atInput], ¬arrivesBefore q (record 9 .moving))
      ∧ ∃ q ∈ [record 9 .moving, record 8 .atInput], q.id ≠ 9 ∧ q.launch = 1 ∧ q.node = 0 ∧ q.place = .atInput)
    ∧ ((fabricState [spilledRecord] 6).recordDie spilledRecord = some 0 ∧ spilledRecord.spilled = true
      ∧ ((fabricState [spilledRecord] 6).die 0).used + spilledRecord.units ≤ Config.storeUnits)
    ∧ ((record 9 .heldBack).place = .heldBack
      ∧ (∀ q ∈ (fabricState [record 9 .heldBack] 6).records, ¬(q.place = .heldBack ∧ q.sender = 77 ∧ q.launch = 1 ∧ q.id < 9))
      ∧ (fabricState [record 9 .heldBack] 6).roomFor 1 0 (record 9 .heldBack).units ≠ .none) := by
  unfold arrivesBefore
  exact ⟨by decide, by decide, by decide, ⟨rfl, by decide, by decide⟩⟩
theorem witness_FabricEvents_firing :
    ((fabricState [record 9 .binned] 206).launch? 1 = some fabricLaunch ∧ (fabricState [record 9 .binned] 206).nodeDie 1 0 = some 0
      ∧ (fabricState [record 9 .binned] 206).binOf fabricLaunch 0 = [record 9 .binned]
      ∧ (record 9 .binned).stamp + ((dword (fabricLaunch.node 0) 3).extractLsb' 16 16).toNat = (fabricState [record 9 .binned] 206).dispatch 0
      ∧ ∀ b ∈ ((fabricState [record 9 .binned] 206).die 0).byAge, ¬(b.2.1 = 1 ∧ b.2.2 = 0))
    ∧ nodeKind (fabricLaunch.node 0) = 1
    ∧ ((fullBin 7).nextBin 0 = some (fabricLaunch, 0, false) ∧ ((fullBin 7).die 0).state = 1 ∧ ((fullBin 7).cycle - ((fullBin 7).die 0).since) % 2 = 1
      ∧ (((fullBin 7).die 0).fired.1 ≠ (fullBin 7).dispatch 0 ∨ ((fullBin 7).die 0).fired.2 < 2))
    ∧ (withLaunch (fullBin 7) orderedLaunch).nextBin 0 = some (orderedLaunch, 0, false)
    ∧ ({ fullBin 207 with dies := modifyAt (fullBin 207).dies 0 (fun D => { D with byAge := [(103, 1, 0)] }) } : State).nextBin 0 =
      some (fabricLaunch, 0, true) := by decide

/-- Core 0 of die 0 alone is open: the others are held for unit 99, the other dies do not run. -/
def narrow (s : State) : State := { s with dies := s.dies.mapIdx (fun i D =>
  if i = 0 then { D with drainFit := (upto 63).map (fun c => (c + 1, 99)) } else { D with state := 2 }) }
def placing (k : UnitKind) (ts : List Team) : State :=
  narrow { quiet with
    teams := ts, view := [], units := [⟨9, k, 1, 0, some 0⟩], launches := [fabricLaunch],
    dies := modifyAt quiet.dies 0 (fun D => { D with spv := true, spunits := 100 }), records := [record 3 .fired] }
theorem placed_of {s : State} {unit tag : Nat} (q : Bid → List CorePlace → Bool)
    (h : (s.nextPlace.any (fun x => x.1.unit.id == unit && x.1.unit.kind.tag == tag && q x.1 x.2.2)) = true) :
    ∃ b d ps, PlacedNext s unit tag b d ps ∧ q b ps = true := by
  cases e : s.nextPlace with
  | none => rw [e] at h; exact nomatch h
  | some x =>
    rw [e] at h
    simp only [Option.any_some, Bool.and_eq_true, beq_iff_eq] at h
    exact ⟨x.1, x.2.1, x.2.2, ⟨e, h.1.1, h.1.2⟩, h.2⟩
def savedTeam : Team := { loadedView with res := .saved 0 }
def lostTeam : Team := { loadedView with res := .discarded }
theorem witness_PlacementEvents :
    (∃ b d ps, PlacedNext (placing (.cohorts 0 1) []) 9 0 b d ps ∧ (ps.length == b.count) = true)
    ∧ (∃ b d ps, PlacedNext (placing (.fabric 0 [3]) []) 9 1 b d ps ∧ (b.unit.kind == .fabric 0 [3] && ps.length == 1) = true)
    ∧ (∃ b d ps, PlacedNext (placing (.saved 2) [savedTeam]) 9 2 b d ps
      ∧ (b.unit.kind == .saved 2 && b.back == some savedTeam && ps.length == 1) = true)
    ∧ (∃ b d ps, PlacedNext (placing (.discarded 2) [lostTeam]) 9 3 b d ps
      ∧ (b.unit.kind == .discarded 2 && b.back == some lostTeam && ps.length == 1) = true)
    ∧ (∀ b d ps, ¬PlacedNext quiet 9 0 b d ps) ∧ (∀ x ∈ savedTeam.threads, ∀ q, x.wait ≠ .parked q) := by
  refine ⟨placed_of (fun b ps => ps.length == b.count) (by decide), placed_of (fun b ps => b.unit.kind == .fabric 0 [3] && ps.length == 1) (by decide),
    placed_of (fun b ps => b.unit.kind == .saved 2 && b.back == some savedTeam && ps.length == 1) (by decide),
    placed_of (fun b ps => b.unit.kind == .discarded 2 && b.back == some lostTeam && ps.length == 1) (by decide), ?_, ?_⟩
  · rintro b d ps ⟨e, -, -⟩
    have h : quiet.nextPlace.isNone = true := by decide
    rw [e] at h; exact nomatch h
  · have h : savedTeam.threads.all (fun x => match x.wait with | .parked _ => false | _ => true) = true := by decide
    intro x hx q e
    have := List.all_eq_true.mp h x hx
    rw [e] at this; exact nomatch this
def teamState (f : Team → Team) : State := quiet.mapTeam 2 f
def savingTeam (t : Team) : Team := { t with res := .saving }
def endedTeam (t : Team) : Team := { t with threads := t.threads.map (fun x => { x with wait := .ended }) }
theorem witness_PlacementEvents_teams :
    (∃ t, (teamState savingTeam).team? 2 = some t ∧ t.res = .saving ∧ (teamState savingTeam).teamQuiet t = true
      ∧ (teamState savingTeam).accs = [] ∧ (∀ x ∈ t.threads, x.asked = none ∧ x.pend = [])
      ∧ (teamState savingTeam).slicesFree (((teamState savingTeam).saveSecs t).map (· * 64)) = true)
    ∧ (∃ t, (teamState endedTeam).team? 2 = some t ∧ t.runs = true ∧ (∀ x ∈ t.threads, x.live = false) ∧ (teamState endedTeam).teamQuiet t = true
      ∧ (teamState endedTeam).isStage t = false ∧ (teamState endedTeam).canRetireTeam t = true) := by
  refine ⟨⟨((teamState savingTeam).team? 2).getD loadedView, by decide⟩, ⟨((teamState endedTeam).team? 2).getD loadedView, by decide⟩⟩

/-- A team of priority 0 fills core 0; a unit of priority 7 waits. -/
def crowded (cycle : Nat) : State :=
  let l : Launch := { fabricLaunch with id := 5, prio := 7 }
  narrow { quiet with
    teams := [{ loadedView with granules := upto 128 }], units := [⟨9, .discarded 4, 5, 0, some 0⟩], cycle := cycle,
    launches := [loadedLaunch 1 [], l] }
def crowdedTeams (cycle : Nat) : State :=
  { (crowded cycle) with teams := (crowded cycle).teams ++ [{ loadedView with id := 4, launch := 5, res := .discarded }] }
/-- A saved team beside one that runs, 2^17 cycles after its save. -/
def agingState : State := { quiet with
  teams := [{ loadedView with res := .saved 0, tenure := some 0 }, { loadedView with id := 4, eff := 3 }], cycle := 2 ^ 17 }
theorem witness_PreemptionEvents :
    (crowdedTeams 5).nextPreempt 0 ≠ none ∧ (crowdedTeams 65536).nextFit 9 ≠ none
    ∧ (∃ t, (teamState (fun t => { t with res := .draining 0 })).team? 2 = some t ∧ t.res = .draining 0 ∧ t.threads.any Thread.live = true)
    ∧ (∃ t, agingState.team? 2 = some t ∧ t.res = .saved 0 ∧ 0 < agingState.cycle ∧ (agingState.cycle - 0) % 2 ^ 17 = 0 ∧ t.overdue = false
      ∧ t.tenure = some 0 ∧ (agingState.launch? t.launch).map Launch.prio = some 0
      ∧ (∃ u ∈ agingState.teams, u.die = t.die ∧ u.core = t.core ∧ u.res = .resident ∧ 0 + (agingState.cycle - 0) / 2 ^ 17 ≤ u.eff))
    ∧ 0 + 2 ^ 20 ≤ ({ agingState with cycle := 2 ^ 20 } : State).cycle := by
  have h : (crowdedTeams 5).nextPreempt 0 |>.isSome := by decide
  have g : (crowdedTeams 65536).nextFit 9 |>.isSome := by decide
  refine ⟨fun e => ?_, fun e => ?_, ⟨((teamState (fun t => { t with res := .draining 0 })).team? 2).getD loadedView, by decide⟩,
    ⟨(agingState.team? 2).getD loadedView, by decide⟩, by decide⟩
  · rw [e] at h; exact nomatch h
  · rw [e] at g; exact nomatch g

/-! Launches, contexts, supervision, the host, the dies. -/

/-- A slot whose bytes a parse refuses (a page geometry of all zeros: no entry), and a trigger that waits for its parse. -/
def slotState (bytes : List Byte) : State := { quiet with
  ctxs := modifyAt quiet.ctxs 0 (fun c => { c with
    held := [⟨63, 4⟩]
    window := (upto 128).foldl (fun w k => sset 0 w (128 * 63 + k) (bytes.getD k 0)) [] }), launches := [] }
/-- A record of one cohort of one team of eight threads; entry offset 0 of buffer 0. -/
def goodSlot : List Byte := wordsBytes [0, 0, 0, 0, 0, 0, 0, 0, 0, 0, 0, BitVec.ofNat 64 (3 + 2 ^ 36 + 2 ^ 39), BitVec.ofNat 64 0xC401, 0, 0,
  BitVec.ofNat 64 (2 ^ 63 + 2 ^ 56)]
def badSlot : List Byte := wordsBytes [0, 0, 0, 0, 0, 0, 0, 0, 1, 0, 0, BitVec.ofNat 64 (3 + 2 ^ 36 + 2 ^ 39), BitVec.ofNat 64 0xC401, 0, 0,
  BitVec.ofNat 64 (2 ^ 63 + 127 * 2 ^ 56)]
def parsedCause (bytes : List Byte) : Nat :=
  let s := slotState bytes
  (State.parseSlot (ctxBecomes ((s.parsePtrs 0 63 bytes).foldl (fun u p => u.parseUse 0 63 p.1 p.2)
    ((s.parseBuffers 0 63 bytes).foldl (fun u b => u.noteDesc 0 b) s)) 0 (fun c => { c with held := c.held.drop 1 })) 0 63 bytes).2
theorem witness_LaunchLife :
    (slotState goodSlot).parseReady 0 63 = true ∧ ((slotState goodSlot).ctx 0).slotBytes 63 = goodSlot ∧
    (slotState badSlot).parseReady 0 63 = true ∧ ((slotState badSlot).ctx 0).slotBytes 63 = badSlot
    ∧ parsedCause goodSlot = 0 ∧ parsedCause badSlot = 4 ∧
    128 ≤ (goodSlot.getD 127 0).toNat ∧ sget 0 ((slotState goodSlot).ctx 0).seqs 63 ≠ (goodSlot.getD 127 0).toNat % 128 := by decide
/-- Where context 0's next journal entry stands, and its parse of a slot whose byte 127 says nothing is there. -/
def entryLocs (s : State) : List Nat := (List.range 16).map (fun k => dpaLoc ((s.ctx 0).jrnl.extractLsb' 56 2).toNat
  (((s.ctx 0).jrnl.extractLsb' 0 54).toNat + 16 * ((s.ctx 0).jhead % 2 ^ ((s.ctx 0).jrnl.extractLsb' 59 5).toNat) + k))
theorem witness_LaunchLife_journal : Plain quiet 0 (entryLocs quiet) ∧ (∀ l ∈ entryLocs quiet, quiet.memError l 1 = none) ∧ 0 < quiet.ctxs.length
    ∧ (slotState []).parseReady 0 63 = true ∧ (((slotState []).ctx 0).slotBytes 63).getD 127 0 = 0 :=
  ⟨plain_of (by decide), by decide, by decide, by decide, by decide⟩
theorem witness_LaunchLife_phases :
    quiet.fwState = 2 ∧ (quiet.ctxs[63]?).isSome = true ∧
    (({ quiet with launches := [{ loadedLaunch 1 [] with phase := .retiring }] } : State).launch? 1 =
      some { loadedLaunch 1 [] with phase := .retiring }) ∧
    ({ quiet with teams := [] } : State).launchQuiet 1 = true ∧ quiet.journalFree 0 = true := by decide
theorem witness_ContextEvents :
    quiet.fwState = 2 ∧ (quiet.ctx 0).valid = true ∧ (quiet.ctx 63).valid = false
    ∧ (let c : Ctx := { Ctx.reset with btab := 0x8000, ptroot := 0x10000, jrnl := BitVec.ofNat 64 (10 * 2 ^ 59 + 0x20000) }
       quiet.createBad c (1#64 <<< 63) = false ∧ quiet.createBad Ctx.reset (1#64 <<< 63) = true)
    ∧ quiet.createBad (quiet.ctx 63) (1#64 ||| 1#64 <<< 63) = true
    ∧ (let s : State := { quiet with ctxs := quiet.ctxs.map (fun _ => { Ctx.reset with btab := 0x8000, ptroot := 0x10000, jrnl := BitVec.ofNat 64 (10 * 2 ^ 59 + 0x20000) }) }
       (s.ctx 63).valid = false ∧ s.createBad (s.ctx 63) (0#64 ||| 1#64 <<< 63) = false)
    ∧ (quiet.ctx 0).dying = false ∧ (∃ l ∈ quiet.launches, l.ctx = 0 ∧ l.phase ≠ .retiring)
    ∧ (({ quiet with launches := [], ctxs := modifyAt quiet.ctxs 0 (fun c => { c with dying := true }) } : State).ctx 0).dying = true := by decide
def inval7 : Inval := ⟨7, 0, 1, 0x10000, true, none, [4]⟩
def report : Report := ⟨0, 1, 0x13, 1, false, true, 0, 1, 0, 0, 5, 0, 0, 0, 0, [], []⟩
theorem witness_SupervisionEvents :
    ((quiet.ctx 0).awaits.find? (fun w => w.fseq == 3) = none)
    ∧ (({ quiet with invals := [inval7] } : State).invals.find? (fun w => w.serial == 7) = some inval7
      ∧ ({ quiet with invals := [inval7] } : State).invalReady inval7 = true)
    ∧ ((({ quiet with dies := modifyAt quiet.dies 0 (fun D => { D with backlog := [report] }) } : State).die 0).backlog.find?
      (fun r => !(quiet.ctx r.ctx).fqFull) = some report)
    ∧ (let s : State := { opState { copyOp with paused := some (0x18, 64) } with
         ctxs := modifyAt quiet.ctxs 0 (fun c => { c with awaits := [⟨3, 1, [], [6]⟩] }) }
       (s.ctx 0).awaits.find? (fun w => w.fseq == 3) = some ⟨3, 1, [], [6]⟩ ∧ s.op? 6 = some { copyOp with paused := some (0x18, 64) }) := by decide
/-- The line of `dpaLoc 0 64`, modified in a host's cache, and as one of a STRM page. -/
def hostHeld (h : HostLine) (strm : List Nat) : State := { quiet with
  strm := strm, dies := modifyAt quiet.dies 0 (fun D => { D with dir := [(lineOf (dpaLoc 0 64), ⟨[.i, .i, .i, .i], h, 1⟩)] }) }
theorem witness_HostMemoryEvents :
    (quiet.fwState = 2 ∧ (quiet.die 0).present = true ∧ (quiet.die 0).state = 1 ∧ 71999999998 + 2 ≤ Config.capacity 0
      ∧ Plain quiet 0 ((List.range 2).map (fun k => dpaLoc 0 (71999999998 + k)))
      ∧ quiet.memError (dpaLoc 0 71999999998) 1 = none ∧ noCombine quiet ∧ sget 0 quiet.ktag (secOf (dpaLoc 0 71999999998)) = 0)
    ∧ 0x7FFFE + ([1, 2] : List Byte).length ≤ 0x80000
    ∧ (quiet.hostLine 0 64 = some (lineOf (dpaLoc 0 64)) ∧ quiet.dirReady (lineOf (dpaLoc 0 64)) = true
      ∧ quiet.locError (lineLocs (lineOf (dpaLoc 0 64))) = none ∧ quiet.strm.contains (lineOf (dpaLoc 0 64)) = false)
    ∧ ((hostHeld .hi [lineOf (dpaLoc 0 64)]).strm.contains (lineOf (dpaLoc 0 64)) = true
      ∧ (hostHeld .hi [lineOf (dpaLoc 0 64)]).canSnoop (lineOf (dpaLoc 0 64)) = false
      ∧ (hostHeld .hi [lineOf (dpaLoc 0 64)]).dirReady (lineOf (dpaLoc 0 64)) = true)
    ∧ (∀ h ∈ [HostLine.hm, .hs], (hostHeld h []).canSnoop (lineOf (dpaLoc 0 64)) = true ∧ (hostHeld h []).hostLine 0 64 = some (lineOf (dpaLoc 0 64))) := by
  exact ⟨⟨by decide, by decide, by decide, by decide, plain_of (by decide), by decide, noCombine_of (by decide), by decide⟩, by decide, by decide,
    by decide, by decide⟩
/-- A migration of buffer 0, of 256 bytes, to the next 256 of die 0 under way. -/
def migrating : State := { quiet with
  mem := placeBytes quiet.mem 0x8008 (toBytes 256 8)
  ctxs := modifyAt quiet.ctxs 0 (fun c => { c with mbusy := true, mbase := 256, mplace := 0xC0000 }) }
theorem witness_DieEvents :
    ((quiet.die 0).present = true ∧ (quiet.die 0).state = 1 ∧ (quiet.die 0).spused = 0
      ∧ (∀ t ∈ ({ quiet with teams := [] } : State).teams, t.die = 0 → t.res = .discarded)
      ∧ (∀ l ∈ quiet.launches, l.phase ≠ .retiring → l.nodes.length = 0))
    ∧ ((quiet.die 3).present = true ∧ (quiet.die 3).state = 1 ∧ 3 < quiet.dies.length)
    ∧ (∀ n ∈ [2, 3, 4], (({ quiet with dies := modifyAt quiet.dies 2 (fun D => { D with state := n }) } : State).die 2).state = n)
    ∧ ((0x100#64).extractLsb' 54 10 = 0 ∧ quiet.inMemory 0 ((0x100#64).extractLsb' 0 54).toNat 1 = true
      ∧ quiet.slicesFree [lineOf (dpaLoc 0 ((0x100#64).extractLsb' 0 54).toNat) * 256] = true
      ∧ (lineLocs (lineOf (dpaLoc 0 ((0x100#64).extractLsb' 0 54).toNat))).all (fun l => !quiet.poison.contains (secOf l)) = true
      ∧ Plain quiet 0 (lineLocs (lineOf (dpaLoc 0 ((0x100#64).extractLsb' 0 54).toNat))))
    ∧ (quiet.fwState = 2 ∧ (quiet.ctx 0).mbusy = false)
    ∧ migrating.canMigrate 0 = true :=
  ⟨by decide, by decide, by decide, ⟨by decide, by decide, by decide, by decide, plain_of (by decide)⟩, by decide, by decide⟩
/-- Bank 5 of channel 11 has had a threshold's worth of activations, its last of row 9; a slice holds a line, dirty or clean. -/
def activated (d : Nat) : State := { quiet with dies := modifyAt quiet.dies d (fun D => { D with acts := [(11 * 2 ^ 16 + 5, 0x800, 9)] }) }
def sliced (x : Bool) : State := { quiet with dies := modifyAt quiet.dies 2 (fun D => { D with slice := [(2 * 256 * 2 ^ 48, x)] }) }
theorem witness_HealthEvents :
    (∀ d ∈ [2, 0], ((activated d).die d).acts.find? (fun r => decide (((activated d).die d).hotth ≤ r.2.1) && r.1 / 2 ^ 16 == 11 && r.2.2 == 9) =
        some (11 * 2 ^ 16 + 5, 0x800, 9)
      ∧ ((activated d).die d).acts.find? (fun r => decide (((activated d).die d).hotth ≤ r.2.1) && r.1 / 2 ^ 16 == 11) =
        some (11 * 2 ^ 16 + 5, 0x800, 9)
      ∧ Config.isM d = decide (d = 0))
    ∧ ((holding quiet 0 clean).sector 0 (secOf spot) = some clean ∧ clean.dirty = false)
    ∧ ((holding quiet 0 dirty).sector 0 (secOf spot) = some dirty ∧ dirty.dirty = true)
    ∧ (∀ x ∈ [true, false], sfind ((sliced x).die 2).slice (2 * 256 * 2 ^ 48) = some x ∧ homeOf (2 * 256 * 2 ^ 48 * 64) = 2
      ∧ (quiet.die 2).present = true ∧ (sliced x).poison.contains (2 * 256 * 2 ^ 48) = false)
    ∧ (homeOf (secOf spot * 64) = 0 ∧ (holding quiet 0 clean).poison.contains (secOf spot) = false ∧ sfind ((holding quiet 0 clean).die 0).slice (secOf spot) = none
      ∧ (holding quiet 0 clean).cleanCopy (secOf spot) = true ∧ quiet.cleanCopy (secOf spot) = false ∧ Config.isM 0 = true
      ∧ ({ quiet with poison := [secOf spot] } : State).poison.contains (secOf spot) = true)
    ∧ (Config.isM 2 = false ∧ quiet.cleanCopy (2 * 256 * 2 ^ 48) = false ∧ sfind (quiet.die 2).slice (2 * 256 * 2 ^ 48) = none
      ∧ (∀ x ∈ parityGroup (2 * 256 * 2 ^ 48), quiet.poison.contains x = false)
      ∧ ∃ x ∈ parityGroup (2 * 256 * 2 ^ 48), ({ quiet with poison := [2 * 256 * 2 ^ 48 + 2 ^ 48] } : State).poison.contains x = true)
    ∧ (quiet.team? 2 = some loadedView ∧ loadedView.holdsPool = true)
    ∧ ((fabricState [record 9 .binned] 6).record? 9 = some (record 9 .binned) ∧ (record 9 .binned).stored = true)
    ∧ ((0x100#64).extractLsb' 48 8 = 0 ∧ (quiet.die 0).present = true ∧ ((0x100#64).extractLsb' 56 8).toNat < Config.channels 0
      ∧ ((0x100#64).extractLsb' 0 48).toNat < Config.capacity 0 / Config.channels 0 ∧ (quiet.die 0).state = 1
      ∧ (quiet.dirOf (lineOf (locOf 0 0 0x100))).host ≠ .hm ∧ Plain quiet 0 ((List.range 64).map (fun k => locOf 0 0 0x100 + k))) := by
  exact ⟨by decide, by decide, by decide, by decide, by decide, by decide, by decide, by decide,
    by decide, by decide, by decide, by decide, by decide, by decide, plain_of (by decide)⟩
theorem witness_TrustEvents :
    ({ quiet with attStat := 1 } : State).attStat = 1 ∧ (0x8000000000000000#64).getLsbD 63 = true ∧ quiet.attStat ≠ 1 ∧ quiet.fwState = 2
    ∧ ({ quiet with fwState := 3 } : State).fwState = 3 ∧ State.reset.fwState = 0
    ∧ ({ quiet with fwState := 1, verifying := some State.reset.moduleImage } : State).verifying = some State.reset.moduleImage
    ∧ (State.boot State.reset State.reset.moduleImage).fwState = 2
    ∧ (State.boot State.reset { State.reset.moduleImage with lms := false }).fwState = 3
    ∧ 0x810 < 0x818 ∧ 0x810 % 8 = 0 ∧ (quiet.die 3).spused = 0 ∧ ({ quiet with fwState := 1 } : State).fwState ≠ 2
    ∧ 0x3FFFFF8 < 0x4000000 ∧ 0x3FFFFF8 % 8 = 0 ∧ (63 : Nat) < 64 ∧ (quiet.ctx 63).mbusy = false ∧ (quiet.ctx 0).valid = true
    ∧ (quiet.ctx 63).valid = false ∧ 0x5000000 ≤ (0x5000000 : Nat) := by decide

/-! The whole machine. -/

theorem witness_DecodeEncodeAgree : (Instr.iadd hd ⟨5, 6, 71, 2⟩).wf = true ∧ (encode (.iadd hd ⟨5, 6, 71, 2⟩)).isSome = true ∧
    (Instr.sadd hd ⟨10, 4, 127, some 1000⟩).wf = true ∧ (encode (.sadd hd ⟨10, 4, 127, some 1000⟩)).isSome = true := by decide
/-- The state of `withFetchWord` is one whose next issue is the word: IADD v5, v6, s7 with guard slot 2. -/
def stepState : State := State.reset.withFetchWord 32 (0#1 ++ 0#1 ++ 0x01#8 ++ 5#6 ++ 6#6 ++ 71#7 ++ 0#3).toNat
def stepTeam : Team := (stepState.teams.head?).getD baseTeam
def stepWord : Instr := .iadd hd ⟨5, 6, 71, 0⟩
def stepUsed : State := ({ stepState with plan := [] } : State).noteFetch stepTeam 0
/-- The state in which exec runs the word. -/
def stepIssue : State := { stepUsed.beginIssue stepTeam (upto 8) 4 [⟨0, stepWord⟩] with
  issue := some { team := 2, slot := 0, tids := upto 8, pc := 0, replay := 0, fall := 4, words := [⟨0, stepWord⟩], lone := false,
                  completing := false, suppressed := [], trapped := [], held := [], waiting := [], stalled := false } }
theorem witness_StepRunsTheDecodedWord :
    (let s1 : State := { stepState with plan := [] }
     stepState.nextRetry = none ∧ stepState.plan = [⟨2, 0, upto 8, false⟩] ∧ s1.team? 2 = some stepTeam
     ∧ stepState.view.find? (fun u => u.id == 2) = some stepTeam ∧ (stepTeam.thread? 0).map Thread.pc = some 0
     ∧ s1.choiceTids stepTeam ⟨2, 0, upto 8, false⟩ = upto 8 ∧ s1.teamRuns stepTeam = true
     ∧ s1.codeHeld stepTeam = false ∧ s1.fetchGroup stepTeam 0 0 = ⟨[⟨0, stepWord⟩], 4, none⟩
     ∧ stepUsed.stalls stepTeam (upto 8) stepWord = false ∧ isCross stepWord = false)
    ∧ (match exec stepWord stepIssue with
      | .next u => u.issue.any (fun j => j.trapped.isEmpty && j.held.isEmpty && j.waiting.isEmpty && !j.stalled)
      | _ => false) = true
    ∧ (∃ w0 w1 w2, stepState.packetOf stepTeam 0 0 = ([w0, w1, w2], none) ∧ w0.getLsbD 31 = false ∧ takesLiteral w0 = false
      ∧ decodeWord w0 none = .ok stepWord ∧ privileged stepWord = false) := by
  refine ⟨by decide, by decide, ((stepState.packetOf stepTeam 0 0).1).getD 0 0, ((stepState.packetOf stepTeam 0 0).1).getD 1 0,
    ((stepState.packetOf stepTeam 0 0).1).getD 2 0, by decide, by decide, by decide, ?_, by decide⟩
  have h : reads? (((stepState.packetOf stepTeam 0 0).1).getD 0 0) none = some stepWord := by decide
  revert h
  unfold reads?
  split <;> simp_all
theorem witness_StepKeepsSane : State.Sane State.reset ∧ State.Sane stepState := by
  unfold State.Sane Die.Legal; decide
theorem witness_RegisterNames : phys 3 47 = 64 + 48 * 2 + 47 ∧ phys 3 48 = phys 2 0 ∧ (62 : Nat) < 63 := by decide
/-- A handler is armed at 0x100, and the word at 0 does not lie in it. -/
def armed : State := { quiet with
  ctxs := modifyAt quiet.ctxs 0 (fun c => { c with trap0 := 1#64 <<< 63, trap1 := BitVec.ofNat 64 (0x100 + 0x40 * 2 ^ 32) }) }
theorem witness_TrapEntry :
    (∃ t x, armed.team? 2 = some t ∧ t.thread? 7 = some x ∧ x.pend = [] ∧ t.sup = true ∧
      0 ≤ (t.scr : Int) * 0x4000 - 32 * 2 ^ t.tbits + 32 * 7 ∧ (armed.ctx t.ctx).trap0.getLsbD 63 = true ∧ t.ctx = 0)
    ∧ (∃ t x, refilling.team? 2 = some t ∧ t.thread? 5 = some x ∧ x.pend ≠ []) ∧ (armed.ctx 0).fqFull = false
    ∧ (quiet.ctx 0).trap0.getLsbD 63 = false ∧ (quiet.ctx 0).fqFull = false
    ∧ 0xC9 ∉ [0x18, 0x19, 0x1A, 0x30, 0x31] ∧ 0x31 ∈ [0x30, 0x31] ∧ 0x18 ∈ [0x18, 0x19, 0x1A] ∧ 0x30 ∉ [0x18, 0x19, 0x1A] := by
  refine ⟨⟨(armed.team? 2).getD loadedView, ((armed.thread? 2 7)).getD (Thread.reset 0 0 0 none 0 0), by decide⟩,
    ⟨(refilling.team? 2).getD loadedView, thread5 refilling, by decide⟩, by decide, by decide, by decide, by decide, by decide, by decide, by decide⟩

/-! Clauses at the ends of their ranges, and what a team, an engine or a slice is asked. -/

/-- Die 0, which holds the tables of context 0, does not run: its slices serve no descriptor, page table or code. -/
def unserved (s : State) : State := { s with dies := modifyAt s.dies 0 (fun D => { D with state := 2 }) }
theorem executing {iss : Issue} {t : Team} {p : Nat → Prop} (h : ∀ k < t.sheaves.length, executes iss t k = true → p k) :
    ∀ k, executes iss t k = true → p k := fun k hk => h k (by simp [executes] at hk; exact hk.1.1) hk
theorem witness_UniformStateResults_served :
    (Issuing loadedState iss2 loadedView ∧
      ∀ k, executes iss2 loadedView k = true → loadedState.descFree loadedView.ctx 0 = true)
    ∧ Issuing (unserved loadedState) iss2 loadedView ∧ executes iss2 loadedView 0 = true
    ∧ (unserved loadedState).descFree loadedView.ctx 0 = false :=
  ⟨⟨witness_loaded, fun _ _ => by decide⟩, ⟨rfl, rfl⟩, by decide, by decide⟩

/-- All eight threads at rendezvous with one cross-lane word; with one that traps (a plain page has no blocks: FORMAT_STORE). -/
def meetWord : Placed := ⟨0, .xmask hd ⟨0, 0, 6, 0, 0⟩⟩
def stbWord : Placed := ⟨0, .stb hd ⟨4, 0, 0, 0, 0, none⟩⟩
def met (w : Placed) (x : Thread) : Arrival := ⟨0, 0, 4, 0, [w], x.regs, (loadedView.sheaves.headD Sheaf.reset).uni, 0, 0, x.pt, 0, 0⟩
def meeting (w : Placed) : State := quiet.mapTeam 2 (fun t => { t with threads := t.threads.map (fun x => { x with wait := .rendezvous (met w x) }) })
def meetingTeam (w : Placed) : Team := ((meeting w).team? 2).getD loadedView
def metAt (w : Placed) (k : Nat) : Arrival := met w ((loadedView.threads[k]?).getD (Thread.reset 0 0 0 none 0 0))
theorem waiting_iff {o : Option Thread} {w : Wait} : (∃ x, o = some x ∧ x.wait = w) ↔ o.map Thread.wait = some w := by
  cases o <;> simp
theorem small {n : Nat} {p : Nat → Prop} (h : ∀ k < n, p k) (g : ∀ k, n ≤ k → p k) : ∀ k, p k :=
  fun k => if q : k < n then h k q else g k (Nat.not_lt.mp q)
def goneOn (w : Placed) : State := { threadsBecome (meeting w) 2 (upto 8).contains (fun _ y =>
    { y with wait := .none, pc := 4, earliest := max y.earliest 2 }) with
  view := (meeting w).teams.map (fun u => match (meeting w).view.find? (fun v => v.id == u.id) with
    | some v => { u with scratch := v.scratch, tiles := v.tiles }
    | none => u) }
def meetIssue (w : Placed) : Issue :=
  { team := 2, slot := 0, tids := upto 8, pc := 0, replay := 0, fall := 4, words := [w], lone := false, completing := true,
    suppressed := [], trapped := [], held := [], waiting := [], stalled := false }
theorem witness_CrossLaneArrival_completion : ∀ w ∈ [meetWord, stbWord],
    (meeting w).team? 2 = some (meetingTeam w)
    ∧ (∀ k < 8, ((meetingTeam w).threads[k]?).map Thread.tid = some k) ∧ (meetingTeam w).threads.length = 8
    ∧ (∀ k, k ∈ upto 8 ↔ (k < (meetingTeam w).threads.length ∧ k / (meetingTeam w).width = 0)
        ∧ ∃ x, (meetingTeam w).threads[k]? = some x ∧ x.wait = .rendezvous (metAt w k))
    ∧ (∀ k < 8, ((meetingTeam w).threads[k]?).map Thread.asked = some none)
    ∧ (∀ k ∈ upto 8, (metAt w k).replay = 0 ∧ (metAt w k).cycle = 0 ∧ (metAt w k).slot = 0 ∧ (metAt w k).lead = 0 ∧ (metAt w k).fall = 4
        ∧ (metAt w k).words = [w])
    ∧ [w].filter (fun x => isCross x.i) = [w] ∧ [w].filter (fun x => !isCross x.i) = []
    ∧ (∀ k ∈ upto 8, (((meetingTeam w).threads[k]?).bind Thread.place) = some (0, k % (meetingTeam w).width)) := by
  intro w hw
  have hw : w = meetWord ∨ w = stbWord := by simpa using hw
  have e : ∀ k < 8, k ∈ upto 8 ∧ (k < (meetingTeam w).threads.length ∧ k / (meetingTeam w).width = 0)
      ∧ ((meetingTeam w).threads[k]?).map Thread.wait = some (.rendezvous (metAt w k)) := by rcases hw with rfl | rfl <;> decide
  have len : (meetingTeam w).threads.length = 8 := by rcases hw with rfl | rfl <;> decide
  refine ⟨?_, ?_, len, small (n := 8) (fun k h => ?_) (fun k h => ?_), ?_, ?_, ?_, ?_, ?_⟩
  · rcases hw with rfl | rfl <;> decide
  · rcases hw with rfl | rfl <;> decide
  · rw [waiting_iff]; exact ⟨fun _ => (e k h).2, fun _ => (e k h).1⟩
  · have : k ∉ upto 8 := by simp [upto]; omega
    exact ⟨fun q => absurd q this, fun q => absurd (len ▸ q.1.1) (Nat.not_lt.mpr h)⟩
  all_goals rcases hw with rfl | rfl <;> decide
/-- The word takes effect in one; it traps in the other. -/
theorem witness_CrossLaneArrival_effect :
    ((inSequence [meetWord] { goneOn meetWord with issue := some (meetIssue meetWord) }).issue.any (fun j =>
      j.trapped.isEmpty && j.held.isEmpty && j.waiting.isEmpty && !j.stalled)) = true
    ∧ (((goneOn stbWord).runGroup (meetIssue stbWord) [stbWord]).any (fun r => !r.trapped.isEmpty && r.held.isEmpty)) = true
    ∧ (∀ a, (loadedView.threads.headD (Thread.reset 0 0 0 none 0 0)).wait ≠ .rendezvous a)
    ∧ (loadedView.threads.headD (Thread.reset 0 0 0 none 0 0)).wait = .none := by
  have e : (loadedView.threads.headD (Thread.reset 0 0 0 none 0 0)).wait = .none := by decide
  exact ⟨by decide, by decide, fun a => by rw [e]; exact Wait.noConfusion, e⟩

/-- Nothing holds or stops a group's block; the slices do not serve its tables. -/
def stbMay (s : State) (o : FM) (q : Nat × Nat × Nat) : Bool :=
  s.pathFree loadedView.ctx ((reads iss2c loadedView q.2.2).s o.p.toNat) (mDisp o 1 (reads iss2c loadedView q.2.2))
  && !s.bufferHeld loadedView.ctx (((reads iss2c loadedView q.2.2).s o.p.toNat).extractLsb' 54 10).toNat
theorem witness_BlockStoreResults_may :
    stbMay dxState dxWord (0, 0, 0) = true ∧ stbMay (formatState 0 0 64) dxWord (0, 0, 0) = true
    ∧ Issuing (unserved dxState) iss2c loadedView ∧ stbGroups iss2c loadedView 0 = [(0, 0, 0)]
    ∧ stbMay (unserved dxState) dxWord (0, 0, 0) = false := ⟨by decide, by decide, ⟨rfl, rfl⟩, by decide, by decide⟩

/-- RED.F32.UNORD where no exact sum stands: asked for, and refused for want of room at this place. -/
def spotAt (k : Nat) : Target := targetOf loadedState loadedView (4 * k) 4 .red
def unordState (ans : Option Answer) : State :=
  loadedState.mapTeam 2 (fun t => { t with threads := t.threads.map (fun x => { x with answer := ans }) })
theorem witness_AtomicResults_unord :
    (∀ a ∈ [none, some (⟨0, 0x24, [], false, (spotAt 0).loc⟩ : Answer)],
      StoresReach (unordState a) iss2 loadedView 0 .red 0 (fun _ => 0) 4 (fun _ => spotAt 0)
      ∧ (∀ k ∈ effective iss2 loadedView 0, (unordState a).answerFor iss2 k = a)
      ∧ (spotAt 0).route ≠ .host ∧ ((unordState a).die (homeOf (spotAt 0).loc)).sums = [])
    ∧ ∀ a, Issuing (unordState a) iss2 loadedView := by
  refine ⟨fun a ha => ?_, fun a => ⟨rfl, rfl⟩⟩
  simp only [List.mem_cons, List.not_mem_nil, or_false] at ha
  rcases ha with rfl | rfl <;> exact ⟨storesReach_spec (by decide), by decide, by decide, by decide⟩

/-- Every thread waits at a team barrier, or a cohort barrier, since cycle 7; one waits at none. -/
def atBarrier (whole : Bool) : Team := { loadedView with threads := loadedView.threads.map (fun x => { x with block := .bar whole 7, lct := 4 }) }
def cohortWaits : State := { quiet with teams := [atBarrier true] }
theorem witness_FenceAndBarrierResults_release :
    (∃ x ∈ (atBarrier false).threads, x.wait ≠ .ended ∧ x.block = .bar false 7)
    ∧ (∀ x ∈ (atBarrier false).threads, x.wait ≠ .ended → ∃ c, c ≤ 7 ∧ x.block = .bar false c)
    ∧ (∃ x ∈ loadedView.threads, x.wait ≠ .ended ∧ ∀ c, x.block ≠ .bar false c)
    ∧ (∀ u ∈ cohortWaits.teams, sameCohort (atBarrier true) u = true ∧ u.res = .resident
      ∧ ∀ x ∈ u.threads, x.wait ≠ .ended ∧ x.block = .bar true 7 ∧ max x.pt x.lct = 4 ∧ x.pt ≤ 4 ∧ x.lct ≤ 4)
    ∧ cohortWaits.teams.flatMap Team.threads ≠ [] := by
  have b : ∀ x ∈ (atBarrier false).threads, x.wait ≠ .ended ∧ x.block = .bar false 7 := by decide
  have n : ∀ x ∈ loadedView.threads, x.wait ≠ .ended ∧ x.block = .none := by decide
  have m : (atBarrier false).threads.headD (Thread.reset 0 0 0 none 0 0) ∈ (atBarrier false).threads := by decide
  have k : loadedView.threads.headD (Thread.reset 0 0 0 none 0 0) ∈ loadedView.threads := by decide
  exact ⟨⟨_, m, b _ m⟩, fun x hx _ => ⟨7, by decide, (b x hx).2⟩, ⟨_, k, (n _ k).1, fun c => by rw [(n _ k).2]; exact Block.noConfusion⟩,
    by decide, by decide⟩

/-- Threads at two PCs, in some order of their numbers; all at a reorder point with equal keys for two. -/
def apartTeam : Team := { loadedView with threads := loadedView.threads.map (fun x => { x with pc := if x.tid < 3 then 8 else 4 }) }
def keyOf_ (k : Nat) : Nat := if k < 6 then 5 - k else 9
def sortedTeam : Team := { loadedView with threads := loadedView.threads.map (fun x => { x with wait := .reorder (keyOf_ x.tid) }) }
theorem witness_LevelAndRegroupResults :
    NextWords apartTeam (upto 8) [4, 8]
    ∧ ((upto 8).filter (fun k => (apartTeam.threads[k]?).any (fun x => decide (x.wait = .none ∧ x.block = .none)))) = upto 8
    ∧ ([5, 4, 3, 2, 1, 0, 6, 7].Pairwise (fun a b => keyOf_ a < keyOf_ b ∨ (keyOf_ a = keyOf_ b ∧ a < b)))
    ∧ (∀ k < 8, (sortedTeam.threads[k]?).map Thread.tid = some k ∧ (sortedTeam.threads[k]?).map Thread.wait = some (.reorder (keyOf_ k)))
    ∧ sortedTeam.threads.length = 8 ∧ 0 < sortedTeam.width
    ∧ (∀ k < 8, (loadedView.threads[k]?).map Thread.wait = some .none) ∧ loadedView.threads.length = 8 := by
  refine ⟨⟨by decide, fun p => ⟨fun h => ?_, fun ⟨x, hx, e⟩ => ?_⟩⟩, by decide, by decide, by decide, by decide, by decide, by decide, by decide⟩
  · simp only [List.mem_cons, List.not_mem_nil, or_false] at h
    rcases h with rfl | rfl
    · exact ⟨3, by decide, by decide⟩
    · exact ⟨0, by decide, by decide⟩
  · have q : ∀ x ∈ upto 8, ((apartTeam.threads[x]?).map Thread.pc).all (fun p => ([4, 8] : List (BitVec 64)).contains p) = true := by decide
    have := q x hx
    rw [e] at this
    simpa using this

/-- A complete record of home sheaf 0, last updated by LEAVE, or by JOIN.RG of thread 7. -/
def joinTeam (last : Option (Nat × Bool)) : Team := { apartTeam with
  sheaves := [{ Sheaf.reset with joins := ⟨upto 8, upto 8, last⟩ :: Sheaf.reset.joins.drop 1 }] }
theorem witness_JoinRecords :
    (∀ last ∈ [none, some (7, true)], (joinTeam last).sheaves[0]?.bind (fun f => f.joins[0]?) = some ⟨upto 8, upto 8, last⟩)
    ∧ (joinTeam none).threads = apartTeam.threads ∧ (joinTeam (some (7, true))).threads = apartTeam.threads := by decide

/-- Parameters of the four asynchronous words that pass their checks, at s20 to s23. -/
theorem witness_EngineIssues_checks :
    copyChecks loadedView oneState [0, 0, 0] = .ok none ∧ gatherChecks loadedView oneState [0, 0, 0, 0] = .ok none
    ∧ slotLocked loadedView oneState [0, 0, 0] = false ∧ oneState.descFree loadedView.ctx 0 = true
    ∧ (unserved oneState).descFree loadedView.ctx 0 = false := by
  have ok : ∀ {e : Except Cond (Option (Nat × Nat × Nat × Nat))}, isOk e none = true → e = .ok none := fun h => eq_ok h
  exact ⟨ok (by decide), ok (by decide), by decide, by decide, by decide⟩
/-- A WLOAD of one element into a team with an accumulator granule; a COLL whose group table holds one entry, of one rank. -/
def accView : Team := { loadedView with acc := 1 }
def groupState : State := { oneState with
  ctxs := modifyAt oneState.ctxs 0 (fun c => { c with grpBase := 0x40000, grpN := 1 }),
  mem := placeBytes oneState.mem 0x40000 (toBytes (2 ^ 63 + 1) 8),
  domain0 := BitVec.ofNat 64 1 }
def panelParams : List DWord := [64, 1, BitVec.ofNat 64 (1 + 2 ^ 16 + 2 ^ 40)]
def collParams : List DWord := [64, 128, 1, 0]
def givesSome (e : Except Cond (Option (Nat × Nat × Nat × Nat))) : Bool := match e with | .ok (some _) => true | _ => false
theorem witness_EngineIssues_panels :
    wloadChecks accView oneState panelParams = .ok none ∧ givesSome (collChecks loadedView groupState collParams) = true
    ∧ groupServed groupState loadedView.ctx collParams = true ∧ groupServed (unserved groupState) loadedView.ctx collParams = false :=
  ⟨eq_ok (by decide), by decide, by decide, by decide⟩

/-- The slices serve a displacement's entry and the successor table, which has no row; they do not. -/
theorem witness_ThreadEnds_served :
    (loadedState.fetchFree loadedView 4 && loadedState.succFree loadedView 0 0) = true
    ∧ Issuing (unserved loadedState) iss2 loadedView ∧ (unserved loadedState).launch? loadedView.launch = some (loadedLaunch 1 loadedState.mem)
    ∧ ((unserved loadedState).fetchFree loadedView 4 && (unserved loadedState).succFree loadedView 0 0) = false
    ∧ effective iss2 loadedView 0 ≠ [] := ⟨by decide, ⟨rfl, rfl⟩, by decide, by decide, by decide⟩

/-- A launch with an expert, node 0, whose PORT0 names node 1, and a set, node 2, of a pure stage, node 3, or an effectful one, with AUTO. -/
def expertWords : List DWord := [BitVec.ofNat 64 (4 * 2 ^ 39), 3 * 16, BitVec.ofNat 64 (4096 + 1), 8, 0, 0, 0, 0]
def setWords (auto : Bool) : List DWord :=
  [BitVec.ofNat 64 (2 * 2 ^ 39 + if auto then 2 ^ 45 else 0), 3 * 16, BitVec.ofNat 64 (4096 + 1), 8, BitVec.ofNat 64 (4096 + 3), 0, 0, 0]
def stageWords (effectful : Bool) : List DWord :=
  [BitVec.ofNat 64 (3 * 2 ^ 39 + if effectful then 2 ^ 44 else 0), 3 * 16, 0, BitVec.ofNat 64 (8 + 512 * 2 ^ 32 + 2 ^ 48), 0, 0, 0, 0]
def graph (auto effectful : Bool) : Launch :=
  { loadedLaunch 1 [] with nodes := [expertWords, nodeWords, setWords auto, stageWords effectful] }
def graphState (auto effectful : Bool) (rs : List Record) : State := { quiet with launches := [graph auto effectful], records := rs }
theorem witness_BoundRecordResults_combine :
    (graphState false false []).launch? (graph false false).id = some (graph false false)
    ∧ (graphState false false []).slotMarked (graph false false) 3 = false ∧ (graph false false).combine = []
    ∧ ((0, [(1 : Word)]) :: []).length < 2 ∧ 1 ≤ ((0, [(1 : Word)]) :: []).length
    ∧ nPort ((graph false false).node 0) 0 = some 1 ∧ (graph false false).spoiled = [] ∧ (graph false false).fullSlots = []
    ∧ (∀ x ∈ (graphState false false []).launches, x.id = (graph false false).id → x = graph false false)
    ∧ (graph false false).id < 2 ^ 61 := by decide
/-- A record at the set: its stage is pure and not passed; effectful; passed already, with AUTO and without, a router's record held. -/
def atSet (done : Bool) : Record := { (record 9 .atInput) with node := 2, done := if done then 1 else 0 }
def routed : Record := { (record 5 .heldBack) with sender := 2 ^ 62 }
theorem witness_BoundRecordResults_route :
    (∀ e ∈ [true, false], ∀ done ∈ [true, false],
      (graphState true e [atSet done]).record? 9 = some (atSet done) ∧ (graphState true e [atSet done]).launch? 1 = some (graph true e)
      ∧ (∀ i < 8, nStage ((graph true e).node 2) i = if i < 1 then some 3 else none)
      ∧ (graphState true e [atSet done]).nodeDie 1 3 = some 0
      ∧ (atSet done).done.getLsbD 0 = done ∧ (((graph true e).node 3).getD 0 0).getLsbD 44 = e)
    ∧ ((((graph true false).node 2).getD 0 0).getLsbD 45 = true ∧ (nPort ((graph true false).node 2) 0).isSome = true
      ∧ (((graph false false).node 2).getD 0 0).getLsbD 45 = false)
    ∧ (graphState true false [atSet true]).nodeDie 1 2 = some 0 ∧ (∀ q ∈ [atSet true], ¬(q.place = .heldBack ∧ q.sender = 2 ^ 62 + 0))
    ∧ ∃ q ∈ [routed, atSet true], q.place = .heldBack ∧ q.sender = 2 ^ 62 + 0 := by decide
/-- The lottery's draw takes the one pure stage. -/
theorem witness_BoundRecordResults_lottery :
    lotteryStep (sget 0 (graph true false).lottery 2) * (max 1 ((1024 - 512) * 2 ^ 24 / (1 * (256 + 0)))) / 2 ^ 32 <
      max 1 ((1024 - 512) * 2 ^ 24 / (1 * (256 + 0)))
    ∧ (graph true false).stat 3 = ⟨3, 512, 1, 0, 0, 0⟩ := by decide
/-- An ordered node's window: an entry that has retired with a record in it, one that has none, and one that has not retired. -/
def windowed (w : WinEntry) : Launch := { graph false false with windows := [w] }
def windowState (w : WinEntry) : State := { quiet with launches := [windowed w], records := [{ (record 9 (.window 4)) with node := 0 }] }
theorem witness_BoundRecordResults_window :
    (∀ w ∈ [(⟨0, 4, true, [(9, 1)]⟩ : WinEntry), ⟨0, 4, true, []⟩, ⟨0, 4, false, []⟩],
      (windowState w).launch? (windowed w).id = some (windowed w) ∧ (windowed w).windows.filter (fun v => v.node == 0) = [w]
      ∧ (∀ r ∈ (windowState w).records, ¬(r.place = .heldBack ∧ r.sender = 2 ^ 60 + 0))
      ∧ (∀ x ∈ (windowState w).launches, x.id = (windowed w).id → x = windowed w)
      ∧ (windowState w).accs = [])
    ∧ ((windowState ⟨0, 4, true, [(9, 1)]⟩).record? 9).map Record.place = some (.window 4)
    ∧ ((windowState ⟨0, 4, true, [(9, 1)]⟩).record? 9).map Record.id = some 9
    ∧ (windowed ⟨0, 9, true, []⟩).windows.find? (fun w => w.input == 9) = some ⟨0, 9, true, []⟩ := by decide

/-- Where no die's directory lists a line, no host holds one. -/
theorem noHost {s : State} (h : (s.dies.all (fun D => D.dir.isEmpty)) = true) : ∀ line, (s.dirOf line).host = .hi := by
  intro line
  have e : (s.die (lineHome line)).dir = [] := by
    unfold State.die
    cases q : s.dies[lineHome line]? with
    | none => simp [List.getD, q, Die.reset]
    | some D => simpa [List.getD, q] using List.all_eq_true.mp h D (List.mem_of_getElem? q)
  unfold State.dirOf
  rw [e]; rfl
theorem witness_PipelineEvents_refill : ∀ line, (refilling.dirOf line).host = .hi := noHost (by decide)
/-- A future load parked outside the wait table for 128 cycles, its thread on its way. -/
def parkedState : State := { accState [{ (futureAcc spot) with parked := true }] with cycle := 128 }
theorem witness_StoreAndLoadEvents_retry :
    (∃ a, parkedState.acc? 4 = some a ∧ a.kind = .ldf ∧ a.parked = true ∧ a.inTable = false ∧ a.since + 128 ≤ parkedState.cycle)
    ∧ (parkedState.team? 2).map Team.res = some .resident ∧ (parkedState.thread? 2 5).map Thread.block = some .none :=
  ⟨⟨{ (futureAcc spot) with parked := true }, by decide⟩, by decide, by decide⟩
/-- An exact sum of 2^−149 at `spot`; a place claimed for one; words of each sort. -/
def tiny : ExactSum := ⟨spot, true, 1, none, 1, 0⟩
def sumState (e : ExactSum) : State := { quiet with dies := modifyAt quiet.dies 0 (fun D => { D with sums := [e] }) }
theorem witness_AtomicEvents_sums :
    tiny.held = true ∧ tiny.loc % 4 = 0 ∧ (sumState tiny).sumsAt ((List.range 4).map (fun k => tiny.loc + k)) = [tiny]
    ∧ tiny ∈ ((sumState tiny).die (homeOf tiny.loc)).sums ∧ noCombine (sumState tiny) ∧ tiny.loc < hostBase
    ∧ homeOf tiny.loc < (sumState tiny).dies.length ∧ ((sumState tiny).dirOf (lineOf tiny.loc)).owner = none
    ∧ wholeSectors (sumState tiny) (homeOf tiny.loc)
    ∧ sget 0 (sumState tiny).ktag (secOf tiny.loc) = (sumState tiny).keyOf tiny.ctx .coherent ∧ (sumState tiny).accs = []
    ∧ (∀ e ∈ ((sumState { tiny with held := false }).die (homeOf spot)).sums, e.loc = spot → e.held = false)
    ∧ tiny.rounded = 1 :=
  ⟨by decide, by decide, by decide +kernel, by decide +kernel, noCombine_of (by decide), by decide +kernel, by decide +kernel, by decide +kernel, whole_of (by decide),
    by decide +kernel, by decide, by decide +kernel, by decide +kernel⟩
theorem witness_AtomicEvents_words : nanBitsOf f32 0x7FC00001 = true ∧ nanBitsOf f32 0xFF800000 = false
    ∧ (0xFF800000 : Nat) % 2 ^ 31 = 0x7F800000 ∧ (0xFF800000#32).msb = true ∧ finite32 0x3FC00000 = true ∧ finite32 0xFF7FFFFF = true :=
  ⟨by decide, by decide, by decide, by decide, by simp [finite32], by simp [finite32]⟩

/-! What the engines read. -/

/-- Buffer 0's page, of a plain page and of one of DX8 blocks. -/
def pageOf (s : State) : Page := match s.translate 0 0 0 .load with | .ok p => p | .error _ => ⟨0, 0, false, false, 0, 0, false⟩
def pageB (s : State) (o : Op) (d : List DWord) (va : Nat) (kind : AKind) (p : Page) : Bool :=
  (match s.translate o.ctx (((s.ctx o.ctx).vdie (fieldOf d 3 4 2)).getD 0) va kind with | .ok q => decide (q = p) | .error _ => false)
  && decide (p.geom < 2 ∧ (p.geom = 0 ∨ (p.fmt ≠ 0 ∧ p.fmt ≠ 3)))
theorem page_is {s : State} {o : Op} {d : List DWord} {va : Nat} {kind : AKind} {p : Page} (h : pageB s o d va kind p = true) :
    PageIs s o d va kind p := by
  simp only [pageB, Bool.and_eq_true, decide_eq_true_eq] at h
  refine ⟨?_, h.2⟩
  have g := h.1
  split at g
  · rename_i q e; rw [e, of_decide_eq_true g]
  · exact nomatch g
def readable (s : State) (o : Op) (p : Page) (loc n : Nat) : Bool :=
  decide (s.memError loc n = none) && (List.range n).all (fun k => decide (sget 0 s.ktag (secOf (loc + k)) = s.keyOf o.ctx (pageRoute p)))
theorem readable_of {s : State} {o : Op} {p : Page} {loc n : Nat} (h : readable s o p loc n = true) : Readable s o p loc n := by
  simp only [readable, Bool.and_eq_true, decide_eq_true_eq, List.all_eq_true, List.mem_range] at h
  exact h
theorem performs_of {s : State} {o : Op} {us : List Unit?} {t : Team} {f : Sheaf}
    (h : (decide (s.op? o.serial = some o) && decide (s.team? o.team = some t) && decide (t.sheaves[o.sheaf]? = some f) && s.opMay o us
      && !s.meetsSum us && decide (o.taken = []) && decide (o.landed = []) && decide (o.wts = 0)) = true) (n : noCombine s) :
    Performs s o us t f := by
  simp only [Bool.and_eq_true, decide_eq_true_eq, Bool.not_eq_true'] at h
  exact ⟨h.1.1.1.1.1.1.1, h.1.1.1.1.1.1.2, h.1.1.1.1.1.2, h.1.1.1.1.2, h.1.1.1.2, n, h.1.1.2, h.1.2, h.2⟩
/-- A plain byte, and the element of a DX8 page whose code is a byte: what they give. -/
theorem gives_byte {s : State} {o : Op} {d : List DWord} {va : Nat} {p : Page} (h : pageB s o d va .load p = true) (f : p.fmt = 0)
    (r : readable s o p (placeIn s o d p (va % p.size)) 1 = true) : Gives s o d va 0 [seenBy s o p (placeIn s o d p (va % p.size))] :=
  ⟨p, page_is h, by rw [if_pos rfl]; exact ⟨.inr (.inl f), readable_of r, rfl⟩⟩
def dxValue (s : State) (o : Op) (d : List DWord) (va : Nat) (p : Page) : Machine.Num :=
  let e := va % p.size
  let hl := placeIn s o d p (pageData false p.size + 2 * (if p.geom = 0 then e / 32 else e / 1024 * 32 + e % 32))
  dxDecode 1 (ofBytes [seenBy s o p hl, seenBy s o p (hl + 1)]) (seenBy s o p (placeIn s o d p e)).toNat
def dxB (s : State) (o : Op) (d : List DWord) (va : Nat) (p : Page) : Bool :=
  let off := va % p.size
  let h := pageData false p.size + 2 * (if p.geom = 0 then off / 32 else off / 1024 * 32 + off % 32)
  decide (p.fmt = 1) && !(d.getD 2 0).getLsbD 4 && decide (off < pageData false p.size) && decide (off + fieldOf d 0 0 54 ≤ va + h)
  && decide (va + h + 2 ≤ off + fieldOf d 0 0 54 + fieldOf d 1 0 54)
  && readable s o p (placeIn s o d p off) 1 && readable s o p (placeIn s o d p h) 2
theorem dx_of {s : State} {o : Op} {d : List DWord} {va : Nat} {p : Page} (h : dxB s o d va p = true) :
    DxElement s o d va 1 (va % p.size) p (dxValue s o d va p) := by
  simp only [dxB, Bool.and_eq_true, decide_eq_true_eq, Bool.not_eq_true'] at h
  exact ⟨h.1.1.1.1.1.1, .inl rfl, h.1.1.1.1.1.2, h.1.1.1.1.2, h.1.1.1.2, h.1.1.2, readable_of h.1.2, readable_of h.2, rfl⟩
theorem gives_dx {s : State} {o : Op} {d : List DWord} {va : Nat} {p : Page} (h : pageB s o d va .load p = true) (e : dxB s o d va p = true) :
    Gives s o d va 1 (toBytes (pack f16 .rn (dxValue s o d va p)) 2) := by
  refine ⟨p, page_is h, ?_⟩
  rw [if_neg (by decide)]
  refine ⟨[dxValue s o d va p], rfl, by simp, fun k x hk => ?_⟩
  cases k with
  | zero => cases Option.some.inj hk; exact dx_of e
  | succ k => exact nomatch hk

/-- Four bytes from memory to scratchpad and back; four DX8 elements expanded to FP16. -/
def loadOp : Op := op 0 [64, 128, BitVec.ofNat 64 (4 + 2 ^ 32)]
def storeOp : Op := op 0 [64, 128, BitVec.ofNat 64 (4 + 2 ^ 33)]
def dxQuiet : State := { dxState with issue := none }
def dxOp : Op := { op 0 [64, 128, BitVec.ofNat 64 (4 + 2 ^ 32 + 2 ^ 34)] with descs := [(0, dxQuiet.descOf 0 0)] }
def dxOpState : State := { dxQuiet with ops := [dxOp] }
def loc4 (s : State) (o : Op) (i va : Nat) : Nat := placeIn s o (o.desc i) (pageOf s) (va % (pageOf s).size)
theorem witness_EngineEvents_load :
    Performs (opState loadOp) loadOp ((opState loadOp).copyUnits loadOp) loadedView Sheaf.reset ∧ loadOp.remote 0 = false
    ∧ ∀ k < 4, ∃ bs, Gives (opState loadOp) loadOp (loadOp.desc 0) (64 + k) 0 bs := by
  have h : ∀ k < 4, pageB (opState loadOp) loadOp (loadOp.desc 0) (64 + k) .load (pageOf (opState loadOp)) = true
      ∧ readable (opState loadOp) loadOp (pageOf (opState loadOp)) (loc4 (opState loadOp) loadOp 0 (64 + k)) 1 = true := by decide
  have f : (pageOf (opState loadOp)).fmt = 0 := by decide
  exact ⟨performs_of (by decide) (noCombine_of (by decide)), by decide, fun k hk => ⟨_, gives_byte (h k hk).1 f (h k hk).2⟩⟩
theorem witness_EngineEvents_dx :
    Performs dxOpState dxOp (dxOpState.copyUnits dxOp) loadedView Sheaf.reset
    ∧ ∀ k < 4, ∃ bs, Gives dxOpState dxOp (dxOp.desc 0) (64 + k) 1 bs := by
  have h : ∀ k < 4, pageB dxOpState dxOp (dxOp.desc 0) (64 + k) .load (pageOf dxOpState) = true
      ∧ dxB dxOpState dxOp (dxOp.desc 0) (64 + k) (pageOf dxOpState) = true := by decide
  exact ⟨performs_of (by decide) (noCombine_of (by decide)), fun k hk => ⟨_, gives_dx (h k hk).1 (h k hk).2⟩⟩
theorem witness_EngineEvents_store :
    Performs (opState storeOp) storeOp ((opState storeOp).copyUnits storeOp) loadedView Sheaf.reset ∧ storeOp.remote 1 = false
    ∧ wholeSectors (opState storeOp) storeOp.die
    ∧ ∀ k < 4, pageB (opState storeOp) storeOp (storeOp.desc 1) (128 + k) .store (pageOf (opState storeOp)) = true
      ∧ readable (opState storeOp) storeOp (pageOf (opState storeOp)) (loc4 (opState storeOp) storeOp 1 (128 + k)) 1 = true
      ∧ (pageOf (opState storeOp)).fmt = 0 ∧ (pageOf (opState storeOp)).host = false ∧ (pageOf (opState storeOp)).strm = false
      ∧ homeOf (loc4 (opState storeOp) storeOp 1 (128 + k)) = storeOp.die
      ∧ ((opState storeOp).dirOf (lineOf (loc4 (opState storeOp) storeOp 1 (128 + k)))).owner = none :=
  ⟨performs_of (by decide) (noCombine_of (by decide)), by decide, whole_of (by decide), by decide⟩
/-- A gather of one word with index 0; a panel of one FP16 element. -/
theorem witness_EngineEvents_gather :
    Performs (opState gatherOp) gatherOp ((opState gatherOp).gatherUnits gatherOp) loadedView Sheaf.reset ∧ elementSize gatherOp.params = 4
    ∧ (loadedView.readWord 0).toNat = 0 ∧ ∀ j < 4, ∃ bs, Gives (opState gatherOp) gatherOp (gatherOp.desc 0) (64 + j) 0 bs := by
  have h : ∀ k < 4, pageB (opState gatherOp) gatherOp (gatherOp.desc 0) (64 + k) .load (pageOf (opState gatherOp)) = true
      ∧ readable (opState gatherOp) gatherOp (pageOf (opState gatherOp)) (loc4 (opState gatherOp) gatherOp 0 (64 + k)) 1 = true := by decide
  have f : (pageOf (opState gatherOp)).fmt = 0 := by decide
  exact ⟨performs_of (by decide) (noCombine_of (by decide)), by decide, by decide, fun k hk => ⟨_, gives_byte (h k hk).1 f (h k hk).2⟩⟩
theorem witness_EngineEvents_panel :
    noCombine (opState panelOp) ∧ panelOp.remote 0 = false ∧ fieldOf panelOp.params 2 24 3 = 0 ∧ fieldOf panelOp.params 2 0 10 = 1
    ∧ fieldOf panelOp.params 2 16 8 = 1 ∧ ∃ x, PanelElement (opState panelOp) panelOp (panelOp.desc 0) 64 0 (panelElement panelOp.params 0 0) x := by
  have h : pageB (opState panelOp) panelOp (panelOp.desc 0) (fieldOf (panelOp.desc 0) 0 0 54 + 64 + 2 * panelElement panelOp.params 0 0) .load
      (pageOf (opState panelOp)) = true ∧ readable (opState panelOp) panelOp (pageOf (opState panelOp))
        (loc4 (opState panelOp) panelOp 0 (fieldOf (panelOp.desc 0) 0 0 54 + 64 + 2 * panelElement panelOp.params 0 0)) 2 = true := by decide
  have f : (pageOf (opState panelOp)).fmt = 0 := by decide
  refine ⟨noCombine_of (by decide), by decide, by decide, by decide, by decide,
    (let l := placeIn (opState panelOp) panelOp (panelOp.desc 0) (pageOf (opState panelOp))
       ((fieldOf (panelOp.desc 0) 0 0 54 + 64 + 2 * panelElement panelOp.params 0 0) % (pageOf (opState panelOp)).size)
     unpack f16 (ofBytes [seenBy (opState panelOp) panelOp (pageOf (opState panelOp)) l,
       seenBy (opState panelOp) panelOp (pageOf (opState panelOp)) (l + 1)])), pageOf (opState panelOp), page_is h.1, ?_⟩
  rw [if_pos (by decide)]
  exact ⟨.inl f, readable_of h.2, rfl⟩
/-- An operation with all its segments and one product of ones; blocks that fill a slot. -/
theorem witness_EngineEvents_tiles :
    (blockOf_ (mop true []).block).m ≤ 256 ∧ (∀ b ∈ [(([] : List Machine.Num), 4096), ([], 32)], b.2 ≤ 4096) := by decide

/-- A set of three ranks that agree, one that misses a rank, one whose parts differ in the number of ranks, one that disagrees. -/
def rank3 (rank op ranks : Nat) : Contribution := { rankOne with rank := rank, op := op, ranks := ranks }
def setState (ps : List Contribution) : State := { quiet with collSets := [⟨5, 0, ps⟩] }
theorem witness_DomainEvents_sets :
    (∀ ps ∈ [[rank3 0 0 3, rank3 2 0 3, rank3 1 0 3], [rank3 0 0 3, rank3 2 0 3], [rank3 0 0 3, rank3 1 0 2, rank3 2 0 3],
        [rank3 0 0 3, rank3 2 1 3, rank3 1 0 3]],
      (setState ps).collSets.find? (fun x => x.tag == 5 && x.gen == 0) = some ⟨5, 0, ps⟩ ∧ (rank3 0 0 3).ranks ≤ 65536 ∧ ps.head? = some (rank3 0 0 3))
    ∧ (∀ i < 3, ∃ p ∈ [rank3 0 0 3, rank3 2 0 3, rank3 1 0 3], p.rank = i) ∧ (∀ i < 3, ∃ p ∈ [rank3 0 0 3, rank3 2 1 3, rank3 1 0 3], p.rank = i)
    ∧ (∃ i < 3, ∀ p ∈ [rank3 0 0 3, rank3 2 0 3], p.rank ≠ i)
    ∧ (∃ p ∈ [rank3 0 0 3, rank3 1 0 2, rank3 2 0 3], p.ranks ≠ 3)
    ∧ ¬(∀ q ∈ [rank3 0 0 3, rank3 2 1 3, rank3 1 0 3], q.op = 0) := by decide
/-- An access that names this device's number, alone in its entry. -/
def ownState : State := { exported true with accs := [remoteAccOf 2 8] }
theorem witness_DomainEvents_own :
    ownState.canOwnServe (remoteAccOf 2 8) = true ∧ ownState.ownMates (remoteAccOf 2 8) = [remoteAccOf 2 8]
    ∧ ownState.ownDevice (remoteAccOf 2 8).device = true ∧ (∀ b ∈ ownState.ownMates (remoteAccOf 2 8), ownState.ownMay b = true)
    ∧ quiet.isAsked (remoteAccOf 7 8) = false := by decide
/-- Outcomes of a stage team's threads, not in the order of their TIDs. -/
def outcomeLaunch : Launch := { graph true false with outcomes := [(2, 4, true), (3, 0, false), (2, 1, false)] }
theorem witness_FabricEvents_outcomes :
    ([(2, 1, false), (2, 4, true)] : List (Nat × Nat × Bool)).Perm (outcomeLaunch.outcomes.filter (fun o => o.1 == loadedView.id))
    ∧ ([(2, 1, false), (2, 4, true)] : List (Nat × Nat × Bool)).Pairwise (fun a b => a.2.1 < b.2.1)
    ∧ (∀ x ∈ outcomeLaunch.stats, x.node ≠ 3) ∧ (fabricState [record 9 .moving] 6).accs = [] := by decide
theorem witness_LaunchLife_reads : ∀ line, ((slotState goodSlot).dirOf line).host = .hi := noHost (by decide)
theorem witness_HealthEvents_window : (((sliced true).die 2).slice.map Prod.fst).Pairwise (· < ·)
    ∧ (∀ r ∈ ((sliced false).die 2).slice, r.2 = true → false = true) := by decide

/-- A STRM page holds the line: the walk to its leaf, entry by entry; and a state with no valid context, which has none. -/
def strmState : State := { quiet with mem := placeBytes quiet.mem 0x12000 (toBytes (2 ^ 63 + 2 ^ 62 + 2 ^ 61) 8) }
def entryAt (s : State) (tdie table k : Nat) : DWord := s.dpaWord tdie (table + 8 * k)
theorem leaf_here {s : State} {tdie n table va : Nat} (k : Nat) (h : (decide (k < levelEntries n) && bit (entryAt s tdie table k) 63
      && !entryBad n (entryAt s tdie table k) tdie (2 ^ 54) && bit (entryAt s tdie table k) 62 && bit (entryAt s tdie table k) 61) = true) :
    (va + k * 2 ^ levelShift n, fld (entryAt s tdie table k) 0 54 / 256 * 256, 2 ^ levelShift n) ∈ strmLeaves s tdie n table va := by
  simp only [Bool.and_eq_true, decide_eq_true_eq, Bool.not_eq_true'] at h
  unfold strmLeaves
  refine List.mem_flatMap.mpr ⟨k, List.mem_range.mpr h.1.1.1.1, ?_⟩
  simp only [entryAt] at h
  simp [-Nat.reducePow, entryAt, h.1.1.1.2, h.1.1.2, h.1.2, h.2]
theorem leaf_below {s : State} {tdie m table va : Nat} {x : Nat × Nat × Nat} (k : Nat) (h : (decide (k < levelEntries (m + 1))
      && bit (entryAt s tdie table k) 63 && !entryBad (m + 1) (entryAt s tdie table k) tdie (2 ^ 54) && !bit (entryAt s tdie table k) 62) = true)
    (g : x ∈ strmLeaves s tdie m (fld (entryAt s tdie table k) 0 54 / 256 * 256) (va + k * 2 ^ levelShift (m + 1))) :
    x ∈ strmLeaves s tdie (m + 1) table va := by
  simp only [Bool.and_eq_true, decide_eq_true_eq, Bool.not_eq_true'] at h
  unfold strmLeaves
  refine List.mem_flatMap.mpr ⟨k, List.mem_range.mpr h.1.1.1, ?_⟩
  simp only [entryAt] at h g
  simp [-Nat.reducePow, h.1.1.2, h.1.2, h.2, g]
theorem strm_leaf : (0, 0, 2 ^ 30) ∈ strmLeaves strmState 0 4 0x10000 0 := by
  have e : (fld (entryAt strmState 0 0x10000 0) 0 54 / 256 * 256) = 0x11000 := by decide
  have f : (fld (entryAt strmState 0 0x11000 0) 0 54 / 256 * 256) = 0x12000 := by decide
  refine leaf_below 0 (by decide) (e ▸ leaf_below 0 (by decide) (f ▸ ?_))
  exact leaf_here (va := 0) 0 (by decide)
def noContext : State := { quiet with ctxs := quiet.ctxs.map (fun _ => Ctx.reset) }
theorem witness_HostMemoryEvents_strm :
    strmState.strmLine (lineOf (dpaLoc 0 64)) = true ∧ strmState.hostLine 0 64 = some (lineOf (dpaLoc 0 64))
    ∧ strmState.dirReady (lineOf (dpaLoc 0 64)) = true ∧ strmState.locError (lineLocs (lineOf (dpaLoc 0 64))) = none
    ∧ noContext.strmLine (lineOf (dpaLoc 0 64)) = false ∧ noContext.hostLine 0 64 = some (lineOf (dpaLoc 0 64))
    ∧ noContext.dirReady (lineOf (dpaLoc 0 64)) = true ∧ noContext.locError (lineLocs (lineOf (dpaLoc 0 64))) = none := by
  refine ⟨?_, by decide, by decide, by decide, by decide, by decide, by decide, by decide⟩
  unfold State.strmLine
  refine List.any_eq_true.mpr ⟨0, List.mem_range.mpr (by decide), ?_⟩
  have v : (strmState.ctx 0).valid = true := by decide
  have p : fld (strmState.ctx 0).ptroot 56 2 = 0 ∧ fld (strmState.ctx 0).ptroot 0 54 = 0x10000 := by decide
  have d : (!descInvalid (strmState.ctx 0) (strmState.descOf 0 0) && dOkind (strmState.descOf 0 0) != 3
      && (strmState.ctx 0).vdie (dVd (strmState.descOf 0 0)) == some (lineHome (lineOf (dpaLoc 0 64)))) = true := by decide
  have q : (match dpaOf (strmState.descOf 0 0) (lineOf (dpaLoc 0 64)) with
      | none => false
      | some dpa => decide (dpa < 2 ^ 30) && decide (dBase (strmState.descOf 0 0) ≤ 0 + (dpa - 0))
        && decide (0 + (dpa - 0) < dBase (strmState.descOf 0 0) + dLimit (strmState.descOf 0 0))) = true := by decide
  simp only [v, p.1, p.2, if_true]
  refine Bool.and_eq_true_iff.mpr ⟨?_, List.any_eq_true.mpr ⟨0, List.mem_range.mpr (by decide), Bool.and_eq_true_iff.mpr ⟨d, ?_⟩⟩⟩
  · cases h : strmLeaves strmState 0 4 0x10000 0 with
    | nil => rw [List.eq_nil_iff_forall_not_mem] at h; exact absurd strm_leaf (h _)
    | cons => rfl
  · generalize dpaOf (strmState.descOf 0 0) (lineOf (dpaLoc 0 64)) = y at q ⊢
    cases y with
    | none => exact nomatch q
    | some dpa => exact List.any_eq_true.mpr ⟨_, strm_leaf, by simpa using q⟩

/-- Code of two words in the first packet: IADD v5, v6, s7 chained with FADD.F32 v8, v2, v3; TRAP 5, v7; a reserved word; a privileged one. -/
def codeOf_ (w0 w1 : Word) : State := State.reset.withFetchWord 64 (w0.toNat + w1.toNat * 2 ^ 32)
def teamOf (s : State) : Team := (s.teams.head?).getD baseTeam
def chained0 : Word := 1#1 ++ 0#1 ++ 0x01#8 ++ 5#6 ++ 6#6 ++ 71#7 ++ 0#3
def float1 : Word := 0#1 ++ 0#1 ++ 0x40#8 ++ 8#6 ++ 2#6 ++ 3#7 ++ 0#3
def groupOf (s : State) : Fetched := ({ s with plan := [] } : State).fetchGroup (teamOf s) 0 0
def beginning (s : State) : State := { (({ s with plan := [] } : State).noteFetch (teamOf s) 0).beginIssue (teamOf s) (upto 8) (groupOf s).fall (groupOf s).words with
  issue := some { team := 2, slot := 0, tids := upto 8, pc := 0, replay := 0, fall := (groupOf s).fall, words := (groupOf s).words, lone := false,
                  completing := false, suppressed := [], trapped := [], held := [], waiting := [], stalled := false } }
theorem witness_StepRunsTheDecodedWord_groups :
    (let s := codeOf_ chained0 float1
     (groupOf s).words.map Placed.pc = [0, 4] ∧ (groupOf s).fall = 8 ∧ (groupOf s).bad = none
     ∧ (groupOf s).words.all (fun w => !({ s with plan := [] } : State).stalls (teamOf s) (upto 8) w.i && !isCross w.i) = true
     ∧ (inSequence (controlLast (groupOf s).words) (beginning s)).issue.any (fun j => j.trapped.isEmpty && j.held.isEmpty && j.waiting.isEmpty && !j.stalled) = true)
    ∧ (let s := codeOf_ 0x3C001C28 0
       (groupOf s).bad = none
       ∧ (inSequence (controlLast (groupOf s).words) (beginning s)).issue.any (fun j => decide (j.trapped.length = 8) && j.held.isEmpty && j.waiting.isEmpty && !j.stalled) = true
       ∧ (inSequence (controlLast (groupOf s).words) { beginning s with issue := (beginning s).issue.map (fun j => { j with suppressed := upto 8 }) }).issue.map
         Issue.stalled = some false)
    ∧ (groupOf (codeOf_ (0#1 ++ 0#1 ++ 0xE7#8 ++ 0#22) 0)).bad = some (⟨0x02, 0⟩, 0)
    ∧ ((codeOf_ 0x3C400000 0).fetchGroup { teamOf (codeOf_ 0x3C400000 0) with sup := false } 0 0).bad = some (⟨0x03, 0⟩, 0)
    ∧ (groupOf (codeOf_ (1#1 ++ 0#1 ++ 0x01#8 ++ 0#22) (0#1 ++ 0#1 ++ 0x02#8 ++ 0#22))).bad = some (⟨0x01, 0⟩, 0)
    ∧ privileged (.tret hd ⟨0⟩) = true := by
  refine ⟨?_, ?_, ?_, ?_, ?_, ?_⟩ <;> decide
theorem witness_StepRunsTheDecodedWord_packets :
    ((codeOf_ chained0 float1).packetOf (teamOf (codeOf_ chained0 float1)) 0 0 = ([chained0, float1, 0], none))
    ∧ chained0.getLsbD 31 = true ∧ float1.getLsbD 31 = false ∧ takesLiteral chained0 = false ∧ takesLiteral float1 = false
    ∧ (pipeOf (majorOf chained0), pipeOf (majorOf float1)) = (some .integer, some .float)
    ∧ ∀ r ∈ (Instr.iadd ⟨true, false⟩ ⟨5, 6, 71, 0⟩).writes, r ∉ (Instr.faddF32 hd ⟨8, 2, 3, 0⟩).writes := by
  refine ⟨?_, ?_, ?_, ?_, ?_, ?_, ?_⟩ <;> decide

/-! A step, memory, and a trap, worked by hand from the rules. -/

/-- FIPS 180-4's example: SHA-384 of "abc". -/
theorem test_sha384 : sha384 [0x61, 0x62, 0x63] =
    (toBytes 0xcb00753f45a35e8bb5a03d699ac65007272c32ab0eded1631a8b605a43ff5bed8086072ba1e7cc2358baeca134c825a7 48).reverse := by
  decide +kernel


/-- MOVI v5, 33 as the first instruction: v5 of every thread, PC 4 (R184, R37). -/
theorem test_step_movi :
    (match step (State.reset.withFetchWord 32 (0#1 ++ 0#1 ++ 0x25#8 ++ 5#6 ++ 0#6 ++ 33#7 ++ 0#3).toNat) with
      | .next u => (u.teams.flatMap Team.threads).map (fun x => (x.regs.get 5, x.pc))
      | _ => []) = List.replicate 8 (33, 4) := by decide +kernel
/-- STG.B32 of 0x11223344 at offset 64 of buffer 0, applied: its bytes, least significant first (R215, R8). -/
theorem test_stg :
    (let s := loadedState.mapTeam 2 (fun t => { t with threads := t.threads.map (fun x => { x with regs := x.regs.set 1 0x11223344 }) })
     let s : State := { s with view := s.teams, issue := some (issueOf [5] false) }
     match exec (.stgB32 hd ⟨1, 0, 3, 0, 0, some 64⟩) s with
     | .next u => (match exec (.storeApply ((u.accs.map Acc.id).headD 0)) u with
        | .next w => w.dieBytes 0 spot 4
        | _ => [])
     | _ => []) = [0x44, 0x33, 0x22, 0x11] := by decide +kernel
/-- ATOM ADD .I32 of 5 to a word that holds 7: the word holds 12, the result on its way is 7 (Table 9-5). -/
theorem test_atomic_add :
    (let s := accState [{ (acc 4 (.atomic 0 0 5 0) 0) with dest := [9] }]
     let s : State := { s with mem := (upto 4).foldl (fun m k => putByte m (spot + k) (if k = 0 then 7 else 0)) s.mem }
     let s := withThread5 s (fun x => { x with pend := [⟨4, [(9, 0)], false, 0, false, false⟩] })
     match exec (.atomicApply 4) s with
     | .next u => (u.dieBytes 0 spot 4, (thread5 u).pend.flatMap Pend.regs)
     | _ => ([], [])) = ([12, 0, 0, 0], [(9, 7)]) := by decide
/-- TRAP 9 in thread 5 with a handler armed at 0x100: v60 to v63 hold the code 0xC9, the replay PC, aux; the thread is pooled at
the handler (R349, R350). -/
theorem test_trap :
    (let u := armed.takeTraps 2 (fun _ => 8) [⟨5, 0xC9, 0x1122334455667788, 8, false⟩]
     ((upto 4).map (fun k => (thread5 u).regs.get (60 + k)), (thread5 u).pc, (thread5 u).pooled)) =
      ([0xC9, 8, 0x55667788, 0x11223344], 0x100, true) := by decide

/-! ### asyth (07, 08, 09, 10, 11 and 15) -/

/-- The word and literal of one line at an address, with the labels of Examples 7-3 and 8-3. -/
def asm (pc : Nat) (t : String) : Option (Word × Option Word) :=
  (statementOf t.toList).bind (fun st => (st.assemble ⟨[("top", 12), ("step", 0x30), ("out", 0x24)], [], []⟩ pc).toOption)

/-- Examples 7-3, 8-3, 9-3, 10-3, 11-3 and 15-1. -/
theorem test_asm_load : asm 12 "LDG.B32 v3, [s8 + v2] !" = some (0x61032010, none) := by decide
theorem test_asm_branch : asm 28 "(g1)    BRA.RG  top" = some (0x287FFFE1, none) := by decide
theorem test_asm_chain : asm 16 "FADD.F32 v5, v5, v3 &" = some (0x90051418, none) := by decide
theorem test_asm_literal : asm 0 "IADDI   v7, v7, 100000" = some (0x07471E00, some 0x186A0) := by decide
theorem test_asm_leave : asm 8 "(g2) LEAVE j1-j2, out" = some (0x2B04803A, none) := by decide
theorem test_asm_special : asm 20 "MOVS.B64 v10, CYC" = some (0x098A0478, none) := by decide
theorem test_asm_uniform : asm 40 "SADD s10, s4, 1000" = some (0x0A8504FE, some 0x3E8) := by decide
theorem test_asm_acquire : asm 0 "LDG.ACQ.DIE.B32 v6, [s9]" = some (0x21062650, none) := by decide
theorem test_asm_unit : asm 0 "STG.B64 v10, [s8 + 16]" = some (0x228A2110, none) := by decide
theorem test_asm_gap : asm 0 "STB v8, [s6 + v1], 4" = some (0x230A1808, none) := by decide
theorem test_asm_cas : asm 0 "ATOM.CAS.AR.DIE.W32 v4, [s2]" = some (0x25442FA8, none) := by decide
theorem test_asm_rounding : asm 0 "FADD.RZ.F16 v5, v5, v6" = some (0x13050D68, none) := by decide
theorem test_asm_convert : asm 0 "CVT.I32.RD.F32 v3, v7" = some (0x17830F58, none) := by decide
theorem test_asm_record : asm 0 "(g1) ENQX s12, [v6], 40" = some (0x38860C49, none) := by decide
theorem test_asm_trap : asm 0 "(g1) TRAP 5, v7" = some (0x3C001C29, none) := by decide
/-- A suffix out of order (R175), a VD destination that is not the first source (R176), and a float constant (R174). -/
theorem test_asm_order : asm 0 "FADD.F16.RZ v5, v5, v6" = none := by decide
theorem test_asm_two_sources : asm 0 "FADD.RZ.F16 v5, v4, v6" = none := by decide
theorem test_asm_real : asm 0 "MOVI v5, 1.5" = some (0x09450200, some 0x3FC00000) := by decide

/-- An IADDI with a literal that would fall in word 2 moves to the next packet and its label with it: a NOP fills word 2, and
the BRA at 20 goes back two words (R178 rules 3 and 4). -/
theorem test_asm_packing :
    (asyth false (["  .entry e", "  NOP", "  NOP", "top: IADDI v7, v7, 100000", "  BRA top", "  .end"].map String.toList)).toOption.map
        (fun os => os.map (fun o => o.words.take 6)) =
      some [[0, 0, 0, 0x07471E00, 0x000186A0, 0x283FFFF0]] := by decide
/-- Node numbers: 1 is given, so the others take 0 and 2 (R291). -/
theorem test_asm_nodes :
    (let d (n : Option Nat) : NodeDecl := ⟨"n", .plain, n, none, 8, 8, 1, 1, 0, 0, 0, false, false, false, [], []⟩
     (numberNodes [1] [d none, d (some 1), d none]).map (fun p => p.2)) = [0, 1, 2] := by decide
/-- Example 7-1: the FADD reads the loaded v3 before a marker; with the marker nothing is reported (R164). -/
theorem test_check_late : breaches [0x21032010, 0x10051418, 0x2C000000] [0] 8 = [.late 0 4] := by decide
theorem test_check_marked : breaches [0x61032010, 0x10051418, 0x2C000000] [0] 8 = [] := by decide
/-- An SMOV behind a guarded branch, and an SMOV chained with a load (R164 items 2 and 4). -/
theorem test_check_diverged : breaches [0x28400001, 0x0C88FF00, 0x5, 0x2C000000, 0, 0] [0] 8 = [.diverged 0 4] := by decide
theorem test_check_chained : breaches [0x8C88FF00, 5, 0x21032010, 0x2C000000, 0, 0] [0] 8 = [.chained 0 8] := by decide
/-- A LOOP at level 1 of an object with DEPTH 1 (R400). -/
theorem test_check_depth : (tooDeep [0x29C00000, 0x29C00000, 0x2C000000] 0 1, tooDeep [0x29C00000, 0x29C00000, 0x2C000000] 0 2) =
    (some 4, none) := by decide

end Sys2Proof.Tests
end

/-! # Regrouping (spec chapter 02): the join records and the placement actions of a cycle

The obligations write a change of a team as `onThread`, `onSheaf`, `placing`, `absorbing`, `dividing` and `exchanging`, where the
model has `mapThread`, `mapSheaf`, `placeSet`, `absorb`, `dissolve` and `exchange`. The first parts prove these pairs equal, once
each; the later parts take a completion (R44), a cycle's sequence of actions (R47) and the join words (R42, R43, R45) in turn. -/

section

namespace Sys2Proof.Proofs

open Sys2Proof.Machine Sys2Proof.Claims

variable {α : Type}

/-! ## Sorting by a key, and distinct elements -/

theorem insertBy_perm (key : α → List Nat) (x : α) (l : List α) : (insertBy key x l).Perm (x :: l) := by
  induction l with
  | nil => exact .refl _
  | cons y l ih =>
    unfold insertBy
    split
    · exact .refl _
    · exact (ih.cons y).trans (.swap x y l)

theorem foldl_insertBy_perm (key : α → List Nat) (l acc : List α) :
    (l.foldl (fun acc x => insertBy key x acc) acc).Perm (acc ++ l) := by
  induction l generalizing acc with
  | nil => rw [List.foldl_nil, List.append_nil]
  | cons x l ih => exact (ih _).trans (((insertBy_perm key x acc).append_right l).trans List.perm_middle.symm)

theorem sortBy_perm (key : α → List Nat) (l : List α) : (sortBy key l).Perm l := foldl_insertBy_perm key l []

theorem pairwise_insertBy {key : α → List Nat} (x : α) {l : List α} (h : l.Pairwise (fun a b => ¬ key b < key a)) :
    (insertBy key x l).Pairwise (fun a b => ¬ key b < key a) := by
  induction l with
  | nil => exact List.pairwise_singleton _ _
  | cons y l ih =>
    obtain ⟨hy, hl⟩ := List.pairwise_cons.mp h
    unfold insertBy
    split
    case isTrue hxy =>
      refine List.pairwise_cons.mpr ⟨fun z hz => ?_, h⟩
      rcases List.mem_cons.mp hz with rfl | hz
      · exact List.lt_asymm hxy
      · exact fun hzx => hy z hz (List.lt_trans hzx hxy)
    case isFalse hxy =>
      refine List.pairwise_cons.mpr ⟨fun z hz => ?_, ih hl⟩
      rcases List.mem_cons.mp ((insertBy_perm key x l).mem_iff.mp hz) with rfl | hz
      · exact hxy
      · exact hy z hz

theorem pairwise_sortBy (key : α → List Nat) (l : List α) : (sortBy key l).Pairwise (fun a b => ¬ key b < key a) :=
  foldl_keeps (P := fun l : List α => l.Pairwise (fun a b => ¬ key b < key a)) (fun _ x h => pairwise_insertBy x h) l _ .nil

/-- An element joined to a list that does not hold it yet, as `distinct` does. -/
theorem mem_snoc_new [DecidableEq α] {l : List α} {x a : α} :
    (a ∈ if l.contains x then l else l ++ [x]) ↔ a ∈ l ∨ a = x := by
  split
  case isTrue hx =>
    have hx : x ∈ l := List.contains_iff_mem.mp hx
    exact ⟨.inl, fun h => h.elim id (fun e => e ▸ hx)⟩
  case isFalse => rw [List.mem_append, List.mem_singleton]

theorem nodup_snoc_new [DecidableEq α] {l : List α} (x : α) (h : l.Nodup) :
    (if l.contains x then l else l ++ [x]).Nodup := by
  split
  case isTrue => exact h
  case isFalse hx =>
    refine List.nodup_append.mpr ⟨h, List.pairwise_singleton _ x, fun a ha b hb hab => hx (List.contains_iff_mem.mpr ?_)⟩
    rwa [← List.mem_singleton.mp hb, ← hab]

theorem mem_foldl_distinct [DecidableEq α] (l acc : List α) (a : α) :
    a ∈ l.foldl (fun acc x => if acc.contains x then acc else acc ++ [x]) acc ↔ a ∈ acc ∨ a ∈ l := by
  induction l generalizing acc with
  | nil => rw [List.foldl_nil, List.mem_nil_iff, or_false]
  | cons x l ih => rw [List.foldl_cons, ih, mem_snoc_new, List.mem_cons, or_assoc]

theorem mem_distinct [DecidableEq α] (l : List α) (a : α) : a ∈ distinct l ↔ a ∈ l := by
  rw [distinct, mem_foldl_distinct, List.mem_nil_iff, false_or]

theorem nodup_distinct [DecidableEq α] (l : List α) : (distinct l).Nodup :=
  foldl_keeps (P := List.Nodup) (fun _ x h => nodup_snoc_new x h) l _ .nil

/-! ## Lists by index -/

theorem map_upto_getD (l : List α) (d : α) (f : Nat → α → α) :
    (upto l.length).map (fun k => f k (l.getD k d)) = l.mapIdx f := by
  refine List.ext_getElem (by simp [upto]) (fun k hk _ => ?_)
  have hk : k < l.length := by simpa [upto] using hk
  simp [upto, hk]

/-- Threads changed one after another by a change that does nothing the second time. -/
theorem foldl_mapThread_of_idempotent {f : Thread → Thread} (hf : ∀ x, f (f x) = f x) (ks : List Nat) (t : Team) :
    ks.foldl (fun t k => t.mapThread k f) t = t.mapThreads (fun i x => if i ∈ ks then f x else x) := by
  induction ks generalizing t with
  | nil => simp [Team.mapThreads_self]
  | cons k ks ih =>
    rw [List.foldl_cons, ih, Team.mapThread_eq, Team.mapThreads_mapThreads]
    congr 1
    funext i x
    by_cases hk : i = k <;> by_cases hi : i ∈ ks <;> simp [hk, hi, hf]

/-! ## Changes of a team, and the places of its threads (R50, R52) -/

theorem mapThread_eq_onThread (t : Team) (k : Nat) (f : Thread → Thread) : t.mapThread k f = onThread k f t :=
  Team.mapThread_eq t k f

theorem mapSheaf_eq_onSheaf (t : Team) (h : Nat) (f : Sheaf → Sheaf) : t.mapSheaf h f = onSheaf h f t := by
  simp only [Team.mapSheaf, onSheaf, modifyAt_eq_mapIdx]

theorem freeLanes_eq_lanesFree (t : Team) (k : Nat) : t.freeLanes k = lanesFree t k := by
  refine List.filter_congr (fun l _ => ?_)
  rw [Bool.eq_iff_iff]
  simp only [Team.usedLanes, Bool.not_eq_true', ← Bool.not_eq_true, List.contains_iff_mem, List.mem_filterMap, List.any_eq_true,
    beq_iff_eq]
  refine not_congr (exists_congr fun x => and_congr_right fun _ => ?_)
  rcases x.place with _ | ⟨a, b⟩ <;> simp

theorem putIn_eq_inSlot (t : Team) (x k l : Nat) : t.putIn x k l = inSlot x k l t := by
  rw [Team.putIn, inSlot, mapThread_eq_onThread]
  congr 1
  funext y
  cases hw : y.wait <;> simp [Thread.pooled, hw]

theorem placeSet_eq_placing (t : Team) (k : Nat) (xs : List Nat) : t.placeSet k xs = placing k xs t := by
  simp only [Team.placeSet, placing, freeLanes_eq_lanesFree, putIn_eq_inSlot, List.contains_iff_mem, Team.thread?]
  congr 1
  funext u x
  cases u.threads[x]? with
  | none => rfl
  | some y => cases hp : y.place <;> cases lanesFree u k <;> simp [hp]

theorem absorb_eq_absorbing (t : Team) (k : Nat) (p : BitVec 64) : t.absorb k p = absorbing k p t := by
  rw [Team.absorb, absorbing, placeSet_eq_placing, freeLanes_eq_lanesFree]
  rfl

theorem set_place_self {x : Thread} {p : Nat × Nat} (h : x.place = some p) : { x with place := some p } = x := by rw [← h]

/-- Step 3 of R44: the two descriptions agree on each thread, also where m already has its home lane. -/
theorem exchange_eq_exchanging (t : Team) (h m : Nat) : t.exchange h m = exchanging h m t := by
  unfold Team.exchange exchanging Team.thread?
  cases hm : t.threads[m]? with
  | none => rfl
  | some y =>
    cases hy : y.place with
    | none => simp [hy]
    | some p =>
      have hplace : ∀ i x, t.threads[i]? = some x → i = m → x.place = some p := by
        rintro i x hx rfl
        rw [← hy, Option.some.inj (hx.symm.trans hm)]
      simp only [Option.map_some, Option.bind_some, hy]
      split
      case isTrue hp =>
        subst hp
        refine (congrArg (fun l => ({ t with threads := l } : Team)) (List.mapIdx_eq_iff.mpr fun i => ?_)).symm
        cases hi : t.threads[i]? with
        | none => rfl
        | some x =>
          refine congrArg some ?_
          split
          · next e => exact (set_place_self (hplace i x hi e)).symm
          · dsimp only
            split
            · next e => exact (set_place_self e).symm
            · rfl
      case isFalse hp =>
        simp only [Team.mapThread, modifyAt_eq_mapIdx]
        congr 1
        refine List.ext_getElem? fun i => ?_
        simp only [List.getElem?_mapIdx, List.getElem?_map]
        cases hi : t.threads[i]? with
        | none => rfl
        | some x =>
          by_cases hm : i = m
          · have hne : x.place ≠ some (h, m % t.width) := fun e => hp (Option.some.inj ((hplace i x hi hm).symm.trans e))
            simp [hm, hne]
          · simp [hm]

/-! ## Groups by next PC (R44, R51, R52) -/

theorem atPc_eq_filter (t : Team) (tids : List Nat) (p : BitVec 64) :
    t.atPc tids p = tids.filter (fun x => (t.threads[x]?).any (fun y => y.pc == p)) := by
  refine List.filter_congr fun x _ => ?_
  unfold Team.thread?
  cases t.threads[x]? <;> rfl

theorem not_poolTakes_iff (t : Team) (p : BitVec 64) :
    (!t.poolTakes p) = true ↔ p ∉ t.poolPcs ∧ 16 ≤ t.poolPcs.length := by
  simp [Team.poolTakes]

/-- What `Team.dissolve` does with the group of one PC, in a team of width w. -/
def dissolveAt (w : Nat) (tids : List Nat) (cycle : Nat) (q : Team × List (BitVec 64)) (p : BitVec 64) :
    Team × List (BitVec 64) :=
  if w / 2 ≤ (q.1.atPc tids p).length ∨ !q.1.poolTakes p then (q.1, q.2 ++ [p])
  else ((q.1.atPc tids p).foldl (fun u x => u.mapThread x (fun y => { y with wait := .pooled (cycle + 1), place := none })) q.1, q.2)

theorem dissolve_eq_foldl (t : Team) (tids : List Nat) (cycle : Nat) :
    t.dissolve tids cycle = (t.pcsOf tids).foldl (dissolveAt t.width tids cycle) (t, []) := rfl

theorem foldl_dissolveAt (tids : List Nat) (cycle : Nat) (ps kept : List (BitVec 64)) {u : Team} {w : Nat} (hw : u.width = w) :
    ps.foldl (dissolveAt w tids cycle) (u, kept) =
      ((dividing tids (cycle + 1) ps u).1, kept ++ (dividing tids (cycle + 1) ps u).2) := by
  induction ps generalizing u kept with
  | nil => simp [dividing]
  | cons p ps ih =>
    simp only [List.foldl_cons, dissolveAt, dividing, not_poolTakes_iff, atPc_eq_filter, mapThread_eq_onThread, hw]
    split
    · simp [ih _ hw]
    · refine ih _ (foldl_keeps (P := fun u : Team => u.width = w) (fun u x hu => ?_) _ _ hw)
      exact hu

theorem nextWords_pcsOf (t : Team) (tids : List Nat) : NextWords t tids (t.pcsOf tids) := by
  refine ⟨?_, fun p => ?_⟩
  · have hs := pairwise_sortBy (fun p : BitVec 64 => [p.toNat]) (distinct (tids.filterMap fun x => (t.thread? x).map Thread.pc))
    have hd : (t.pcsOf tids).Nodup := (sortBy_perm _ _).nodup_iff.mpr (nodup_distinct _)
    refine (hs.and hd).imp fun {p q} ⟨hle, hne⟩ => ?_
    have : p.toNat ≠ q.toNat := fun e => hne (BitVec.eq_of_toNat_eq e)
    have : ¬ q.toNat < p.toNat := fun hlt => hle (List.cons_lt_cons_iff.mpr (.inl hlt))
    omega
  · rw [Team.pcsOf, (sortBy_perm _ _).mem_iff, mem_distinct, List.mem_filterMap]
    rfl

theorem nodup_of_ascending {ps : List (BitVec 64)} (h : ps.Pairwise (fun a b => a.toNat < b.toNat)) : ps.Nodup :=
  h.imp fun {a b} hab e => by rw [e] at hab; exact Nat.lt_irrefl _ hab

/-- Two ascending lists of the same PCs are one. -/
theorem eq_pcsOf_of_nextWords {t : Team} {tids : List Nat} {ps : List (BitVec 64)} (h : NextWords t tids ps) :
    ps = t.pcsOf tids := by
  obtain ⟨hps, hmem⟩ := h
  obtain ⟨hpcs, hmem'⟩ := nextWords_pcsOf t tids
  have hperm : ps.Perm (t.pcsOf tids) := (List.perm_ext_iff_of_nodup (nodup_of_ascending hps) (nodup_of_ascending hpcs)).mpr
    fun p => (hmem p).trans (hmem' p).symm
  exact hperm.eq_of_pairwise (fun a b _ _ hab hba => absurd hab (Nat.lt_asymm hba)) hps hpcs

theorem dissolve_eq_dividing {t : Team} {tids : List Nat} {ps : List (BitVec 64)} (h : NextWords t tids ps) (cycle : Nat) :
    t.dissolve tids cycle = dividing tids (cycle + 1) ps t := by
  rw [dissolve_eq_foldl, ← eq_pcsOf_of_nextWords h, foldl_dissolveAt tids cycle ps [] rfl, List.nil_append]

/-! ## The completion of a record (R44) -/

/-- The team as a completion begins: record k of home sheaf h is empty, and its members go on, no earlier than 2 cycles later. -/
def joinEmptied (t : Team) (h k cycle : Nat) (j : JoinRec) : Team :=
  onSheaf h (fun f => { f with joins := f.joins.mapIdx (fun i j => if i = k then ⟨[], [], none⟩ else j) })
    { t with threads := t.threads.mapIdx (fun i x => if i ∈ j.a then
        { x with wait := .none, earliest := max x.earliest (cycle + 2) } else x) }

theorem joinEmptied_eq (t : Team) (h k cycle : Nat) (j : JoinRec) :
    j.a.foldl (fun t x => t.mapThread x (fun y => { y with wait := .none, earliest := max y.earliest (cycle + 2) }))
      (t.mapSheaf h (fun f => { f with joins := modifyAt f.joins k (fun _ => ⟨[], [], none⟩) })) = joinEmptied t h k cycle j := by
  rw [foldl_mapThread_of_idempotent (fun x => by simp), mapSheaf_eq_onSheaf]
  simp only [modifyAt_eq_mapIdx]
  rfl

/-- Which member is not in the pool. -/
def outOfPool (u : Team) (x : Nat) : Bool :=
  (u.threads[x]?).any (fun y => match y.wait with | .pooled _ => false | _ => true)

theorem outOfPool_eq (u : Team) (x : Nat) : ((u.thread? x).map (fun y => !y.pooled)).getD false = outOfPool u x := by
  unfold outOfPool Team.thread?
  cases u.threads[x]? with
  | none => rfl
  | some y => cases hw : y.wait <;> simp [Thread.pooled, hw]

theorem outOfPool_joinEmptied (t : Team) (h k cycle : Nat) {j : JoinRec} {x : Nat} (hx : x ∈ j.a) :
    outOfPool (joinEmptied t h k cycle j) x = decide (x < t.threads.length) := by
  simp only [outOfPool, joinEmptied, onSheaf, List.getElem?_mapIdx, hx, if_true]
  by_cases hl : x < t.threads.length <;> simp [hl]

theorem exchanging_of_length_le {u : Team} {m : Nat} (h : Nat) (hm : u.threads.length ≤ m) : exchanging h m u = u := by
  simp [exchanging, List.getElem?_eq_none hm]

theorem length_threads_exchanging (h m : Nat) (u : Team) : (exchanging h m u).threads.length = u.threads.length := by
  unfold exchanging
  split <;> simp

/-- Numbers of no thread take no part in the exchanges. -/
theorem foldl_exchanging_filter (h : Nat) {p : Nat → Bool} {n : Nat} (xs : List Nat) (hp : ∀ x ∈ xs, p x = decide (x < n))
    {u : Team} (hn : u.threads.length = n) :
    (xs.filter p).foldl (fun u x => exchanging h x u) u = xs.foldl (fun u x => exchanging h x u) u := by
  induction xs generalizing u with
  | nil => rfl
  | cons x xs ih =>
    have ih := @ih (fun y hy => hp y (List.mem_cons_of_mem x hy))
    by_cases hx : x < n
    · rw [List.filter_cons_of_pos (by simp [hp, hx])]
      exact ih ((length_threads_exchanging h x u).trans hn)
    · rw [List.filter_cons_of_neg (by simp [hp, hx]), List.foldl_cons, exchanging_of_length_le h (by omega)]
      exact ih hn

section
variable {t : Team} {h k : Nat} {f : Sheaf} {j : JoinRec} (hf : t.sheaves[h]? = some f) (hj : f.joins[k]? = some j)
include hf hj

theorem joinDone_of_record (cycle : Nat) :
    t.joinDone h k cycle =
      (let u := joinEmptied t h k cycle j
       let rg := (j.last.map Prod.snd).getD false
       let q := if rg then u.dissolve j.a cycle else (u, u.pcsOf j.a)
       let v := (j.a.filter (outOfPool q.1)).foldl (fun u x => exchanging h x u) q.1
       if rg then q.2.foldl (fun u p => absorbing h p u) v else v) := by
  have hr : (t.sheaves[h]?).bind (fun f => f.joins[k]?) = some j := by simp [hf, hj]
  simp only [Team.joinDone, hr, joinEmptied_eq, exchange_eq_exchanging, absorb_eq_absorbing, outOfPool_eq]
  cases j.last <;> rfl

theorem joinDone_of_not_rg (cycle : Nat) (hl : ∀ m, j.last ≠ some (m, true)) :
    t.joinDone h k cycle = j.a.foldl (fun u x => exchanging h x u) (joinEmptied t h k cycle j) := by
  have hrg : (j.last.map Prod.snd).getD false = false := by
    rcases e : j.last with _ | ⟨m, _ | _⟩
    · rfl
    · rfl
    · exact absurd e (hl m)
  simp only [joinDone_of_record hf hj, hrg, Bool.false_eq_true, if_false]
  exact foldl_exchanging_filter h j.a (fun x hx => outOfPool_joinEmptied t h k cycle hx) (by simp [joinEmptied, onSheaf])

theorem joinDone_of_rg (cycle : Nat) {m : Nat} {ps : List (BitVec 64)} (hl : j.last = some (m, true))
    (hps : NextWords (joinEmptied t h k cycle j) j.a ps) :
    t.joinDone h k cycle =
      (let q := dividing j.a (cycle + 1) ps (joinEmptied t h k cycle j)
       q.2.foldl (fun u p => absorbing h p u) ((j.a.filter (outOfPool q.1)).foldl (fun u x => exchanging h x u) q.1)) := by
  simp only [joinDone_of_record hf hj, hl, Option.map_some, Option.getD_some, if_true, dissolve_eq_dividing hps]

end

/-! ## The placement actions of a cycle (R47) -/

theorem complete_iff (j : JoinRec) : j.complete = true ↔ j.e ≠ [] ∧ j.a = j.e := by simp [JoinRec.complete]

theorem settles_iff (j : JoinRec) (late : List Nat) :
    j.settles late = true ↔ (j.e ≠ [] ∧ j.a = j.e) ∧ ∀ x ∈ j.a, x ∉ late := by
  simp [JoinRec.settles, complete_iff]

/-- The completion of join slot k of home sheaf h, if it is due. -/
def joinAction (late : List Nat) (h : Nat) (f : Sheaf) (k : Nat) : Option Action :=
  (f.joins[k]?).bind (fun j => if j.settles late then some (.join h k ((j.last.map Prod.fst).getD 0)) else none)

/-- The completions of a home sheaf, and of a team. -/
def sheafActions (t : Team) (late : List Nat) (h : Nat) : List Action :=
  ((t.sheaves[h]?).map (fun f => (upto f.joins.length).filterMap (joinAction late h f))).getD []
def joinActions (t : Team) (late : List Nat) : List Action := (upto t.sheaves.length).flatMap (sheafActions t late)

theorem actions_eq (t : Team) (late : List Nat) :
    t.actions late = sortBy Action.order (joinActions t late ++ t.regroups.map Action.regroup) := by
  unfold Team.actions joinActions sheafActions joinAction
  refine congrArg (fun g => sortBy Action.order ((upto t.sheaves.length).flatMap g ++ t.regroups.map Action.regroup))
    (funext fun h => ?_)
  cases t.sheaves[h]? with
  | none => rfl
  | some f =>
    refine congrArg (fun g => (upto f.joins.length).filterMap g) (funext fun k => ?_)
    cases f.joins[k]? <;> rfl

theorem joinAction_eq_some_iff {late : List Nat} {h k : Nat} {f : Sheaf} {a : Action} :
    joinAction late h f k = some a ↔
      ∃ j, f.joins[k]? = some j ∧ j.settles late = true ∧ a = .join h k ((j.last.map Prod.fst).getD 0) := by
  rw [joinAction, Option.bind_eq_some_iff]
  exact exists_congr fun j => and_congr_right fun _ => by rw [Option.ite_none_right_eq_some, Option.some.injEq, eq_comm (b := a)]

theorem mem_sheafActions {t : Team} {late : List Nat} {h : Nat} {a : Action} :
    a ∈ sheafActions t late h ↔ ∃ f k j, t.sheaves[h]? = some f ∧ f.joins[k]? = some j ∧ j.settles late = true
      ∧ a = .join h k ((j.last.map Prod.fst).getD 0) := by
  unfold sheafActions
  cases hf : t.sheaves[h]? with
  | none => simp
  | some f =>
    rw [Option.map_some, Option.getD_some, List.mem_filterMap]
    constructor
    · rintro ⟨k, -, hk⟩
      obtain ⟨j, hj⟩ := joinAction_eq_some_iff.mp hk
      exact ⟨f, k, j, rfl, hj⟩
    · rintro ⟨_, k, j, ⟨⟩, hj, hs⟩
      exact ⟨k, List.mem_range.mpr (List.getElem?_eq_some_iff.mp hj).1, joinAction_eq_some_iff.mpr ⟨j, hj, hs⟩⟩

theorem mem_joinActions {t : Team} {late : List Nat} {a : Action} :
    a ∈ joinActions t late ↔ ∃ h f k j, t.sheaves[h]? = some f ∧ f.joins[k]? = some j ∧ j.settles late = true
      ∧ a = .join h k ((j.last.map Prod.fst).getD 0) := by
  simp only [joinActions, List.mem_flatMap, mem_sheafActions, upto, List.mem_range]
  exact exists_congr fun h => ⟨fun hh => hh.2, fun ⟨f, k, j, hf, hs⟩ => ⟨(List.getElem?_eq_some_iff.mp hf).1, f, k, j, hf, hs⟩⟩

theorem actions_perm (t : Team) (late : List Nat) : (t.actions late).Perm (joinActions t late ++ t.regroups.map Action.regroup) :=
  actions_eq t late ▸ sortBy_perm _ _

theorem join_mem_actions {t : Team} {late : List Nat} {h k m : Nat} :
    .join h k m ∈ t.actions late ↔ ∃ f j, t.sheaves[h]? = some f ∧ f.joins[k]? = some j ∧ j.settles late = true
      ∧ m = (j.last.map Prod.fst).getD 0 := by
  simp only [(actions_perm t late).mem_iff, List.mem_append, mem_joinActions, List.mem_map, reduceCtorEq, and_false, exists_false,
    or_false, Action.join.injEq]
  constructor
  · rintro ⟨h', f, k', j, hf, hj, hs, rfl, rfl, rfl⟩
    exact ⟨f, j, hf, hj, hs, rfl⟩
  · rintro ⟨f, j, hf, hj, hs, rfl⟩
    exact ⟨h, f, k, j, hf, hj, hs, rfl, rfl, rfl⟩

theorem filterMap_eq_of_forall {β : Type} {f g : α → Option β} (h : ∀ a, f a = g a) (l : List α) :
    l.filterMap f = l.filterMap g := by
  rw [funext h]

/-- The regroup event of an action, and the record an action completes. -/
def eventOf : Action → Option RegroupEv
  | .regroup e => some e
  | .join _ _ _ => none
def recordOf : Action → Option (Nat × Nat)
  | .join h k _ => some (h, k)
  | .regroup _ => none

theorem events_of_actions (t : Team) (late : List Nat) : ((t.actions late).filterMap eventOf).Perm t.regroups := by
  have hj : (joinActions t late).filterMap eventOf = [] := by
    refine List.filterMap_eq_nil_iff.mpr fun a ha => ?_
    obtain ⟨h, f, k, j, -, -, -, rfl⟩ := mem_joinActions.mp ha
    rfl
  have hr : (t.regroups.map Action.regroup).filterMap eventOf = t.regroups := by
    rw [List.filterMap_map]
    exact List.filterMap_some
  simpa [List.filterMap_append, hj, hr] using (actions_perm t late).filterMap eventOf

theorem nodup_records_of_sheafActions (t : Team) (late : List Nat) (h : Nat) :
    ((sheafActions t late h).filterMap recordOf).Nodup := by
  unfold sheafActions
  cases t.sheaves[h]? with
  | none => exact .nil
  | some f =>
    rw [Option.map_some, Option.getD_some, List.filterMap_filterMap]
    refine List.Pairwise.filterMap _ (fun k k' hne b hb b' hb' e => hne ?_) List.nodup_range
    rw [Option.bind_eq_some_iff] at hb hb'
    obtain ⟨a, ha, hb⟩ := hb
    obtain ⟨a', ha', hb'⟩ := hb'
    obtain ⟨j, -, -, rfl⟩ := joinAction_eq_some_iff.mp ha
    obtain ⟨j', -, -, rfl⟩ := joinAction_eq_some_iff.mp ha'
    exact congrArg Prod.snd (Option.some.inj (hb.trans ((congrArg some e).trans hb'.symm)))

theorem fst_of_mem_records {t : Team} {late : List Nat} {h : Nat} {p : Nat × Nat}
    (hp : p ∈ (sheafActions t late h).filterMap recordOf) : p.1 = h := by
  obtain ⟨a, ha, hp⟩ := List.mem_filterMap.mp hp
  obtain ⟨f, k, j, -, -, -, rfl⟩ := mem_sheafActions.mp ha
  exact congrArg Prod.fst (Option.some.inj hp).symm

/-- No record completes twice in a cycle. -/
theorem nodup_records_of_actions (t : Team) (late : List Nat) : ((t.actions late).filterMap recordOf).Nodup := by
  refine ((actions_perm t late).filterMap recordOf).nodup_iff.mpr ?_
  have hr : (t.regroups.map Action.regroup).filterMap recordOf = [] := by simp [List.filterMap_map, Function.comp_def, recordOf]
  rw [List.filterMap_append, hr, List.append_nil, joinActions, List.filterMap_flatMap]
  refine List.pairwise_flatMap.mpr ⟨fun h _ => nodup_records_of_sheafActions t late h,
    List.nodup_range.imp fun {h h'} hne p hp p' hp' e => ?_⟩
  exact hne ((fst_of_mem_records hp).symm.trans ((congrArg Prod.fst e).trans (fst_of_mem_records hp')))

theorem lex_of_triple_not_lt {a b c a' b' c' : Nat} (h : ¬ [a', b', c'] < [a, b, c]) :
    a < a' ∨ a = a' ∧ (b < b' ∨ b = b' ∧ c ≤ c') := by
  simp only [List.cons_lt_cons_iff] at h
  omega

/-- The keys compare slots first, then joins (0) before events (1), then the numbers of threads. -/
theorem inTurnOf_of_order_not_lt {a b : Action} (hab : ¬ b.order < a.order) : inTurnOf a b := by
  cases a with
  | join h k m =>
    cases b with
    | join h' k' n => exact (lex_of_triple_not_lt hab).imp_right (And.imp_right fun hm => by omega)
    | regroup e => exact (lex_of_triple_not_lt hab).imp_right (And.imp_right fun _ => trivial)
  | regroup e =>
    cases b with
    | join h k m => exact (lex_of_triple_not_lt hab).imp_right (And.imp_right fun hm => by omega)
    | regroup e' => exact (lex_of_triple_not_lt hab).imp_right (And.imp_right fun hm => by omega)

theorem actions_inTurn (t : Team) (late : List Nat) : (t.actions late).Pairwise inTurnOf :=
  (actions_eq t late ▸ pairwise_sortBy _ _).imp inTurnOf_of_order_not_lt

/-! ## Words that act in each lane -/

@[simp] theorem reads_tid (iss : Issue) (t : Team) (k : Nat) : (reads iss t k).tid = k := readsOf_tid _ t k

theorem effective_eq_laneTids (iss : Issue) (t : Team) (g : BitVec 3) : effective iss t g = iss.laneTids t g := by
  simp only [effective, Issue.laneTids, Issue.threads, upto, List.filter_filter]
  refine List.filter_congr fun k hk => ?_
  simp [takesEffect, reads, List.mem_range.mp hk, Bool.and_comm, Bool.and_assoc]

theorem eachLane_eq_foldl_effective {s : State} {iss : Issue} {t : Team} (hi : Issuing s iss t) (g : BitVec 3)
    (F : Issue → Team → Reads → State → State) :
    s.eachLane g F = (effective iss t g).foldl (fun u k => F iss t (reads iss t k) u) s := by
  rw [State.eachLane_eq hi.1 hi.2, effective_eq_laneTids]
  rfl

/-- A word that in each lane raises a condition or changes its team. -/
def raiseOrMap (team : Nat) (c : Reads → Option (Nat × DWord)) (f : Reads → Team → Team) (r : Reads) (u : State) : State :=
  match c r with
  | some x => u.raise r.tid x.1 x.2
  | none => u.mapTeam team (f r)

theorem foldl_raiseOrMap {team : Nat} {c : Reads → Option (Nat × DWord)} {f : Reads → Team → Team}
    (hid : ∀ r u, (f r u).id = u.id) (rs : List Reads) {s : State} {i : Issue} (hs : s.issue = some i) :
    rs.foldl (fun u r => raiseOrMap team c f r u) s = { s with
      teams := s.teams.map (fun u => if u.id = team then
        rs.foldl (fun u r => if (c r).isNone then f r u else u) u else u)
      issue := some { i with trapped := i.trapped ++ rs.filterMap (fun r => (c r).map (fun x => ⟨r.tid, x.1, x.2, i.pc, false⟩)) } } := by
  induction rs generalizing s i with
  | nil => simp [← hs]
  | cons r rs ih =>
    rw [List.foldl_cons]
    cases hc : c r with
    | some x =>
      have hr : (raiseOrMap team c f r s).issue = some { i with trapped := i.trapped ++ [⟨r.tid, x.1, x.2, i.pc, false⟩] } := by
        simp [raiseOrMap, hc, hs, State.raise, State.mapIssue]
      rw [ih hr]
      simp [raiseOrMap, hc, State.raise, State.mapIssue]
    | none =>
      have hr : (raiseOrMap team c f r s).issue = some i := by simp [raiseOrMap, hc, hs]
      rw [ih hr]
      simp only [raiseOrMap, hc, State.mapTeam, List.map_map, List.foldl_cons, Option.isNone_none, if_true, List.filterMap_cons,
        Option.map_none]
      congr 1
      refine List.map_congr_left fun u _ => ?_
      by_cases hu : u.id = team <;> simp [hu, hid]

/-- A word whose lanes raise conditions or change the team, each on what the ones before it left, does `lanesDo`. -/
theorem eachLane_eq_lanesDo {s : State} {iss : Issue} {t : Team} (hi : Issuing s iss t) (g : BitVec 3)
    {F : Issue → Team → Reads → State → State} {c : Reads → Option (Nat × DWord)} {f : Reads → Team → Team}
    (hid : ∀ r u, (f r u).id = u.id)
    (hF : ∀ k ∈ effective iss t g, ∀ u, F iss t (reads iss t k) u = raiseOrMap iss.team c f (reads iss t k) u) :
    s.eachLane g F = lanesDo s iss t g c f := by
  have hfold : s.eachLane g F = ((effective iss t g).map (reads iss t)).foldl (fun u r => raiseOrMap iss.team c f r u) s := by
    rw [eachLane_eq_foldl_effective hi, List.foldl_map]
    exact List.foldl_rel (r := Eq) rfl fun k hk u _ e => e ▸ hF k hk u
  rw [hfold, foldl_raiseOrMap hid _ hi.1]
  simp [lanesDo, conditions, List.foldl_map, List.filterMap_map, Function.comp_def]

/-- A word whose lanes all stall, with one at least. -/
theorem eachLane_stalls {s : State} {iss : Issue} {t : Team} (hi : Issuing s iss t) (g : BitVec 3)
    {F : Issue → Team → Reads → State → State} (hne : effective iss t g ≠ [])
    (hF : ∀ k u, F iss t (reads iss t k) u = u.stall) : ∃ i, (s.eachLane g F).issue = some i ∧ i.stalled = true := by
  have hstall : ∀ {u : State} {i : Issue}, u.issue = some i → ∃ j, u.stall.issue = some j ∧ j.stalled = true :=
    fun h => ⟨_, by rw [State.stall_issue, h]; rfl, rfl⟩
  obtain ⟨k, ks, hk⟩ := List.exists_cons_of_ne_nil hne
  simp only [eachLane_eq_foldl_effective hi, hk, List.foldl_cons, hF]
  exact foldl_keeps (P := fun u : State => ∃ i, u.issue = some i ∧ i.stalled = true)
    (fun u _ ⟨_, h, _⟩ => hstall h) ks _ (hstall hi.1)

/-! ## JSET, JOIN and LEAVE (R42, R43, R45) -/

theorem arriveJoin_eq_arriving (u : Team) (k : Nat) (rg : Bool) (r : Reads) :
    u.arriveJoin r.sheaf k r.tid rg = arriving k rg r u := by
  unfold Team.arriveJoin arriving expected
  cases hf : u.sheaves[r.sheaf]? with
  | none => simp
  | some f =>
    have he : (f.joins.getD k ⟨[], [], none⟩).e.contains r.tid = (f.joins[k]?).any (fun j => j.e.contains r.tid) := by
      rw [List.getD_eq_getElem?_getD]
      cases f.joins[k]? <;> rfl
    simp only [Option.bind_some, he, mapThread_eq_onThread, mapSheaf_eq_onSheaf, modifyAt_eq_mapIdx] <;> rfl

theorem arriving_id (k : Nat) (rg : Bool) (r : Reads) (u : Team) : (arriving k rg r u).id = u.id := by
  unfold arriving
  split <;> rfl

theorem add_wordDisp (iss : Issue) {n : Nat} (d : BitVec n) : iss.pc + wordDisp d = displaced iss d := by
  rw [displaced, wordDisp]
  congr 1
  rw [BitVec.shiftLeft_eq_mul_twoPow, BitVec.mul_comm]
  rfl

/-- The effect of a LEAVE in a thread whose target passes. -/
def leaving (iss : Issue) (o : FJ) (r : Reads) (u : Team) : Team :=
  onThread r.tid (fun x => { x with pc := displaced iss o.disp }) (onSheaf r.sheaf (released r.tid o.ja.toNat o.jb.toNat) u)

theorem leave_lane_eq_leaving (iss : Issue) (u : State) (o : FJ) (r : Reads) (n : Nat) :
    (u.mapSheaf n r.sheaf (fun f => { f with joins := (upto f.joins.length).map (fun k =>
      let j := f.joins.getD k ⟨[], [], none⟩
      if o.ja.toNat ≤ k ∧ k ≤ o.jb.toNat then j.remove r.tid else j) })).setPc n r.tid (displaced iss o.disp)
      = u.mapTeam n (leaving iss o r) := by
  rw [State.setPc, State.mapThread, State.mapSheaf, State.mapTeam_mapTeam (h := fun _ => by rfl)]
  simp only [mapThread_eq_onThread, mapSheaf_eq_onSheaf,
    map_upto_getD _ _ (fun k (j : JoinRec) => if o.ja.toNat ≤ k ∧ k ≤ o.jb.toNat then j.remove r.tid else j)]
  rfl

@[simp] theorem regroupEvent_issue (u : State) : u.regroupEvent.issue = u.issue := by
  unfold State.regroupEvent
  split <;> rfl

section
variable {s : State} {iss : Issue} {t : Team} (hi : Issuing s iss t)
include hi

theorem execJset_eq (h : Hdr) (o : FJ) :
    execJset h o s = .next (lanesDo s iss t o.g (fun _ => none) (fun r => onSheaf r.sheaf (expecting r.tid o.ja.toNat))) := by
  refine congrArg Host.Outcome.next (eachLane_eq_lanesDo hi o.g (fun _ _ => by rfl) fun k _ u => ?_)
  simp only [raiseOrMap, State.mapSheaf, mapSheaf_eq_onSheaf, modifyAt_eq_mapIdx]
  rfl

theorem joinAt_eq_lanesDo (g : BitVec 3) (k : BitVec 4) (rg : Bool) :
    s.joinAt g k rg = lanesDo s iss t g (fun _ => none) (arriving k.toNat rg) := by
  refine eachLane_eq_lanesDo hi g (arriving_id _ _) fun x _ u => ?_
  simp only [raiseOrMap, arriveJoin_eq_arriving]

theorem leaveTo_of_served (o : FJ) (hs : ∀ k ∈ effective iss t o.g, s.fetchFree t (displaced iss o.disp) = true) :
    s.leaveTo o = lanesDo s iss t o.g (badJump s t (fun _ => displaced iss o.disp)) (leaving iss o) := by
  refine eachLane_eq_lanesDo hi o.g (fun _ _ => rfl) fun k hk u => ?_
  simp only [add_wordDisp, hs k hk, Bool.not_true, Bool.false_eq_true, if_false, raiseOrMap, badJump]
  cases s.badTarget t (reads iss t k).tid (displaced iss o.disp) with
  | some e => rfl
  | none => exact leave_lane_eq_leaving iss u o _ _

theorem leaveTo_of_not_served (o : FJ) (hne : effective iss t o.g ≠ []) (hs : s.fetchFree t (displaced iss o.disp) = false) :
    ∃ i, (s.leaveTo o).issue = some i ∧ i.stalled = true := by
  refine eachLane_stalls hi o.g hne fun k u => ?_
  simp [add_wordDisp, hs]

/-- LEAVE, and LEAVE.RG after it, transfer to the displaced PC. -/
theorem leaveTo_transfers (o : FJ) {after : State → State} (hafter : ∀ u, (after u).issue = u.issue) :
    Transfers s iss t o.g (fun _ => displaced iss o.disp)
      (after (lanesDo s iss t o.g (badJump s t (fun _ => displaced iss o.disp)) (leaving iss o)))
      (.next (after (s.leaveTo o))) := by
  refine ⟨fun hs => by rw [leaveTo_of_served hi o hs], fun ⟨k, hk, hs⟩ => ?_⟩
  obtain ⟨i, hissue, hstalled⟩ := leaveTo_of_not_served hi o (List.ne_nil_of_mem hk) hs
  exact ⟨_, i, rfl, (hafter _).trans hissue, hstalled⟩

end

/-! ## The obligation -/

/-- The words of R42, R43, R45, R203 and R204, each by its equation above. -/
theorem joinWords {s : State} {iss : Issue} {t : Team} (hi : Issuing s iss t) (h : Hdr) (o : FJ) :
    let leave := lanesDo s iss t o.g (badJump s t (fun _ => displaced iss o.disp)) (leaving iss o)
    exec (.jset h o) s = .next (lanesDo s iss t o.g (fun _ => none) (fun r => onSheaf r.sheaf (expecting r.tid o.ja.toNat)))
    ∧ exec (.join h o) s = .next (lanesDo s iss t o.g (fun _ => none) (arriving o.ja.toNat false))
    ∧ exec (.joinRg h o) s = .next (lanesDo s iss t o.g (fun _ => none) (arriving o.ja.toNat true)).regroupEvent
    ∧ Transfers s iss t o.g (fun _ => displaced iss o.disp) leave (exec (.leave h o) s)
    ∧ Transfers s iss t o.g (fun _ => displaced iss o.disp) leave.regroupEvent (exec (.leaveRg h o) s) :=
  ⟨execJset_eq hi h o, congrArg Host.Outcome.next (joinAt_eq_lanesDo hi o.g o.ja false),
    congrArg (fun u : State => Host.Outcome.next u.regroupEvent) (joinAt_eq_lanesDo hi o.g o.ja true),
    leaveTo_transfers hi o (fun _ => rfl), leaveTo_transfers hi o regroupEvent_issue⟩

/-- The end of a cycle's placements: no regroup event is left, and records that are not complete begin a new cycle. -/
theorem placements_eq (t : Team) (cycle : Nat) (late : List Nat) :
    t.placements cycle late =
      (let u := (t.actions late).foldl (fun u a => match a with | .join h k _ => u.joinDone h k cycle | .regroup e => u.regroup e cycle) t
       { u with regroups := [], sheaves := u.sheaves.map (fun f =>
         { f with joins := f.joins.map (fun j => if j.e ≠ [] ∧ j.a = j.e then j else { j with last := none }) }) }) := by
  simp only [Team.placements, complete_iff] <;> rfl

/-- Settles O26: the words lane by lane, a completion by whether its last update is a JOIN.RG, and the actions in sorted order. -/
theorem joinRecords : Obligations.JoinRecords := by
  refine ⟨fun h o s iss t hi => joinWords hi h o, fun t h k cycle f j hf hj => ⟨?_, ?_⟩, fun t cycle late => ?_⟩
  · exact joinDone_of_not_rg hf hj cycle
  · exact fun m ps hl hps => joinDone_of_rg hf hj cycle hl hps
  · refine ⟨t.actions late, actions_inTurn t late, fun h k m => ?_, ?_, ?_, placements_eq t cycle late⟩
    · simp only [join_mem_actions, settles_iff, and_assoc]
    · rw [filterMap_eq_of_forall (g := eventOf) fun a => by cases a <;> rfl]
      exact events_of_actions t late
    · rw [filterMap_eq_of_forall (g := recordOf) fun a => by cases a <;> rfl]
      exact nodup_records_of_actions t late

end Sys2Proof.Proofs
end

/-! # Register names (spec chapter 03): what v0 to v63 reach at each loop level

Entering level n + 1 adds a private frame, the registers from 64 + 48 n to 64 + 48 n + 47: its first 48 names reach them, and its last
16 reach what v0 to v15 of level n reach, all below the frame (R67, R68). That a frame lies above every register of the levels below
it is what keeps the names of one level apart. -/

section

namespace Sys2Proof.Proofs

open Sys2Proof.Machine

/-! ## The registers a level's names reach -/

theorem phys_zero (i : Nat) : phys 0 i = i := rfl

theorem phys_succ_frame (n : Nat) {i : Nat} (hi : i < 48) : phys (n + 1) i = 64 + 48 * n + i := if_pos hi

theorem phys_succ_overlap (n i : Nat) : phys (n + 1) (48 + i) = phys n i := by
  rw [phys, if_neg (by omega), Nat.add_sub_cancel_left]

/-- A name of a level above 0 is one of its private frame or one of the overlap (R68). -/
theorem frame_or_overlap {i : Nat} (hi : i < 64) : i < 48 ∨ ∃ k < 16, i = 48 + k := by
  obtain hf | ⟨k, rfl⟩ := (Nat.lt_or_ge i 48).imp_right Nat.exists_eq_add_of_le
  · exact .inl hf
  · exact .inr ⟨k, by omega, rfl⟩

/-- The names of level n stay within the 64 + 48 n registers that a thread of that depth has (R67). -/
theorem phys_lt (n : Nat) {i : Nat} (hi : i < 64) : phys n i < 64 + 48 * n := by
  induction n generalizing i with
  | zero => simpa only [phys_zero]
  | succ n ih =>
    obtain hf | ⟨k, hk, rfl⟩ := frame_or_overlap hi
    · rw [phys_succ_frame n hf]; omega
    · have below : phys n k < 64 + 48 * n := ih (by omega)
      rw [phys_succ_overlap]; omega

/-- A name of the private frame and one of the overlap reach different registers: the frame is above all of the level below. -/
theorem phys_succ_overlap_lt_frame (n : Nat) {i j : Nat} (hi : i < 16) (hj : j < 48) :
    phys (n + 1) (48 + i) < phys (n + 1) j := by
  rw [phys_succ_overlap, phys_succ_frame n hj]
  exact Nat.lt_add_right j (phys_lt n (by omega))

theorem phys_injective (n : Nat) {i j : Nat} (hi : i < 64) (hj : j < 64) (h : phys n i = phys n j) : i = j := by
  induction n generalizing i j with
  | zero => simpa only [phys_zero] using h
  | succ n ih =>
    obtain fi | ⟨k, hk, rfl⟩ := frame_or_overlap hi <;> obtain fj | ⟨l, hl, rfl⟩ := frame_or_overlap hj
    · rw [phys_succ_frame n fi, phys_succ_frame n fj] at h; omega
    · exact absurd h (Nat.ne_of_gt (phys_succ_overlap_lt_frame n hl fi))
    · exact absurd h (Nat.ne_of_lt (phys_succ_overlap_lt_frame n hk fj))
    · rw [phys_succ_overlap, phys_succ_overlap] at h
      rw [ih (by omega) (by omega) h]

/-! ## Reading what was written -/

theorem Regs.get_set (q : Regs) {d e : Nat} (w : Word) (hd : d < 64) (he : e < 64) :
    (q.set d w).get e = if d = e then w else q.get e := by
  have same : phys q.level e = phys q.level d ↔ d = e := ⟨fun h => (phys_injective _ he hd h).symm, fun h => h ▸ rfl⟩
  simp only [Regs.get, Regs.set, sget_sset, same]

theorem pairWord_lowWord_highWord (w : DWord) : pairWord (lowWord w) (highWord w) = w := by
  calc highWord w ++ lowWord w
      = w.extractLsb' 0 (32 + 32) := BitVec.extractLsb'_append_extractLsb'_eq_extractLsb' rfl
    _ = w := BitVec.extractLsb'_eq_self

/-- A pair is read back from its two words: the odd register's write leaves the even one alone (R66). -/
theorem Regs.get64_set64 (q : Regs) {d : Nat} (w : DWord) (hd : d < 63) : (q.set64 d w).get64 d = w := by
  have low : (q.set64 d w).get d = lowWord w := by
    rw [Regs.set64, Regs.get_set _ _ (by omega) (by omega), if_neg (by omega), Regs.get_set _ _ (by omega) (by omega), if_pos rfl]
  have high : (q.set64 d w).get (d + 1) = highWord w := by
    rw [Regs.set64, Regs.get_set _ _ (by omega) (by omega), if_pos rfl]
  rw [Regs.get64, low, high, pairWord_lowWord_highWord]

/-- Settles O59: the names by the frame and the overlap of each level, and the registers by reading a canonical store after a write. -/
theorem registerNames : Obligations.RegisterNames := by
  refine ⟨fun n i => ⟨phys_zero i, phys_succ_frame n, fun _ => phys_succ_overlap n i⟩,
    fun n i j hi hj => ⟨phys_lt n hi, phys_injective n hi hj⟩, fun q d e w hd he => ?_, fun q d w => Regs.get64_set64 q w⟩
  exact ⟨Regs.get_set q w hd he, rfl, rfl, rfl, by simp [Regs.set, sget_sset], swf_sset 0 q.v (phys q.level d) w⟩

end Sys2Proof.Proofs
end

/-! # Sheaf reductions and scans (spec chapters 04 and 08, R105, R106, R198)

The model reduces a list of W places level by level (`treeReduce`) where the obligation writes the tree over places by number
(`treeOf`); a level of the list holds, at each place, the combination of the two places above it, so the two agree for every list.
The operands, the operation and the destination are the obligation's once the type is one that R198 accepts. -/

section

namespace Sys2Proof.Proofs

open Sys2Proof.Machine Sys2Proof.Claims

/-! ## Words that change the registers of each lane -/

theorem takesEffect_iff_mem_laneTids (iss : Issue) (t : Team) (g : BitVec 3) (k : Nat) :
    takesEffect iss t g k = true ↔ k ∈ iss.laneTids t g := by
  simp [takesEffect, reads, Issue.mem_laneTids, and_assoc]

section
variable {s : State} {iss : Issue} {t : Team} (hi : Issuing s iss t)
include hi

theorem lanewise_eq_regsBecome (g : BitVec 3) (f : Reads → Regs → Regs) : s.lanewise g f = regsBecome s iss t g f := by
  rw [State.lanewise_eq hi.1 hi.2]
  simp only [← takesEffect_iff_mem_laneTids]
  rfl

theorem lanes_eq_active (g : BitVec 3) : s.lanes g = active iss t g := by
  rw [State.lanes_eq hi.1 hi.2, active, effective_eq_laneTids]
  rfl

/-- At its rendezvous' completion a cross-lane word changes the registers of the active lanes by what all of them read (R195). -/
theorem crossLane_eq_regsBecome (hc : iss.completing = true) (g : BitVec 3) (f : Nat → List Reads → Reads → Regs → Regs) :
    s.crossLane g f = regsBecome s iss t g (f t.width (active iss t g)) := by
  simp only [State.crossLane, hi.1, hi.2, hc, if_true, lanes_eq_active hi, lanewise_eq_regsBecome hi]

end

/-! ## The tree of R105 -/

theorem combine2_none_right {α : Type} (op : α → α → α) (x : Option α) : combine2 op x none = x := by
  cases x <;> rfl

/-- Place i of the next level combines places 2i and 2i + 1; a place beyond the end is absent. -/
theorem getElem?_treeLevel {α : Type} (op : α → α → α) (l : List (Option α)) (i : Nat) :
    (treeLevel op l)[i]?.getD none = combine2 op (l[2 * i]?.getD none) (l[2 * i + 1]?.getD none) := by
  induction l using treeLevel.induct generalizing i with
  | case1 a b r ih =>
    cases i with
    | zero => rfl
    | succ i => exact ih i
  | case2 a =>
    cases i with
    | zero => exact (combine2_none_right op a).symm
    | succ i => rfl
  | case3 => rfl

theorem treeReduce_eq_treeOf (op : Nat → Nat → Nat) (n : Nat) (l : List (Option Nat)) :
    treeReduce op n l = treeOf op n (fun i => l[i]?.getD none) := by
  induction n generalizing l with
  | zero => rw [treeReduce, treeOf, List.head?_eq_getElem?]
  | succ n ih => simp only [treeReduce, treeOf, ih, getElem?_treeLevel]

theorem getElem?_map_upto {α : Type} (w : Nat) (f : Nat → Option α) (i : Nat) :
    ((upto w).map f)[i]?.getD none = if i < w then f i else none := by
  by_cases hiw : i < w <;> simp [upto, hiw]

/-! ## The types of R198: width, signedness, registers -/

theorem intWidth_eq_typeWidth : ∀ t : BitVec 4, intWidth t = typeWidth t := by decide

theorem intSigned_eq_typeSigned : ∀ t : BitVec 4, intSigned t = typeSigned t := by decide

/-- .B64, a pair that is no integer type, is the one code for which these differ. -/
theorem is64_iff_of_ne_b64 : ∀ t : BitVec 4, t.toNat ≠ 9 → (is64 t = true ↔ t.toNat < 8 ∧ intWidth t = 64) := by decide

theorem is64_iff_of_xredOk {o : FVD} (hok : xredOk o = true) : is64 o.t = true ↔ o.t.toNat < 8 ∧ intWidth o.t = 64 := by
  refine is64_iff_of_ne_b64 o.t fun h9 => ?_
  simp [xredOk, isScalarFloat, h9] at hok

theorem readInt_eq_typed (sgn : Bool) (n x : Nat) : readInt sgn n x = typed sgn n x := by
  cases sgn with
  | false => rfl
  | true =>
    cases n with
    | zero => simp [readInt, typed, Nat.mod_one, BitVec.of_length_zero]
    | succ n =>
      simp only [readInt, typed, BitVec.toInt_eq_toNat_cond, BitVec.toNat_ofNat, Bool.true_and, decide_eq_true_eq, if_true,
        Nat.add_sub_cancel]
      generalize x % 2 ^ (n + 1) = y
      rw [Nat.pow_succ]
      split <;> split <;> push_cast <;> omega

/-- A word as bits of a type: 32 bits of an integer type of one register, the float's width otherwise. -/
theorem toNat_mod_typeBits (o : FVD) (w : Word) :
    w.toNat % 2 ^ (if o.t.toNat < 8 then 32 else (fmtOf o.t).width)
      = if o.t.toNat < 8 then w.toNat else w.toNat % 2 ^ (fmtOf o.t).width := by
  split
  · exact Nat.mod_eq_of_lt w.isLt
  · rfl

/-! ## One combination, its operands and its destination -/

theorem xCombine_eq_sheafOp (op : XOp) (o : FVD) : xCombine op o = sheafOp op o := by
  funext a b
  cases op <;> simp only [xCombine, sheafOp, intWidth_eq_typeWidth, intSigned_eq_typeSigned, readInt_eq_typed]

theorem xOperand_eq_sheafSource {o : FVD} (hok : xredOk o = true) : xOperand o = sheafSource o := by
  funext r
  have h64 := is64_iff_of_xredOk hok
  simp only [xOperand, sheafSource, toNat_mod_typeBits, h64]
  by_cases hint : o.t.toNat < 8 <;> simp [hint]

theorem xAccumulate_eq_sheafPut {o : FVD} (hok : xredOk o = true) (op : XOp) (r : Reads) (x : Nat) :
    xAccumulate op o r x = sheafPut o (sheafOp op o (sheafDest o r) x) := by
  funext q
  simp only [xAccumulate, sheafPut, sheafDest, toNat_mod_typeBits, xCombine_eq_sheafOp, ← is64_iff_of_xredOk hok]
  split <;> rfl

/-! ## Reductions and scans of the active lanes -/

theorem laneAt_natCast (w : Nat) (act : List Reads) (i : Nat) :
    laneAt w act i = if i < w then act.find? (fun x => x.tid % w == i) else none := by
  have outside : ((i : Int) < 0 ∨ (w : Int) ≤ i) ↔ ¬ i < w := by omega
  simp only [laneAt, outside, ite_not, Int.toNat_natCast]

theorem xReduce_eq_treeOf {o : FVD} (hok : xredOk o = true) (op : XOp) (w : Nat) (act : List Reads) :
    xReduce op o w act = (treeOf (sheafOp op o) (Nat.log2 w) (fun i =>
      if i < w then (act.find? (fun x => x.tid % w == i)).map (sheafSource o) else none)).getD 0 := by
  have place : ∀ i, ((upto w).map fun i : Nat => (laneAt w act i).map (xOperand o))[i]?.getD none
      = if i < w then (act.find? (fun x => x.tid % w == i)).map (sheafSource o) else none := fun i => by
    rw [getElem?_map_upto, laneAt_natCast, xOperand_eq_sheafSource hok]
    split <;> rfl
  simp only [xReduce, xCombine_eq_sheafOp, treeReduce_eq_treeOf, place, log2]

/-- R106: the values combined one at a time from the first on; 0 where there are none, the identity of an addition. -/
def scanOf (op : Nat → Nat → Nat) : List Nat → Nat
  | [] => 0
  | x :: l => l.foldl op x

theorem xScan_eq_scanOf {o : FVD} (hok : xredOk o = true) (l : List Reads) :
    xScan o l = scanOf (sheafOp .add o) (l.map (sheafSource o)) := by
  cases l with
  | nil => rfl
  | cons r l => rw [xScan, List.map_cons, scanOf, List.foldl_map, xCombine_eq_sheafOp, xOperand_eq_sheafSource hok]

/-! ## The obligation -/

theorem exec_reduction {p : (Hdr → FVD → Instr) × XOp} (hp : p ∈ reductions) (h : Hdr) (o : FVD) (s : State) :
    exec (p.1 h o) s = .next (s.crossLane o.g (fun w act r => xAccumulate p.2 o r (xReduce p.2 o w act))) := by
  simp only [reductions, List.mem_cons, List.mem_nil_iff, or_false] at hp
  obtain rfl | rfl | rfl := hp <;> rfl

theorem exec_scan {p : (Hdr → FVD → Instr) × (Nat → Nat → Bool)}
    (hp : p ∈ [(.xscanAdd, fun x y => decide (x ≤ y)), (.xscanExAdd, fun x y => decide (x < y))]) (h : Hdr) (o : FVD) (s : State) :
    exec (p.1 h o) s = .next (s.crossLane o.g (fun _ act r =>
      xAccumulate .add o r (xScan o (act.filter (fun x => p.2 x.tid r.tid))))) := by
  simp only [List.mem_cons, List.mem_nil_iff, or_false] at hp
  obtain rfl | rfl := hp <;> rfl

/-- Settles O11: the words are cross-lane words that put in D the tree, or the scan, of the obligation. -/
theorem sheafReductionResults : Obligations.SheafReductionResults := by
  intro h o s iss t hi hc hok
  refine ⟨fun p hp => ?_, fun p hp => ?_⟩
  · rw [exec_reduction hp, crossLane_eq_regsBecome hi hc]
    simp only [xAccumulate_eq_sheafPut hok, xReduce_eq_treeOf hok]
  · rw [exec_scan hp, crossLane_eq_regsBecome hi hc]
    simp only [xAccumulate_eq_sheafPut hok, xScan_eq_scanOf hok]
    rfl

end Sys2Proof.Proofs
end

/-! # The moves (spec chapters 03 and 08, R76, R185, R186)

MOVS is the one that needs an argument: `State.specialRead` takes a special register by cases on its number, `specialOf` as an element
of the list of Table 3-4. The widths of the work-identifier fields agree but for a fabric team, whose fields beyond the first have no
bits in the model and no entry in the list, and are 0 either way. -/

section

namespace Sys2Proof.Proofs

open Sys2Proof.Machine Sys2Proof.Claims

/-! ## Work-identifier fields -/

theorem fld_eq_extractLsb' (w : DWord) (lo n : Nat) : fld w lo n = (w.extractLsb' lo n).toNat := by
  rw [fld, BitVec.extractLsb'_toNat, Nat.shiftRight_eq_div_pow]

/-- A field of no bits is 0. -/
theorem widField_eq_zero {ws : List Nat} {k : Nat} (hk : ws.getD k 0 = 0) (wid : Nat) : widField ws wid k = 0 := by
  rw [widField, hk, Nat.pow_zero, Nat.mod_one]

/-- The field widths as `specialOf` lists them: none beyond the first of a fabric team. -/
def fieldWidths (s : State) (t : Team) : List Nat :=
  if t.node.isSome then [t.tbits] else (List.range 6).map (fun k =>
    ((((s.launch? t.launch).map (fun (l : Launch) => l.words.getD 11 0)).getD 0).extractLsb' (6 * k) 6).toNat)

theorem length_fieldWidths_le (s : State) (t : Team) : (fieldWidths s t).length ≤ 6 := by
  unfold fieldWidths
  split <;> simp

theorem widths_of_no_node {t : Team} (hn : t.node = none) (s : State) : s.widths t = fieldWidths s t := by
  simp only [State.widths, fieldWidths, hn]
  cases s.launch? t.launch with
  | none => rfl
  | some l => simp [upto, fld_eq_extractLsb']

theorem getD_replicate_self {α : Type} (n k : Nat) (x : α) : (List.replicate n x).getD k x = x := by
  rw [List.getD_eq_getElem?_getD, List.getElem?_replicate]
  split <;> rfl

theorem widField_widths (s : State) (t : Team) (wid k : Nat) : widField (s.widths t) wid k = widField (fieldWidths s t) wid k := by
  cases hn : t.node with
  | none => rw [widths_of_no_node hn]
  | some n =>
    simp only [State.widths, fieldWidths, hn, Option.isSome_some, if_true]
    cases k with
    | zero => rfl
    | succ k =>
      have no_bits : [0, 0, 0, 0, 0].getD k 0 = 0 := getD_replicate_self 5 k 0
      exact (widField_eq_zero (k := k + 1) no_bits wid).trans (widField_eq_zero rfl wid).symm

/-! ## Special registers -/

/-- Table 3-4 by number, for a core, a program time and a cycle count. -/
def specials (s : State) (t : Team) (y : Thread) (core pt cyc : Nat) : List Nat :=
  let field (k : Nat) : Nat := widField (fieldWidths s t) y.wid k
  [y.tid, y.tid % 64, y.tid % t.width, y.tid / t.width, t.number, t.cohort, field 0, field 1, field 2, field 3, field 4, field 5,
    core, t.vdie, pt, cyc]

theorem specials_getD_of_fixed {n : Nat} (hcore : n ≠ 12) (hpt : n ≠ 14) (hcyc : n ≠ 15) (s : State) (t : Team) (y : Thread)
    (core pt cyc core' pt' cyc' : Nat) :
    (specials s t y core pt cyc).getD n 0 = (specials s t y core' pt' cyc').getD n 0 := by
  match n with
  | 0 | 1 | 2 | 3 | 4 | 5 | 6 | 7 | 8 | 9 | 10 | 11 | 13 => rfl
  | 12 | 14 | 15 => contradiction
  | n + 16 => rfl

theorem specialOf_eq (s : State) (c : Bool) (t : Team) (y : Thread) (n : Nat) :
    specialOf s c t y n = (match c, y.wait with
      | true, .rendezvous a => specials s t y a.core a.pt a.cyc
      | _, _ => specials s t y t.core y.pt (s.cycle - (s.die t.die).since)).getD n 0 := by
  simp only [specials, widField, ← List.sum_eq_foldl]
  cases c with
  | false => rfl
  | true =>
    unfold specialOf fieldWidths
    cases y.wait <;> rfl

theorem special_eq (s : State) (t : Team) (x : Thread) (n : Nat) :
    s.special t x n = BitVec.ofNat 64 ((specials s t x t.core x.pt (s.cycle - (s.die t.die).since)).getD n 0) := by
  simp only [State.special, widField_widths]
  match n with
  | 0 | 1 | 2 | 3 | 4 | 5 | 6 | 7 | 8 | 9 | 10 | 11 | 12 | 13 | 14 | 15 => rfl
  | n + 16 =>
    have beyond : (fieldWidths s t).length ≤ n + 10 := Nat.le_trans (length_fieldWidths_le s t) (by omega)
    have no_bits : (fieldWidths s t).getD (n + 10) 0 = 0 := by
      rw [List.getD_eq_getElem?_getD, List.getElem?_eq_none beyond, Option.getD_none]
    exact congrArg _ (widField_eq_zero no_bits x.wid)

/-- In a completed rendezvous' group the core, PT and CYC are those of the arrival, and every other register is as it stands. -/
theorem specialRead_of_arrival {x : Thread} {a : Arrival} (hw : x.wait = .rendezvous a) (s : State) (t : Team) (n : Nat) :
    s.specialRead true t x n = BitVec.ofNat 64 ((specials s t x a.core a.pt a.cyc).getD n 0) := by
  simp only [State.specialRead, hw]
  split
  · next hcore => rw [hcore]; rfl
  split
  · next hpt => rw [hpt]; rfl
  split
  · next hcyc => rw [hcyc]; rfl
  · next hcore hpt hcyc =>
    rw [special_eq]
    exact congrArg _ (specials_getD_of_fixed hcore hpt hcyc ..)

theorem specialRead_eq (s : State) (c : Bool) (t : Team) (x : Thread) (n : Nat) :
    s.specialRead c t x n = BitVec.ofNat 64 (specialOf s c t x n) := by
  rw [specialOf_eq]
  cases c with
  | false => exact special_eq ..
  | true =>
    cases hw : x.wait with
    | rendezvous a => exact specialRead_of_arrival hw s t n
    | _ => simp only [State.specialRead, hw, special_eq]

/-! ## Words that change the thread of each lane -/

section
variable {s : State} {iss : Issue} {t : Team} (hi : Issuing s iss t)
include hi

/-- A word that in each lane changes the lane's own thread changes the threads in which it takes effect. -/
theorem eachLane_eq_threadsBecome (g : BitVec 3) {F : Issue → Team → Reads → State → State} {f : Nat → Thread → Thread}
    (hF : ∀ k ∈ effective iss t g, ∀ u, F iss t (reads iss t k) u = u.mapThread iss.team k (f k)) :
    s.eachLane g F = threadsBecome s iss.team (takesEffect iss t g) f := by
  have hfold : s.eachLane g F = (effective iss t g).foldl (fun u k => u.mapThread iss.team k (f k)) s := by
    rw [eachLane_eq_foldl_effective hi]
    exact List.foldl_rel (r := Eq) rfl fun k hk u _ e => e ▸ hF k hk u
  rw [hfold, effective_eq_laneTids, foldl_mapThread _ _ _ _ (iss.nodup_laneTids t g)]
  simp only [← takesEffect_iff_mem_laneTids]
  rfl

end

/-! ## The obligation -/

/-- The clamp of R186, as a bound from above and one from below. -/
theorem clampTo_eq_max_min (e : Int) : clampTo true 32 e = max (-(2 ^ 31)) (min (2 ^ 31 - 1) e) := by
  simp only [clampTo, if_true, Nat.reduceSub]
  split
  · omega
  · split <;> omega

/-- Settles O4: MOV and PADD change the registers of each lane; MOVS changes each lane's own thread by its special register. -/
theorem moveResults : Obligations.MoveResults := by
  intro h o s iss t hi
  refine ⟨?_, ?_, ?_⟩
  · rw [exec, execMov, lanewise_eq_regsBecome hi]
    rfl
  · refine congrArg Host.Outcome.next (eachLane_eq_threadsBecome hi o.g fun k hk u => ?_)
    have here : k < t.threads.length := List.mem_range.mp (List.mem_filter.mp hk).1
    simp only [reads_tid, Team.thread?, List.getElem?_eq_getElem here, specialRead_eq]
    rfl
  · rw [exec, execPadd, lanewise_eq_regsBecome hi]
    simp only [clampTo_eq_max_min]
    rfl

end Sys2Proof.Proofs
end

/-! # The shuffles and the votes (spec chapter 08, R196, R197) -/

section

namespace Sys2Proof.Proofs

open Sys2Proof.Machine Sys2Proof.Claims

/-! ## One shuffle -/

/-- A lane outside 0 to W − 1 is no active lane, and the lane's own A is taken (R196). -/
theorem shuffle_eq_shuffled (o : FV3) (from_ : Nat → Nat → Int) (w : Nat) (act : List Reads) :
    shuffle o from_ w act = fun r q => q.set o.d.toNat (shuffled w act o.a (from_ (r.tid % w) (r.b o.b).toNat) r) := by
  funext r q
  generalize hl : from_ (r.tid % w) (r.b o.b).toNat = l
  have outside : (l < 0 ∨ (w : Int) ≤ l) ↔ ¬ (0 ≤ l ∧ l < w) := by omega
  simp only [shuffle, hl, laneAt, shuffled, outside, ite_not]
  by_cases hin : 0 ≤ l ∧ l < w
  · rw [if_pos hin, if_pos hin]
    have same : (fun x : Reads => x.tid % w == l.toNat) = fun x => decide (x.tid % w = l.toNat) := rfl
    rw [same]
    cases act.find? (fun x => decide (x.tid % w = l.toNat)) with
    | none => rfl
    | some x => rfl
  · rw [if_neg hin, if_neg hin]

/-! ## The obligation -/

theorem exec_shuffle {p : (Hdr → FV3 → Instr) × (Nat → Nat → Int)} (hp : p ∈ shuffles) (h : Hdr) (o : FV3) (s : State) :
    exec (p.1 h o) s = .next (s.crossLane o.g (shuffle o p.2)) := by
  simp only [shuffles, List.mem_cons, List.mem_nil_iff, or_false] at hp
  obtain rfl | rfl | rfl | rfl := hp <;> rfl

/-- Settles O10: a shuffle puts `shuffled` in D, and a vote is over the list of the active lanes; the bits of the mask are summed. -/
theorem shuffleAndVoteResults : Obligations.ShuffleAndVoteResults := by
  refine ⟨fun p hp h o s iss t hi hc => ?_, fun h o s iss t hi hc => ⟨?_, ?_, ?_⟩⟩
  · rw [exec_shuffle hp, crossLane_eq_regsBecome hi hc, shuffle_eq_shuffled]
  · rw [exec, execXany, crossLane_eq_regsBecome hi hc]
    rfl
  · rw [exec, execXall, crossLane_eq_regsBecome hi hc]
    rfl
  · rw [exec, execXmask, crossLane_eq_regsBecome hi hc]
    simp only [List.sum_eq_foldl, List.foldl_map]
    rfl

end Sys2Proof.Proofs
end

/-! # TOPK (spec chapter 08, R199)

The model orders two lanes by comparing the values that `unpack` gives, as integers at a common exponent; the obligation orders them by
the places of their bit patterns. The two agree because a magnitude, counted in units of the smallest positive one, rises strictly with
its pattern. This is proved for every layout. -/

section

namespace Sys2Proof.Proofs

open Sys2Proof.Machine Sys2Proof.Claims

/-! ## Magnitudes of a layout, counted in its smallest steps -/

/-- The exponent of the smallest positive magnitude: every finite magnitude is a multiple of 2^stepExp. -/
def stepExp (f : FFmt) : Int := 1 - (f.bias : Int) - f.fb

/-- A magnitude in units of 2^stepExp. -/
def steps (f : FFmt) (m : Nat) : Nat := (magnitude f m).1 * 2 ^ ((magnitude f m).2 - stepExp f).toNat

theorem stepExp_le_magnitude (f : FFmt) (m : Nat) : stepExp f ≤ (magnitude f m).2 := by
  unfold stepExp magnitude
  split
  · exact Int.le_refl _
  · next h =>
    have : 0 < m / 2 ^ f.fb := Nat.div_pos (Nat.le_of_not_lt h) (Nat.two_pow_pos _)
    dsimp only
    omega

theorem steps_eq (f : FFmt) (m : Nat) :
    steps f m = if m < 2 ^ f.fb then m else (2 ^ f.fb + m % 2 ^ f.fb) * 2 ^ (m / 2 ^ f.fb - 1) := by
  unfold steps stepExp magnitude
  split
  · simp
  · dsimp only
    congr 2
    omega

theorem steps_lt (f : FFmt) (m : Nat) : steps f m < 2 ^ f.fb * 2 ^ (m / 2 ^ f.fb) := by
  rw [steps_eq]
  split
  · next h => simpa [Nat.div_eq_of_lt h] using h
  · next h =>
    have hq : 0 < m / 2 ^ f.fb := Nat.div_pos (Nat.le_of_not_lt h) (Nat.two_pow_pos _)
    have hr := Nat.mod_lt m (Nat.two_pow_pos f.fb)
    calc (2 ^ f.fb + m % 2 ^ f.fb) * 2 ^ (m / 2 ^ f.fb - 1)
        < (2 ^ f.fb * 2) * 2 ^ (m / 2 ^ f.fb - 1) := Nat.mul_lt_mul_of_pos_right (by omega) (Nat.two_pow_pos _)
      _ = 2 ^ f.fb * 2 ^ (m / 2 ^ f.fb) := by
        rw [Nat.mul_assoc, ← Nat.pow_succ', Nat.succ_eq_add_one, Nat.sub_add_cancel hq]

theorem le_steps {f : FFmt} {m : Nat} (h : 2 ^ f.fb ≤ m) : 2 ^ f.fb * 2 ^ (m / 2 ^ f.fb - 1) ≤ steps f m := by
  rw [steps_eq, if_neg (Nat.not_lt.mpr h)]
  exact Nat.mul_le_mul_right _ (Nat.le_add_right _ _)

/-- A larger pattern is a larger magnitude: by its exponent field, or at the same one by its fraction. -/
theorem steps_lt_steps (f : FFmt) {a b : Nat} (hab : a < b) : steps f a < steps f b := by
  obtain hq | hq := Nat.lt_or_eq_of_le (Nat.div_le_div_right (c := 2 ^ f.fb) (Nat.le_of_lt hab))
  · have hb : 2 ^ f.fb ≤ b := (Nat.div_pos_iff.mp (Nat.zero_lt_of_lt hq)).2
    calc steps f a < 2 ^ f.fb * 2 ^ (a / 2 ^ f.fb) := steps_lt f a
      _ ≤ 2 ^ f.fb * 2 ^ (b / 2 ^ f.fb - 1) :=
        Nat.mul_le_mul_left _ (Nat.pow_le_pow_right (by omega) (Nat.le_sub_one_of_lt hq))
      _ ≤ steps f b := le_steps hb
  · have ha := Nat.div_add_mod a (2 ^ f.fb)
    have hb := Nat.div_add_mod b (2 ^ f.fb)
    have small : a < 2 ^ f.fb ↔ b < 2 ^ f.fb := by
      rw [← Nat.div_eq_zero_iff_lt (Nat.two_pow_pos _), hq, Nat.div_eq_zero_iff_lt (Nat.two_pow_pos _)]
    rw [hq] at ha
    simp only [steps_eq, small, hq]
    split
    · exact hab
    · exact Nat.mul_lt_mul_of_pos_right (by omega) (Nat.two_pow_pos _)

theorem steps_lt_iff (f : FFmt) (a b : Nat) : steps f a < steps f b ↔ a < b := by
  refine ⟨fun h => ?_, steps_lt_steps f⟩
  obtain hab | rfl | hba := Nat.lt_trichotomy a b
  · exact hab
  · exact absurd h (Nat.lt_irrefl _)
  · exact absurd h (Nat.lt_asymm (steps_lt_steps f hba))

theorem steps_pos_iff (f : FFmt) (m : Nat) : 0 < steps f m ↔ 0 < m := by
  have zero : steps f 0 = 0 := by rw [steps_eq, if_pos (Nat.two_pow_pos _)]
  rw [← zero, steps_lt_iff, zero]

/-! ## Signed magnitudes -/

/-- A magnitude with a sign; −0 is 0. -/
def withSign (neg : Bool) (m : Nat) : Int := if neg then -(m : Int) else m

/-- The order of two signed magnitudes is that of their values. -/
theorem withSign_steps_lt_iff (f : FFmt) (p q : Bool) (a b : Nat) :
    withSign p (steps f a) < withSign q (steps f b) ↔ withSign p a < withSign q b := by
  have hab := steps_lt_iff f a b
  have hba := steps_lt_iff f b a
  have ha := steps_pos_iff f a
  have hb := steps_pos_iff f b
  cases p <;> cases q <;> simp only [withSign, if_true, if_false, Bool.false_eq_true] <;> omega

/-- The sign of the larger magnitude decides. -/
theorem withSign_lt_iff_of_lt {m n : Nat} (h : m < n) (p q : Bool) :
    (withSign p m < withSign q n ↔ q = false) ∧ (withSign q n < withSign p m ↔ q = true) := by
  cases p <;> cases q <;> simp only [withSign, if_true, if_false, Bool.false_eq_true, Bool.true_eq_false, iff_true, iff_false] <;> omega

theorem withSign_lt_self_iff {n : Nat} (h : 0 < n) (p q : Bool) : withSign p n < withSign q n ↔ p = true ∧ q = false := by
  cases p <;> cases q <;> simp only [withSign, if_true, if_false, Bool.false_eq_true, Bool.true_eq_false, and_true, and_false,
    iff_true, iff_false] <;> omega

theorem atExp_stepExp (f : FFmt) (neg : Bool) (m : Nat) :
    atExp neg (magnitude f m).1 (magnitude f m).2 (stepExp f) = withSign neg (steps f m) := by
  simp [atExp, withSign, steps]

theorem atExp_lower {e e1 e0 : Int} (h1 : e1 ≤ e) (h0 : e0 ≤ e1) (neg : Bool) (m : Nat) :
    atExp neg m e e0 = atExp neg m e e1 * 2 ^ (e1 - e0).toNat := by
  have hp : (2 : Int) ^ (e - e0).toNat = 2 ^ (e - e1).toNat * 2 ^ (e1 - e0).toNat := by
    rw [← Int.pow_add]
    congr 1
    omega
  cases neg with
  | false => simp only [atExp, hp, Bool.false_eq_true, if_false, Int.mul_assoc]
  | true => simp only [atExp, hp, if_true, Int.neg_mul, Int.mul_assoc]

/-- Two finite values compare as their integers at any common exponent (R242). -/
theorem numLt_fin_iff {ae be e0 : Int} (ha : e0 ≤ ae) (hb : e0 ≤ be) (an bn : Bool) (am bm : Nat) :
    Num.lt false (.fin an am ae) (.fin bn bm be) = true ↔ atExp an am ae e0 < atExp bn bm be e0 := by
  have common : atExp an am ae e0 < atExp bn bm be e0 ↔ atExp an am ae (min ae be) < atExp bn bm be (min ae be) := by
    have hmin : e0 ≤ min ae be := Int.le_min.mpr ⟨ha, hb⟩
    rw [atExp_lower (Int.min_le_left ae be) hmin, atExp_lower (Int.min_le_right ae be) hmin]
    exact Int.mul_lt_mul_right (Int.pow_pos (by decide))
  rw [common, Num.lt]
  split
  · next h => simp [h.1, h.2, atExp]
  · simp

/-! ## Bit patterns and their places -/

theorem floatPlace_eq (f : FFmt) (b : Nat) : floatPlace f b = withSign (decide (f.signBit ≤ b)) (b % f.signBit) := by
  unfold floatPlace withSign
  by_cases h : f.signBit ≤ b
  · simp [h]
  · simp [h, Nat.mod_eq_of_lt (Nat.lt_of_not_le h)]

theorem two_pow_width (f : FFmt) : 2 ^ f.width = 2 * f.signBit := Nat.pow_succ'

theorem signBit_eq (f : FFmt) : f.signBit = 2 ^ f.eb * 2 ^ f.fb := Nat.pow_add _ _ _

theorem signBit_pos (f : FFmt) : 0 < f.signBit := Nat.two_pow_pos _

theorem sign_field_iff {f : FFmt} {b : Nat} (hb : b < 2 ^ f.width) : b / f.signBit % 2 = 1 ↔ f.signBit ≤ b := by
  have hlt : b / f.signBit < 2 := (Nat.div_lt_iff_lt_mul (signBit_pos f)).mpr (two_pow_width f ▸ hb)
  rw [Nat.mod_eq_of_lt hlt, ← Nat.one_mul f.signBit, ← Nat.le_div_iff_mul_le (signBit_pos f), Nat.one_mul]
  exact ⟨fun h => Nat.le_of_eq h.symm, fun h => Nat.le_antisymm (Nat.le_of_lt_succ hlt) h⟩

theorem exponent_field (f : FFmt) (b : Nat) : b / 2 ^ f.fb % 2 ^ f.eb = b % f.signBit / 2 ^ f.fb := by
  rw [signBit_eq, Nat.mod_mul_left_div_self]

theorem fraction_field (f : FFmt) (b : Nat) : b % 2 ^ f.fb = b % f.signBit % 2 ^ f.fb :=
  (Nat.mod_mod_of_dvd b ⟨2 ^ f.eb, (signBit_eq f).trans (Nat.mul_comm _ _)⟩).symm

/-- The exponent field is all ones from the magnitude of infinity on (Table 4-2). -/
theorem exponent_ones_iff {f : FFmt} {m : Nat} (hm : m < f.signBit) : m / 2 ^ f.fb = 2 ^ f.eb - 1 ↔ f.infBits ≤ m := by
  have top : m / 2 ^ f.fb < 2 ^ f.eb := (Nat.div_lt_iff_lt_mul (Nat.two_pow_pos _)).mpr (signBit_eq f ▸ hm)
  rw [FFmt.infBits, ← Nat.le_div_iff_mul_le (Nat.two_pow_pos _)]
  exact ⟨fun h => Nat.le_of_eq h.symm, fun h => Nat.le_antisymm (Nat.le_sub_one_of_lt top) h⟩

/-- There the fraction is what lies above infinity. -/
theorem eq_infBits_add_fraction {f : FFmt} {m : Nat} (h : m / 2 ^ f.fb = 2 ^ f.eb - 1) : m = f.infBits + m % 2 ^ f.fb := by
  rw [FFmt.infBits, ← h, Nat.div_add_mod']

/-- A pattern is a NaN, an infinity or finite as its magnitude is above, at or below that of infinity (Table 4-2). -/
theorem unpack_eq {f : FFmt} {b : Nat} (hb : b < 2 ^ f.width) :
    unpack f b = if nanBitsOf f b then .nan else if b % f.signBit = f.infBits then .inf (decide (f.signBit ≤ b))
      else .fin (decide (f.signBit ≤ b)) (magnitude f (b % f.signBit)).1 (magnitude f (b % f.signBit)).2 := by
  have hm := Nat.mod_lt b (signBit_pos f)
  simp only [unpack, nanBitsOf, sign_field_iff hb, exponent_field, fraction_field f b, decide_eq_true_eq]
  generalize b % f.signBit = m at hm
  by_cases hones : m / 2 ^ f.fb = 2 ^ f.eb - 1
  · have hsum := eq_infBits_add_fraction hones
    rw [if_pos hones]
    by_cases hr : m % 2 ^ f.fb = 0
    · rw [if_pos hr, if_neg (by omega), if_pos (by omega)]
    · rw [if_neg hr, if_pos (by omega)]
  · have below : m < f.infBits := Nat.lt_of_not_le (mt (exponent_ones_iff hm).mpr hones)
    have zero_iff : m / 2 ^ f.fb = 0 ↔ m < 2 ^ f.fb := Nat.div_eq_zero_iff_lt (Nat.two_pow_pos _)
    rw [if_neg hones, if_neg (Nat.lt_asymm below), if_neg (Nat.ne_of_lt below), magnitude]
    simp only [zero_iff]
    split
    · next h => rw [Nat.mod_eq_of_lt h]
    · rfl

/-- Two patterns that are no NaN compare as their places (R242). -/
theorem lt_unpack_iff {f : FFmt} (hf : 0 < f.infBits) {a b : Nat} (ha : a < 2 ^ f.width) (hb : b < 2 ^ f.width)
    (na : nanBitsOf f a = false) (nb : nanBitsOf f b = false) :
    (unpack f a).lt false (unpack f b) = true ↔ floatPlace f a < floatPlace f b := by
  rw [unpack_eq ha, unpack_eq hb, floatPlace_eq, floatPlace_eq]
  simp only [nanBitsOf, decide_eq_false_iff_not, Nat.not_lt] at na nb
  simp only [nanBitsOf, Nat.not_lt.mpr na, Nat.not_lt.mpr nb, decide_false, Bool.false_eq_true, if_false]
  generalize decide (f.signBit ≤ a) = p, decide (f.signBit ≤ b) = q, a % f.signBit = m, b % f.signBit = n at *
  obtain hm | rfl := Nat.lt_or_eq_of_le na <;> obtain hn | rfl := Nat.lt_or_eq_of_le nb
  · rw [if_neg (Nat.ne_of_lt hm), if_neg (Nat.ne_of_lt hn), numLt_fin_iff (stepExp_le_magnitude f m) (stepExp_le_magnitude f n),
      atExp_stepExp, atExp_stepExp, withSign_steps_lt_iff]
  · simp [Nat.ne_of_lt hm, Num.lt, withSign_lt_iff_of_lt hm]
  · simp [Nat.ne_of_lt hn, Num.lt, withSign_lt_iff_of_lt hn]
  · simp [Num.lt, withSign_lt_self_iff hf]

theorem isNan_unpack {f : FFmt} {b : Nat} (hb : b < 2 ^ f.width) : (unpack f b).isNan = nanBitsOf f b := by
  rw [unpack_eq hb]
  split
  · next h => rw [h]; rfl
  · next h => rw [Bool.eq_false_iff.mpr h]; split <;> rfl

/-! ## The order of TOPK, and the obligation -/

/-- Every NaN is below −∞ (R199). -/
theorem neg_two_pow_lt_floatPlace (b : Nat) : -(2 ^ 32) < floatPlace f32 b := by
  have := Nat.mod_lt b (signBit_pos f32)
  have : f32.signBit = 2 ^ 31 := rfl
  unfold floatPlace
  split <;> omega

theorem topkPlace_of_nan {b : Nat} (h : nanBitsOf f32 b = true) : topkPlace b = -(2 ^ 32) := if_pos h

theorem topkPlace_of_number {b : Nat} (h : nanBitsOf f32 b = false) : topkPlace b = floatPlace f32 b :=
  if_neg (h ▸ Bool.false_ne_true)

theorem topkBefore_iff (i j : Reads) (a : BitVec 6) :
    topkBefore j i a = true ↔ topkPlace (i.v a).toNat < topkPlace (j.v a).toNat
      ∨ (topkPlace (i.v a).toNat = topkPlace (j.v a).toNat ∧ j.tid < i.tid) := by
  have hi : (i.v a).toNat < 2 ^ f32.width := (i.v a).isLt
  have hj : (j.v a).toNat < 2 ^ f32.width := (j.v a).isLt
  have bi := neg_two_pow_lt_floatPlace (i.v a).toNat
  have bj := neg_two_pow_lt_floatPlace (j.v a).toNat
  simp only [topkBefore, isNan_unpack hi, isNan_unpack hj]
  cases ni : nanBitsOf f32 (i.v a).toNat <;> cases nj : nanBitsOf f32 (j.v a).toNat
  · have inf_pos : 0 < f32.infBits := by decide
    have above := lt_unpack_iff inf_pos hi hj ni nj
    have below := lt_unpack_iff inf_pos hj hi nj ni
    rw [topkPlace_of_number ni, topkPlace_of_number nj]
    simp only [above, below]
    split
    · next before => exact iff_of_true rfl (.inl before)
    split
    · next behind => exact iff_of_false Bool.false_ne_true (by omega)
    · rw [decide_eq_true_iff]; omega
  · rw [topkPlace_of_nan nj, topkPlace_of_number ni]
    exact iff_of_false Bool.false_ne_true (by omega)
  · rw [topkPlace_of_nan ni, topkPlace_of_number nj]
    exact iff_of_true rfl (.inl bj)
  · rw [topkPlace_of_nan ni, topkPlace_of_nan nj]
    simp

/-- Settles O12: the ranks as they are counted, and the order from the order of pairs of a place and a lane. -/
theorem topkResults : Obligations.TopkResults := by
  refine ⟨fun h o s iss t hi hc => ?_, fun i j k a => ?_⟩
  · rw [exec, execTopk, crossLane_eq_regsBecome hi hc]
    cases active iss t o.g with
    | nil => rfl
    | cons lowest others => rfl
  · have key := fun x y => topkBefore_iff x y a
    refine ⟨?_, ?_, ?_, key i j⟩
    · rw [← Bool.not_eq_true, key]; omega
    · intro hne
      rw [Ne, Bool.eq_iff_iff, key, key]
      omega
    · rw [key, key, key]; omega

end Sys2Proof.Proofs
end

/-! # Team queues (spec chapter 09, R234 to R236)

The queue words act in each lane on the state the lanes before it left, which the obligation writes as `inTurn`. What is left is one
lane's push and pop: `Team.doPush` and `Team.doPop` in the obligation's terms, for the team as it stands. -/

section

namespace Sys2Proof.Proofs

open Sys2Proof.Machine Sys2Proof.Claims

/-! ## Scratchpad writes leave the queues -/

@[simp] theorem putWord_queues (t : Team) (off : Nat) (w : Word) : (t.putWord off w).queues = t.queues := by
  unfold Team.putWord
  split <;> rfl

@[simp] theorem putWord_pushed (t : Team) (off : Nat) (w : Word) : (t.putWord off w).pushed = t.pushed := by
  unfold Team.putWord
  split <;> rfl

@[simp] theorem writeWord_queues (t : Team) (slot tid off : Nat) (w : Word) : (t.writeWord slot tid off w).queues = t.queues := by
  unfold Team.writeWord
  split
  · rfl
  · exact putWord_queues t off w

@[simp] theorem writeWord_pushed (t : Team) (slot tid off : Nat) (w : Word) : (t.writeWord slot tid off w).pushed = t.pushed := by
  unfold Team.writeWord
  split
  · rfl
  · exact putWord_pushed t off w

/-! ## One push, one pop, one queue changed -/

/-- What a push changes, read off the team before it: its ring write touches neither the queues nor the elements pushed. -/
theorem doPush_eq (u : Team) (n slot tid : Nat) (w : Word) :
    u.doPush n slot tid w =
      (let off := (u.queue n).slot (u.queue n).count
       { (if u.pushed.any (fun e => e.1 == off) then
             { u.putWord off w with wlog := u.wlog ++ [(off, slot, tid)] }
           else u.writeWord slot tid off w) with
         pushed := (off, w) :: u.pushed,
         queues := u.queues.mapIdx (fun i q => if i = n then { q with count := q.count + 1, allow := q.allow - 1 } else q) }) := by
  cases hp : u.pushed.any (fun e => e.1 == (u.queue n).slot (u.queue n).count) <;>
    simp [Team.doPush, hp, modifyAt_eq_mapIdx]

theorem doPop_fst (u before : Team) (n : Nat) :
    (u.doPop before n).1 = { u with queues := u.queues.mapIdx (fun i q =>
      if i = n then { q with head := (q.head + 1) % q.depth, count := q.count - 1 } else q) } := by
  rw [Team.doPop, modifyAt_eq_mapIdx]

theorem mapTeam_queue_eq_onQueue (v : State) (team n : Nat) (f : Queue → Queue) :
    v.mapTeam team (fun u => { u with queues := modifyAt u.queues n f }) = onQueue v team n f := by
  simp only [State.mapTeam, onQueue, modifyAt_eq_mapIdx]

theorem mapThread_eq_withThread (v : State) (iss : Issue) (k : Nat) (f : Thread → Thread) :
    v.mapThread iss.team k f = withThread v iss k f := by
  simp only [State.mapThread, State.mapTeam, withThread, mapThread_eq_onThread]

theorem mapTeam_of_no_team {v : State} {team : Nat} (hu : v.team? team = none) (f : Team → Team) : v.mapTeam team f = v := by
  have absent : ∀ u ∈ v.teams, ¬ u.id = team := by simpa [State.team?] using hu
  unfold State.mapTeam
  rw [List.map_congr_left fun u hm => if_neg (absent u hm), List.map_id']

theorem queueNow_eq {v : State} {iss : Issue} {u : Team} (hu : v.team? iss.team = some u) (n : Nat) :
    queueNow v iss n = u.queue n := by
  simp [queueNow, hu, Team.queue]

theorem standing_eq {v : State} {iss : Issue} {t u : Team} (hu : v.team? iss.team = some u) : standing v iss t = u := by
  rw [standing, hu, Option.getD_some]

/-! ## The descriptor of QINIT and its conditions in their order -/

/-- Table 9-11: DEPTH is what is left of the descriptor above the 22 bits of BASE. -/
theorem descriptor_depth (w : Word) : w.toNat / 2 ^ 22 = (w.extractLsb' 22 10).toNat := by
  have : w.toNat < 2 ^ 32 := w.isLt
  rw [BitVec.extractLsb'_toNat, Nat.shiftRight_eq_div_pow]
  omega

theorem descriptor_base (w : Word) : w.toNat % 2 ^ 22 = (w.extractLsb' 0 22).toNat := by
  rw [BitVec.extractLsb'_toNat, Nat.shiftRight_zero]

theorem firstOf_nil : firstOf [] = none := rfl

theorem firstOf_cons (b : Bool) (code : Nat) (cs : List (Bool × Nat)) :
    firstOf ((b, code) :: cs) = if b then some (code, 0) else firstOf cs := by
  cases b <;> rfl

theorem unset_of_no_team {v : State} {iss : Issue} (hu : v.team? iss.team = none) (n : Nat) (r : Reads) : unset iss n r v = none := by
  rw [unset, hu]

theorem unset_of_team {v : State} {iss : Issue} {u : Team} (hu : v.team? iss.team = some u) (n : Nat) (r : Reads) :
    unset iss n r v = if (u.queue n).depth = 0 then some (0x28, 0) else none := by
  simp only [unset, hu, queueNow_eq hu, firstOf_cons, firstOf_nil, decide_eq_true_eq]

/-! ## Words whose lanes act in turn -/

section
variable {s : State} {iss : Issue} {t : Team} (hi : Issuing s iss t)
include hi

/-- A word whose lanes raise conditions or act, each by the state the ones before it left, does `inTurn`. -/
theorem eachLane_eq_inTurn (g : BitVec 3) {F : Issue → Team → Reads → State → State} {c : Reads → State → Option (Nat × DWord)}
    {f : Reads → State → State}
    (hraise : ∀ k v x, c (reads iss t k) v = some x → F iss t (reads iss t k) v = v.raise k x.1 x.2)
    (hact : ∀ k v, c (reads iss t k) v = none → F iss t (reads iss t k) v = f (reads iss t k) v) :
    s.eachLane g F = inTurn iss t (effective iss t g) c f s := by
  rw [eachLane_eq_foldl_effective hi]
  refine List.foldl_rel (r := Eq) rfl fun k _ u _ e => ?_
  subst e
  cases hc : c (reads iss t k) u with
  | some x => exact hraise k u x hc
  | none => exact hact k u hc

/-- QUEUE_PARAM on an unset queue, nothing where the team is gone, and otherwise what the operation does to the team (R235). -/
theorem queueOp_eq_inTurn (o : FQ) {F : Issue → Team → Team → Reads → State → State} {f : Reads → State → State}
    (hgone : ∀ k v, v.team? iss.team = none → f (reads iss t k) v = v)
    (hact : ∀ k v u, v.team? iss.team = some u → F iss t u (reads iss t k) v = f (reads iss t k) v) :
    s.queueOp o F = inTurn iss t (effective iss t o.g) (unset iss o.q.toNat) f s := by
  refine eachLane_eq_inTurn hi o.g (fun k v x hx => ?_) (fun k v hv => ?_)
  · cases hu : v.team? iss.team with
    | none => rw [unset_of_no_team hu] at hx; contradiction
    | some u =>
      rw [unset_of_team hu] at hx
      split at hx
      case isTrue hd => obtain rfl := Option.some.inj hx; simp only [hd, if_true, reads_tid]
      case isFalse => contradiction
  · cases hu : v.team? iss.team with
    | none => exact (hgone k v hu).symm
    | some u =>
      rw [unset_of_team hu] at hv
      split at hv
      case isTrue => contradiction
      case isFalse hd => simp only [hd, if_false, hact k v u hu]

end

/-! ## The obligation -/

/-- Settles O31: QINIT as lanes that raise or change the team; the others in turn, each by what it does in one lane. -/
theorem queueResults : Obligations.QueueResults := by
  refine ⟨fun h o s iss t hi => ⟨?_, ?_⟩, fun h o s iss t hi => ⟨?_, ?_⟩⟩
  · refine congrArg Host.Outcome.next (eachLane_eq_lanesDo hi o.g (fun _ _ => rfl) fun k _ u => ?_)
    simp only [raiseOrMap, descriptor_depth, descriptor_base, modifyAt_eq_mapIdx, firstOf_cons, firstOf_nil, decide_eq_true_eq]
    split
    case isTrue unsized => rfl
    case isFalse sized =>
      split
      case isTrue beyond => rfl
      case isFalse within => split <;> rfl
  · refine congrArg Host.Outcome.next (queueOp_eq_inTurn hi o (fun k v hu => ?_) fun k v u _ => mapTeam_queue_eq_onQueue ..)
    rw [← mapTeam_queue_eq_onQueue, mapTeam_of_no_team hu]
  · refine congrArg Host.Outcome.next (queueOp_eq_inTurn hi o (fun k v hu => ?_) fun k v u hu => ?_)
    · exact if_pos (by simp [hu])
    · refine Eq.trans ?_ (if_neg (by simp [hu])).symm
      rw [queueNow_eq hu]
      simp only [doPush_eq, mapThread_eq_withThread, State.mapRegs, State.mapTeam]
      rfl
  · refine congrArg Host.Outcome.next (queueOp_eq_inTurn hi o (fun k v hu => ?_) fun k v u hu => ?_)
    · exact if_pos (by simp [hu])
    · refine Eq.trans ?_ (if_neg (by simp [hu])).symm
      rw [queueNow_eq hu, standing_eq hu]
      simp only [doPop_fst, State.addExact, State.addPend, mapThread_eq_withThread, State.mapRegs, State.mapTeam]
      rfl

end Sys2Proof.Proofs
end

/-! # The float pipe (spec chapter 10, R238 to R244)

Three things separate the model's float instructions from the obligation's. FMIN and FMAX compare the values of two patterns where the
obligation compares their places, with −0 a place below +0: the order of R242, proved with TOPK, and the order of the two zeros beside it.
Packed words are put together by addition where the obligation appends their halves, which agree because every result fits its layout. And
a type code chooses the layout and the bits read. -/

section

namespace Sys2Proof.Proofs

open Sys2Proof.Machine Sys2Proof.Claims

/-! ## Results fit their layout -/

theorem infBits_lt_signBit (f : FFmt) : f.infBits < f.signBit := by
  rw [signBit_eq, FFmt.infBits]
  exact Nat.mul_lt_mul_of_pos_right (Nat.sub_lt (Nat.two_pow_pos _) Nat.one_pos) (Nat.two_pow_pos _)

theorem maxBits_lt_signBit (f : FFmt) : f.maxBits < f.signBit := Nat.lt_of_le_of_lt (Nat.sub_le _ _) (infBits_lt_signBit f)

theorem nanBits_lt (f : FFmt) : f.nanBits < 2 ^ f.width := by
  have fraction : 2 ^ (f.fb - 1) ≤ f.signBit := Nat.pow_le_pow_right (by decide) (by omega)
  have := infBits_lt_signBit f
  rw [two_pow_width, FFmt.nanBits]
  omega

theorem signed_lt {f : FFmt} {bits : Nat} (h : bits < f.signBit) (neg : Bool) : signed f neg bits < 2 ^ f.width := by
  rw [two_pow_width, signed]
  split <;> omega

theorem overflow_lt (f : FFmt) (mode : Mode) (neg : Bool) : overflow f mode neg < 2 ^ f.width := by
  have inf := signed_lt (infBits_lt_signBit f)
  have max := signed_lt (maxBits_lt_signBit f)
  cases mode with
  | rn => exact inf neg
  | rz => exact max neg
  | ru => cases neg with
    | false => exact inf false
    | true => exact max true
  | rd => cases neg with
    | false => exact max false
    | true => exact inf true

theorem roundQ_lt (f : FFmt) (mode : Mode) (neg : Bool) (n d : Nat) (e : Int) : roundQ f mode neg n d e < 2 ^ f.width := by
  unfold roundQ
  split
  · exact signed_lt (signBit_pos f) neg
  · extract_lets _ _ _ _ _ _ _ _ bits
    split
    · exact overflow_lt f mode neg
    · next below => exact signed_lt (Nat.lt_trans (Nat.lt_of_not_le below) (infBits_lt_signBit f)) neg

theorem pack_lt (f : FFmt) (mode : Mode) (x : Machine.Num) : pack f mode x < 2 ^ f.width := by
  cases x with
  | nan => exact nanBits_lt f
  | inf neg => exact signed_lt (infBits_lt_signBit f) neg
  | fin neg m e => exact roundQ_lt f mode neg m 1 e

theorem frndBits_lt (f : FFmt) (mode : Mode) (b : Nat) : frndBits f mode b < 2 ^ f.width := by
  unfold frndBits
  split
  · exact nanBits_lt f
  · exact signed_lt (infBits_lt_signBit f) _
  · exact pack_lt f mode _

theorem chosen_lt {f : FFmt} (less : Int → Int → Bool) {a b : Nat} (ha : a < 2 ^ f.width) (hb : b < 2 ^ f.width) :
    chosen f less a b < 2 ^ f.width := by
  unfold chosen
  split
  · split
    · exact nanBits_lt f
    · exact hb
  · split
    · exact ha
    · split
      · exact hb
      · exact ha

theorem infBits_pos : ∀ f ∈ [f32, f16, bf16], 0 < f.infBits := by decide

/-! ## The order with −0 below +0, and the choice of R241 -/

/-- −0 before +0 is all that the order of R241 adds to that of R242. -/
theorem numLt_true_iff (x y : Machine.Num) :
    x.lt true y = true ↔ x.lt false y = true ∨ (x.isZero = true ∧ y.isZero = true ∧ x.neg? = true ∧ y.neg? = false) := by
  cases x with
  | nan => simp [Num.lt, Num.isZero]
  | inf an => cases y <;> simp [Num.lt, Num.isZero]
  | fin an am ae => cases y with
    | nan => simp [Num.lt, Num.isZero]
    | inf bn => simp [Num.lt, Num.isZero]
    | fin bn bm be =>
      by_cases zeros : am = 0 ∧ bm = 0
      · simp [Num.lt, Num.isZero, Num.neg?, zeros]
      · simp only [Num.lt, Num.isZero, Num.neg?, if_neg zeros, beq_iff_eq]
        exact ⟨.inl, fun h => h.resolve_right fun ⟨ha, hb, _⟩ => zeros ⟨ha, hb⟩⟩

theorem isZero_unpack {f : FFmt} (hf : 0 < f.infBits) {b : Nat} (hb : b < 2 ^ f.width) :
    (unpack f b).isZero = true ↔ b % f.signBit = 0 := by
  have zero_magnitude : (magnitude f (b % f.signBit)).1 = 0 ↔ b % f.signBit = 0 := by
    have := Nat.two_pow_pos f.fb
    unfold magnitude
    split
    · rfl
    · dsimp only; omega
  rw [unpack_eq hb, nanBitsOf]
  split
  · next nan => exact iff_of_false Bool.false_ne_true (by simp only [decide_eq_true_eq] at nan; omega)
  split
  · exact iff_of_false Bool.false_ne_true (by omega)
  · rw [Num.isZero, beq_iff_eq, zero_magnitude]

theorem neg_unpack {f : FFmt} {b : Nat} (hb : b < 2 ^ f.width) (nb : nanBitsOf f b = false) :
    (unpack f b).neg? = decide (f.signBit ≤ b) := by
  rw [unpack_eq hb, nb, if_neg Bool.false_ne_true]
  split <;> rfl

/-- Two patterns that are no NaN are in the order of R241 as their places are, with −0 a place below +0. -/
theorem lt_true_unpack_iff {f : FFmt} (hf : 0 < f.infBits) {a b : Nat} (ha : a < 2 ^ f.width) (hb : b < 2 ^ f.width)
    (na : nanBitsOf f a = false) (nb : nanBitsOf f b = false) :
    (unpack f a).lt true (unpack f b) = true ↔ zeroPlace f a < zeroPlace f b := by
  rw [numLt_true_iff, lt_unpack_iff hf ha hb na nb, isZero_unpack hf ha, isZero_unpack hf hb, neg_unpack ha na, neg_unpack hb nb,
    decide_eq_true_iff, decide_eq_false_iff_not]
  have pos : ∀ c, ¬ f.signBit ≤ c → c % f.signBit = c := fun c h => Nat.mod_eq_of_lt (Nat.lt_of_not_le h)
  have pa := pos a
  have pb := pos b
  unfold floatPlace zeroPlace
  split <;> split <;> omega

theorem fminBits_eq_fminOf {f : FFmt} (hf : 0 < f.infBits) {a b : Nat} (ha : a < 2 ^ f.width) (hb : b < 2 ^ f.width) :
    fminBits f a b = fminOf f a b := by
  rw [fminBits, fminOf, chosen, isNan_unpack ha, isNan_unpack hb]
  cases na : nanBitsOf f a <;> cases nb : nanBitsOf f b
  · simp [lt_true_unpack_iff hf hb ha nb na]
  all_goals rfl

theorem fmaxBits_eq_fmaxOf {f : FFmt} (hf : 0 < f.infBits) {a b : Nat} (ha : a < 2 ^ f.width) (hb : b < 2 ^ f.width) :
    fmaxBits f a b = fmaxOf f a b := by
  rw [fmaxBits, fmaxOf, chosen, isNan_unpack ha, isNan_unpack hb]
  cases na : nanBitsOf f a <;> cases nb : nanBitsOf f b
  · simp [lt_true_unpack_iff hf ha hb na nb]
  all_goals rfl

/-! ## Packed words -/

theorem ofNat_append_ofNat {x : Nat} (hx : x < 65536) (y : Nat) :
    BitVec.ofNat 16 y ++ BitVec.ofNat 16 x = BitVec.ofNat 32 (x + 65536 * y) := by
  apply BitVec.eq_of_toNat_eq
  rw [BitVec.toNat_append, ← Nat.shiftLeft_add_eq_or_of_lt (BitVec.isLt _)]
  simp only [BitVec.toNat_ofNat, Nat.shiftLeft_eq]
  omega

theorem toNat_lowHalf (w : Word) : (w.extractLsb' 0 16).toNat = w.toNat % 65536 := by simp

theorem toNat_highHalf (w : Word) : (w.extractLsb' 16 16).toNat = w.toNat / 65536 := by
  have := w.isLt
  simp only [BitVec.extractLsb'_toNat, Nat.shiftRight_eq_div_pow]
  omega

theorem packed3_eq_halves {op : Nat → Nat → Nat → Nat} {a b d : Word}
    (low : op (a.toNat % 65536) (b.toNat % 65536) (d.toNat % 65536) < 65536) : packed3 op a b d = halves op a b d := by
  simp only [packed3, halves, toNat_lowHalf, toNat_highHalf]
  exact (ofNat_append_ofNat low _).symm

theorem packed2_eq_halves {op : Nat → Nat → Nat} {a b : Word} (low : op (a.toNat % 65536) (b.toNat % 65536) < 65536) (d : Word) :
    packed2 op a b = halves (fun x y _ => op x y) a b d :=
  packed3_eq_halves (op := fun x y _ => op x y) (d := d) low

/-! ## Type codes -/

/-- Two operations give the same result for all patterns of a layout, and it is one of its patterns. -/
def SameOn (f : FFmt) (op op' : Nat → Nat → Nat) : Prop :=
  ∀ a b, a < 2 ^ f.width → b < 2 ^ f.width → op a b = op' a b ∧ op' a b < 2 ^ f.width

theorem sameOn_self {f : FFmt} {op : Nat → Nat → Nat} (fits : ∀ a b, op a b < 2 ^ f.width) : SameOn f op op :=
  fun a b _ _ => ⟨rfl, fits a b⟩

theorem sameOn_fmin {f : FFmt} (hf : 0 < f.infBits) : SameOn f (fminBits f) (fminOf f) :=
  fun _ _ ha hb => ⟨fminBits_eq_fminOf hf ha hb, chosen_lt _ ha hb⟩

theorem sameOn_fmax {f : FFmt} (hf : 0 < f.infBits) : SameOn f (fmaxBits f) (fmaxOf f) :=
  fun _ _ ha hb => ⟨fmaxBits_eq_fmaxOf hf ha hb, chosen_lt _ ha hb⟩

theorem SameOn.low {f : FFmt} {op op' : Nat → Nat → Nat} (same : SameOn f op op') (hw : f.width = 16) (a b : Nat) :
    op (a % 65536) (b % 65536) = op' (a % 65536) (b % 65536) ∧ op' (a % 65536) (b % 65536) < 65536 := by
  rw [SameOn, hw] at same
  exact same _ _ (Nat.mod_lt _ (by decide)) (Nat.mod_lt _ (by decide))

theorem SameOn.packed {f : FFmt} {op op' : Nat → Nat → Nat} (same : SameOn f op op') (hw : f.width = 16) (a b d : Word) :
    packed2 op a b = halves (fun x y _ => op' x y) a b d := by
  obtain ⟨low, fits⟩ := same.low hw a.toNat b.toNat
  have high := (same.low hw (a.toNat / 65536) (b.toNat / 65536)).1
  have top (w : Word) : w.toNat / 65536 % 65536 = w.toNat / 65536 := Nat.mod_eq_of_lt (by have := w.isLt; omega)
  rw [top, top] at high
  rw [packed2, low, high]
  exact packed2_eq_halves fits d

/-- The model's operation at a type code is the obligation's (Table 7-5). -/
theorem floatOp2_eq_atFloat {op op' : FFmt → Nat → Nat → Nat} (same : ∀ f ∈ [f32, f16, bf16], SameOn f (op f) (op' f))
    {t : BitVec 4} (low : 10 ≤ t.toNat) (high : t.toNat ≤ 14) (a b : Word) : floatOp2 op t a b = atFloat t op' a b := by
  have single := same f32 (by decide)
  have half := same f16 (by decide)
  have bfHalf := same bf16 (by decide)
  obtain code | code | code | code | code : t.toNat = 10 ∨ t.toNat = 11 ∨ t.toNat = 12 ∨ t.toNat = 13 ∨ t.toNat = 14 := by omega
  · have whole := (single a.toNat b.toNat a.isLt b.isLt).1
    have all (w : Word) : w.toNat % 2 ^ f32.width = w.toNat := Nat.mod_eq_of_lt w.isLt
    simp [floatOp2, atFloat, fmtOf, code, all, whole]
  · simp [floatOp2, atFloat, fmtOf, code, show f16.width = 16 from rfl, half.low rfl]
  · simp [floatOp2, atFloat, fmtOf, code, show bf16.width = 16 from rfl, bfHalf.low rfl]
  · simpa [floatOp2, atFloat, fmtOf, code] using half.packed rfl a b 0
  · simpa [floatOp2, atFloat, fmtOf, code] using bfHalf.packed rfl a b 0

/-! ## The instructions -/

/-- Words that put the same word in D of each lane do the same. -/
theorem lanewise_set_congr (s : State) (g : BitVec 3) (d : Nat) {w w' : Reads → Word} (same : ∀ r, w r = w' r) :
    (.next (s.lanewise g (fun r q => q.set d (w r))) : Result) = .next (s.lanewise g (fun r q => q.set d (w' r))) := by
  rw [show w = w' from funext same]

theorem exec_v3Float {p : (Hdr → FV3 → Instr) × (Word → Word → Word → Word)} (hp : p ∈ v3Float) (h : Hdr) (o : FV3) (s : State) :
    exec (p.1 h o) s = .next (s.lanewise o.g (setV3 o (fun r a b => p.2 a b (r.v o.d)))) := by
  simp only [v3Float, List.mem_cons, List.mem_nil_iff, or_false] at hp
  have half := pack_lt f16 .rn
  have bfHalf := pack_lt bf16 .rn
  obtain rfl | rfl | rfl | rfl | rfl | rfl | rfl | rfl | rfl | rfl | rfl | rfl := hp
  · rfl
  · rfl
  · rfl
  · rfl
  · exact lanewise_set_congr s o.g _ fun r => congrArg _ (fminBits_eq_fminOf (f := f32) (by decide) (r.v o.a).isLt (r.b o.b).isLt)
  · exact lanewise_set_congr s o.g _ fun r => congrArg _ (fmaxBits_eq_fmaxOf (f := f32) (by decide) (r.v o.a).isLt (r.b o.b).isLt)
  · exact lanewise_set_congr s o.g _ fun r => packed2_eq_halves (half _) (r.v o.d)
  · exact lanewise_set_congr s o.g _ fun r => packed2_eq_halves (half _) (r.v o.d)
  · exact lanewise_set_congr s o.g _ fun _ => packed3_eq_halves (half _)
  · exact lanewise_set_congr s o.g _ fun r => packed2_eq_halves (bfHalf _) (r.v o.d)
  · exact lanewise_set_congr s o.g _ fun r => packed2_eq_halves (bfHalf _) (r.v o.d)
  · exact lanewise_set_congr s o.g _ fun _ => packed3_eq_halves (bfHalf _)

theorem exec_vdFloat {p : (Hdr → FVD → Instr) × (FFmt → Mode → Nat → Nat → Nat)} (hp : p ∈ vdFloat) (h : Hdr) {o : FVD}
    (low : 10 ≤ o.t.toNat) (high : o.t.toNat ≤ 14) (s : State) :
    exec (p.1 h o) s = .next (s.lanewise o.g (fun r q =>
      q.set o.d.toNat (atFloat o.t (fun f => p.2 f (modeOf o.m)) (r.v o.d) (r.b o.b)))) := by
  simp only [vdFloat, List.mem_cons, List.mem_nil_iff, or_false] at hp
  have word {op op' : FFmt → Nat → Nat → Nat} (same : ∀ f ∈ [f32, f16, bf16], SameOn f (op f) (op' f)) :=
    lanewise_set_congr s o.g o.d.toNat fun r => floatOp2_eq_atFloat same low high (r.v o.d) (r.b o.b)
  obtain rfl | rfl | rfl | rfl | rfl | rfl := hp
  · exact word fun f _ => sameOn_self fun _ _ => pack_lt f _ _
  · exact word fun f _ => sameOn_self fun _ _ => pack_lt f _ _
  · exact word fun f _ => sameOn_self fun _ _ => pack_lt f _ _
  · exact word fun f hf => sameOn_fmin (infBits_pos f hf)
  · exact word fun f hf => sameOn_fmax (infBits_pos f hf)
  · exact word (op := fun f _ => frndBits f (modeOf o.m)) fun f _ => sameOn_self fun _ => frndBits_lt f _

/-- Settles O13: both kinds of words change the registers of each lane, and the two choices agree on every pattern of a layout. -/
theorem floatResults : Obligations.FloatResults := by
  refine ⟨fun p hp h o s iss t hi => ?_, fun p hp h o s iss t hi low high => ?_, fun f hf a b ha hb => ?_⟩
  · rw [exec_v3Float hp, lanewise_eq_regsBecome hi]
    rfl
  · rw [exec_vdFloat hp h low high, lanewise_eq_regsBecome hi]
  · exact ⟨fminBits_eq_fminOf (infBits_pos f hf) ha hb, fmaxBits_eq_fmaxOf (infBits_pos f hf) ha hb⟩

end Sys2Proof.Proofs
end
